-- ==== Sys2Proof/Word.lean ====
section
/-! DEFINITION. The word and byte types of the core, and the names of its three register files (10_state.md). -/

namespace Sys2Proof

/-- A byte of IN or LIT (R60, R63). -/
abbrev Byte := BitVec 8

/-- A 32-bit word of the command interface: the command word, A0, A1, RES, STATUS (R68). -/
abbrev Word := BitVec 32

/-- The six reverse bit readers `RR[0..5]` (R27). -/
inductive RSel where
  | r0 | r1 | r2 | r3 | r4 | r5
  deriving DecidableEq, Repr

/-- The four FSE tables `FT[t]`, t in LL = 0, OF = 1, ML = 2, HW = 3 (R28). -/
inductive TSel where
  | ll | off | ml | hw
  deriving DecidableEq, Repr

/-- The five FSE state registers `ST[s]`, s in LL = 0, OF = 1, ML = 2, W1 = 3, W2 = 4 (R30). -/
inductive SSel where
  | ll | off | ml | w1 | w2
  deriving DecidableEq, Repr

end Sys2Proof
end

