-- ==== Sys2Proof/Config.lean ====
section
/-! DEFINITION. The implementation parameters of 00_scope.md R6, and the FREE VALUES: constants without a body,
which no proof can evaluate. They stand for what the spec calls "unspecified" (R11: "a model treats it as a free
draw"; 93_implementation_defined.md part 1, treatment "any value"). -/

namespace Sys2Proof.Config

/-- IN_CAP, LIT_CAP and BLOCK_MAX_LIMIT of R6: 131072 bytes. -/
abbrev inCap : Nat := 131072

/-- LIT_CAP of R6. -/
abbrev litCap : Nat := 131072

/-- BLOCK_MAX_LIMIT of R6: the largest block-maximum size. -/
abbrev blockMaxLimit : Nat := 131072

/-- SEQ_CAP of R6: the entries of the sequence buffer. -/
abbrev seqCap : Nat := 98047

/-- HUF_MAXLEN_LIMIT of R6: the largest Huffman code length. -/
abbrev hufMaxLen : Nat := 11

/-- What a free value is drawn for: one name for each place of the machine that the spec leaves unspecified. -/
inductive Slot where
  /-- bits returned by the forward reader after its bytes were disturbed (R62) -/
  | fwdBits
  /-- bits returned by reverse reader `r` after its bytes were disturbed (R62) -/
  | revBits (r : RSel)
  | frBase | frLim | frPos
  | frValid
  | rrBase (r : RSel) | rrLen (r : RSel) | rrPos (r : RSel) | rrValid (r : RSel)
  | ftAl (t : TSel) | ftValid (t : TSel)
  /-- an entry at or above 2^AL, which "no rule reads" (R28); reached in no run (log 16) -/
  | ftSym (t : TSel) (u : Nat) | ftNb (t : TSel) (u : Nat) | ftBase (t : TSel) (u : Nat)
  | distTag | distAl | distNsym | distValid
  | st (x : SSel)
  | nw
  | htMaxLen | htValid
  /-- an entry at or above 2^MAXLEN; reached in no run (log 16) -/
  | htSym (u : Nat) | htNb (u : Nat)
  | litLen | nbSeq | inLen
  | rep (k : Nat)
  /-- a slot that the spread of R154 left without a symbol; reached in no run (log 16) -/
  | symAt
  /-- a code above the tables of R256 and R257; reached in no run (log 16) -/
  | llBase (c : Nat) | llBits (c : Nat) | mlBase (c : Nat) | mlBits (c : Nat)
  deriving DecidableEq, Repr

/-- The free value of slot `x` at draw number `d` (State.draws). NO BODY. -/
opaque freeNat : (d : Nat) → (x : Slot) → Nat

/-- The byte IN holds at address `a` after power-on number `era`, before the host writes it: "unspecified"
(R42, R340). NO BODY. -/
opaque powerOnByte : (era : Nat) → (a : Nat) → Byte

end Sys2Proof.Config
end

