-- ==== Sys2Proof/Syntax.lean ====
section
/-! DEFINITION. The instructions: one constructor for each of the 48 rows of spec/opcode_table.json.

The first 27 are the commands of R82 with the selectors, the bit count and the argument words they read (R80, R81).
The other 21 are the first-byte rows of the compressed-data format (R97: "These rows are syntax, not commands. Their
rule field names the rule that parses them"); such a constructor carries every field of the header its row begins
(R88 to R94). What it means to run one stands in log 14. -/

namespace Sys2Proof

/-- A command or a format element, decoded. Selectors are the raw 3-bit fields: R85 checks their range when the
command runs. -/
inductive Instr where
  -- control (46_control.md)
  | nop
  | frameReset (a0 : Word)
  | setInlen (a0 : Word)
  | decodeBlock (a0 : Word)
  -- bit readers (41_bitreader.md)
  | brFinit (a0 a1 : Word)
  | brFpeek (n : BitVec 5)
  | brFread (n : BitVec 5)
  | brFalign
  | brRinit (r : BitVec 3) (a0 a1 : Word)
  | brRpeek (r : BitVec 3) (n : BitVec 5)
  | brRread (r : BitVec 3) (n : BitVec 5)
  | brRconsume (r : BitVec 3) (n : BitVec 5)
  | brRstat (r : BitVec 3)
  -- FSE (42_fse.md)
  | fseNcount (t : BitVec 3)
  | fsePredef (t : BitVec 3)
  | fseBuild (t : BitVec 3)
  | fseRle (t : BitVec 3) (a0 : Word)
  | fseRepeat (t : BitVec 3)
  | fseInitst (x : BitVec 3) (r : BitVec 3)
  | fseSym (x : BitVec 3)
  | fseUpdst (x : BitVec 3) (r : BitVec 3)
  -- Huffman (43_huffman.md)
  | hufTree (a0 a1 : Word)
  | hufSym (r : BitVec 3)
  | hufStream (r : BitVec 3) (a0 a1 : Word)
  -- literals and sequences (44_literals.md, 45_sequences.md)
  | litDecode (a0 a1 : Word)
  | seqDecode (a0 a1 : Word)
  | seqResolve (a0 a1 : Word)
  -- literals-section headers (R89, R90)
  | lithdrRaw1b (size : BitVec 5)
  | lithdrRaw2b (size : BitVec 12)
  | lithdrRaw3b (size : BitVec 20)
  | lithdrRle1b (size : BitVec 5)
  | lithdrRle2b (size : BitVec 12)
  | lithdrRle3b (size : BitVec 20)
  | lithdrComp1s3b (regen comp : BitVec 10)
  | lithdrComp4s3b (regen comp : BitVec 10)
  | lithdrComp4s4b (regen comp : BitVec 14)
  | lithdrComp4s5b (regen comp : BitVec 18)
  | lithdrTreeless1s3b (regen comp : BitVec 10)
  | lithdrTreeless4s3b (regen comp : BitVec 10)
  | lithdrTreeless4s4b (regen comp : BitVec 14)
  | lithdrTreeless4s5b (regen comp : BitVec 18)
  -- Huffman tree header byte (R92): HB = x below 128, or HB = 128 + x
  | hufhdrFse (x : BitVec 7)
  | hufhdrRaw (x : BitVec 7)
  -- Number_of_Sequences (R94)
  | seqcntZero
  | seqcnt1b (x : BitVec 7)
  | seqcnt2b (x : BitVec 7) (b1 : Byte)
  | seqcnt3b (b1 b2 : Byte)
  -- Symbol_Compression_Modes (R94)
  | modes (ll off ml : BitVec 2)
  deriving DecidableEq, Repr

/-- The formats of opcode_table.json that hold first-byte rows (R97). -/
inductive Format where
  | lithdr | hufhdr | seqcnt | modes
  deriving DecidableEq, Repr

/-- A command as the host presents it: "The host presents all three as one unit" (R80). -/
structure Command where
  word : Word
  a0 : Word
  a1 : Word
  deriving DecidableEq, Repr

/-- What the decoder reads: a command, or the bytes of a format element. -/
inductive Code where
  | command (c : Command)
  | element (f : Format) (bytes : List Byte)
  deriving DecidableEq, Repr

/-- Why a code is rejected. -/
inductive Reject where
  /-- the OP of a command is not in R82 (R83) -/
  | badOp
  /-- bits [31:19], or a field the command does not use, are not 0 (R84) -/
  | badField
  /-- reserved bits [1:0] of a modes byte are not 0 (R94) -/
  | reservedModes
  /-- the bytes end before the element does -/
  | short
  deriving DecidableEq, Repr

end Sys2Proof
end

