-- ==== Sys2Proof/WellFormed.lean ====
section
/-! DEFINITION. Which instructions are well formed: selectors in the ranges of R85 and R86, and counts in the range
of their form (R94). A command whose selector is out of range is decoded and then raises ARG_RANGE (R85, R97). -/

namespace Sys2Proof

/-- A reader selector R is 0..5 (R86). -/
def readerOk (r : BitVec 3) : Bool := r.toNat ≤ 5

/-- A table selector T is 0..3 (R86). -/
def tableOk (t : BitVec 3) : Bool := t.toNat ≤ 3

/-- A state selector S is 0..4 (R86). -/
def stateOk (x : BitVec 3) : Bool := x.toNat ≤ 4

/-- The instruction's selectors and counts are in range. -/
def Instr.WellFormed : Instr → Bool
  | .brRinit r _ _ => readerOk r
  | .brRpeek r _ => readerOk r
  | .brRread r _ => readerOk r
  | .brRconsume r _ => readerOk r
  | .brRstat r => readerOk r
  | .fseNcount t => tableOk t
  | .fsePredef t => t.toNat ≤ 2
  | .fseBuild t => tableOk t
  | .fseRle t _ => tableOk t
  | .fseRepeat t => tableOk t
  | .fseInitst x r => stateOk x && readerOk r
  | .fseSym x => stateOk x
  | .fseUpdst x r => stateOk x && readerOk r
  | .hufSym r => readerOk r
  | .hufStream r _ _ => readerOk r
  | .seqcnt1b x => x != 0
  | .seqcnt2b x _ => x != 127
  | .nop | .frameReset _ | .setInlen _ | .decodeBlock _ | .brFinit _ _ | .brFpeek _ | .brFread _ | .brFalign
  | .hufTree _ _ | .litDecode _ _ | .seqDecode _ _ | .seqResolve _ _
  | .lithdrRaw1b _ | .lithdrRaw2b _ | .lithdrRaw3b _ | .lithdrRle1b _ | .lithdrRle2b _ | .lithdrRle3b _
  | .lithdrComp1s3b _ _ | .lithdrComp4s3b _ _ | .lithdrComp4s4b _ _ | .lithdrComp4s5b _ _
  | .lithdrTreeless1s3b _ _ | .lithdrTreeless4s3b _ _ | .lithdrTreeless4s4b _ _ | .lithdrTreeless4s5b _ _
  | .hufhdrFse _ | .hufhdrRaw _ | .seqcntZero | .seqcnt3b _ _ | .modes _ _ _ => true

end Sys2Proof
end

