-- ==== Sys2Proof/Decode.lean ====
section
/-! DEFINITION. The decoder, total on any command word and any bytes, and the encoder after it, both written from the
tables of 30_encoding.md: R80, R82 to R84 for commands, R88 to R94 for the format's elements. -/

namespace Sys2Proof

/-! ## Commands (R80, R82) -/

/-- Field OP, bits 7:0 (R80). -/
def fieldOp (w : Word) : BitVec 8 := w.extractLsb' 0 8
/-- Field R, bits 10:8 (R80). -/
def fieldR (w : Word) : BitVec 3 := w.extractLsb' 8 3
/-- Field T / S, bits 13:11 (R80). -/
def fieldT (w : Word) : BitVec 3 := w.extractLsb' 11 3
/-- Field N, bits 18:14 (R80). -/
def fieldN (w : Word) : BitVec 5 := w.extractLsb' 14 5
/-- The reserved bits 31:19 (R80). -/
def fieldReserved (w : Word) : BitVec 13 := w.extractLsb' 19 13

/-- A command word from its fields: `OP | R << 8 | T << 11 | N << 14`, reserved bits 0 (R80). -/
def packWord (op : BitVec 8) (r t : BitVec 3) (n : BitVec 5) : Word :=
  BitVec.ofNat 32 (op.toNat + 2 ^ 8 * r.toNat + 2 ^ 11 * t.toNat + 2 ^ 14 * n.toNat)

/-! The OP codes of R82. -/

abbrev opcNop : BitVec 8 := 0x00
abbrev opcFrameReset : BitVec 8 := 0x01
abbrev opcSetInlen : BitVec 8 := 0x02
abbrev opcDecodeBlock : BitVec 8 := 0x03
abbrev opcBrFinit : BitVec 8 := 0x10
abbrev opcBrFpeek : BitVec 8 := 0x11
abbrev opcBrFread : BitVec 8 := 0x12
abbrev opcBrFalign : BitVec 8 := 0x13
abbrev opcBrRinit : BitVec 8 := 0x18
abbrev opcBrRpeek : BitVec 8 := 0x19
abbrev opcBrRread : BitVec 8 := 0x1A
abbrev opcBrRconsume : BitVec 8 := 0x1B
abbrev opcBrRstat : BitVec 8 := 0x1C
abbrev opcFseNcount : BitVec 8 := 0x20
abbrev opcFsePredef : BitVec 8 := 0x21
abbrev opcFseBuild : BitVec 8 := 0x22
abbrev opcFseRle : BitVec 8 := 0x23
abbrev opcFseRepeat : BitVec 8 := 0x24
abbrev opcFseInitst : BitVec 8 := 0x28
abbrev opcFseSym : BitVec 8 := 0x29
abbrev opcFseUpdst : BitVec 8 := 0x2A
abbrev opcHufTree : BitVec 8 := 0x30
abbrev opcHufSym : BitVec 8 := 0x31
abbrev opcHufStream : BitVec 8 := 0x32
abbrev opcLitDecode : BitVec 8 := 0x40
abbrev opcSeqDecode : BitVec 8 := 0x50
abbrev opcSeqResolve : BitVec 8 := 0x51

/-- One row of the opcode map R82: the OP, which of R, T/S and N the command uses, and the command. -/
structure CommandRow where
  op : BitVec 8
  usesR : Bool
  usesT : Bool
  usesN : Bool
  make : (r t : BitVec 3) → (n : BitVec 5) → (a0 a1 : Word) → Instr

/-- The rows of R82 for control and the bit readers. -/
def commandRowsLow : List CommandRow :=
  [ ⟨opcNop, false, false, false, fun _ _ _ _ _ => .nop⟩,
    ⟨opcFrameReset, false, false, false, fun _ _ _ a0 _ => .frameReset a0⟩,
    ⟨opcSetInlen, false, false, false, fun _ _ _ a0 _ => .setInlen a0⟩,
    ⟨opcDecodeBlock, false, false, false, fun _ _ _ a0 _ => .decodeBlock a0⟩,
    ⟨opcBrFinit, false, false, false, fun _ _ _ a0 a1 => .brFinit a0 a1⟩,
    ⟨opcBrFpeek, false, false, true, fun _ _ n _ _ => .brFpeek n⟩,
    ⟨opcBrFread, false, false, true, fun _ _ n _ _ => .brFread n⟩,
    ⟨opcBrFalign, false, false, false, fun _ _ _ _ _ => .brFalign⟩,
    ⟨opcBrRinit, true, false, false, fun r _ _ a0 a1 => .brRinit r a0 a1⟩,
    ⟨opcBrRpeek, true, false, true, fun r _ n _ _ => .brRpeek r n⟩,
    ⟨opcBrRread, true, false, true, fun r _ n _ _ => .brRread r n⟩,
    ⟨opcBrRconsume, true, false, true, fun r _ n _ _ => .brRconsume r n⟩,
    ⟨opcBrRstat, true, false, false, fun r _ _ _ _ => .brRstat r⟩ ]

/-- The rows of R82 for FSE, Huffman, literals and sequences. -/
def commandRowsHigh : List CommandRow :=
  [ ⟨opcFseNcount, false, true, false, fun _ t _ _ _ => .fseNcount t⟩,
    ⟨opcFsePredef, false, true, false, fun _ t _ _ _ => .fsePredef t⟩,
    ⟨opcFseBuild, false, true, false, fun _ t _ _ _ => .fseBuild t⟩,
    ⟨opcFseRle, false, true, false, fun _ t _ a0 _ => .fseRle t a0⟩,
    ⟨opcFseRepeat, false, true, false, fun _ t _ _ _ => .fseRepeat t⟩,
    ⟨opcFseInitst, true, true, false, fun r t _ _ _ => .fseInitst t r⟩,
    ⟨opcFseSym, false, true, false, fun _ t _ _ _ => .fseSym t⟩,
    ⟨opcFseUpdst, true, true, false, fun r t _ _ _ => .fseUpdst t r⟩,
    ⟨opcHufTree, false, false, false, fun _ _ _ a0 a1 => .hufTree a0 a1⟩,
    ⟨opcHufSym, true, false, false, fun r _ _ _ _ => .hufSym r⟩,
    ⟨opcHufStream, true, false, false, fun r _ _ a0 a1 => .hufStream r a0 a1⟩,
    ⟨opcLitDecode, false, false, false, fun _ _ _ a0 a1 => .litDecode a0 a1⟩,
    ⟨opcSeqDecode, false, false, false, fun _ _ _ a0 a1 => .seqDecode a0 a1⟩,
    ⟨opcSeqResolve, false, false, false, fun _ _ _ a0 a1 => .seqResolve a0 a1⟩ ]

/-- The opcode map R82. -/
def commandRows : List CommandRow := commandRowsLow ++ commandRowsHigh

/-- The row's unused fields and the reserved bits of the word are 0 (R84). -/
def fieldsOk (row : CommandRow) (w : Word) : Bool :=
  fieldReserved w == 0 && (row.usesR || fieldR w == 0) && (row.usesT || fieldT w == 0) && (row.usesN || fieldN w == 0)

/-- Decodes a command: the opcode check of R83, then the field check of R84, in the order of R85. -/
def decodeCommand (c : Command) : Except Reject Instr :=
  match commandRows.find? (fun row => row.op == fieldOp c.word) with
  | none => .error .badOp
  | some row =>
    if fieldsOk row c.word then .ok (row.make (fieldR c.word) (fieldT c.word) (fieldN c.word) c.a0 c.a1)
    else .error .badField

/-! ## The compressed-data format (R88 to R94) -/

/-- The little-endian value of bytes, the first the least significant (R66). -/
def leNat : List Byte → Nat
  | [] => 0
  | b :: bs => b.toNat + 256 * leNat bs

/-- The `n` bytes of a number, the least significant first (R66). -/
def leBytes : (n : Nat) → (x : Nat) → List Byte
  | 0, _ => []
  | n + 1, x => BitVec.ofNat 8 x :: leBytes n (x / 256)

/-- Literals_Block_Type (R88). -/
inductive LitType where
  | raw | rle | compressed | treeless
  deriving DecidableEq, Repr

/-- A literals-section header once read: `size` is its own length in bytes (HS), `streams` 1 or 4; `comp` is 0 for
Raw and RLE, which have no Compressed_Size (R89, R90). -/
structure LitHeader where
  type : LitType
  size : Nat
  streams : Nat
  regen : Nat
  comp : Nat
  deriving DecidableEq, Repr

/-- Bits 1:0 of the header's byte 0 (R88). -/
def litTypeOf (b0 : Byte) : LitType :=
  match b0.toNat % 4 with
  | 0 => .raw
  | 1 => .rle
  | 2 => .compressed
  | _ => .treeless

/-- Size_Format, bits 3:2 of the header's byte 0 (R88). -/
def sizeFormat (b0 : Byte) : Nat := b0.toNat / 4 % 4

/-- The header's length in bytes (R89, R90). -/
def litHeaderSize (b0 : Byte) : Nat :=
  match litTypeOf b0 with
  | .raw | .rle => if sizeFormat b0 % 2 = 0 then 1 else if sizeFormat b0 = 1 then 2 else 3
  | .compressed | .treeless => if sizeFormat b0 ≤ 1 then 3 else if sizeFormat b0 = 2 then 4 else 5

/-- The width FB of the size fields of a Compressed or Treeless header of `hs` bytes (R90). -/
def sizeFieldBits (hs : Nat) : Nat := if hs = 3 then 10 else if hs = 4 then 14 else 18

/-- Reads a literals header from its bytes, of which there are at least `litHeaderSize` (R89, R90). -/
def litHeader (bytes : List Byte) : LitHeader :=
  let b0 := bytes.headD 0
  let hs := litHeaderSize b0
  let h := leNat (bytes.take hs)
  match litTypeOf b0 with
  | .raw => ⟨.raw, hs, 1, if hs = 1 then h / 8 else h / 16, 0⟩
  | .rle => ⟨.rle, hs, 1, if hs = 1 then h / 8 else h / 16, 0⟩
  | .compressed =>
    ⟨.compressed, hs, if sizeFormat b0 = 0 then 1 else 4,
      h / 16 % 2 ^ sizeFieldBits hs, h / 2 ^ (4 + sizeFieldBits hs) % 2 ^ sizeFieldBits hs⟩
  | .treeless =>
    ⟨.treeless, hs, if sizeFormat b0 = 0 then 1 else 4,
      h / 16 % 2 ^ sizeFieldBits hs, h / 2 ^ (4 + sizeFieldBits hs) % 2 ^ sizeFieldBits hs⟩

/-- Number_of_Sequences once read: its own length in bytes, and the count (R94). -/
structure SeqCount where
  size : Nat
  count : Nat
  deriving DecidableEq, Repr

/-- The bytes Number_of_Sequences takes (R94). -/
def seqCountSize (b0 : Byte) : Nat := if b0.toNat < 128 then 1 else if b0.toNat < 255 then 2 else 3

/-- Reads Number_of_Sequences from its bytes, by the formulas of R94, R250 and R263. In the 2-byte form the byte at the
lower address is the more significant, where R66 calls the count little-endian: DESIGN CHOICE (log 27). -/
def seqCount (bytes : List Byte) : SeqCount :=
  let b0 := (bytes.headD 0).toNat
  let b1 := (bytes.getD 1 0).toNat
  let b2 := (bytes.getD 2 0).toNat
  if b0 < 128 then ⟨1, b0⟩
  else if b0 < 255 then ⟨2, (b0 - 128) * 256 + b1⟩
  else ⟨3, b1 + b2 * 256 + 0x7F00⟩

/-- Field Literals_Lengths_Mode, bits 7:6 of the modes byte (R94). -/
def modeLl (m : Byte) : BitVec 2 := m.extractLsb' 6 2
/-- Field Offsets_Mode, bits 5:4 (R94). -/
def modeOff (m : Byte) : BitVec 2 := m.extractLsb' 4 2
/-- Field Match_Lengths_Mode, bits 3:2 (R94). -/
def modeMl (m : Byte) : BitVec 2 := m.extractLsb' 2 2
/-- The reserved bits 1:0 of the modes byte (R94). -/
def modeReserved (m : Byte) : BitVec 2 := m.extractLsb' 0 2

/-- The modes byte of three modes, reserved bits 0 (R94). -/
def packModes (ll off ml : BitVec 2) : Byte := BitVec.ofNat 8 (64 * ll.toNat + 16 * off.toNat + 4 * ml.toNat)

/-- The instruction of a literals header (R89, R90, the LITHDR rows of the table). -/
def instrOfLitHeader (h : LitHeader) : Instr :=
  match h.type with
  | .raw =>
    if h.size = 1 then .lithdrRaw1b (BitVec.ofNat 5 h.regen)
    else if h.size = 2 then .lithdrRaw2b (BitVec.ofNat 12 h.regen)
    else .lithdrRaw3b (BitVec.ofNat 20 h.regen)
  | .rle =>
    if h.size = 1 then .lithdrRle1b (BitVec.ofNat 5 h.regen)
    else if h.size = 2 then .lithdrRle2b (BitVec.ofNat 12 h.regen)
    else .lithdrRle3b (BitVec.ofNat 20 h.regen)
  | .compressed =>
    if h.streams = 1 then .lithdrComp1s3b (BitVec.ofNat 10 h.regen) (BitVec.ofNat 10 h.comp)
    else if h.size = 3 then .lithdrComp4s3b (BitVec.ofNat 10 h.regen) (BitVec.ofNat 10 h.comp)
    else if h.size = 4 then .lithdrComp4s4b (BitVec.ofNat 14 h.regen) (BitVec.ofNat 14 h.comp)
    else .lithdrComp4s5b (BitVec.ofNat 18 h.regen) (BitVec.ofNat 18 h.comp)
  | .treeless =>
    if h.streams = 1 then .lithdrTreeless1s3b (BitVec.ofNat 10 h.regen) (BitVec.ofNat 10 h.comp)
    else if h.size = 3 then .lithdrTreeless4s3b (BitVec.ofNat 10 h.regen) (BitVec.ofNat 10 h.comp)
    else if h.size = 4 then .lithdrTreeless4s4b (BitVec.ofNat 14 h.regen) (BitVec.ofNat 14 h.comp)
    else .lithdrTreeless4s5b (BitVec.ofNat 18 h.regen) (BitVec.ofNat 18 h.comp)

/-- Decodes the element of a format at the start of bytes (R88 to R94). -/
def decodeElement (f : Format) (bytes : List Byte) : Except Reject Instr :=
  match bytes with
  | [] => .error .short
  | b0 :: rest =>
    match f with
    | .lithdr => if bytes.length < litHeaderSize b0 then .error .short else .ok (instrOfLitHeader (litHeader bytes))
    | .hufhdr => if b0.toNat < 128 then .ok (.hufhdrFse (b0.extractLsb' 0 7)) else .ok (.hufhdrRaw (b0.extractLsb' 0 7))
    | .seqcnt =>
      if bytes.length < seqCountSize b0 then .error .short
      else if b0 = 0 then .ok .seqcntZero
      else if b0.toNat < 128 then .ok (.seqcnt1b (b0.extractLsb' 0 7))
      else if b0.toNat < 255 then .ok (.seqcnt2b (b0.extractLsb' 0 7) (rest.getD 0 0))
      else .ok (.seqcnt3b (rest.getD 0 0) (rest.getD 1 0))
    | .modes =>
      if modeReserved b0 = 0 then .ok (.modes (modeLl b0) (modeOff b0) (modeMl b0)) else .error .reservedModes

/-- The decoder. -/
def decode : Code → Except Reject Instr
  | .command c => decodeCommand c
  | .element f bytes => decodeElement f bytes

/-! ## The encoder -/

/-- The words of a command; an argument word the command does not read is 0 (R81: it "may hold any value"). -/
def commandOf (op : BitVec 8) (r t : BitVec 3) (n : BitVec 5) (a0 a1 : Word) : Code := .command ⟨packWord op r t n, a0, a1⟩

/-- The bytes of a Raw or RLE header of `size` bytes (R89). -/
def simpleHeader (type sf size regen : Nat) : Code :=
  .element .lithdr (leBytes size (if size = 1 then type + 8 * regen else type + 4 * sf + 16 * regen))

/-- The bytes of a Compressed or Treeless header of `size` bytes with fields of `bits` bits (R90). -/
def streamHeader (type sf size bits regen comp : Nat) : Code :=
  .element .lithdr (leBytes size (type + 4 * sf + 16 * regen + 2 ^ (4 + bits) * comp))

/-- The encoder: the code of a well-formed instruction, from the tables of R82 and R88 to R94. -/
def encode : Instr → Code
  | .nop => commandOf opcNop 0 0 0 0 0
  | .frameReset a0 => commandOf opcFrameReset 0 0 0 a0 0
  | .setInlen a0 => commandOf opcSetInlen 0 0 0 a0 0
  | .decodeBlock a0 => commandOf opcDecodeBlock 0 0 0 a0 0
  | .brFinit a0 a1 => commandOf opcBrFinit 0 0 0 a0 a1
  | .brFpeek n => commandOf opcBrFpeek 0 0 n 0 0
  | .brFread n => commandOf opcBrFread 0 0 n 0 0
  | .brFalign => commandOf opcBrFalign 0 0 0 0 0
  | .brRinit r a0 a1 => commandOf opcBrRinit r 0 0 a0 a1
  | .brRpeek r n => commandOf opcBrRpeek r 0 n 0 0
  | .brRread r n => commandOf opcBrRread r 0 n 0 0
  | .brRconsume r n => commandOf opcBrRconsume r 0 n 0 0
  | .brRstat r => commandOf opcBrRstat r 0 0 0 0
  | .fseNcount t => commandOf opcFseNcount 0 t 0 0 0
  | .fsePredef t => commandOf opcFsePredef 0 t 0 0 0
  | .fseBuild t => commandOf opcFseBuild 0 t 0 0 0
  | .fseRle t a0 => commandOf opcFseRle 0 t 0 a0 0
  | .fseRepeat t => commandOf opcFseRepeat 0 t 0 0 0
  | .fseInitst x r => commandOf opcFseInitst r x 0 0 0
  | .fseSym x => commandOf opcFseSym 0 x 0 0 0
  | .fseUpdst x r => commandOf opcFseUpdst r x 0 0 0
  | .hufTree a0 a1 => commandOf opcHufTree 0 0 0 a0 a1
  | .hufSym r => commandOf opcHufSym r 0 0 0 0
  | .hufStream r a0 a1 => commandOf opcHufStream r 0 0 a0 a1
  | .litDecode a0 a1 => commandOf opcLitDecode 0 0 0 a0 a1
  | .seqDecode a0 a1 => commandOf opcSeqDecode 0 0 0 a0 a1
  | .seqResolve a0 a1 => commandOf opcSeqResolve 0 0 0 a0 a1
  | .lithdrRaw1b size => simpleHeader 0 0 1 size.toNat
  | .lithdrRaw2b size => simpleHeader 0 1 2 size.toNat
  | .lithdrRaw3b size => simpleHeader 0 3 3 size.toNat
  | .lithdrRle1b size => simpleHeader 1 0 1 size.toNat
  | .lithdrRle2b size => simpleHeader 1 1 2 size.toNat
  | .lithdrRle3b size => simpleHeader 1 3 3 size.toNat
  | .lithdrComp1s3b regen comp => streamHeader 2 0 3 10 regen.toNat comp.toNat
  | .lithdrComp4s3b regen comp => streamHeader 2 1 3 10 regen.toNat comp.toNat
  | .lithdrComp4s4b regen comp => streamHeader 2 2 4 14 regen.toNat comp.toNat
  | .lithdrComp4s5b regen comp => streamHeader 2 3 5 18 regen.toNat comp.toNat
  | .lithdrTreeless1s3b regen comp => streamHeader 3 0 3 10 regen.toNat comp.toNat
  | .lithdrTreeless4s3b regen comp => streamHeader 3 1 3 10 regen.toNat comp.toNat
  | .lithdrTreeless4s4b regen comp => streamHeader 3 2 4 14 regen.toNat comp.toNat
  | .lithdrTreeless4s5b regen comp => streamHeader 3 3 5 18 regen.toNat comp.toNat
  | .hufhdrFse x => .element .hufhdr [BitVec.ofNat 8 x.toNat]
  | .hufhdrRaw x => .element .hufhdr [BitVec.ofNat 8 (128 + x.toNat)]
  | .seqcntZero => .element .seqcnt [0]
  | .seqcnt1b x => .element .seqcnt [BitVec.ofNat 8 x.toNat]
  | .seqcnt2b x b1 => .element .seqcnt [BitVec.ofNat 8 (128 + x.toNat), b1]
  | .seqcnt3b b1 b2 => .element .seqcnt [0xFF, b1, b2]
  | .modes ll off ml => .element .modes [packModes ll off ml]

/-! ## The table's words (the host's question: which instruction does a word of opcode_table.json decode to) -/

/-- The format a first byte is read in when nothing but the byte is known: "the row with more mask bits wins" (R97),
over all 21 first-byte rows. SEQCNT_ZERO (00) and SEQCNT_3B (FF) have 8 mask bits; every other byte matches a LITHDR
row of 3 or 4 mask bits, more than any other row it matches (log 15). -/
def formatOfByte (b : Byte) : Format := if b = 0x00 ∨ b = 0xFF then .seqcnt else .lithdr

/-- The command a wide table number stands for: bits 31:0 the command word, then A0, then A1. -/
def commandOfNat (w : Nat) : Command :=
  ⟨BitVec.ofNat 32 w, BitVec.ofNat 32 (w / 2 ^ 32), BitVec.ofNat 32 (w / 2 ^ 64)⟩

/-- The instruction the decoder reads from a word numbered as the table numbers it: an 8-bit row is a format element
whose later header bytes are 0, a wider row is a command (log 15). -/
def decodeTableWord (nbits w : Nat) : Option Instr :=
  let code : Code :=
    if nbits ≤ 8 then .element (formatOfByte (BitVec.ofNat 8 w)) (leBytes 5 w) else .command (commandOfNat w)
  match decode code with
  | .ok i => some i
  | .error _ => none

/-! ## Assembler text (R87) -/

/-- A reader operand, `r0`..`r5` (R87). -/
def asmReader (r : BitVec 3) : String := "r" ++ toString r.toNat

/-- A table operand by its name (R87). -/
def asmTable (t : BitVec 3) : String :=
  match t.toNat with
  | 0 => "LL"
  | 1 => "OF"
  | 2 => "ML"
  | 3 => "HW"
  | k => "T" ++ toString k

/-- A state operand by its name (R87). -/
def asmState (x : BitVec 3) : String :=
  match x.toNat with
  | 0 => "LL"
  | 1 => "OF"
  | 2 => "ML"
  | 3 => "W1"
  | 4 => "W2"
  | k => "S" ++ toString k

/-- A mnemonic followed by its operands, "separated by commas" (R87). -/
def asmLine (mnemonic : String) (operands : List String) : String :=
  match operands with
  | [] => mnemonic
  | ops => mnemonic ++ " " ++ String.intercalate ", " ops

/-- A number operand, in decimal (R87). -/
def asmNat {k : Nat} (x : BitVec k) : String := toString x.toNat

/-- A command as text, its operands in the order of R87: S or T, the reader, N, A0, A1; a format element as its row's
mnemonic and its fields (R87 gives elements no text). -/
def asmText : Instr → String
  | .nop => asmLine "NOP" []
  | .frameReset a0 => asmLine "FRAME_RESET" [asmNat a0]
  | .setInlen a0 => asmLine "SET_INLEN" [asmNat a0]
  | .decodeBlock a0 => asmLine "DECODE_BLOCK" [asmNat a0]
  | .brFinit a0 a1 => asmLine "BR_FINIT" [asmNat a0, asmNat a1]
  | .brFpeek n => asmLine "BR_FPEEK" [asmNat n]
  | .brFread n => asmLine "BR_FREAD" [asmNat n]
  | .brFalign => asmLine "BR_FALIGN" []
  | .brRinit r a0 a1 => asmLine "BR_RINIT" [asmReader r, asmNat a0, asmNat a1]
  | .brRpeek r n => asmLine "BR_RPEEK" [asmReader r, asmNat n]
  | .brRread r n => asmLine "BR_RREAD" [asmReader r, asmNat n]
  | .brRconsume r n => asmLine "BR_RCONSUME" [asmReader r, asmNat n]
  | .brRstat r => asmLine "BR_RSTAT" [asmReader r]
  | .fseNcount t => asmLine "FSE_NCOUNT" [asmTable t]
  | .fsePredef t => asmLine "FSE_PREDEF" [asmTable t]
  | .fseBuild t => asmLine "FSE_BUILD" [asmTable t]
  | .fseRle t a0 => asmLine "FSE_RLE" [asmTable t, asmNat a0]
  | .fseRepeat t => asmLine "FSE_REPEAT" [asmTable t]
  | .fseInitst x r => asmLine "FSE_INITST" [asmState x, asmReader r]
  | .fseSym x => asmLine "FSE_SYM" [asmState x]
  | .fseUpdst x r => asmLine "FSE_UPDST" [asmState x, asmReader r]
  | .hufTree a0 a1 => asmLine "HUF_TREE" [asmNat a0, asmNat a1]
  | .hufSym r => asmLine "HUF_SYM" [asmReader r]
  | .hufStream r a0 a1 => asmLine "HUF_STREAM" [asmReader r, asmNat a0, asmNat a1]
  | .litDecode a0 a1 => asmLine "LIT_DECODE" [asmNat a0, asmNat a1]
  | .seqDecode a0 a1 => asmLine "SEQ_DECODE" [asmNat a0, asmNat a1]
  | .seqResolve a0 a1 => asmLine "SEQ_RESOLVE" [asmNat a0, asmNat a1]
  | .lithdrRaw1b size => asmLine "LITHDR_RAW_1B" [asmNat size]
  | .lithdrRaw2b size => asmLine "LITHDR_RAW_2B" [asmNat size]
  | .lithdrRaw3b size => asmLine "LITHDR_RAW_3B" [asmNat size]
  | .lithdrRle1b size => asmLine "LITHDR_RLE_1B" [asmNat size]
  | .lithdrRle2b size => asmLine "LITHDR_RLE_2B" [asmNat size]
  | .lithdrRle3b size => asmLine "LITHDR_RLE_3B" [asmNat size]
  | .lithdrComp1s3b regen comp => asmLine "LITHDR_COMP_1S_3B" [asmNat regen, asmNat comp]
  | .lithdrComp4s3b regen comp => asmLine "LITHDR_COMP_4S_3B" [asmNat regen, asmNat comp]
  | .lithdrComp4s4b regen comp => asmLine "LITHDR_COMP_4S_4B" [asmNat regen, asmNat comp]
  | .lithdrComp4s5b regen comp => asmLine "LITHDR_COMP_4S_5B" [asmNat regen, asmNat comp]
  | .lithdrTreeless1s3b regen comp => asmLine "LITHDR_TREELESS_1S_3B" [asmNat regen, asmNat comp]
  | .lithdrTreeless4s3b regen comp => asmLine "LITHDR_TREELESS_4S_3B" [asmNat regen, asmNat comp]
  | .lithdrTreeless4s4b regen comp => asmLine "LITHDR_TREELESS_4S_4B" [asmNat regen, asmNat comp]
  | .lithdrTreeless4s5b regen comp => asmLine "LITHDR_TREELESS_4S_5B" [asmNat regen, asmNat comp]
  | .hufhdrFse x => asmLine "HUFHDR_FSE" [asmNat x]
  | .hufhdrRaw x => asmLine "HUFHDR_RAW" [asmNat x]
  | .seqcntZero => asmLine "SEQCNT_ZERO" []
  | .seqcnt1b x => asmLine "SEQCNT_1B" [asmNat x]
  | .seqcnt2b x b1 => asmLine "SEQCNT_2B" [asmNat x, asmNat b1]
  | .seqcnt3b b1 b2 => asmLine "SEQCNT_3B" [asmNat b1, asmNat b2]
  | .modes ll off ml => asmLine "MODES" [asmNat ll, asmNat off, asmNat ml]

end Sys2Proof
end

