-- ==== Sys2Proof/Machine/State.lean ====
section
/-! DEFINITION. The core's architectural state as plain data: every element of 10_state.md R20 with its width, the
host's actions that wait at the interface, and the model's own bookkeeping for free values. -/

namespace Sys2Proof.Machine

/-- A byte memory: (address, byte) pairs, addresses strictly rising. An address that is not listed holds NO VALUE
here: its content is unspecified (R42). -/
abbrev Memory := List Host.Cell

/-- The forward bit reader FR (R26). -/
structure FwdReader where
  valid : Bool
  base : BitVec 18
  lim : BitVec 18
  pos : BitVec 21
  deriving DecidableEq, Repr

/-- A reverse bit reader RR[r]; `pos` is a signed 32-bit count (R27). -/
structure RevReader where
  valid : Bool
  base : BitVec 18
  len : BitVec 18
  pos : BitVec 32
  deriving DecidableEq, Repr

/-- The reverse readers RR[0..5] (R27). -/
structure RevBank where
  r0 : RevReader
  r1 : RevReader
  r2 : RevReader
  r3 : RevReader
  r4 : RevReader
  r5 : RevReader
  deriving DecidableEq, Repr

/-- One mark for each reverse reader: the model's own (log 10). -/
structure RevMarks where
  r0 : Bool
  r1 : Bool
  r2 : Bool
  r3 : Bool
  r4 : Bool
  r5 : Bool
  deriving DecidableEq, Repr

/-- An entry of an FSE decode table (R28). -/
structure FseEntry where
  sym : Byte
  nb : BitVec 4
  base : BitVec 9
  deriving DecidableEq, Repr

/-- An FSE decode table FT[t]: `entries` lists ENTRY[0..2^AL-1]; the entries above are unspecified and not held
(R28). -/
structure FseTable where
  valid : Bool
  al : BitVec 4
  entries : List FseEntry
  deriving DecidableEq, Repr

/-- The tables FT[LL], FT[OF], FT[ML], FT[HW] (R28). -/
structure FseBank where
  ll : FseTable
  off : FseTable
  ml : FseTable
  hw : FseTable
  deriving DecidableEq, Repr

/-- The distribution staging register DIST: `counts` lists C[0..NSYM-1], signed 11-bit counts (R29). -/
structure Dist where
  valid : Bool
  tag : TSel
  al : BitVec 4
  nsym : BitVec 9
  counts : List (BitVec 11)
  deriving DecidableEq, Repr

/-- The FSE state registers ST[0..4] (R30). -/
structure StBank where
  ll : BitVec 9
  off : BitVec 9
  ml : BitVec 9
  w1 : BitVec 9
  w2 : BitVec 9
  deriving DecidableEq, Repr

/-- An entry of the Huffman decode table (R32). -/
structure HufEntry where
  sym : Byte
  nb : BitVec 4
  deriving DecidableEq, Repr

/-- The Huffman decode table HT: `entries` lists ENTRY[0..2^MAXLEN-1] (R32). -/
structure HufTable where
  valid : Bool
  maxLen : BitVec 4
  entries : List HufEntry
  deriving DecidableEq, Repr

/-- One entry of SEQ: literal length, resolved offset, match length (R34). -/
structure SeqEntry where
  ll : Word
  off : Word
  ml : Word
  deriving DecidableEq, Repr

/-- The repeat-offset cache REP[0..2], most recent first (R35). -/
structure RepCache where
  rep0 : Word
  rep1 : Word
  rep2 : Word
  deriving DecidableEq, Repr

/-- What the outside world does to the core: the host's actions of R65, and power-on (R340). -/
inductive HostAction where
  /-- `HostWriteIN(a, b)` (R60) -/
  | writeIn (a : BitVec 17) (b : Byte)
  /-- a command word with its argument words (R80) -/
  | command (c : Command)
  /-- power-on reset (R340) -/
  | powerOn
  deriving DecidableEq, Repr

/-- The state. -/
structure State where
  /-- the host actions still to be taken, the next first: the model's own, log 1 (R21: the command is an input) -/
  port : List HostAction
  /-- RES (R22) -/
  res : Word
  /-- STATUS (R23) -/
  status : Word
  /-- IN_LEN (R24) -/
  inLen : BitVec 18
  /-- BLOCK_MAX (R25) -/
  blockMax : BitVec 18
  /-- IN (R60) -/
  inMem : Memory
  /-- which power-on the unwritten bytes of IN date from: the model's own (log 4) -/
  inEra : Nat
  /-- FR (R26) -/
  fr : FwdReader
  /-- the bytes under FR were disturbed since it was initialised (R62): the model's own (log 10) -/
  frStale : Bool
  /-- RR (R27) -/
  rr : RevBank
  /-- the bytes under RR[r] were disturbed since it was initialised (R62): the model's own (log 10) -/
  rrStale : RevMarks
  /-- FT (R28) -/
  ft : FseBank
  /-- DIST (R29) -/
  dist : Dist
  /-- ST (R30) -/
  st : StBank
  /-- W[0..NW-1] (R31) -/
  w : List Byte
  /-- NW (R31) -/
  nw : BitVec 9
  /-- HT (R32) -/
  ht : HufTable
  /-- LIT (R33) -/
  lit : Memory
  /-- LIT_LEN (R33) -/
  litLen : BitVec 18
  /-- SEQ[0..NBSEQ-1] (R34) -/
  seq : List SeqEntry
  /-- NBSEQ (R34) -/
  nbSeq : BitVec 17
  /-- REP (R35) -/
  rep : RepCache
  /-- how many free values have been drawn: the model's own (log 20) -/
  draws : Nat
  deriving DecidableEq, Repr

/-- Why the machine stops. No run from reset reaches one (log 12). -/
inductive Fault where
  /-- a read of IN at an address outside 0..131071 (R60). Raised by the operations that read IN. Safe: the machine
  stops where the spec has no byte. -/
  | inAddress
  /-- a reverse reader whose stream leaves IN, or whose position is not inside its stream (R27, R120). Raised by the
  reverse peek. Safe. -/
  | readerRange
  /-- a write to LIT at an address outside 0..131071 (R63). Raised by MemWrite. Safe. -/
  | litAddress
  /-- an append to a SEQ that already holds 98047 entries (R64). Raised by SeqAppend. Safe. -/
  | seqIndex
  deriving DecidableEq, Repr

/-- Why an instruction has no meaning. -/
inductive Refusal where
  /-- the instruction of this mnemonic is not modelled. Raised by exec's arms alone. Safe. -/
  | notModelled (mnemonic : String)
  deriving DecidableEq, Repr

/-- The causes of R312, each named as the spec names it. -/
inductive Cause where
  | badOp | badField | argRange | notReady
  | brFwdOverrun | litHeader | litRawBody | litRleBody | litCompBody | seqHeader | seqRleByte
  | brEmpty | brNoEndMark
  | fseAlTooLarge | fseZeroRunPastMax | fseNcountSum | fseSpread | fseRleSymbol | fseRepeatNoTable
  | hufTreeOverrun | hufTooManyWeights | hufWeightRange | hufNoWeights | hufMaxlen | hufNotSaturable | hufRank1
  | hufOverrun | hufNotConsumed
  | litTooLarge | lit4sTooSmall | litTreelessNoTable | litJumpTable
  | seqTrailing | seqUnderflow | seqNotConsumed | seqRepZero
  | blkTooLarge
  | seqModesReserved
  deriving DecidableEq, Repr

/-- The error categories of R23. -/
inductive Category where
  | formatError | unsupportedFeature | corruptedData | truncated | illegalCommand
  deriving DecidableEq, Repr

/-- Why a command's operation ends early: it raises an error (R310), or it faults. -/
inductive Stop where
  | raise (c : Cause)
  | fault (f : Fault)
  deriving DecidableEq, Repr

/-- An operation of the core: it runs on the state and ends with a value, or stops with the state it had reached. -/
abbrev Op := EStateM Stop State

/-- An element of the write sets of R313. -/
inductive Element where
  | inLen | frPos | fr | dist
  | rr (r : RSel) | rrPos (r : RSel)
  | ft (t : TSel)
  | st (x : SSel)
  | w | ht
  | lit | litRange (a n : Nat) | litLen
  | seq | rep
  deriving DecidableEq, Repr

/-- A reverse reader after reset (R42). -/
abbrev revReaderReset : RevReader := ⟨false, 0, 0, 0⟩

/-- An FSE table after power-on: VALID 0 (R42); AL and ENTRY are unspecified there (log 3). -/
abbrev fseTableReset : FseTable := ⟨false, 0, []⟩

/-- The state after power-on reset (R42, R340), with nothing waiting at the interface. -/
def State.reset : State where
  port := []
  res := 0
  status := 0
  inLen := 0
  blockMax := 131072
  inMem := []
  inEra := 0
  fr := ⟨false, 0, 0, 0⟩
  frStale := false
  rr := ⟨revReaderReset, revReaderReset, revReaderReset, revReaderReset, revReaderReset, revReaderReset⟩
  rrStale := ⟨false, false, false, false, false, false⟩
  ft := ⟨fseTableReset, fseTableReset, fseTableReset, fseTableReset⟩
  dist := ⟨false, .ll, 0, 0, []⟩
  st := ⟨0, 0, 0, 0, 0⟩
  w := []
  nw := 0
  ht := ⟨false, 0, []⟩
  lit := []
  litLen := 0
  seq := []
  nbSeq := 0
  rep := ⟨1, 4, 8⟩
  draws := 0

end Sys2Proof.Machine
end

