-- ==== Sys2Proof/Machine/Flags.lean ====
section
/-! DEFINITION. The status bits: the fields of STATUS (R23) with the category and cause codes (R310, R312), the VALID
bits after an error (R41, R313), and the marks of disturbed readers (R62). -/

namespace Sys2Proof.Machine

/-! ## STATUS -/

/-- STATUS.CAT, bits 2:0 (R23). -/
def statusCat (w : Word) : BitVec 3 := w.extractLsb' 0 3
/-- STATUS.CAUSE, bits 15:8 (R23). -/
def statusCause (w : Word) : BitVec 8 := w.extractLsb' 8 8
/-- STATUS.OP, bits 23:16 (R23). -/
def statusOp (w : Word) : BitVec 8 := w.extractLsb' 16 8

/-- The code of a category (R23). -/
def categoryCode : Category → BitVec 3
  | .formatError => 1
  | .unsupportedFeature => 2
  | .corruptedData => 3
  | .truncated => 4
  | .illegalCommand => 5

/-- The code of a cause (R312). -/
def causeCode : Cause → BitVec 8
  | .badOp => 1
  | .badField => 2
  | .argRange => 3
  | .notReady => 4
  | .brFwdOverrun => 16
  | .litHeader => 17
  | .litRawBody => 18
  | .litRleBody => 19
  | .litCompBody => 20
  | .seqHeader => 21
  | .seqRleByte => 22
  | .brEmpty => 32
  | .brNoEndMark => 33
  | .fseAlTooLarge => 34
  | .fseZeroRunPastMax => 35
  | .fseNcountSum => 36
  | .fseSpread => 37
  | .fseRleSymbol => 38
  | .fseRepeatNoTable => 39
  | .hufTreeOverrun => 40
  | .hufTooManyWeights => 41
  | .hufWeightRange => 42
  | .hufNoWeights => 43
  | .hufMaxlen => 44
  | .hufNotSaturable => 45
  | .hufRank1 => 46
  | .hufOverrun => 47
  | .hufNotConsumed => 48
  | .litTooLarge => 49
  | .lit4sTooSmall => 50
  | .litTreelessNoTable => 51
  | .litJumpTable => 52
  | .seqTrailing => 53
  | .seqUnderflow => 54
  | .seqNotConsumed => 55
  | .seqRepZero => 56
  | .blkTooLarge => 57
  | .seqModesReserved => 64

/-- The category of a cause (R312). -/
def causeCategory : Cause → Category
  | .badOp | .badField | .argRange | .notReady => .illegalCommand
  | .brFwdOverrun | .litHeader | .litRawBody | .litRleBody | .litCompBody | .seqHeader | .seqRleByte => .truncated
  | .brEmpty | .brNoEndMark
  | .fseAlTooLarge | .fseZeroRunPastMax | .fseNcountSum | .fseSpread | .fseRleSymbol | .fseRepeatNoTable
  | .hufTreeOverrun | .hufTooManyWeights | .hufWeightRange | .hufNoWeights | .hufMaxlen | .hufNotSaturable | .hufRank1
  | .hufOverrun | .hufNotConsumed
  | .litTooLarge | .lit4sTooSmall | .litTreelessNoTable | .litJumpTable
  | .seqTrailing | .seqUnderflow | .seqNotConsumed | .seqRepZero
  | .blkTooLarge => .corruptedData
  | .seqModesReserved => .formatError

/-- STATUS of a first error: `CAT | CAUSE << 8 | OP << 16`, every other bit 0 (R23, R310). -/
def packStatus (c : Cause) (op : BitVec 8) : Word :=
  BitVec.ofNat 32 ((categoryCode (causeCategory c)).toNat + 2 ^ 8 * (causeCode c).toNat + 2 ^ 16 * op.toNat)

/-- STATUS.CAT = 0: no error has been raised (R23). -/
def noError (s : State) : Bool := statusCat s.status == 0

/-- The error gate of R85 step 1 and R311 is shut. -/
def gateShut (s : State) : Bool := !noError s

/-- `raise` records an error only "if STATUS.CAT = 0" (R310). -/
def recordError (c : Cause) (op : BitVec 8) (s : State) : State :=
  if noError s then { s with status := packStatus c op } else s

/-! ## VALID bits after an error -/

/-- A VALID bit after a failed command: one the command had not set keeps its old value, and none goes from 1 to 0
(R41, R313); one the command had set from 0 is unspecified (R313): a free value (log 7). -/
def validAfterError (old reached : Bool) (d : Nat) (x : Config.Slot) : Bool :=
  reached && (old || Config.freeNat d x % 2 == 1)

/-! ## Disturbed readers (R62, R343) -/

/-- The host writes IN[a] inside FR's range while FR is initialised (R62). -/
def frTouched (fr : FwdReader) (a : Nat) : Bool := fr.valid && (fr.base.toNat ≤ a && a < fr.lim.toNat)

/-- The host writes IN[a] inside RR[r]'s range while it is initialised (R62). -/
def rrTouched (rd : RevReader) (a : Nat) : Bool :=
  rd.valid && (rd.base.toNat ≤ a && a < rd.base.toNat + rd.len.toNat)

/-- IN_LEN is put below the end of FR's range while FR is initialised (R62). -/
def frCut (fr : FwdReader) (n : Nat) : Bool := fr.valid && n < fr.lim.toNat

/-- IN_LEN is put below the end of RR[r]'s range while it is initialised (R62). -/
def rrCut (rd : RevReader) (n : Nat) : Bool := rd.valid && n < rd.base.toNat + rd.len.toNat

/-- The reverse readers' marks, each set as well where `hit` holds of its reader. -/
def markReverse (hit : RevReader → Bool) (b : RevBank) (m : RevMarks) : RevMarks :=
  ⟨m.r0 || hit b.r0, m.r1 || hit b.r1, m.r2 || hit b.r2, m.r3 || hit b.r3, m.r4 || hit b.r4, m.r5 || hit b.r5⟩

/-- A write of IN[a] by the host disturbs the readers whose range holds `a` (R62). -/
def markWrite (a : Nat) (s : State) : State :=
  { s with
    frStale := s.frStale || frTouched s.fr a
    rrStale := markReverse (fun rd => rrTouched rd a) s.rr s.rrStale }

/-- IN_LEN becomes `n`: it disturbs the readers whose range ends above it (R62, R44). -/
def setInLen (n : Nat) (s : State) : State :=
  { s with
    inLen := BitVec.ofNat 18 n
    frStale := s.frStale || frCut s.fr n
    rrStale := markReverse (fun rd => rrCut rd n) s.rr s.rrStale }

end Sys2Proof.Machine
end

