-- ==== Sys2Proof/Machine/Ops.lean ====
section
/-! DEFINITION. The named operations over memory and registers, the raising of an error (R310, R313), the common
course of every command (R85), and the host's own actions (R60, R340). -/

namespace Sys2Proof.Machine

/-! ## Memory -/

/-- The byte listed at an address, if one is. -/
def Memory.get? : Memory → Nat → Option Byte
  | [], _ => none
  | (k, b) :: m, a => if k = a then some b else Memory.get? m a

/-- Writes one byte, keeping the addresses strictly rising. -/
def Memory.set : Memory → Nat → Byte → Memory
  | [], a, b => [(a, b)]
  | (k, c) :: m, a, b =>
    if a < k then (a, b) :: (k, c) :: m
    else if a = k then (a, b) :: m
    else (k, c) :: Memory.set m a b

/-- Forgets the bytes of addresses `a .. a+n-1`: their content becomes unspecified (R313). -/
def Memory.forget (m : Memory) (a n : Nat) : Memory := m.filter fun cell => !(a ≤ cell.1 && cell.1 < a + n)

/-- The canonical form: addresses strictly rising, all below `size`. An unlisted address holds no value, so no entry
can repeat it. -/
def Memory.wf (size : Nat) : Memory → Bool
  | [] => true
  | [(k, _)] => k < size
  | (k, _) :: (k', b') :: m => k < k' && Memory.wf size ((k', b') :: m)

/-- The byte at IN[a]: the last one written, or the free byte it holds since power-on (R42, log 4). -/
def inByte (s : State) (a : Nat) : Byte := (s.inMem.get? a).getD (Config.powerOnByte s.inEra a)

/-- The byte at LIT[a], if a command has left one there; otherwise unspecified (R33, R42). -/
def litByte? (s : State) (a : Nat) : Option Byte := s.lit.get? a

/-! ## Register files -/

/-- RR[r]. -/
def RevBank.get (b : RevBank) : RSel → RevReader
  | .r0 => b.r0
  | .r1 => b.r1
  | .r2 => b.r2
  | .r3 => b.r3
  | .r4 => b.r4
  | .r5 => b.r5

/-- `RR[r] <- v`. -/
def RevBank.set (b : RevBank) (r : RSel) (v : RevReader) : RevBank :=
  match r with
  | .r0 => { b with r0 := v }
  | .r1 => { b with r1 := v }
  | .r2 => { b with r2 := v }
  | .r3 => { b with r3 := v }
  | .r4 => { b with r4 := v }
  | .r5 => { b with r5 := v }

/-- The mark of RR[r]. -/
def RevMarks.get (m : RevMarks) : RSel → Bool
  | .r0 => m.r0
  | .r1 => m.r1
  | .r2 => m.r2
  | .r3 => m.r3
  | .r4 => m.r4
  | .r5 => m.r5

/-- Clears the mark of RR[r]. -/
def RevMarks.clear (m : RevMarks) (r : RSel) : RevMarks :=
  match r with
  | .r0 => { m with r0 := false }
  | .r1 => { m with r1 := false }
  | .r2 => { m with r2 := false }
  | .r3 => { m with r3 := false }
  | .r4 => { m with r4 := false }
  | .r5 => { m with r5 := false }

/-- FT[t]. -/
def FseBank.get (b : FseBank) : TSel → FseTable
  | .ll => b.ll
  | .off => b.off
  | .ml => b.ml
  | .hw => b.hw

/-- `FT[t] <- v`. -/
def FseBank.set (b : FseBank) (t : TSel) (v : FseTable) : FseBank :=
  match t with
  | .ll => { b with ll := v }
  | .off => { b with off := v }
  | .ml => { b with ml := v }
  | .hw => { b with hw := v }

/-- ST[x]. -/
def StBank.get (b : StBank) : SSel → BitVec 9
  | .ll => b.ll
  | .off => b.off
  | .ml => b.ml
  | .w1 => b.w1
  | .w2 => b.w2

/-- `ST[x] <- v`. -/
def StBank.set (b : StBank) (x : SSel) (v : BitVec 9) : StBank :=
  match x with
  | .ll => { b with ll := v }
  | .off => { b with off := v }
  | .ml => { b with ml := v }
  | .w1 => { b with w1 := v }
  | .w2 => { b with w2 := v }

/-- TAB(x): the table of a state (R30). -/
def tabOf : SSel → TSel
  | .ll => .ll
  | .off => .off
  | .ml => .ml
  | .w1 => .hw
  | .w2 => .hw

/-! ## Operations -/

/-- `raise Cat(CAUSE)`: ends the operation (R310). -/
def raise {α : Type} (c : Cause) : Op α := fun s => .error (.raise c) s

/-- Stops the machine. -/
def stop {α : Type} (f : Fault) : Op α := fun s => .error (.fault f) s

/-- A check: goes on where `p` holds, else raises. -/
def ensure (p : Prop) [Decidable p] (c : Cause) : Op Unit := fun s => if p then .ok () s else .error (.raise c) s

/-- Reads the state. -/
def look {α : Type} (f : State → α) : Op α := fun s => .ok (f s) s

/-- Changes the state. -/
def change (f : State → State) : Op Unit := fun s => .ok () (f s)

/-- The next free value of a slot. -/
def draw (x : Config.Slot) : Op Nat := fun s => .ok (Config.freeNat s.draws x) { s with draws := s.draws + 1 }

/-- `RES <- v` (R22). -/
def setRes (v : Nat) : Op Unit := change fun s => { s with res := BitVec.ofNat 32 v }

/-- `IN[a]` (R60). -/
def readIn (a : Nat) : Op Byte := fun s => if a < Config.inCap then .ok (inByte s a) s else .error (.fault .inAddress) s

/-- The bytes `IN[a .. a+n-1]`. -/
def readBytes : (a n : Nat) → Op (List Byte)
  | _, 0 => pure []
  | a, n + 1 => do
    let b ← readIn a
    let bs ← readBytes (a + 1) n
    pure (b :: bs)

/-- `MemRead(IN, a, n)`: the n-byte little-endian value (R8). -/
def memRead (a n : Nat) : Op Nat := do
  let bs ← readBytes a n
  pure (leNat bs)

/-- `MemWrite(LIT, a, 1, v)` (R8, R63). -/
def writeLit (a : Nat) (b : Byte) : Op Unit := fun s =>
  if a < Config.litCap then .ok () { s with lit := s.lit.set a b } else .error (.fault .litAddress) s

/-- `SeqAppend(ll, of, ml)` (R64). -/
def seqAppend (ll off ml : Nat) : Op Unit := fun s =>
  if s.nbSeq.toNat < Config.seqCap then
    .ok () { s with
      seq := s.seq ++ [⟨BitVec.ofNat 32 ll, BitVec.ofNat 32 off, BitVec.ofNat 32 ml⟩]
      nbSeq := BitVec.ofNat 17 (s.nbSeq.toNat + 1) }
  else .error (.fault .seqIndex) s

/-- `FT[t] <- v`. -/
def setTable (t : TSel) (v : FseTable) : Op Unit := change fun s => { s with ft := s.ft.set t v }

/-- `ST[x] <- v`. -/
def setSt (x : SSel) (v : Nat) : Op Unit := change fun s => { s with st := s.st.set x (BitVec.ofNat 9 v) }

/-! ## Taking an error (R310, R313) -/

/-- A free bit string of `k` bits. -/
def freeBits (k d : Nat) (x : Config.Slot) : BitVec k := BitVec.ofNat k (Config.freeNat d x)

/-- The selector a free number stands for. -/
def tableOfNat (n : Nat) : TSel :=
  match n % 4 with
  | 0 => .ll
  | 1 => .off
  | 2 => .ml
  | _ => .hw

/-- The errors that ReadNCount itself raises (R150, R124): after them "DIST is unchanged" (R313). -/
def ncountError : Cause → Bool
  | .brFwdOverrun | .fseAlTooLarge | .fseZeroRunPastMax | .fseNcountSum => true
  | _ => false

/-- FR.POS after an error: unspecified, but after BR_FWD_OVERRUN where the read that failed found it (R313): that read
leaves POS as it was (R124, D16), and the reads before it have moved it (log 8). -/
def frPosAfterError (c : Cause) (d : Nat) (s1 : State) : BitVec 21 :=
  if c = .brFwdOverrun then s1.fr.pos else freeBits 21 d .frPos

/-- DIST after an error: unspecified, but after an error of ReadNCount what that ReadNCount found (R313): it writes DIST
only on success (R150, log 8). -/
def distAfterError (c : Cause) (d : Nat) (s0 s1 : State) : Dist :=
  if ncountError c then s1.dist
  else
    ⟨validAfterError s0.dist.valid s1.dist.valid d .distValid, tableOfNat (Config.freeNat d .distTag),
      freeBits 4 d .distAl, freeBits 9 d .distNsym, []⟩

/-- An element of the failing command's write set holds an unspecified value (R313): a free value of its register, a
VALID bit as `validAfterError`, an array with nothing specified in it. `s0` is the state the command began in, `s1`
the one it had reached. -/
def unspecifyElement (c : Cause) (d : Nat) (s0 s1 : State) (e : Element) (s : State) : State :=
  match e with
  | .inLen => { s with inLen := BitVec.ofNat 18 (Config.freeNat d .inLen % (Config.inCap + 1)) }
  | .frPos => { s with fr := { s.fr with pos := frPosAfterError c d s1 } }
  | .fr =>
    { s with
      fr := ⟨validAfterError s0.fr.valid s1.fr.valid d .frValid, freeBits 18 d .frBase, freeBits 18 d .frLim,
        frPosAfterError c d s1⟩ }
  | .dist => { s with dist := distAfterError c d s0 s1 }
  | .rr r =>
    { s with
      rr := s.rr.set r
        ⟨validAfterError (s0.rr.get r).valid (s1.rr.get r).valid d (.rrValid r), freeBits 18 d (.rrBase r),
          freeBits 18 d (.rrLen r), freeBits 32 d (.rrPos r)⟩ }
  | .rrPos r => { s with rr := s.rr.set r { s.rr.get r with pos := freeBits 32 d (.rrPos r) } }
  | .ft t =>
    { s with
      ft := s.ft.set t
        ⟨validAfterError (s0.ft.get t).valid (s1.ft.get t).valid d (.ftValid t), freeBits 4 d (.ftAl t), []⟩ }
  | .st x => { s with st := s.st.set x (freeBits 9 d (.st x)) }
  | .w => { s with w := [], nw := freeBits 9 d .nw }
  | .ht => { s with ht := ⟨validAfterError s0.ht.valid s1.ht.valid d .htValid, freeBits 4 d .htMaxLen, []⟩ }
  | .lit => { s with lit := [] }
  | .litRange a n => { s with lit := s.lit.forget a n }
  | .litLen => { s with litLen := BitVec.ofNat 18 (Config.freeNat d .litLen % (Config.litCap + 1)) }
  | .seq => { s with seq := [], nbSeq := BitVec.ofNat 17 (Config.freeNat d .nbSeq % (Config.seqCap + 1)) }
  | .rep => { s with rep := ⟨freeBits 32 d (.rep 0), freeBits 32 d (.rep 1), freeBits 32 d (.rep 2)⟩ }

/-- Every element of a write set unspecified, the rest as before the command (R313). -/
def unspecify (ws : List Element) (c : Cause) (s0 s1 : State) : State :=
  { ws.foldl (fun s e => unspecifyElement c s1.draws s0 s1 e s) s0 with draws := s1.draws + 1 }

/-- TAKING AN ERROR (R310, R313). STATUS records the first error. An IllegalCommand changes nothing else; any other
error leaves the command's write set unspecified and RES and everything else as it was. -/
def takeError (op : BitVec 8) (ws : List Element) (c : Cause) (s0 s1 : State) : State :=
  recordError c op (if causeCategory c = .illegalCommand then s0 else unspecify ws c s0 s1)

/-! ## The course of a command (R85) -/

/-- The outcome of a step. -/
abbrev Result := Host.Outcome State Fault Refusal

/-- How a command's operation ends: with its next state, in an error taken, or in a fault. -/
def finish (op : BitVec 8) (ws : List Element) (s0 : State) : EStateM.Result Stop State Unit → Result
  | .ok _ s => .next s
  | .error (.raise c) s1 => .next (takeError op ws c s0 s1)
  | .error (.fault f) _ => .fault f

/-- Runs a command that passes the error gate: NOP and FRAME_RESET (R85 step 1). -/
def runUngated (op : BitVec 8) (ws : List Element) (body : Op Unit) (s : State) : Result := finish op ws s (body s)

/-- Runs any other command: ignored while STATUS.CAT ≠ 0 (R85 step 1, R311). -/
def runCommand (op : BitVec 8) (ws : List Element) (body : Op Unit) (s : State) : Result :=
  if gateShut s then .next s else finish op ws s (body s)

/-- A command word that the decoder rejects: BAD_OP or BAD_FIELD (R83, R84), after the error gate (R85). -/
def rejectCommand (op : BitVec 8) (r : Reject) (s : State) : Result :=
  match r with
  | .badOp => runCommand op [] (raise .badOp) s
  | .badField | .reservedModes | .short => runCommand op [] (raise .badField) s

/-! ## Frame reset and the host's actions -/

/-- Every element whose FRAME_RESET column in R42 is not "unchanged"; "unspecified" registers take free values and
unspecified arrays hold nothing (log 6). -/
def frameResetState (blockMax : Nat) (s : State) : State :=
  { s with
    res := 0
    status := 0
    blockMax := BitVec.ofNat 18 blockMax
    fr := ⟨false, 0, 0, 0⟩
    frStale := false
    rr := ⟨revReaderReset, revReaderReset, revReaderReset, revReaderReset, revReaderReset, revReaderReset⟩
    rrStale := ⟨false, false, false, false, false, false⟩
    ft := ⟨⟨false, freeBits 4 s.draws (.ftAl .ll), []⟩, ⟨false, freeBits 4 s.draws (.ftAl .off), []⟩,
      ⟨false, freeBits 4 s.draws (.ftAl .ml), []⟩, ⟨false, freeBits 4 s.draws (.ftAl .hw), []⟩⟩
    dist := ⟨false, tableOfNat (Config.freeNat s.draws .distTag), freeBits 4 s.draws .distAl,
      freeBits 9 s.draws .distNsym, []⟩
    st := ⟨0, 0, 0, 0, 0⟩
    w := []
    nw := 0
    ht := ⟨false, freeBits 4 s.draws .htMaxLen, []⟩
    lit := []
    litLen := 0
    seq := []
    nbSeq := 0
    rep := ⟨1, 4, 8⟩
    draws := s.draws + 1 }

/-- `HostWriteIN(a, b)` (R60), which disturbs the readers over `a` (R62). -/
def hostWriteIn (a : Nat) (b : Byte) (s : State) : State := markWrite a { s with inMem := s.inMem.set a b }

/-- Power-on reset of a running core (R340): the state of reset, with the actions still waiting, IN unspecified anew
and the free values drawn so far not drawn again (log 24). -/
def powerOnState (s : State) : State :=
  { State.reset with port := s.port, inEra := s.draws + 1, draws := s.draws + 1 }

end Sys2Proof.Machine
end

