-- ==== Sys2Proof/Machine/Operands.lean ====
section
/-! DEFINITION. The operand forms: selectors (R85, R86), argument ranges (R61), readiness (R37), and the headers a
format element stands for (R89 to R94). -/

namespace Sys2Proof.Machine

/-! ## Selectors (R86) -/

/-- The reader a 3-bit field names. -/
def readerOf? (r : BitVec 3) : Option RSel :=
  match r.toNat with
  | 0 => some .r0
  | 1 => some .r1
  | 2 => some .r2
  | 3 => some .r3
  | 4 => some .r4
  | 5 => some .r5
  | _ => none

/-- The table a 3-bit field names. -/
def tableOf? (t : BitVec 3) : Option TSel :=
  match t.toNat with
  | 0 => some .ll
  | 1 => some .off
  | 2 => some .ml
  | 3 => some .hw
  | _ => none

/-- The state register a 3-bit field names. -/
def stateOf? (x : BitVec 3) : Option SSel :=
  match x.toNat with
  | 0 => some .ll
  | 1 => some .off
  | 2 => some .ml
  | 3 => some .w1
  | 4 => some .w2
  | _ => none

/-- A selector in range, or ARG_RANGE (R85 step 4). -/
def select {α : Type} : Option α → Op α
  | some v => pure v
  | none => raise .argRange

/-- Selector R (R86). -/
def selectReader (r : BitVec 3) : Op RSel := select (readerOf? r)
/-- Selector T (R86). -/
def selectTable (t : BitVec 3) : Op TSel := select (tableOf? t)
/-- Selector S (R86). -/
def selectState (x : BitVec 3) : Op SSel := select (stateOf? x)

/-- The write set a selector gives, empty where the selector is out of range. -/
def setOf {α : Type} (v : Option α) (f : α → List Element) : List Element :=
  match v with
  | some x => f x
  | none => []

/-! ## Arguments and readiness -/

/-- An argument word as a number: "Every address argument (A0, A1) is a 32-bit unsigned word" (R61). -/
def arg (a : Word) : Nat := a.toNat

/-- `if not (A0 <= A1 and A1 <= IN_LEN): raise IllegalCommand(ARG_RANGE)` (R127, R201, R231, R264). -/
def checkRegion (a lim : Nat) : Op Unit := do
  let n ← look fun s => s.inLen.toNat
  ensure (a ≤ lim ∧ lim ≤ n) .argRange

/-- FR.VALID, or NOT_READY (R37). -/
def needForward : Op Unit := do
  let v ← look fun s => s.fr.valid
  ensure (v = true) .notReady

/-- RR[r].VALID, or NOT_READY (R37). -/
def needReader (r : RSel) : Op Unit := do
  let v ← look fun s => (s.rr.get r).valid
  ensure (v = true) .notReady

/-- TAB(x).VALID, or NOT_READY (R37). -/
def needTable (x : SSel) : Op Unit := do
  let v ← look fun s => (s.ft.get (tabOf x)).valid
  ensure (v = true) .notReady

/-- ST[x] < 2^TAB(x).AL, or NOT_READY (R166, R167). -/
def needInTable (x : SSel) : Op Unit := do
  let ok ← look fun s => decide ((s.st.get x).toNat < 2 ^ (s.ft.get (tabOf x)).al.toNat)
  ensure (ok = true) .notReady

/-- HT.VALID, or NOT_READY (R37). -/
def needHuffman : Op Unit := do
  let v ← look fun s => s.ht.valid
  ensure (v = true) .notReady

/-! ## The headers of format elements -/

/-- A Raw header of `size` bytes (R89). -/
def rawHeader (size regen : Nat) : LitHeader := ⟨.raw, size, 1, regen, 0⟩
/-- An RLE header of `size` bytes (R89). -/
def rleHeader (size regen : Nat) : LitHeader := ⟨.rle, size, 1, regen, 0⟩
/-- A Compressed header of `size` bytes (R90). -/
def compHeader (size streams regen comp : Nat) : LitHeader := ⟨.compressed, size, streams, regen, comp⟩
/-- A Treeless header of `size` bytes (R90). -/
def treelessHeader (size streams regen comp : Nat) : LitHeader := ⟨.treeless, size, streams, regen, comp⟩

end Sys2Proof.Machine
end

