-- ==== Sys2Proof/Machine/BitReader.lean ====
section
/-! DEFINITION. The bit readers (41_bitreader.md): the functions of its part 1 and the nine commands of its part 2. -/

namespace Sys2Proof.Machine

/-! ## Forward reader -/

/-- `FBitAt(k)` (R123). -/
def forwardBit (s : State) (k : Nat) : Nat :=
  if s.fr.base.toNat + k / 8 < s.fr.lim.toNat then (inByte s (s.fr.base.toNat + k / 8)).toNat / 2 ^ (k % 8) % 2 else 0

/-- The n bits from bit `k` on, the first the least significant (R123). -/
def forwardBits (s : State) : (k n : Nat) → Nat
  | _, 0 => 0
  | k, n + 1 => forwardBit s k + 2 * forwardBits s (k + 1) n

/-- `FPeek(n)` (R123). Over disturbed bytes the value is free (R62); reading 0 bits returns 0. -/
def fpeek (n : Nat) : Op Nat := do
  let s ← look id
  if Config.inCap < s.fr.lim.toNat then stop .inAddress
  else if s.frStale ∧ n ≠ 0 then do
    let v ← draw .fwdBits
    pure (v % 2 ^ n)
  else pure (forwardBits s s.fr.pos.toNat n)

/-- `FConsume(n)` (R124). -/
def fconsume (n : Nat) : Op Unit := do
  let fr ← look fun s => s.fr
  ensure (fr.pos.toNat + n ≤ 8 * (fr.lim.toNat - fr.base.toNat)) .brFwdOverrun
  change fun s => { s with fr := { s.fr with pos := BitVec.ofNat 21 (s.fr.pos.toNat + n) } }

/-- `FRead(n)` (R125). -/
def fread (n : Nat) : Op Nat := do
  let v ← fpeek n
  fconsume n
  pure v

/-- `FAlign()` (R126). -/
def falign : Op Nat := do
  change fun s => { s with fr := { s.fr with pos := BitVec.ofNat 21 ((s.fr.pos.toNat + 7) / 8 * 8) } }
  look fun s => s.fr.base.toNat + s.fr.pos.toNat / 8

/-- `FInit(base, lim)` (R127). -/
def finit (base lim : Nat) : Op Unit :=
  change fun s => { s with fr := ⟨true, BitVec.ofNat 18 base, BitVec.ofNat 18 lim, 0⟩, frStale := false }

/-! ## Reverse reader -/

/-- `RBitAt(r, k)` (R120). -/
def reverseBit (s : State) (rd : RevReader) (k : Int) : Nat :=
  if k < 0 then 0 else (inByte s (rd.base.toNat + k.toNat / 8)).toNat / 2 ^ (k.toNat % 8) % 2

/-- The n bits below position `pos`, the first the most significant (R121). -/
def reverseBits (s : State) (rd : RevReader) (pos : Int) : (n : Nat) → Nat
  | 0 => 0
  | n + 1 => 2 * reverseBits s rd pos n + reverseBit s rd (pos - 1 - n)

/-- The reader's stream lies in IN and its position inside the stream (R27, R43). -/
def readerInRange (rd : RevReader) : Bool :=
  rd.base.toNat + rd.len.toNat ≤ Config.inCap && decide (rd.pos.toInt < 8 * rd.len.toNat)

/-- `RPeek(r, n)` (R121). Over disturbed bytes the value is free (R62); reading 0 bits returns 0. -/
def rpeek (r : RSel) (n : Nat) : Op Nat := do
  let s ← look id
  if readerInRange (s.rr.get r) = false then stop .readerRange
  else if s.rrStale.get r ∧ n ≠ 0 then do
    let v ← draw (.revBits r)
    pure (v % 2 ^ n)
  else pure (reverseBits s (s.rr.get r) (s.rr.get r).pos.toInt n)

/-- A position after n more bits: `max(POS - n, -2^31)` (R121). -/
def posAfter (pos : BitVec 32) (n : Nat) : BitVec 32 := BitVec.ofInt 32 (max (pos.toInt - n) (-2 ^ 31))

/-- `RConsume(r, n)` (R121). -/
def rconsume (r : RSel) (n : Nat) : Op Unit :=
  change fun s => { s with rr := s.rr.set r { s.rr.get r with pos := posAfter (s.rr.get r).pos n } }

/-- `RRead(r, n)` (R122). -/
def rread (r : RSel) (n : Nat) : Op Nat := do
  let v ← rpeek r n
  rconsume r n
  pure v

/-- `RR[r].POS` as the signed number it holds (R27). -/
def rpos (r : RSel) : Op Int := look fun s => (s.rr.get r).pos.toInt

/-- `highbit(x)` (R8). -/
def highbit (x : Nat) : Nat := x.log2

/-- `RInit(r, base, len)` (R136). -/
def rinit (r : RSel) (base len : Nat) : Op Unit := do
  ensure (len ≠ 0) .brEmpty
  let last ← readIn (base + len - 1)
  ensure (last ≠ 0) .brNoEndMark
  change fun s =>
    { s with
      rr := s.rr.set r
        ⟨true, BitVec.ofNat 18 base, BitVec.ofNat 18 len, BitVec.ofNat 32 (8 * (len - 1) + highbit last.toNat)⟩
      rrStale := s.rrStale.clear r }

/-! ## Commands -/

/-- BR_FINIT (R127). -/
def execBrFinit (a0 a1 : Word) (s : State) : Result :=
  runCommand opcBrFinit [] (do
    checkRegion (arg a0) (arg a1)
    finit (arg a0) (arg a1)) s

/-- BR_FPEEK (R128). -/
def execBrFpeek (n : BitVec 5) (s : State) : Result :=
  runCommand opcBrFpeek [] (do
    needForward
    let v ← fpeek n.toNat
    setRes v) s

/-- BR_FREAD (R129). -/
def execBrFread (n : BitVec 5) (s : State) : Result :=
  runCommand opcBrFread [.frPos] (do
    needForward
    let v ← fread n.toNat
    setRes v) s

/-- BR_FALIGN (R130). -/
def execBrFalign (s : State) : Result :=
  runCommand opcBrFalign [] (do
    needForward
    let v ← falign
    setRes v) s

/-- BR_RINIT (R131). -/
def execBrRinit (r : BitVec 3) (a0 a1 : Word) (s : State) : Result :=
  runCommand opcBrRinit [] (do
    let r ← selectReader r
    let n ← look fun s => s.inLen.toNat
    ensure (arg a0 + arg a1 ≤ n) .argRange
    rinit r (arg a0) (arg a1)) s

/-- BR_RPEEK (R132). -/
def execBrRpeek (r : BitVec 3) (n : BitVec 5) (s : State) : Result :=
  runCommand opcBrRpeek [] (do
    let r ← selectReader r
    needReader r
    let v ← rpeek r n.toNat
    setRes v) s

/-- BR_RREAD (R133). -/
def execBrRread (r : BitVec 3) (n : BitVec 5) (s : State) : Result :=
  runCommand opcBrRread [] (do
    let r ← selectReader r
    needReader r
    let v ← rread r n.toNat
    setRes v) s

/-- BR_RCONSUME (R134). -/
def execBrRconsume (r : BitVec 3) (n : BitVec 5) (s : State) : Result :=
  runCommand opcBrRconsume [] (do
    let r ← selectReader r
    needReader r
    rconsume r n.toNat) s

/-- BR_RSTAT: `RES <- tc_32(RR[R].POS)` (R135). -/
def execBrRstat (r : BitVec 3) (s : State) : Result :=
  runCommand opcBrRstat [] (do
    let r ← selectReader r
    needReader r
    change fun s => { s with res := BitVec.ofInt 32 (s.rr.get r).pos.toInt }) s

end Sys2Proof.Machine
end

