-- ==== Sys2Proof/Machine/Fse.lean ====
section
/-! DEFINITION. The FSE table builder and state decoder (42_fse.md): the functions of its part 1 and the eight commands
of its part 2. -/

namespace Sys2Proof.Machine

/-! ## Alphabets (R151, R152) -/

/-- MAXSYM(t) (R151). -/
def maxSym : TSel → Nat
  | .ll => 35
  | .off => 31
  | .ml => 52
  | .hw => 255

/-- MAXLOG(t) (R151). -/
def maxLog : TSel → Nat
  | .ll => 9
  | .off => 8
  | .ml => 9
  | .hw => 6

/-- The accuracy log of the predefined distribution (R152). HW has none: no operation asks for it. -/
def predefAl : TSel → Nat
  | .ll => 6
  | .off => 5
  | .ml => 6
  | .hw => 0

/-- The counts of the predefined distribution (R152). HW has none: no operation asks for it. -/
def predefCounts : TSel → List Int
  | .ll => [4, 3, 2, 2, 2, 2, 2, 2, 2, 2, 2, 2, 2, 1, 1, 1, 2, 2, 2, 2, 2, 2, 2, 2, 2, 3, 2, 1, 1, 1, 1, 1] ++ [-1, -1, -1, -1]
  | .off => [1, 1, 1, 1, 1, 1, 2, 2, 2] ++ List.replicate 15 1 ++ List.replicate 5 (-1)
  | .ml => [1, 4, 3] ++ List.replicate 6 2 ++ List.replicate 37 1 ++ List.replicate 7 (-1)
  | .hw => []

/-- `DIST <- …`, valid (R150, R152). -/
def setDist (t : TSel) (al : Nat) (counts : List Int) : Op Unit :=
  change fun s =>
    { s with
      dist := ⟨true, t, BitVec.ofNat 4 al, BitVec.ofNat 9 counts.length, counts.map fun c => BitVec.ofInt 11 c⟩ }

/-- LoadPredef(t) (R152). -/
def loadPredef (t : TSel) : Op Unit := setDist t (predefAl t) (predefCounts t)

/-! ## ReadNCount (R150) -/

/-- The zero-run escape: 2-bit fields until one is not 3; `n0` is the symbol reached. Every field consumes 2 bits of a
region of at most `fuel` bits, so the last case is never reached: the read that would reach it overruns (R319). -/
def readZeroRun : (fuel n0 : Nat) → Op Nat
  | 0, _ => raise .brFwdOverrun
  | fuel + 1, n0 => do
    let f ← fread 2
    if f = 3 then readZeroRun fuel (n0 + 3) else pure (n0 + f)

/-- The counts after a zero count: the escape, its check, and the zeros it stands for. -/
def readZeros (t : TSel) (counts : List Int) : Op (List Int) := do
  let bits ← look fun s => 8 * (s.fr.lim.toNat - s.fr.base.toNat)
  let n0 ← readZeroRun (bits + 1) counts.length
  ensure (n0 ≤ maxSym t) .fseZeroRunPastMax
  pure (counts ++ List.replicate (n0 - counts.length) 0)

/-- The zeros a zero count continues with, where the last count was 0. -/
def continueRun (t : TSel) (prev0 : Bool) (counts : List Int) : Op (List Int) :=
  if prev0 then readZeros t counts else pure counts

/-- One count field, in its two widths: the value `v` that encodes count + 1. -/
def readCountField (remaining threshold nbits : Nat) : Op Nat := do
  let max := 2 * threshold - 1 - remaining
  let low ← fpeek (nbits - 1)
  if low < max then do
    fconsume (nbits - 1)
    pure low
  else do
    let v ← fpeek nbits
    fconsume nbits
    pure (if v ≥ threshold then v - max else v)

/-- `while remaining < threshold: nbits <- nbits - 1; threshold <- threshold >> 1`. -/
def narrow (remaining : Nat) : (nbits threshold : Nat) → Nat × Nat
  | 0, threshold => (0, threshold)
  | nbits + 1, threshold =>
    if remaining < threshold then narrow remaining nbits (threshold / 2) else (nbits + 1, threshold)

/-- The loop of ReadNCount; `counts` are C[0..s-1]. It returns the mass left and the counts. Each turn adds a symbol,
so `fuel` of MAXSYM(t) + 2 turns is never used up: the loop has ended before by `s > MAXSYM(t)`. -/
def ncountLoop (t : TSel) : (fuel remaining threshold nbits : Nat) → (counts : List Int) → (prev0 : Bool) → Op (Nat × List Int)
  | 0, remaining, _, _, counts, _ => pure (remaining, counts)
  | fuel + 1, remaining, threshold, nbits, counts, prev0 =>
    if remaining ≤ 1 ∨ maxSym t < counts.length then pure (remaining, counts)
    else do
      let counts ← continueRun t prev0 counts
      let v ← readCountField remaining threshold nbits
      let c : Int := v - 1
      let remaining := remaining - c.natAbs
      let next := narrow remaining nbits threshold
      ncountLoop t fuel remaining next.2 next.1 (counts ++ [c]) (c == 0)

/-- ReadNCount(t) (R150): the distribution goes to DIST; the address after the header is returned. -/
def readNCount (t : TSel) : Op Nat := do
  let f ← fread 4
  let al := f + 5
  ensure (al ≤ maxLog t) .fseAlTooLarge
  let out ← ncountLoop t (maxSym t + 2) (2 ^ al + 1) (2 ^ al) (al + 1) [] false
  ensure (out.1 = 1) .fseNcountSum
  let next ← falign
  setDist t al out.2
  pure next

/-! ## BuildTable (R153 to R155) -/

/-- Step 1 (R153): each symbol with count -1 takes the highest free slot. `free` is `high + 1`, the number of slots
still free from the bottom. -/
def placeLow : (counts : List Int) → (sym : Nat) → (slots : List (Option Nat)) → (free : Nat) → List (Option Nat) × Nat
  | [], _, slots, free => (slots, free)
  | c :: counts, sym, slots, free =>
    if c = -1 then placeLow counts (sym + 1) (slots.set (free - 1) (some sym)) (free - 1)
    else placeLow counts (sym + 1) slots free

/-- The counters NEXT[s] (R153). -/
def nextCounters (counts : List Int) : List Nat := counts.map fun c => if c = -1 then 1 else c.toNat

/-- `(size >> 1) + (size >> 3) + 3` (R154). -/
def spreadStep (size : Nat) : Nat := size / 2 + size / 8 + 3

/-- `pos <- (pos + step) & (size - 1)`, again while pos > high (R154). At most `size` turns visit every slot. -/
def spreadNext (size free : Nat) : (fuel pos : Nat) → Nat
  | 0, pos => (pos + spreadStep size) % size
  | fuel + 1, pos =>
    let p := (pos + spreadStep size) % size
    if p ≥ free then spreadNext size free fuel p else p

/-- The `k` slots of one symbol (R154). -/
def spreadSymbol (size free sym : Nat) : (k : Nat) → (slots : List (Option Nat)) → (pos : Nat) → List (Option Nat) × Nat
  | 0, slots, pos => (slots, pos)
  | k + 1, slots, pos => spreadSymbol size free sym k (slots.set pos (some sym)) (spreadNext size free size pos)

/-- Step 2 (R154): the other symbols in ascending order. -/
def spreadAll (size free : Nat) : (counts : List Int) → (sym : Nat) → (slots : List (Option Nat)) → (pos : Nat) → List (Option Nat) × Nat
  | [], _, slots, pos => (slots, pos)
  | c :: counts, sym, slots, pos =>
    let out := spreadSymbol size free sym c.toNat slots pos
    spreadAll size free counts (sym + 1) out.1 out.2

/-- Step 3 (R155): the entries, slot by slot. A slot without a symbol occurs for no accepted distribution (R156);
`unset` is the free symbol it holds (log 16). -/
def fillEntries (al unset : Nat) : (slots : List (Option Nat)) → (next : List Nat) → List FseEntry
  | [], _ => []
  | slot :: slots, next =>
    let sym := slot.getD unset
    let x := next.getD sym 0
    let nb := al - highbit x
    ⟨BitVec.ofNat 8 sym, BitVec.ofNat 4 nb, BitVec.ofNat 9 (x * 2 ^ nb - 2 ^ al)⟩ :: fillEntries al unset slots (next.set sym (x + 1))

/-- The symbols of the slots of a table of 2^al entries, and whether the spread ended at position 0 (R153, R154). -/
def spreadSlots (al : Nat) (counts : List Int) : List (Option Nat) × Bool :=
  let size := 2 ^ al
  let low := placeLow counts 0 (List.replicate size none) size
  let out := spreadAll size low.2 counts 0 low.1 0
  (out.1, out.2 == 0)

/-- The entries BuildTable writes, or none where the spread does not end at position 0 (R153 to R155). -/
def buildEntries (al unset : Nat) (counts : List Int) : Option (List FseEntry) :=
  let slots := spreadSlots al counts
  if slots.2 then some (fillEntries al unset slots.1 (nextCounters counts)) else none

/-- The counts of DIST as numbers (R29). -/
def distCounts (d : Dist) : List Int := d.counts.map fun c => c.toInt

/-- BuildTable(t) from DIST (R153 to R155). -/
def buildTable (t : TSel) : Op Unit := do
  let s ← look id
  match buildEntries s.dist.al.toNat (Config.freeNat s.draws .symAt) (distCounts s.dist) with
  | none => raise .fseSpread
  | some entries => setTable t ⟨true, s.dist.al, entries⟩

/-! ## RLE and Repeat tables -/

/-- RleTable(t, sym) (R157). -/
def rleTable (t : TSel) (sym : Nat) : Op Unit := do
  ensure (sym ≤ maxSym t) .fseRleSymbol
  setTable t ⟨true, 0, [⟨BitVec.ofNat 8 sym, 0, 0⟩]⟩

/-- RepeatTable(t) (R158). -/
def repeatTable (t : TSel) : Op Unit := do
  let v ← look fun s => (s.ft.get t).valid
  ensure (v = true) .fseRepeatNoTable

/-! ## State functions (R159) -/

/-- FT[t].ENTRY[u]; an entry above the table is unspecified (R28, log 16). -/
def tableEntry (s : State) (t : TSel) (u : Nat) : FseEntry :=
  ((s.ft.get t).entries[u]?).getD
    ⟨freeBits 8 s.draws (.ftSym t u), freeBits 4 s.draws (.ftNb t u), freeBits 9 s.draws (.ftBase t u)⟩

/-- TAB(x).ENTRY[ST[x]]. -/
def stateEntry (s : State) (x : SSel) : FseEntry := tableEntry s (tabOf x) (s.st.get x).toNat

/-- InitState(x, r) (R159). -/
def initState (x : SSel) (r : RSel) : Op Unit := do
  let al ← look fun s => (s.ft.get (tabOf x)).al.toNat
  let v ← rread r al
  setSt x v

/-- SymOf(x) (R159). -/
def symOf (x : SSel) : Op Byte := look fun s => (stateEntry s x).sym

/-- UpdState(x, r) (R159). -/
def updState (x : SSel) (r : RSel) : Op Unit := do
  let e ← look fun s => stateEntry s x
  let v ← rread r e.nb.toNat
  setSt x (e.base.toNat + v)

/-! ## Commands -/

/-- FSE_NCOUNT (R160). -/
def execFseNcount (t : BitVec 3) (s : State) : Result :=
  runCommand opcFseNcount [.frPos, .dist] (do
    let t ← selectTable t
    needForward
    let v ← readNCount t
    setRes v) s

/-- FSE_PREDEF (R161). -/
def execFsePredef (t : BitVec 3) (s : State) : Result :=
  runCommand opcFsePredef [] (do
    let t ← selectTable t
    ensure (t ≠ .hw) .argRange
    loadPredef t) s

/-- FSE_BUILD (R162). -/
def execFseBuild (t : BitVec 3) (s : State) : Result :=
  runCommand opcFseBuild (setOf (tableOf? t) fun t => [.ft t]) (do
    let t ← selectTable t
    let d ← look fun s => s.dist
    ensure (d.valid = true ∧ d.tag = t) .notReady
    buildTable t) s

/-- FSE_RLE (R163). -/
def execFseRle (t : BitVec 3) (a0 : Word) (s : State) : Result :=
  runCommand opcFseRle (setOf (tableOf? t) fun t => [.ft t]) (do
    let t ← selectTable t
    rleTable t (arg a0)) s

/-- FSE_REPEAT (R164). -/
def execFseRepeat (t : BitVec 3) (s : State) : Result :=
  runCommand opcFseRepeat [] (do
    let t ← selectTable t
    repeatTable t) s

/-- FSE_INITST (R165). -/
def execFseInitst (x r : BitVec 3) (s : State) : Result :=
  runCommand opcFseInitst [] (do
    let r ← selectReader r
    let x ← selectState x
    needTable x
    needReader r
    initState x r) s

/-- FSE_SYM (R166). -/
def execFseSym (x : BitVec 3) (s : State) : Result :=
  runCommand opcFseSym [] (do
    let x ← selectState x
    needTable x
    needInTable x
    let v ← symOf x
    setRes v.toNat) s

/-- FSE_UPDST (R167). -/
def execFseUpdst (x r : BitVec 3) (s : State) : Result :=
  runCommand opcFseUpdst [] (do
    let r ← selectReader r
    let x ← selectState x
    needTable x
    needReader r
    needInTable x
    updState x r) s

end Sys2Proof.Machine
end

