-- ==== Sys2Proof/Machine/Huffman.lean ====
section
/-! DEFINITION. The Huffman table builder and decoder (43_huffman.md): the functions of its part 1 and the three
commands of its part 2. -/

namespace Sys2Proof.Machine

/-! ## Weights -/

/-- Raw weight `i` of a description whose header byte is at `a` (R191): the high nibble first. -/
def rawWeight (i : Nat) (b : Byte) : Byte := if i % 2 = 0 then b >>> 4 else b &&& 15

/-- `WD[i ..< n]` of RawWeights (R191); `k` weights are still to be read. -/
def rawWeightsFrom (a : Nat) : (k i : Nat) → Op (List Byte)
  | 0, _ => pure []
  | k + 1, i => do
    let b ← readIn (a + 1 + i / 2)
    let ws ← rawWeightsFrom a k (i + 1)
    pure (rawWeight i b :: ws)

/-- RawWeights(a, hb, lim) (R191): the weights and the end of the description. -/
def rawWeights (a hb lim : Nat) : Op (List Byte × Nat) := do
  let n := hb - 127
  let last := a + 1 + (n + 1) / 2
  ensure (last ≤ lim) .hufTreeOverrun
  let wd ← rawWeightsFrom a n 0
  pure (wd, last)

/-- The loop of R193, two weights a turn, W1 first. At most 127 turns pass its checks, so `fuel` of 128 turns is never
used up. -/
def weightLoop : (fuel : Nat) → (wd : List Byte) → Op (List Byte)
  | 0, _ => raise .hufTooManyWeights
  | fuel + 1, wd => do
    ensure (wd.length ≤ 253) .hufTooManyWeights
    let x ← symOf .w1
    updState .w1 .r5
    let pos ← rpos .r5
    if pos < 0 then do
      let y ← symOf .w2
      pure (wd ++ [x, y])
    else do
      ensure (wd.length + 1 ≤ 253) .hufTooManyWeights
      let y ← symOf .w2
      updState .w2 .r5
      let pos ← rpos .r5
      if pos < 0 then do
        let z ← symOf .w1
        pure (wd ++ [x, y, z])
      else weightLoop fuel (wd ++ [x, y])

/-- FseWeights(a, hb, lim) (R192, R193): the weights and the end of the description. -/
def fseWeights (a hb lim : Nat) : Op (List Byte × Nat) := do
  let last := a + 1 + hb
  ensure (last ≤ lim) .hufTreeOverrun
  finit (a + 1) last
  let ws ← readNCount .hw
  buildTable .hw
  rinit .r5 ws (last - ws)
  initState .w1 .r5
  initState .w2 .r5
  let wd ← weightLoop 128 []
  pure (wd, last)

/-! ## HuffBuild (R194 to R197) -/

/-- The sum over the weights above 0 of 2^(w-1) (R194). -/
def weightSum (wd : List Byte) : Nat := (wd.map fun w => if w.toNat = 0 then 0 else 2 ^ (w.toNat - 1)).sum

/-- `ispow2(x)` (R8): `x >= 1` and one bit set. -/
def ispow2 (x : Nat) : Bool := x != 0 && 2 ^ highbit x == x

/-- The entries of the symbols of weight `w`, in ascending symbol order from `sym` (R197). -/
def entriesOfWeight (maxlen w : Nat) : (wd : List Byte) → (sym : Nat) → List HufEntry
  | [], _ => []
  | x :: wd, sym =>
    (if x.toNat = w then List.replicate (2 ^ (w - 1)) ⟨BitVec.ofNat 8 sym, BitVec.ofNat 4 (maxlen + 1 - w)⟩ else [])
      ++ entriesOfWeight maxlen w wd (sym + 1)

/-- HT.ENTRY from the complete weights: weights 1..maxlen in ascending order (R197). -/
def huffEntries (maxlen : Nat) (wd : List Byte) : List HufEntry :=
  (List.range maxlen).flatMap fun k => entriesOfWeight maxlen (k + 1) wd 0

/-- HuffBuild(WD, n) (R194 to R197). -/
def huffBuild (wd : List Byte) : Op Unit := do
  ensure (∀ x ∈ wd, x.toNat ≤ Config.hufMaxLen) .hufWeightRange
  let total := weightSum wd
  ensure (total ≠ 0) .hufNoWeights
  let maxlen := highbit total + 1
  ensure (maxlen ≤ Config.hufMaxLen) .hufMaxlen
  let rest := 2 ^ maxlen - total
  ensure (ispow2 rest = true) .hufNotSaturable
  let all := wd ++ [BitVec.ofNat 8 (highbit rest + 1)]
  ensure (2 ≤ all.countP fun x => x.toNat = 1) .hufRank1
  change fun s =>
    { s with
      w := all
      nw := BitVec.ofNat 9 all.length
      ht := ⟨true, BitVec.ofNat 4 maxlen, huffEntries maxlen all⟩ }

/-! ## HuffTree (R190) -/

/-- The weights of a description, in the form its header byte names (R190). -/
def readWeights (hb a lim : Nat) : Op (List Byte × Nat) := if hb < 128 then fseWeights a hb lim else rawWeights a hb lim

/-- HuffTree(a, lim) once the header byte is known (R190). -/
def huffTreeFrom (hb a lim : Nat) : Op Nat := do
  let out ← readWeights hb a lim
  huffBuild out.1
  pure (out.2 - a)

/-- HuffTree(a, lim) (R190). -/
def huffTree (a lim : Nat) : Op Nat := do
  ensure (a + 1 ≤ lim) .hufTreeOverrun
  let hb ← readIn a
  huffTreeFrom hb.toNat a lim

/-! ## Symbols and streams (R199, R200) -/

/-- HT.ENTRY[v]; an entry above the table is unspecified (R32, log 16). -/
def huffEntry (s : State) (v : Nat) : HufEntry :=
  (s.ht.entries[v]?).getD ⟨freeBits 8 s.draws (.htSym v), freeBits 4 s.draws (.htNb v)⟩

/-- HuffSym(r) (R199). -/
def huffSym (r : RSel) : Op Byte := do
  let m ← look fun s => s.ht.maxLen.toNat
  let v ← rpeek r m
  let e ← look fun s => huffEntry s v
  rconsume r e.nb.toNat
  let pos ← rpos r
  ensure (0 ≤ pos) .hufOverrun
  pure e.sym

/-- The `count` symbols of HuffStream (R200). -/
def huffSymbols (r : RSel) : (count dst : Nat) → Op Unit
  | 0, _ => pure ()
  | count + 1, dst => do
    let b ← huffSym r
    writeLit dst b
    huffSymbols r count (dst + 1)

/-- HuffStream(r, count, dst) (R200). -/
def huffStream (r : RSel) (count dst : Nat) : Op Unit := do
  huffSymbols r count dst
  let pos ← rpos r
  ensure (pos = 0) .hufNotConsumed

/-! ## Commands -/

/-- The write set of HUF_TREE (R313). -/
def hufTreeSet : List Element := [.fr, .dist, .ft .hw, .rr .r5, .st .w1, .st .w2, .w, .ht]

/-- HUF_TREE (R201). -/
def execHufTree (a0 a1 : Word) (s : State) : Result :=
  runCommand opcHufTree hufTreeSet (do
    checkRegion (arg a0) (arg a1)
    let v ← huffTree (arg a0) (arg a1)
    setRes v) s

/-- HUF_SYM (R202). -/
def execHufSym (r : BitVec 3) (s : State) : Result :=
  runCommand opcHufSym (setOf (readerOf? r) fun r => [.rrPos r]) (do
    let r ← selectReader r
    needHuffman
    needReader r
    let b ← huffSym r
    setRes b.toNat) s

/-- HUF_STREAM (R203). -/
def execHufStream (r : BitVec 3) (a0 a1 : Word) (s : State) : Result :=
  runCommand opcHufStream (setOf (readerOf? r) fun r => [.rrPos r, .litRange (arg a1) (arg a0)]) (do
    let r ← selectReader r
    ensure (arg a1 + arg a0 ≤ Config.litCap) .argRange
    needHuffman
    needReader r
    huffStream r (arg a0) (arg a1)) s

end Sys2Proof.Machine
end

