-- ==== Sys2Proof/Machine/Literals.lean ====
section
/-! DEFINITION. The literals-section decoder (44_literals.md) and its command LIT_DECODE. -/

namespace Sys2Proof.Machine

/-- Copies IN[src ..] to LIT[dst ..], `k` bytes in order (R221). -/
def copyLit : (k src dst : Nat) → Op Unit
  | 0, _, _ => pure ()
  | k + 1, src, dst => do
    let b ← readIn src
    writeLit dst b
    copyLit k (src + 1) (dst + 1)

/-- Writes one byte to LIT[dst ..], `k` times (R222). -/
def fillLit (b : Byte) : (k dst : Nat) → Op Unit
  | 0, _ => pure ()
  | k + 1, dst => do
    writeLit dst b
    fillLit b k (dst + 1)

/-- One stream of a 4-stream section: reader `r` over `len` bytes at `q`, `count` literals to LIT[dst ..] (R227). -/
def litStream (r : RSel) (q len count dst : Nat) : Op Unit := do
  rinit r q len
  huffStream r count dst

/-- The four streams after the tree description: jump table, checks, streams 1 to 4 in order (R227 to R230). -/
def fourStreams (p last regen : Nat) : Op Unit := do
  ensure (p + 6 ≤ last) .litJumpTable
  let s1 ← memRead p 2
  let s2 ← memRead (p + 2) 2
  let s3 ← memRead (p + 4) 2
  ensure (p + 6 + s1 + s2 + s3 + 1 ≤ last) .litJumpTable
  let s4 := last - p - 6 - s1 - s2 - s3
  let seg := (regen + 3) / 4
  let q := p + 6
  litStream .r0 q s1 seg 0
  litStream .r1 (q + s1) s2 seg seg
  litStream .r2 (q + s1 + s2) s3 seg (2 * seg)
  litStream .r3 (q + s1 + s2 + s3) s4 (regen - 3 * seg) (3 * seg)

/-- HT holds a table, or LIT_TREELESS_NO_TABLE (R223). -/
def needHeldTable : Op Unit := do
  let v ← look fun s => s.ht.valid
  ensure (v = true) .litTreelessNoTable

/-- The table of a coded section: a tree description at IN[p], or the table already held; the bytes it took are
returned (R223). -/
def bodyTable (h : LitHeader) (p last : Nat) : Op Nat :=
  if h.type = .compressed then huffTree p last
  else do
    needHeldTable
    pure 0

/-- The body of a Compressed or Treeless section: the tree, then one or four streams (R223, R226, R227). -/
def codedBody (h : LitHeader) (p last : Nat) : Op Unit := do
  let size ← bodyTable h p last
  if h.streams = 1 then litStream .r0 (p + size) (last - (p + size)) h.regen 0
  else fourStreams (p + size) last h.regen

/-- The size check that every type makes straight after its header (R224). -/
def checkRegen (regen : Nat) : Op Unit := do
  let m ← look fun s => s.blockMax.toNat
  ensure (regen ≤ m) .litTooLarge

/-- The body of a section whose header is known; it returns the section's size (R230). -/
def litBody (h : LitHeader) (a lim : Nat) : Op Nat :=
  match h.type with
  | .raw => do
    ensure (a + h.size + h.regen ≤ lim) .litRawBody
    copyLit h.regen (a + h.size) 0
    pure (h.size + h.regen)
  | .rle => do
    ensure (a + h.size + 1 ≤ lim) .litRleBody
    let b ← readIn (a + h.size)
    fillLit b h.regen 0
    pure (h.size + 1)
  | .compressed | .treeless => do
    ensure (h.streams = 1 ∨ 6 ≤ h.regen) .lit4sTooSmall
    ensure (a + h.size + h.comp ≤ lim) .litCompBody
    codedBody h (a + h.size) (a + h.size + h.comp)
    pure (h.size + h.comp)

/-- LitDecode(a, lim) from a header that is known to end at or before the limit, or to run past it (R230). -/
def litSection (h : LitHeader) (a lim : Nat) : Op Nat := do
  ensure (a + h.size ≤ lim) .litHeader
  checkRegen h.regen
  let size ← litBody h a lim
  change fun s => { s with litLen := BitVec.ofNat 18 h.regen }
  pure size

/-- LitDecode(a, lim) (R230). -/
def litDecode (a lim : Nat) : Op Nat := do
  ensure (a + 1 ≤ lim) .litHeader
  let b0 ← readIn a
  ensure (a + litHeaderSize b0 ≤ lim) .litHeader
  let bytes ← readBytes a (litHeaderSize b0)
  litSection (litHeader bytes) a lim

/-- The write set of LIT_DECODE (R313). -/
def litDecodeSet : List Element := hufTreeSet ++ [.rr .r0, .rr .r1, .rr .r2, .rr .r3, .lit, .litLen]

/-- LIT_DECODE (R231). -/
def execLitDecode (a0 a1 : Word) (s : State) : Result :=
  runCommand opcLitDecode litDecodeSet (do
    checkRegion (arg a0) (arg a1)
    let v ← litDecode (arg a0) (arg a1)
    setRes v) s

end Sys2Proof.Machine
end

