-- ==== Sys2Proof/Machine/Sequences.lean ====
section
/-! DEFINITION. The sequences-section decoder (45_sequences.md) and its commands SEQ_DECODE and SEQ_RESOLVE. -/

namespace Sys2Proof.Machine

/-! ## Code tables (R256, R257) -/

/-- LL_BASE (R256). -/
def llBaseTable : List Nat :=
  List.range 16 ++
    [16, 18, 20, 22, 24, 28, 32, 40, 48, 64, 128, 256, 512, 1024, 2048, 4096, 8192, 16384, 32768, 65536]

/-- LL_BITS (R256). -/
def llBitsTable : List Nat := List.replicate 16 0 ++ [1, 1, 1, 1, 2, 2, 3, 3, 4, 6, 7, 8, 9, 10, 11, 12, 13, 14, 15, 16]

/-- ML_BASE (R257). -/
def mlBaseTable : List Nat :=
  (List.range 32).map (fun c => c + 3) ++
    [35, 37, 39, 41, 43, 47, 51, 59, 67, 83, 99, 131, 259, 515, 1027, 2051, 4099, 8195, 16387, 32771, 65539]

/-- ML_BITS (R257). -/
def mlBitsTable : List Nat :=
  List.replicate 32 0 ++ [1, 1, 1, 1, 2, 2, 3, 3, 4, 4, 5, 7, 8, 9, 10, 11, 12, 13, 14, 15, 16]

/-- LL_BASE[c]; no code is above 35 (R263), and above it nothing is specified (log 16). -/
def llBase (c : Nat) : Nat := (llBaseTable[c]?).getD (Config.freeNat 0 (.llBase c))
/-- LL_BITS[c]. -/
def llBits (c : Nat) : Nat := (llBitsTable[c]?).getD (Config.freeNat 0 (.llBits c))
/-- ML_BASE[c]; no code is above 52 (R263), and above it nothing is specified (log 16). -/
def mlBase (c : Nat) : Nat := (mlBaseTable[c]?).getD (Config.freeNat 0 (.mlBase c))
/-- ML_BITS[c]. -/
def mlBits (c : Nat) : Nat := (mlBitsTable[c]?).getD (Config.freeNat 0 (.mlBits c))

/-! ## Offsets (R262) -/

/-- ResolveOffset(ofv, ll) on the cache: the offset and the new cache, or none where REP[0] - 1 = 0 (R262). -/
def resolveRep (rep : RepCache) (ofv ll : Nat) : Option (Nat × RepCache) :=
  if 3 < ofv then some (ofv - 3, ⟨BitVec.ofNat 32 (ofv - 3), rep.rep0, rep.rep1⟩)
  else
    match if ll = 0 then ofv else ofv - 1 with
    | 0 => some (rep.rep0.toNat, rep)
    | 1 => some (rep.rep1.toNat, ⟨rep.rep1, rep.rep0, rep.rep2⟩)
    | 2 => some (rep.rep2.toNat, ⟨rep.rep2, rep.rep0, rep.rep1⟩)
    | _ =>
      if rep.rep0.toNat - 1 = 0 then none
      else some (rep.rep0.toNat - 1, ⟨BitVec.ofNat 32 (rep.rep0.toNat - 1), rep.rep0, rep.rep1⟩)

/-- ResolveOffset(ofv, ll) (R262). -/
def resolveOffset (ofv ll : Nat) : Op Nat := do
  let rep ← look fun s => s.rep
  match resolveRep rep ofv ll with
  | none => raise .seqRepZero
  | some out => do
    change fun s => { s with rep := out.2 }
    pure out.1

/-! ## Tables (R254) -/

/-- The table of alphabet `t` in one of the four modes, its description at `p`; the address after it is returned
(R254). -/
def seqTable (t : TSel) (mode : BitVec 2) (p lim : Nat) : Op Nat :=
  match mode.toNat with
  | 0 => do
    loadPredef t
    buildTable t
    pure p
  | 1 => do
    ensure (p + 1 ≤ lim) .seqRleByte
    let b ← readIn p
    rleTable t b.toNat
    pure (p + 1)
  | 2 => do
    finit p lim
    let p' ← readNCount t
    buildTable t
    pure p'
  | _ => do
    repeatTable t
    pure p

/-! ## Sequences (R259 to R261) -/

/-- The reads of one sequence: Offset_Value, match length, literal length (R258, R259). -/
def seqReads : Op (Nat × Nat × Nat) := do
  let llc ← symOf .ll
  let ofc ← symOf .off
  let mlc ← symOf .ml
  let e ← rread .r4 ofc.toNat
  let m ← rread .r4 (mlBits mlc.toNat)
  let l ← rread .r4 (llBits llc.toNat)
  pure (2 ^ ofc.toNat + e, mlBase mlc.toNat + m, llBase llc.toNat + l)

/-- The state updates after a sequence, none after the last (R260). -/
def seqUpdates (last : Bool) : Op Unit :=
  if last then pure ()
  else do
    updState .ll .r4
    updState .ml .r4
    updState .off .r4

/-- One sequence (R259 to R263). -/
def seqStep (last : Bool) : Op Unit := do
  let v ← seqReads
  seqUpdates last
  let pos ← rpos .r4
  ensure (0 ≤ pos) .seqUnderflow
  let off ← resolveOffset v.1 v.2.2
  seqAppend v.2.2 off v.2.1

/-- The `k` sequences still to be decoded. -/
def seqLoop : (k : Nat) → Op Unit
  | 0 => pure ()
  | k + 1 => do
    seqStep (k == 0)
    seqLoop k

/-- The section from its modes byte on: tables, bitstream, states, sequences (R254, R255, R263). `p` is the address
after the modes byte. -/
def seqFromModes (m : Byte) (count p lim : Nat) : Op Unit := do
  ensure (modeReserved m = 0) .seqModesReserved
  let p ← seqTable .ll (modeLl m) p lim
  let p ← seqTable .off (modeOff m) p lim
  let p ← seqTable .ml (modeMl m) p lim
  rinit .r4 p (lim - p)
  initState .ll .r4
  initState .off .r4
  initState .ml .r4
  seqLoop count
  let pos ← rpos .r4
  ensure (pos = 0) .seqNotConsumed

/-- The modes byte: the one given, or IN[a]. -/
def modesByte (forced : Option Byte) (a : Nat) : Op Byte :=
  match forced with
  | some m => pure m
  | none => readIn a

/-- The section from its count on, in R263's order; `forced` is the modes byte where it is given and not read (log 14). The
byte 00 must be the section's only one (R252, R293). After any other count one more byte must lie below the limit (R263); for
80 00, which R250 reads as 0 with no check of its form, that byte is not the modes byte but one after a count of 0:
SEQ_TRAILING (R252, D27). That D27 goes before R263 there is a DESIGN CHOICE (log 13). -/
def seqFromCount (c : SeqCount) (forced : Option Byte) (a lim : Nat) : Op Unit := do
  ensure (a + c.size ≤ lim) .seqHeader
  if c.count = 0 ∧ c.size = 1 then ensure (a + 1 = lim) .seqTrailing
  else do
    ensure (a + c.size + 1 ≤ lim) .seqHeader
    ensure (c.count ≠ 0) .seqTrailing
    let m ← modesByte forced (a + c.size)
    seqFromModes m c.count (a + c.size + 1) lim

/-- `NBSEQ <- 0` (R263): the entries at or above NBSEQ are unspecified (R34). -/
def seqStart : Op Unit := change fun s => { s with seq := [], nbSeq := 0 }

/-- The count of the section at IN[a], after the checks that its bytes lie below the limit (R263). -/
def readSeqCount (a lim : Nat) : Op SeqCount := do
  ensure (a + 1 ≤ lim) .seqHeader
  let b0 ← readIn a
  ensure (a + seqCountSize b0 ≤ lim) .seqHeader
  let bytes ← readBytes a (seqCountSize b0)
  pure (seqCount bytes)

/-- SeqDecode(a, lim) (R263). -/
def seqDecode (a lim : Nat) : Op Unit := do
  seqStart
  let c ← readSeqCount a lim
  seqFromCount c none a lim

/-- `RES <- NBSEQ` (R264, R293). -/
def setResNbSeq : Op Unit := change fun s => { s with res := BitVec.ofNat 32 s.nbSeq.toNat }

/-! ## Commands -/

/-- The write set of SEQ_DECODE (R313). -/
def seqDecodeSet : List Element :=
  [.fr, .dist, .ft .ll, .ft .off, .ft .ml, .rr .r4, .st .ll, .st .off, .st .ml, .seq, .rep]

/-- SEQ_DECODE (R264). -/
def execSeqDecode (a0 a1 : Word) (s : State) : Result :=
  runCommand opcSeqDecode seqDecodeSet (do
    checkRegion (arg a0) (arg a1)
    seqDecode (arg a0) (arg a1)
    setResNbSeq) s

/-- SEQ_RESOLVE (R265). -/
def execSeqResolve (a0 a1 : Word) (s : State) : Result :=
  runCommand opcSeqResolve [] (do
    ensure (arg a0 ≠ 0) .argRange
    let v ← resolveOffset (arg a0) (arg a1)
    setRes v) s

end Sys2Proof.Machine
end

