-- ==== Sys2Proof/Machine/Control.lean ====
section
/-! DEFINITION. Session and block control (46_control.md): NOP, FRAME_RESET, SET_INLEN and DECODE_BLOCK. -/

namespace Sys2Proof.Machine

/-- NOP (R290). -/
def execNop (s : State) : Result := runUngated opcNop [] (pure ()) s

/-- FRAME_RESET (R291). -/
def execFrameReset (a0 : Word) (s : State) : Result :=
  runUngated opcFrameReset [] (do
    ensure (1 ≤ arg a0 ∧ arg a0 ≤ Config.blockMaxLimit) .argRange
    change (frameResetState (arg a0))) s

/-- SET_INLEN (R292). -/
def execSetInlen (a0 : Word) (s : State) : Result :=
  runCommand opcSetInlen [] (do
    ensure (arg a0 ≤ Config.inCap) .argRange
    change (setInLen (arg a0))) s

/-- The write set of DECODE_BLOCK (R313). -/
def decodeBlockSet : List Element := [.inLen] ++ litDecodeSet ++ seqDecodeSet

/-- DECODE_BLOCK (R293). -/
def execDecodeBlock (a0 : Word) (s : State) : Result :=
  runCommand opcDecodeBlock decodeBlockSet (do
    ensure (arg a0 ≤ Config.inCap) .argRange
    let m ← look fun s => s.blockMax.toNat
    ensure (arg a0 ≤ m) .blkTooLarge
    change (setInLen (arg a0))
    let used ← litDecode 0 (arg a0)
    seqDecode used (arg a0)
    setResNbSeq) s

end Sys2Proof.Machine
end

