-- ==== Sys2Proof/Machine/Elements.lean ====
section
/-! DEFINITION. The first-byte rows of the compressed-data format. R97: "These rows are syntax, not commands. Their
rule field names the rule that parses them." Running such a row is the command that parses it (LIT_DECODE, HUF_TREE or
SEQ_DECODE), run over IN[0 .. IN_LEN-1] with the row's header in the place of the bytes that stand there (log 14). -/

namespace Sys2Proof.Machine

/-- IN_LEN: the end of the region the host declared (R24). -/
def inputEnd : Op Nat := look fun s => s.inLen.toNat

/-- LIT_DECODE over the input, its header given (R230, R231). -/
def runLitHeader (h : LitHeader) (s : State) : Result :=
  runCommand opcLitDecode litDecodeSet (do
    let lim ← inputEnd
    let v ← litSection h 0 lim
    setRes v) s

/-- HUF_TREE over the input, its header byte given (R190, R201). -/
def runHufHeader (hb : Nat) (s : State) : Result :=
  runCommand opcHufTree hufTreeSet (do
    let lim ← inputEnd
    ensure (1 ≤ lim) .hufTreeOverrun
    let v ← huffTreeFrom hb 0 lim
    setRes v) s

/-- SEQ_DECODE over the input, its count given (R263, R264). -/
def runSeqCount (c : SeqCount) (s : State) : Result :=
  runCommand opcSeqDecode seqDecodeSet (do
    let lim ← inputEnd
    seqStart
    seqFromCount c none 0 lim
    setResNbSeq) s

/-- SEQ_DECODE over the input, its modes byte given (R263, R264). -/
def runModes (m : Byte) (s : State) : Result :=
  runCommand opcSeqDecode seqDecodeSet (do
    let lim ← inputEnd
    seqStart
    let c ← readSeqCount 0 lim
    seqFromCount c (some m) 0 lim
    setResNbSeq) s

/-- LITHDR_RAW_1B (R89). -/
def execLithdrRaw1b (size : BitVec 5) (s : State) : Result := runLitHeader (rawHeader 1 size.toNat) s
/-- LITHDR_RAW_2B (R89). -/
def execLithdrRaw2b (size : BitVec 12) (s : State) : Result := runLitHeader (rawHeader 2 size.toNat) s
/-- LITHDR_RAW_3B (R89). -/
def execLithdrRaw3b (size : BitVec 20) (s : State) : Result := runLitHeader (rawHeader 3 size.toNat) s
/-- LITHDR_RLE_1B (R89). -/
def execLithdrRle1b (size : BitVec 5) (s : State) : Result := runLitHeader (rleHeader 1 size.toNat) s
/-- LITHDR_RLE_2B (R89). -/
def execLithdrRle2b (size : BitVec 12) (s : State) : Result := runLitHeader (rleHeader 2 size.toNat) s
/-- LITHDR_RLE_3B (R89). -/
def execLithdrRle3b (size : BitVec 20) (s : State) : Result := runLitHeader (rleHeader 3 size.toNat) s
/-- LITHDR_COMP_1S_3B (R90). -/
def execLithdrComp1s3b (regen comp : BitVec 10) (s : State) : Result :=
  runLitHeader (compHeader 3 1 regen.toNat comp.toNat) s
/-- LITHDR_COMP_4S_3B (R90). -/
def execLithdrComp4s3b (regen comp : BitVec 10) (s : State) : Result :=
  runLitHeader (compHeader 3 4 regen.toNat comp.toNat) s
/-- LITHDR_COMP_4S_4B (R90). -/
def execLithdrComp4s4b (regen comp : BitVec 14) (s : State) : Result :=
  runLitHeader (compHeader 4 4 regen.toNat comp.toNat) s
/-- LITHDR_COMP_4S_5B (R90). -/
def execLithdrComp4s5b (regen comp : BitVec 18) (s : State) : Result :=
  runLitHeader (compHeader 5 4 regen.toNat comp.toNat) s
/-- LITHDR_TREELESS_1S_3B (R90). -/
def execLithdrTreeless1s3b (regen comp : BitVec 10) (s : State) : Result :=
  runLitHeader (treelessHeader 3 1 regen.toNat comp.toNat) s
/-- LITHDR_TREELESS_4S_3B (R90). -/
def execLithdrTreeless4s3b (regen comp : BitVec 10) (s : State) : Result :=
  runLitHeader (treelessHeader 3 4 regen.toNat comp.toNat) s
/-- LITHDR_TREELESS_4S_4B (R90). -/
def execLithdrTreeless4s4b (regen comp : BitVec 14) (s : State) : Result :=
  runLitHeader (treelessHeader 4 4 regen.toNat comp.toNat) s
/-- LITHDR_TREELESS_4S_5B (R90). -/
def execLithdrTreeless4s5b (regen comp : BitVec 18) (s : State) : Result :=
  runLitHeader (treelessHeader 5 4 regen.toNat comp.toNat) s
/-- HUFHDR_FSE (R92). -/
def execHufhdrFse (x : BitVec 7) (s : State) : Result := runHufHeader x.toNat s
/-- HUFHDR_RAW (R92). -/
def execHufhdrRaw (x : BitVec 7) (s : State) : Result := runHufHeader (128 + x.toNat) s
/-- SEQCNT_ZERO (R94). -/
def execSeqcntZero (s : State) : Result := runSeqCount (seqCount [0]) s
/-- SEQCNT_1B (R94). -/
def execSeqcnt1b (x : BitVec 7) (s : State) : Result := runSeqCount (seqCount [BitVec.ofNat 8 x.toNat]) s
/-- SEQCNT_2B (R94). -/
def execSeqcnt2b (x : BitVec 7) (b1 : Byte) (s : State) : Result :=
  runSeqCount (seqCount [BitVec.ofNat 8 (128 + x.toNat), b1]) s
/-- SEQCNT_3B (R94). -/
def execSeqcnt3b (b1 b2 : Byte) (s : State) : Result := runSeqCount (seqCount [0xFF, b1, b2]) s
/-- MODES (R94). -/
def execModes (ll off ml : BitVec 2) (s : State) : Result := runModes (packModes ll off ml) s

end Sys2Proof.Machine
end

