-- ==== Sys2Proof/Machine/Dispatch.lean ====
section
/-! DEFINITION. The dispatch: one meaning for each constructor of Instr. -/

namespace Sys2Proof.Machine

def exec (i : Instr) (s : State) : Host.Outcome State Fault Refusal :=
  match i with
  | .nop => Sys2Proof.Machine.execNop s
  | .frameReset a0 => Sys2Proof.Machine.execFrameReset a0 s
  | .setInlen a0 => Sys2Proof.Machine.execSetInlen a0 s
  | .decodeBlock a0 => Sys2Proof.Machine.execDecodeBlock a0 s
  | .brFinit a0 a1 => Sys2Proof.Machine.execBrFinit a0 a1 s
  | .brFpeek n => Sys2Proof.Machine.execBrFpeek n s
  | .brFread n => Sys2Proof.Machine.execBrFread n s
  | .brFalign => Sys2Proof.Machine.execBrFalign s
  | .brRinit r a0 a1 => Sys2Proof.Machine.execBrRinit r a0 a1 s
  | .brRpeek r n => Sys2Proof.Machine.execBrRpeek r n s
  | .brRread r n => Sys2Proof.Machine.execBrRread r n s
  | .brRconsume r n => Sys2Proof.Machine.execBrRconsume r n s
  | .brRstat r => Sys2Proof.Machine.execBrRstat r s
  | .fseNcount t => Sys2Proof.Machine.execFseNcount t s
  | .fsePredef t => Sys2Proof.Machine.execFsePredef t s
  | .fseBuild t => Sys2Proof.Machine.execFseBuild t s
  | .fseRle t a0 => Sys2Proof.Machine.execFseRle t a0 s
  | .fseRepeat t => Sys2Proof.Machine.execFseRepeat t s
  | .fseInitst x r => Sys2Proof.Machine.execFseInitst x r s
  | .fseSym x => Sys2Proof.Machine.execFseSym x s
  | .fseUpdst x r => Sys2Proof.Machine.execFseUpdst x r s
  | .hufTree a0 a1 => Sys2Proof.Machine.execHufTree a0 a1 s
  | .hufSym r => Sys2Proof.Machine.execHufSym r s
  | .hufStream r a0 a1 => Sys2Proof.Machine.execHufStream r a0 a1 s
  | .litDecode a0 a1 => Sys2Proof.Machine.execLitDecode a0 a1 s
  | .seqDecode a0 a1 => Sys2Proof.Machine.execSeqDecode a0 a1 s
  | .seqResolve a0 a1 => Sys2Proof.Machine.execSeqResolve a0 a1 s
  | .lithdrRaw1b size => Sys2Proof.Machine.execLithdrRaw1b size s
  | .lithdrRaw2b size => Sys2Proof.Machine.execLithdrRaw2b size s
  | .lithdrRaw3b size => Sys2Proof.Machine.execLithdrRaw3b size s
  | .lithdrRle1b size => Sys2Proof.Machine.execLithdrRle1b size s
  | .lithdrRle2b size => Sys2Proof.Machine.execLithdrRle2b size s
  | .lithdrRle3b size => Sys2Proof.Machine.execLithdrRle3b size s
  | .lithdrComp1s3b regen comp => Sys2Proof.Machine.execLithdrComp1s3b regen comp s
  | .lithdrComp4s3b regen comp => Sys2Proof.Machine.execLithdrComp4s3b regen comp s
  | .lithdrComp4s4b regen comp => Sys2Proof.Machine.execLithdrComp4s4b regen comp s
  | .lithdrComp4s5b regen comp => Sys2Proof.Machine.execLithdrComp4s5b regen comp s
  | .lithdrTreeless1s3b regen comp => Sys2Proof.Machine.execLithdrTreeless1s3b regen comp s
  | .lithdrTreeless4s3b regen comp => Sys2Proof.Machine.execLithdrTreeless4s3b regen comp s
  | .lithdrTreeless4s4b regen comp => Sys2Proof.Machine.execLithdrTreeless4s4b regen comp s
  | .lithdrTreeless4s5b regen comp => Sys2Proof.Machine.execLithdrTreeless4s5b regen comp s
  | .hufhdrFse x => Sys2Proof.Machine.execHufhdrFse x s
  | .hufhdrRaw x => Sys2Proof.Machine.execHufhdrRaw x s
  | .seqcntZero => Sys2Proof.Machine.execSeqcntZero s
  | .seqcnt1b x => Sys2Proof.Machine.execSeqcnt1b x s
  | .seqcnt2b x b1 => Sys2Proof.Machine.execSeqcnt2b x b1 s
  | .seqcnt3b b1 b2 => Sys2Proof.Machine.execSeqcnt3b b1 b2 s
  | .modes ll off ml => Sys2Proof.Machine.execModes ll off ml s

end Sys2Proof.Machine
end

