-- ==== Sys2Proof/Machine/Step.lean ====
section
/-! DEFINITION. One step: the core takes the next of the host's actions (R65, R72). -/

namespace Sys2Proof.Machine

/-- A command at the interface: decoded (R83, R84), then run. -/
def issue (c : Command) (s : State) : Host.Outcome State Fault Refusal :=
  match decodeCommand c with
  | .ok i => exec i s
  | .error r => rejectCommand (fieldOp c.word) r s

/-- One step. With nothing waiting, "An idle core holds its state indefinitely" (R323). -/
def step (s : State) : Host.Outcome State Fault Refusal :=
  match s.port with
  | [] => .next s
  | .writeIn a b :: rest => .next (hostWriteIn a.toNat b { s with port := rest })
  | .powerOn :: rest => .next (powerOnState { s with port := rest })
  | .command c :: rest => issue c { s with port := rest }

/-- Bytes written to IN from address `a` on. -/
def storeBytes (m : Memory) (a : Nat) : List Byte → Memory
  | [] => m
  | b :: bs => storeBytes (m.set a b) (a + 1) bs

/-- The command that parses an element of a format over the whole input (log 14). -/
def parserOf (f : Format) (n : Nat) : Command :=
  match f with
  | .lithdr => ⟨packWord opcLitDecode 0 0 0, 0, BitVec.ofNat 32 n⟩
  | .hufhdr => ⟨packWord opcHufTree 0 0 0, 0, BitVec.ofNat 32 n⟩
  | .seqcnt | .modes => ⟨packWord opcSeqDecode 0 0 0, 0, BitVec.ofNat 32 n⟩

/-- The length of the header a first byte begins, in the format it is read in. -/
def elementSize (b : Byte) : Nat :=
  match formatOfByte b with
  | .lithdr => litHeaderSize b
  | .hufhdr | .modes => 1
  | .seqcnt => seqCountSize b

/-- `s` with a table row's word placed so that the very next step runs it. A command row: the command, its argument
words 0, is the host's next action. An 8-bit row: its header, the later bytes 0, stands in IN from address 0, IN_LEN is
its length, and the next action is the command that parses it (log 15). -/
def State.withFetchWord (s : State) (nbits w : Nat) : State :=
  if nbits ≤ 8 then
    let b := BitVec.ofNat 8 w
    { s with
      inMem := storeBytes s.inMem 0 (leBytes 5 w)
      inLen := BitVec.ofNat 18 (elementSize b)
      port := .command (parserOf (formatOfByte b) (elementSize b)) :: s.port }
  else { s with port := .command (commandOfNat w) :: s.port }

/-- The duration of a command: "parameter `cmd_latency(cmd, state) : Nat`, read by no rule" (R350,
93_implementation_defined.md). NO BODY. -/
opaque cmdLatency : Command → State → Nat

end Sys2Proof.Machine
end

