-- ==== Sys2Proof/Safety.lean ====
section
/-! DEFINITION. The terms claims are stated in: the parts of the state and which of them an instruction may change,
and the invariants of the core (10_state.md R43 and the ranges the registers are declared with). -/

namespace Sys2Proof.Machine

/-! ## Parts of the state -/

/-- A part of the state: an element of R20, or a field of the model's own bookkeeping (port, eras, marks, draws). -/
inductive Part where
  | port | res | status | inLen | blockMax | inMem | inEra
  | fr | frStale
  | rr (r : RSel) | rrStale (r : RSel)
  | ft (t : TSel)
  | dist
  | st (x : SSel)
  | w | nw | ht | lit | litLen | seq | nbSeq | rep | draws
  deriving DecidableEq, Repr

/-- Part `p` holds in `t` what it holds in `s`. -/
def samePart (p : Part) (s t : State) : Prop :=
  match p with
  | .port => t.port = s.port
  | .res => t.res = s.res
  | .status => t.status = s.status
  | .inLen => t.inLen = s.inLen
  | .blockMax => t.blockMax = s.blockMax
  | .inMem => t.inMem = s.inMem
  | .inEra => t.inEra = s.inEra
  | .fr => t.fr = s.fr
  | .frStale => t.frStale = s.frStale
  | .rr r => t.rr.get r = s.rr.get r
  | .rrStale r => t.rrStale.get r = s.rrStale.get r
  | .ft x => t.ft.get x = s.ft.get x
  | .dist => t.dist = s.dist
  | .st x => t.st.get x = s.st.get x
  | .w => t.w = s.w
  | .nw => t.nw = s.nw
  | .ht => t.ht = s.ht
  | .lit => t.lit = s.lit
  | .litLen => t.litLen = s.litLen
  | .seq => t.seq = s.seq
  | .nbSeq => t.nbSeq = s.nbSeq
  | .rep => t.rep = s.rep
  | .draws => t.draws = s.draws

/-- The parts a selector adds, none where it is out of range. -/
def partsOf {α : Type} (v : Option α) (f : α → List Part) : List Part :=
  match v with
  | some x => f x
  | none => []

/-- A reverse reader with its mark. -/
def readerParts (r : RSel) : List Part := [.rr r, .rrStale r]

/-- The marks of all reverse readers. -/
def allMarks : List Part := [.frStale, .rrStale .r0, .rrStale .r1, .rrStale .r2, .rrStale .r3, .rrStale .r4, .rrStale .r5]

/-- The parts HUF_TREE may change (R201, R313). -/
def hufTreeParts : List Part :=
  [.status, .res, .draws, .fr, .frStale, .dist, .ft .hw, .rr .r5, .rrStale .r5, .st .w1, .st .w2, .w, .nw, .ht]

/-- The parts LIT_DECODE may change (R231, R313). -/
def litDecodeParts : List Part :=
  hufTreeParts ++ readerParts .r0 ++ readerParts .r1 ++ readerParts .r2 ++ readerParts .r3 ++ [.lit, .litLen]

/-- The parts SEQ_DECODE may change (R264, R313). -/
def seqDecodeParts : List Part :=
  [.status, .res, .draws, .fr, .frStale, .dist, .ft .ll, .ft .off, .ft .ml, .rr .r4, .rrStale .r4, .st .ll, .st .off,
    .st .ml, .seq, .nbSeq, .rep]

/-- The parts FRAME_RESET may change: every one but those R42 gives as "unchanged". -/
def frameResetParts : List Part :=
  [.res, .status, .blockMax, .fr, .frStale, .rr .r0, .rr .r1, .rr .r2, .rr .r3, .rr .r4, .rr .r5, .rrStale .r0,
    .rrStale .r1, .rrStale .r2, .rrStale .r3, .rrStale .r4, .rrStale .r5, .ft .ll, .ft .off, .ft .ml, .ft .hw, .dist,
    .st .ll, .st .off, .st .ml, .st .w1, .st .w2, .w, .nw, .ht, .lit, .litLen, .seq, .nbSeq, .rep, .draws]

/-- The parts an instruction may change, in success or in error: what its rule writes, and its write set of R313. -/
def mayChange : Instr → List Part
  | .nop => []
  | .frameReset _ => frameResetParts
  | .setInlen _ => [.status, .inLen] ++ allMarks
  | .decodeBlock _ => [.inLen] ++ allMarks ++ litDecodeParts ++ seqDecodeParts
  | .brFinit _ _ => [.status, .fr, .frStale]
  | .brFpeek _ => [.status, .res, .draws]
  | .brFread _ => [.status, .res, .draws, .fr]
  | .brFalign => [.status, .res, .fr]
  | .brRinit r _ _ => [.status, .draws] ++ partsOf (readerOf? r) readerParts
  | .brRpeek _ _ => [.status, .res, .draws]
  | .brRread r _ => [.status, .res, .draws] ++ partsOf (readerOf? r) fun r => [.rr r]
  | .brRconsume r _ => [.status] ++ partsOf (readerOf? r) fun r => [.rr r]
  | .brRstat _ => [.status, .res]
  | .fseNcount _ => [.status, .res, .draws, .fr, .dist]
  | .fsePredef _ => [.status, .dist]
  | .fseBuild t => [.status, .draws] ++ partsOf (tableOf? t) fun t => [.ft t]
  | .fseRle t _ => [.status, .draws] ++ partsOf (tableOf? t) fun t => [.ft t]
  | .fseRepeat _ => [.status, .draws]
  | .fseInitst x r =>
    [.status, .draws] ++ (partsOf (stateOf? x) fun x => [.st x]) ++ partsOf (readerOf? r) fun r => [.rr r]
  | .fseSym _ => [.status, .res]
  | .fseUpdst x r =>
    [.status, .draws] ++ (partsOf (stateOf? x) fun x => [.st x]) ++ partsOf (readerOf? r) fun r => [.rr r]
  | .hufTree _ _ => hufTreeParts
  | .hufSym r => [.status, .res, .draws] ++ partsOf (readerOf? r) fun r => [.rr r]
  | .hufStream r _ _ => [.status, .draws, .lit] ++ partsOf (readerOf? r) fun r => [.rr r]
  | .litDecode _ _ => litDecodeParts
  | .seqDecode _ _ => seqDecodeParts
  | .seqResolve _ _ => [.status, .res, .draws, .rep]
  | .lithdrRaw1b _ | .lithdrRaw2b _ | .lithdrRaw3b _ | .lithdrRle1b _ | .lithdrRle2b _ | .lithdrRle3b _
  | .lithdrComp1s3b _ _ | .lithdrComp4s3b _ _ | .lithdrComp4s4b _ _ | .lithdrComp4s5b _ _
  | .lithdrTreeless1s3b _ _ | .lithdrTreeless4s3b _ _ | .lithdrTreeless4s4b _ _
  | .lithdrTreeless4s5b _ _ => litDecodeParts
  | .hufhdrFse _ | .hufhdrRaw _ => hufTreeParts
  | .seqcntZero | .seqcnt1b _ | .seqcnt2b _ _ | .seqcnt3b _ _ | .modes _ _ _ => seqDecodeParts

/-- The OP that STATUS records for an instruction's error (R310); a format element's is that of the command that
parses it (log 14). -/
def opOf : Instr → BitVec 8
  | .nop => opcNop
  | .frameReset _ => opcFrameReset
  | .setInlen _ => opcSetInlen
  | .decodeBlock _ => opcDecodeBlock
  | .brFinit _ _ => opcBrFinit
  | .brFpeek _ => opcBrFpeek
  | .brFread _ => opcBrFread
  | .brFalign => opcBrFalign
  | .brRinit _ _ _ => opcBrRinit
  | .brRpeek _ _ => opcBrRpeek
  | .brRread _ _ => opcBrRread
  | .brRconsume _ _ => opcBrRconsume
  | .brRstat _ => opcBrRstat
  | .fseNcount _ => opcFseNcount
  | .fsePredef _ => opcFsePredef
  | .fseBuild _ => opcFseBuild
  | .fseRle _ _ => opcFseRle
  | .fseRepeat _ => opcFseRepeat
  | .fseInitst _ _ => opcFseInitst
  | .fseSym _ => opcFseSym
  | .fseUpdst _ _ => opcFseUpdst
  | .hufTree _ _ | .hufhdrFse _ | .hufhdrRaw _ => opcHufTree
  | .hufSym _ => opcHufSym
  | .hufStream _ _ _ => opcHufStream
  | .litDecode _ _
  | .lithdrRaw1b _ | .lithdrRaw2b _ | .lithdrRaw3b _ | .lithdrRle1b _ | .lithdrRle2b _ | .lithdrRle3b _
  | .lithdrComp1s3b _ _ | .lithdrComp4s3b _ _ | .lithdrComp4s4b _ _ | .lithdrComp4s5b _ _
  | .lithdrTreeless1s3b _ _ | .lithdrTreeless4s3b _ _ | .lithdrTreeless4s4b _ _
  | .lithdrTreeless4s5b _ _ => opcLitDecode
  | .seqDecode _ _ | .seqcntZero | .seqcnt1b _ | .seqcnt2b _ _ | .seqcnt3b _ _ | .modes _ _ _ => opcSeqDecode
  | .seqResolve _ _ => opcSeqResolve

/-! ## Invariants -/

/-- FR as R26 and R43 have it: inside IN, its position inside its region; and inside the declared input unless its
bytes were disturbed (R44). -/
def frOk (s : State) : Prop :=
  s.fr.valid = true →
    s.fr.base.toNat ≤ s.fr.lim.toNat ∧ s.fr.lim.toNat ≤ Config.inCap ∧
      s.fr.pos.toNat ≤ 8 * (s.fr.lim.toNat - s.fr.base.toNat) ∧
      (s.frStale = false → s.fr.lim.toNat ≤ s.inLen.toNat)

/-- RR[r] as R27 and R43 have it. -/
def rrOk (s : State) (r : RSel) : Prop :=
  (s.rr.get r).valid = true →
    1 ≤ (s.rr.get r).len.toNat ∧ readerInRange (s.rr.get r) = true ∧
      (s.rrStale.get r = false → (s.rr.get r).base.toNat + (s.rr.get r).len.toNat ≤ s.inLen.toNat)

/-- A distribution FSE_BUILD accepts: what ReadNCount and LoadPredef leave (R29, R150, R151, R152). -/
def distOk (d : Dist) : Prop :=
  5 ≤ d.al.toNat ∧ d.al.toNat ≤ maxLog d.tag ∧ 1 ≤ d.counts.length ∧ d.counts.length ≤ maxSym d.tag + 1 ∧
    d.nsym.toNat = d.counts.length ∧ (∀ c ∈ distCounts d, -1 ≤ c) ∧
    ((distCounts d).map Int.natAbs).sum = 2 ^ d.al.toNat

/-- An FSE table as R28 and R43 have it: 2^AL entries, each leading to entries of the table, its symbols in the
alphabet. -/
def tableOkFor (t : TSel) (f : FseTable) : Prop :=
  f.al.toNat ≤ maxLog t ∧ f.entries.length = 2 ^ f.al.toNat ∧
    ∀ e ∈ f.entries, e.nb.toNat ≤ f.al.toNat ∧ e.base.toNat + 2 ^ e.nb.toNat ≤ 2 ^ f.al.toNat ∧ e.sym.toNat ≤ maxSym t

/-- HT as R32 and R43 have it: the entries of the canonical code of W. -/
def huffOk (s : State) : Prop :=
  s.ht.valid = true →
    1 ≤ s.ht.maxLen.toNat ∧ s.ht.maxLen.toNat ≤ Config.hufMaxLen ∧ s.ht.entries.length = 2 ^ s.ht.maxLen.toNat ∧
      s.ht.entries = huffEntries s.ht.maxLen.toNat s.w ∧ s.nw.toNat = s.w.length ∧
      (∀ x ∈ s.w, x.toNat ≤ Config.hufMaxLen)

/-- The ranges the registers and memories are declared with (R24, R25, R33, R34, R60, R63). They hold after an error
too. -/
structure RangesOk (s : State) : Prop where
  inLen : s.inLen.toNat ≤ Config.inCap
  blockMax : 1 ≤ s.blockMax.toNat ∧ s.blockMax.toNat ≤ Config.blockMaxLimit
  litLen : s.litLen.toNat ≤ Config.litCap
  nbSeq : s.nbSeq.toNat ≤ Config.seqCap
  inMem : Memory.wf Config.inCap s.inMem = true
  lit : Memory.wf Config.litCap s.lit = true

/-- The readers, while no error is recorded: after one their fields may be unspecified, and no command but FRAME_RESET
acts (R43, R311). -/
structure ReadersOk (s : State) : Prop where
  ranges : RangesOk s
  fr : noError s = true → frOk s
  rr : noError s = true → ∀ r, rrOk s r

/-- The FSE tables and the staged distribution, while no error is recorded (R43). -/
structure TablesOk (s : State) : Prop where
  dist : noError s = true → s.dist.valid = true → distOk s.dist
  ft : noError s = true → ∀ t, (s.ft.get t).valid = true → tableOkFor t (s.ft.get t)

/-- STATUS as R23 has it: 0, or the code of one of the causes of R312 with its category. -/
def statusOk (s : State) : Prop := s.status = 0 ∨ ∃ c op, s.status = packStatus c op

/-- HT's invariant, the last of R43, while no error is recorded. -/
def HuffOk (s : State) : Prop := noError s = true → huffOk s

/-- While no error is recorded, no repeat offset and no resolved offset is 0 (R262: off = 0 is an error). -/
structure OffsetsOk (s : State) : Prop where
  rep : noError s = true → s.rep.rep0 ≠ 0 ∧ s.rep.rep1 ≠ 0 ∧ s.rep.rep2 ≠ 0
  seq : noError s = true → ∀ e ∈ s.seq, e.off ≠ 0

/-! ## The encodings of R80 to R86, written out

The model's decoder does not use these tables: claims hold it against them. -/

/-- The opcode map of R82: each OP with whether its command uses R, T / S and N. -/
def fieldUse : List (BitVec 8 × Bool × Bool × Bool) :=
  [(0x00, false, false, false), (0x01, false, false, false), (0x02, false, false, false), (0x03, false, false, false),
    (0x10, false, false, false), (0x11, false, false, true), (0x12, false, false, true), (0x13, false, false, false),
    (0x18, true, false, false), (0x19, true, false, true), (0x1A, true, false, true), (0x1B, true, false, true),
    (0x1C, true, false, false), (0x20, false, true, false), (0x21, false, true, false), (0x22, false, true, false),
    (0x23, false, true, false), (0x24, false, true, false), (0x28, true, true, false), (0x29, false, true, false),
    (0x2A, true, true, false), (0x30, false, false, false), (0x31, true, false, false), (0x32, true, false, false),
    (0x40, false, false, false), (0x50, false, false, false), (0x51, false, false, false)]

/-- The causes of R312 with their category and cause codes. -/
def causeTable : List (Cause × Nat × Nat) :=
  [(.badOp, 5, 1), (.badField, 5, 2), (.argRange, 5, 3), (.notReady, 5, 4), (.brFwdOverrun, 4, 16), (.litHeader, 4, 17),
    (.litRawBody, 4, 18), (.litRleBody, 4, 19), (.litCompBody, 4, 20), (.seqHeader, 4, 21), (.seqRleByte, 4, 22),
    (.brEmpty, 3, 32), (.brNoEndMark, 3, 33), (.fseAlTooLarge, 3, 34), (.fseZeroRunPastMax, 3, 35),
    (.fseNcountSum, 3, 36), (.fseSpread, 3, 37), (.fseRleSymbol, 3, 38), (.fseRepeatNoTable, 3, 39),
    (.hufTreeOverrun, 3, 40), (.hufTooManyWeights, 3, 41), (.hufWeightRange, 3, 42), (.hufNoWeights, 3, 43),
    (.hufMaxlen, 3, 44), (.hufNotSaturable, 3, 45), (.hufRank1, 3, 46), (.hufOverrun, 3, 47), (.hufNotConsumed, 3, 48),
    (.litTooLarge, 3, 49), (.lit4sTooSmall, 3, 50), (.litTreelessNoTable, 3, 51), (.litJumpTable, 3, 52),
    (.seqTrailing, 3, 53), (.seqUnderflow, 3, 54), (.seqNotConsumed, 3, 55), (.seqRepZero, 3, 56), (.blkTooLarge, 3, 57),
    (.seqModesReserved, 1, 64)]

/-- The selector R of a reader (R86). -/
def readerCode : RSel → BitVec 3
  | .r0 => 0
  | .r1 => 1
  | .r2 => 2
  | .r3 => 3
  | .r4 => 4
  | .r5 => 5

/-- The selector T of a table (R86). -/
def tableCode : TSel → BitVec 3
  | .ll => 0
  | .off => 1
  | .ml => 2
  | .hw => 3

/-- The selector S of a state (R86). -/
def stateCode : SSel → BitVec 3
  | .ll => 0
  | .off => 1
  | .ml => 2
  | .w1 => 3
  | .w2 => 4

/-! ## FSE tables (R153 to R156) -/

/-- How many entries symbol `x` occupies (R156). -/
def occupancy (counts : List Int) (x : Nat) : Nat :=
  if counts.getD x 0 = 0 then 0 else (max (counts.getD x 0) 1).toNat

/-- The symbols with count -1, in ascending order (R153). -/
def lowSymbols (counts : List Int) : List Nat := (List.range counts.length).filter fun x => counts.getD x 0 = -1

/-- The other symbols in ascending order, each as often as its count (R154). -/
def spreadSymbols (counts : List Int) : List Nat :=
  (List.range counts.length).flatMap fun x => List.replicate (counts.getD x 0).toNat x

/-- The slots the spread visits, in its order: the multiples of the step, those above `high` skipped (R154). -/
def spreadPositions (size low : Nat) : List Nat :=
  ((List.range size).map fun k => k * (size / 2 + size / 8 + 3) % size).filter fun p => p < size - low

/-- NEXT[s] when slot `u` is filled: its start value and the slots of the same symbol below `u` (R153, R155). -/
def slotCounter (counts : List Int) (entries : List FseEntry) (u : Nat) (x : Byte) : Nat :=
  (max (counts.getD x.toNat 0) 1).toNat + (entries.take u).countP fun e => e.sym = x

/-! ## What the bytes of IN say

The predicates below say, in the terms of the format alone, what a valid header, tree description, stream or section
is. Claims of completion take them as hypotheses on the state. -/

/-- Bit `k` of a byte. -/
def bitOf (b : Byte) (k : Nat) : Nat := (b.getLsbD k).toNat

/-- FBitAt(k) (R123). -/
def fBitAt (s : State) (k : Nat) : Nat :=
  if s.fr.base.toNat + k / 8 < s.fr.lim.toNat then bitOf (inByte s (s.fr.base.toNat + k / 8)) (k % 8) else 0

/-- The sum of R123: the n bits at FR.POS. -/
def fBits (s : State) (n : Nat) : Nat := ∑ i ∈ Finset.range n, fBitAt s (s.fr.pos.toNat + i) * 2 ^ i

/-- RBitAt(r, k) of R120, for a stream whose first byte is IN[base]. -/
def streamBit (s : State) (base : Nat) (k : Int) : Nat :=
  if k < 0 then 0 else bitOf (inByte s (base + k.toNat / 8)) (k.toNat % 8)

/-- The value of the n bits below position `pos` of a stream, the first the most significant (R121). -/
def streamBits (s : State) (base : Nat) (pos : Int) (n : Nat) : Nat :=
  ∑ i ∈ Finset.range n, streamBit s base (pos - 1 - i) * 2 ^ (n - 1 - i)

/-- A reverse stream of `len` bytes at IN[base] with `pos` useful bits (R120, R136). -/
def streamAt (s : State) (base len : Nat) (pos : Int) : Prop :=
  1 ≤ len ∧ inByte s (base + len - 1) ≠ 0 ∧ pos = 8 * (len - 1) + ((inByte s (base + len - 1)).toNat.log2 : Int)

/-- RInit over `len` bytes at IN[base] ends with cause `c` (R136). -/
def streamStops (s : State) (base len : Nat) (c : Cause) : Prop :=
  len = 0 ∧ c = .brEmpty ∨ 1 ≤ len ∧ inByte s (base + len - 1) = 0 ∧ c = .brNoEndMark

/-- IN holds the bytes `bs` from address `a` on. -/
def inBytes (s : State) (a : Nat) (bs : List Byte) : Prop := ∀ k (h : k < bs.length), inByte s (a + k) = bs[k]

/-! ### Normalized-count headers (R93, R150) -/

/-- The value and the width of the field that encodes count `c` with `rem` mass left, plus 1: the inverse of R150's
two branches, with threshold 2^highbit(rem). -/
def countField (rem : Nat) (c : Int) : Nat × Nat :=
  let nbits := rem.log2 + 1
  let threshold := 2 ^ rem.log2
  let max := 2 * threshold - 1 - rem
  let v := (c + 1).toNat
  if v < max then (v, nbits - 1) else if v < threshold then (v, nbits) else (v + max, nbits)

/-- The 2-bit fields of a run of `z` more zeros (R150). -/
def runFields (z : Nat) : List (Nat × Nat) := List.replicate (z / 3) (3, 2) ++ [(z % 3, 2)]

/-- The counts that the items of a header stand for. An item is a count `c`, after `z` more zeros where the count before
it (`prev0`) is 0; a count of 0 may follow a run too (R150). -/
def itemCounts : (items : List (Nat × Int)) → (prev0 : Bool) → List Int
  | [], _ => []
  | x :: items, prev0 => (if prev0 then List.replicate x.1 0 else []) ++ x.2 :: itemCounts items (x.2 == 0)

/-- The fields of the items, `rem` being the mass left, plus 1 (R150). -/
def ncountFields : (items : List (Nat × Int)) → (rem : Nat) → (prev0 : Bool) → List (Nat × Nat)
  | [], _, _ => []
  | x :: items, rem, prev0 =>
    (if prev0 then runFields x.1 else []) ++ countField rem x.2 :: ncountFields items (rem - x.2.natAbs) (x.2 == 0)

/-- The `w` bits from bit `k` of a forward region at IN[base], least significant first (R93). -/
def fieldAt (s : State) (base k w : Nat) : Nat :=
  ∑ i ∈ Finset.range w, bitOf (inByte s (base + (k + i) / 8)) ((k + i) % 8) * 2 ^ i

/-- The fields stand one after another from bit `k` of the region, and end at bit `last`. -/
def fieldsAt (s : State) (base : Nat) : (fields : List (Nat × Nat)) → (k last : Nat) → Prop
  | [], k, last => k = last
  | f :: fs, k, last => fieldAt s base k f.2 = f.1 ∧ fieldsAt s base fs (k + f.2) last

/-- A distribution of alphabet `t` that a header can hold: R150's accepted counts, the last of them not 0. -/
def distribution (t : TSel) (al : Nat) (counts : List Int) : Prop :=
  5 ≤ al ∧ al ≤ maxLog t ∧ counts.length ≤ maxSym t + 1 ∧ (∀ c ∈ counts, -1 ≤ c) ∧
    (counts.map Int.natAbs).sum = 2 ^ al ∧ counts.getLast? ≠ some 0

/-- Bits `k` to `last` of the region IN[base .. lim-1] are the normalized-count header of a distribution (R93, R150). -/
def ncountAt (s : State) (base lim k : Nat) (t : TSel) (al : Nat) (counts : List Int) (last : Nat) : Prop :=
  distribution t al counts ∧ last ≤ 8 * (lim - base) ∧
    ∃ items, itemCounts items false = counts ∧
      fieldsAt s base ((al - 5, 4) :: ncountFields items (2 ^ al + 1) false) k last

/-- What FPeek(n) returns at bit `k` of the region IN[base .. lim-1]: 0 for the bits past it (R123). -/
def peekAt (s : State) (base lim k n : Nat) : Nat :=
  ∑ i ∈ Finset.range n, (if base + (k + i) / 8 < lim then bitOf (inByte s (base + (k + i) / 8)) ((k + i) % 8) else 0) * 2 ^ i

/-- The count field at bit `k`, with `rem` the mass left plus 1, runs past the region, in whichever of its two widths
R150 takes. -/
def countCut (s : State) (base lim k rem : Nat) : Prop :=
  8 * (lim - base) <
    k + if peekAt s base lim k rem.log2 < 2 * 2 ^ rem.log2 - 1 - rem then rem.log2 else rem.log2 + 1

/-- The zero run at bit `k`, after `n` counts, ends the parse with cause `c`: a 2-bit field past the region, a run past
MAXSYM(t), or a count field after the run that is past the region (R150, R124). -/
def runStops (s : State) (base lim k : Nat) (t : TSel) (n rem : Nat) (c : Cause) : Prop :=
  ∃ j, fieldsAt s base (List.replicate j (3, 2)) k (k + 2 * j) ∧ k + 2 * j ≤ 8 * (lim - base) ∧
    if 8 * (lim - base) < k + 2 * j + 2 then c = .brFwdOverrun
    else
      fieldAt s base (k + 2 * j) 2 ≠ 3 ∧
        if maxSym t < n + 3 * j + fieldAt s base (k + 2 * j) 2 then c = .fseZeroRunPastMax
        else countCut s base lim (k + 2 * j + 2) rem ∧ c = .brFwdOverrun

/-- ReadNCount(t) at bit `k` of the region IN[base .. lim-1] ends with cause `c` (R150): at the accuracy log, or once it
has read some items that leave mass over. -/
def ncountStops (s : State) (base lim k : Nat) (t : TSel) (c : Cause) : Prop :=
  if 8 * (lim - base) < k + 4 then c = .brFwdOverrun
  else if maxLog t < fieldAt s base k 4 + 5 then c = .fseAlTooLarge
  else
    ∃ items last,
      let al := fieldAt s base k 4 + 5
      let counts := itemCounts items false
      let left := 2 ^ al - (counts.map Int.natAbs).sum
      fieldsAt s base (ncountFields items (2 ^ al + 1) false) (k + 4) last ∧ last ≤ 8 * (lim - base) ∧
        (∀ x ∈ counts, -1 ≤ x) ∧ 1 ≤ left ∧ counts.length ≤ maxSym t + 1 ∧
        if counts.length = maxSym t + 1 then c = .fseNcountSum
        else if counts.getLast? = some 0 then runStops s base lim last t counts.length (left + 1) c
        else countCut s base lim last (left + 1) ∧ c = .brFwdOverrun

/-- The entries the counts build (R153 to R155), whatever an unset slot would hold. -/
def builds (al : Nat) (counts : List Int) (entries : List FseEntry) : Prop :=
  ∀ unset, buildEntries al unset counts = some entries

/-! ### Huffman tree descriptions (R92, R190 to R197) -/

/-- The weights a two-state stream spells: states `u` (next to be emitted) and `v`, position `pos`. The last weight is
the other state's symbol, once an update has consumed more than the stream holds (R193). -/
def spellsWeights (s : State) (base : Nat) (entries : List FseEntry) : (wd : List Byte) → (u v : Nat) → (pos : Int) → Prop
  | [], _, _, _ => False
  | x :: wd, u, v, pos =>
    ∃ e, entries[u]? = some e ∧ e.sym = x ∧
      if pos < e.nb.toNat then ∃ f, entries[v]? = some f ∧ wd = [f.sym]
      else spellsWeights s base entries wd v (e.base.toNat + streamBits s base pos e.nb.toNat) (pos - e.nb.toNat)

/-- The description with header byte `hb` at IN[a] holds the raw weights `wd` and takes `size` bytes (R191). -/
def rawTreeAt (s : State) (hb a lim : Nat) (wd : List Byte) (size : Nat) : Prop :=
  128 ≤ hb ∧ hb < 256 ∧ wd.length = hb - 127 ∧ size = 1 + (wd.length + 1) / 2 ∧ a + size ≤ lim ∧
    ∀ i (h : i < wd.length),
      wd[i].toNat = if i % 2 = 0 then (inByte s (a + 1 + i / 2)).toNat / 16 else (inByte s (a + 1 + i / 2)).toNat % 16

/-- The description with header byte `hb` at IN[a] begins with the header of a distribution of accuracy log `al` that
builds `entries`, and its weight stream begins at `ws` (R192). -/
def weightTableAt (s : State) (hb a lim al : Nat) (entries : List FseEntry) (ws : Nat) : Prop :=
  hb < 128 ∧ a + 1 + hb ≤ lim ∧
    ∃ counts last,
      ncountAt s (a + 1) (a + 1 + hb) 0 .hw al counts last ∧ builds al counts entries ∧
        tableOkFor .hw ⟨true, BitVec.ofNat 4 al, entries⟩ ∧ ws = a + 1 + (last + 7) / 8

/-- The description with header byte `hb` at IN[a] holds the FSE-coded weights `wd` and takes `size` bytes (R192,
R193). -/
def fseTreeAt (s : State) (hb a lim : Nat) (wd : List Byte) (size : Nat) : Prop :=
  size = 1 + hb ∧ wd.length ≤ 255 ∧
    ∃ al entries ws pos,
      weightTableAt s hb a lim al entries ws ∧ streamAt s ws (a + 1 + hb - ws) pos ∧
        spellsWeights s ws entries wd (streamBits s ws pos al) (streamBits s ws (pos - al) al) (pos - 2 * al)

/-- A tree description of either form. -/
def treeAt (s : State) (hb a lim : Nat) (wd : List Byte) (size : Nat) : Prop :=
  rawTreeAt s hb a lim wd size ∨ fseTreeAt s hb a lim wd size

/-- Instruction `i` parses the tree description with header byte `hb` at IN[a .. lim-1]: HUF_TREE (R201), or a HUFHDR
row over the whole input (log 14). -/
def treeRegion (i : Instr) (s : State) (hb a lim : Nat) : Prop :=
  match i with
  | .hufTree a0 a1 => hb = (inByte s a0.toNat).toNat ∧ a = a0.toNat ∧ lim = a1.toNat ∧ a ≤ lim ∧ lim ≤ s.inLen.toNat
  | .hufhdrFse x => hb = x.toNat ∧ a = 0 ∧ lim = s.inLen.toNat
  | .hufhdrRaw x => hb = 128 + x.toNat ∧ a = 0 ∧ lim = s.inLen.toNat
  | _ => False

/-- The bytes a description takes, by its header byte (R92). -/
def treeSize (hb : Nat) : Nat := if hb < 128 then 1 + hb else 1 + (hb - 127 + 1) / 2

/-- The mass of a weight, 2^(w-1), 0 for weight 0 (R194). -/
def mass (w : Byte) : Nat := if w.toNat = 0 then 0 else 2 ^ (w.toNat - 1)

/-- The mass of a list of weights (R194). -/
def massOf (wd : List Byte) : Nat := (wd.map mass).sum

/-- The explicit weights pass the checks of R194 to R196: code length `maxLen`, synthesized weight `last`. -/
def weightsOk (wd : List Byte) (maxLen : Nat) (last : Byte) : Prop :=
  (∀ x ∈ wd, x.toNat ≤ 11) ∧ massOf wd ≠ 0 ∧ maxLen = (massOf wd).log2 + 1 ∧ maxLen ≤ 11 ∧ 1 ≤ last.toNat ∧
    massOf wd + mass last = 2 ^ maxLen ∧ 2 ≤ (wd ++ [last]).countP fun x => x.toNat = 1

/-- The first failing check of R194 to R196, in their order. -/
def weightsError (wd : List Byte) : Option Cause :=
  if ∃ x ∈ wd, 11 < x.toNat then some .hufWeightRange
  else if massOf wd = 0 then some .hufNoWeights
  else if 11 < (massOf wd).log2 + 1 then some .hufMaxlen
  else if ¬ ∃ k ∈ List.range 12, massOf wd + 2 ^ k = 2 ^ ((massOf wd).log2 + 1) then some .hufNotSaturable
  else if (wd ++ (List.range 12).filterMap fun k =>
      if massOf wd + 2 ^ k = 2 ^ ((massOf wd).log2 + 1) then some (BitVec.ofNat 8 (k + 1)) else none).countP
        (fun x => x.toNat = 1) < 2 then some .hufRank1
  else none

/-- `n` weights are emitted from states `u` (the next) and `v` at position `pos`, and no update has consumed more than
the stream holds (R193). -/
def weightsGoOn (s : State) (base : Nat) (entries : List FseEntry) : (n u v : Nat) → (pos : Int) → Prop
  | 0, _, _, _ => True
  | n + 1, u, v, pos =>
    ∃ e, entries[u]? = some e ∧ (e.nb.toNat : Int) ≤ pos ∧
      weightsGoOn s base entries n v (e.base.toNat + streamBits s base pos e.nb.toNat) (pos - e.nb.toNat)

/-- The FSE-coded description with header byte `hb` at IN[a] ends with cause `c`: in its header, at the end mark of its
stream, at the 255th weight with the stream not used up, or in a check of R194 to R196 (R192, R193). -/
def fseTreeStops (s : State) (hb a lim : Nat) (c : Cause) : Prop :=
  hb < 128 ∧ a + 1 + hb ≤ lim ∧
    (ncountStops s (a + 1) (a + 1 + hb) 0 .hw c ∨
      ∃ al entries ws,
        weightTableAt s hb a lim al entries ws ∧
          (streamStops s ws (a + 1 + hb - ws) c ∨
            ∃ pos, streamAt s ws (a + 1 + hb - ws) pos ∧
              (weightsGoOn s ws entries 254 (streamBits s ws pos al) (streamBits s ws (pos - al) al) (pos - 2 * al) ∧
                  c = .hufTooManyWeights ∨
                ∃ wd, wd.length ≤ 255 ∧ weightsError wd = some c ∧
                  spellsWeights s ws entries wd (streamBits s ws pos al) (streamBits s ws (pos - al) al) (pos - 2 * al))))

/-- HuffTree at IN[a .. lim-1], header byte `hb`, ends with cause `c` (R190 to R196). -/
def treeStops (s : State) (hb a lim : Nat) (c : Cause) : Prop :=
  lim < a + treeSize hb ∧ c = .hufTreeOverrun ∨
    (∃ wd size, rawTreeAt s hb a lim wd size ∧ weightsError wd = some c) ∨ fseTreeStops s hb a lim c

/-- HT as R197 publishes it for the complete weights. -/
def codeTable (maxLen : Nat) (all : List Byte) : HufTable := ⟨true, BitVec.ofNat 4 maxLen, huffEntries maxLen all⟩

/-- The first entry of symbol `x` of weight `w`: the mass of the symbols before it in the order of R197. -/
def firstEntry (all : List Byte) (x : Nat) : Nat :=
  let w := (all.getD x 0).toNat
  ∑ y ∈ Finset.range all.length,
    if ((all.getD y 0).toNat < w ∨ (all.getD y 0).toNat = w ∧ y < x) then mass (all.getD y 0) else 0

/-- The canonical code (R197, R198): each symbol owns the block of 2^(w-1) entries from its first one, with a code of
maxLen + 1 - w bits, and the blocks fill the table. -/
def canonicalCode (maxLen : Nat) (all : List Byte) (entries : List HufEntry) : Prop :=
  entries.length = 2 ^ maxLen ∧
    ∀ x, x < all.length → (all.getD x 0).toNat ≠ 0 →
      firstEntry all x % 2 ^ ((all.getD x 0).toNat - 1) = 0 ∧
        ∀ k, k < 2 ^ ((all.getD x 0).toNat - 1) →
          entries[firstEntry all x + k]? =
            some ⟨BitVec.ofNat 8 x, BitVec.ofNat 4 (maxLen + 1 - (all.getD x 0).toNat)⟩

/-- The stream at IN[base], from position `pos`, spells the literals `bs` in the code of `ht` and ends at `last`
(R199). -/
def spells (s : State) (ht : HufTable) (base : Nat) : (bs : List Byte) → (pos last : Int) → Prop
  | [], pos, last => pos = last
  | b :: bs, pos, last =>
    ∃ e, ht.entries[streamBits s base pos ht.maxLen.toNat]? = some e ∧ e.sym = b ∧ (e.nb.toNat : Int) ≤ pos ∧
      spells s ht base bs (pos - e.nb.toNat) last

/-! ### Literals sections (R88 to R91, R220 to R230) -/

/-- The header a LITHDR row begins (R89, R90). -/
def headerOf : Instr → Option LitHeader
  | .lithdrRaw1b n => some ⟨.raw, 1, 1, n.toNat, 0⟩
  | .lithdrRaw2b n => some ⟨.raw, 2, 1, n.toNat, 0⟩
  | .lithdrRaw3b n => some ⟨.raw, 3, 1, n.toNat, 0⟩
  | .lithdrRle1b n => some ⟨.rle, 1, 1, n.toNat, 0⟩
  | .lithdrRle2b n => some ⟨.rle, 2, 1, n.toNat, 0⟩
  | .lithdrRle3b n => some ⟨.rle, 3, 1, n.toNat, 0⟩
  | .lithdrComp1s3b n c => some ⟨.compressed, 3, 1, n.toNat, c.toNat⟩
  | .lithdrComp4s3b n c => some ⟨.compressed, 3, 4, n.toNat, c.toNat⟩
  | .lithdrComp4s4b n c => some ⟨.compressed, 4, 4, n.toNat, c.toNat⟩
  | .lithdrComp4s5b n c => some ⟨.compressed, 5, 4, n.toNat, c.toNat⟩
  | .lithdrTreeless1s3b n c => some ⟨.treeless, 3, 1, n.toNat, c.toNat⟩
  | .lithdrTreeless4s3b n c => some ⟨.treeless, 3, 4, n.toNat, c.toNat⟩
  | .lithdrTreeless4s4b n c => some ⟨.treeless, 4, 4, n.toNat, c.toNat⟩
  | .lithdrTreeless4s5b n c => some ⟨.treeless, 5, 4, n.toNat, c.toNat⟩
  | _ => none

/-- IN at `a` begins with the header of some LITHDR row. -/
def headerAt (s : State) (a : Nat) (h : LitHeader) : Prop :=
  ∃ row bs, headerOf row = some h ∧ encode row = .element .lithdr bs ∧ inBytes s a bs

/-- Instruction `i` decodes the literals section with header `h` at IN[a .. lim-1]: LIT_DECODE where A0, A1 give the
region and the header stands in it (R231); a LITHDR row over the whole input (log 14). -/
def litRegion (i : Instr) (s : State) (h : LitHeader) (a lim : Nat) : Prop :=
  match i with
  | .litDecode a0 a1 => a = a0.toNat ∧ lim = a1.toNat ∧ a ≤ lim ∧ lim ≤ s.inLen.toNat ∧ a + 1 ≤ lim ∧ headerAt s a h
  | i => headerOf i = some h ∧ a = 0 ∧ lim = s.inLen.toNat

/-- The first failing check of R223 to R225 that looks at no body byte, in the order of R230. -/
def litError (h : LitHeader) (a lim blockMax : Nat) (htValid : Bool) : Option Cause :=
  if lim < a + h.size then some .litHeader
  else if blockMax < h.regen then some .litTooLarge
  else
    match h.type with
    | .raw => if lim < a + h.size + h.regen then some .litRawBody else none
    | .rle => if lim < a + h.size + 1 then some .litRleBody else none
    | .compressed =>
      if h.streams = 4 ∧ h.regen < 6 then some .lit4sTooSmall
      else if lim < a + h.size + h.comp then some .litCompBody
      else none
    | .treeless =>
      if h.streams = 4 ∧ h.regen < 6 then some .lit4sTooSmall
      else if lim < a + h.size + h.comp then some .litCompBody
      else if htValid = false then some .litTreelessNoTable
      else none

/-- The bytes a literals header takes, by its first byte: the type in bits 1:0, the size format in bits 3:2 (R89, R90,
R230). -/
def litHeaderBytes (b0 : Byte) : Nat :=
  let sf := b0.toNat / 4 % 4
  if b0.toNat % 4 < 2 then (if sf % 2 = 0 then 1 else if sf = 1 then 2 else 3)
  else if sf < 2 then 3 else sf + 2

/-- One stream of `len` bytes at IN[base] that spells `bs` exactly (R200, R226). -/
def streamSpells (s : State) (ht : HufTable) (base len : Nat) (bs : List Byte) : Prop :=
  ∃ pos, streamAt s base len pos ∧ spells s ht base bs pos 0

/-- A little-endian 16-bit size of the jump table (R91). -/
def jumpSize (s : State) (a : Nat) : Nat := (inByte s a).toNat + 256 * (inByte s (a + 1)).toNat

/-- The streams at IN[p .. last-1] spell the literals `bs`: one stream (R226), or a jump table and four (R227,
R228). -/
def litStreams (s : State) (ht : HufTable) (streams p last : Nat) (bs : List Byte) : Prop :=
  if streams = 1 then streamSpells s ht p (last - p) bs
  else
    let s1 := jumpSize s p
    let s2 := jumpSize s (p + 2)
    let s3 := jumpSize s (p + 4)
    let seg := (bs.length + 3) / 4
    p + 6 + s1 + s2 + s3 + 1 ≤ last ∧
      streamSpells s ht (p + 6) s1 (bs.take seg) ∧
      streamSpells s ht (p + 6 + s1) s2 ((bs.drop seg).take seg) ∧
      streamSpells s ht (p + 6 + s1 + s2) s3 ((bs.drop (2 * seg)).take seg) ∧
      streamSpells s ht (p + 6 + s1 + s2 + s3) (last - (p + 6 + s1 + s2 + s3)) (bs.drop (3 * seg))

/-- The section with header `h` at IN[a] holds the literals `bs`, decoded with the table `ht` where it has
streams (R220 to R228). -/
def litContent (s : State) (h : LitHeader) (a : Nat) (bs : List Byte) (ht : HufTable) : Prop :=
  bs.length = h.regen ∧
    match h.type with
    | .raw => inBytes s (a + h.size) bs
    | .rle => ∃ b, inByte s (a + h.size) = b ∧ bs = List.replicate h.regen b
    | .compressed =>
      ∃ wd size maxLen last,
        treeAt s (inByte s (a + h.size)).toNat (a + h.size) (a + h.size + h.comp) wd size ∧
          weightsOk wd maxLen last ∧ ht = codeTable maxLen (wd ++ [last]) ∧
          litStreams s ht h.streams (a + h.size + size) (a + h.size + h.comp) bs
    | .treeless => ht = s.ht ∧ litStreams s ht h.streams (a + h.size) (a + h.size + h.comp) bs

/-- HuffStream for `count` literals over `len` bytes at IN[base] ends with cause `c`: at its end mark, in a code that is
cut short, or with bits left over (R136, R199, R200). -/
def literalStreamStops (s : State) (ht : HufTable) (base len count : Nat) (c : Cause) : Prop :=
  streamStops s base len c ∨
    ∃ pos bs last, streamAt s base len pos ∧ spells s ht base bs pos last ∧
      (bs.length = count ∧ last ≠ 0 ∧ c = .hufNotConsumed ∨
        bs.length < count ∧ c = .hufOverrun ∧
          ∃ e, ht.entries[streamBits s base last ht.maxLen.toNat]? = some e ∧ last < e.nb.toNat)

/-- The first of the streams (address, length, literals) that fails ends with cause `c` (R229). -/
def firstStreamStops (s : State) (ht : HufTable) : (streams : List (Nat × Nat × Nat)) → (c : Cause) → Prop
  | [], _ => False
  | x :: streams, c =>
    literalStreamStops s ht x.1 x.2.1 x.2.2 c ∨
      (∃ bs, bs.length = x.2.2 ∧ streamSpells s ht x.1 x.2.1 bs) ∧ firstStreamStops s ht streams c

/-- The streams at IN[p .. last-1] end with cause `c`: the one stream, the jump table, or one of the four (R226 to
R230). -/
def litStreamsStop (s : State) (ht : HufTable) (streams p last regen : Nat) (c : Cause) : Prop :=
  if streams = 1 then literalStreamStops s ht p (last - p) regen c
  else
    let s1 := jumpSize s p
    let s2 := jumpSize s (p + 2)
    let s3 := jumpSize s (p + 4)
    let seg := (regen + 3) / 4
    if last < p + 6 ∨ last < p + 6 + s1 + s2 + s3 + 1 then c = .litJumpTable
    else
      firstStreamStops s ht
        [(p + 6, s1, seg), (p + 6 + s1, s2, seg), (p + 6 + s1 + s2, s3, seg),
          (p + 6 + s1 + s2 + s3, last - (p + 6 + s1 + s2 + s3), regen - 3 * seg)] c

/-- The body of the section with header `h` at IN[a], whose size checks pass, ends with cause `c`: in its tree
description or in its streams (R223, R226 to R230). -/
def litBodyStops (s : State) (h : LitHeader) (a : Nat) (c : Cause) : Prop :=
  h.type = .compressed ∧
      (treeStops s (inByte s (a + h.size)).toNat (a + h.size) (a + h.size + h.comp) c ∨
        ∃ wd size maxLen last,
          treeAt s (inByte s (a + h.size)).toNat (a + h.size) (a + h.size + h.comp) wd size ∧
            weightsOk wd maxLen last ∧
            litStreamsStop s (codeTable maxLen (wd ++ [last])) h.streams (a + h.size + size) (a + h.size + h.comp)
              h.regen c) ∨
    h.type = .treeless ∧ litStreamsStop s s.ht h.streams (a + h.size) (a + h.size + h.comp) h.regen c

/-- The bytes the section takes (R220). -/
def litSize (h : LitHeader) : Nat :=
  match h.type with
  | .raw => h.size + h.regen
  | .rle => h.size + 1
  | .compressed | .treeless => h.size + h.comp

/-- LIT[dst ..] holds `bs`, and every other address of LIT holds what it held. -/
def litHolds (s t : State) (dst : Nat) (bs : List Byte) : Prop :=
  (∀ k (h : k < bs.length), litByte? t (dst + k) = some bs[k]) ∧
    ∀ a, a < dst ∨ dst + bs.length ≤ a → litByte? t a = litByte? s a

/-! ### Sequences sections (R94, R250 to R263) -/

/-- The count a SEQCNT row begins, with its length in bytes (R94; the order of the 2-byte form's bytes: log 27). -/
def countOf : Instr → Option (Nat × Nat)
  | .seqcntZero => some (0, 1)
  | .seqcnt1b x => some (x.toNat, 1)
  | .seqcnt2b x b1 => some (x.toNat * 256 + b1.toNat, 2)
  | .seqcnt3b b1 b2 => some (b1.toNat + b2.toNat * 256 + 0x7F00, 3)
  | _ => none

/-- IN at `a` begins with a count of `n`, `size` bytes long. -/
def countAt (s : State) (a n size : Nat) : Prop :=
  ∃ row bs, row.WellFormed = true ∧ countOf row = some (n, size) ∧ encode row = .element .seqcnt bs ∧ inBytes s a bs

/-- Instruction `i` decodes a sequences section of `n` ≥ 1 sequences whose modes byte is `m`, the bytes after it being
IN[p .. lim-1]: SEQ_DECODE (R264), a SEQCNT row over the whole input, or MODES (log 14). -/
def seqRegion (i : Instr) (s : State) (n : Nat) (m : Byte) (p lim : Nat) : Prop :=
  1 ≤ n ∧ p ≤ lim ∧
    match i with
    | .seqDecode a0 a1 =>
      ∃ size, countAt s a0.toNat n size ∧ m = inByte s (a0.toNat + size) ∧ p = a0.toNat + size + 1 ∧ lim = a1.toNat ∧
        lim ≤ s.inLen.toNat
    | .modes ll off ml => ∃ size, countAt s 0 n size ∧ m = packModes ll off ml ∧ p = size + 1 ∧ lim = s.inLen.toNat
    | i => ∃ size, i.WellFormed = true ∧ countOf i = some (n, size) ∧ m = inByte s size ∧ p = size + 1 ∧ lim = s.inLen.toNat

/-- The bytes a count takes, by its first byte (R94). -/
def countBytes (b0 : Byte) : Nat := if b0.toNat < 128 then 1 else if b0.toNat < 255 then 2 else 3

/-- IN[a .. lim-1] ends before the count that begins there does, or before the byte that follows a count other than the
single byte 00 (R263). -/
def headerCut (s : State) (a lim : Nat) : Prop :=
  lim < a + countBytes (inByte s a) ∨ ∃ n size, countAt s a n size ∧ ¬(n = 0 ∧ size = 1) ∧ lim < a + size + 1

/-- The header that instruction `i` decodes is cut: SEQ_DECODE's in its region (R263); a SEQCNT row's or MODES' in the
whole input (log 14). -/
def seqHeaderCut (i : Instr) (s : State) : Prop :=
  match i with
  | .seqDecode a0 a1 => a0.toNat ≤ a1.toNat ∧ a1.toNat ≤ s.inLen.toNat ∧ headerCut s a0.toNat a1.toNat
  | .modes _ _ _ => headerCut s 0 s.inLen.toNat
  | i =>
    i.WellFormed = true ∧
      ∃ n size, countOf i = some (n, size) ∧ (s.inLen.toNat < size ∨ ¬(n = 0 ∧ size = 1) ∧ s.inLen.toNat < size + 1)

/-- The description of table `t` in a mode at IN[p .. lim-1] gives `tab` and ends at `q` (R254). -/
def describes (s : State) (t : TSel) (mode : BitVec 2) (p lim : Nat) (tab : FseTable) (q : Nat) : Prop :=
  match mode.toNat with
  | 0 => q = p ∧ ∃ entries, builds (predefAl t) (predefCounts t) entries ∧ tab = ⟨true, BitVec.ofNat 4 (predefAl t), entries⟩
  | 1 => q = p + 1 ∧ q ≤ lim ∧ (inByte s p).toNat ≤ maxSym t ∧ tab = ⟨true, 0, [⟨inByte s p, 0, 0⟩]⟩
  | 2 =>
    ∃ al counts last entries,
      ncountAt s p lim 0 t al counts last ∧ builds al counts entries ∧ q = p + (last + 7) / 8 ∧
        tab = ⟨true, BitVec.ofNat 4 al, entries⟩
  | _ => q = p ∧ tab = s.ft.get t ∧ tab.valid = true

/-- The stream at IN[base], from position `pos` and states `l`, `o`, `m`, spells the raw sequences
(Offset_Value, match length, literal length) with the tables, and ends at `last` (R259, R260). -/
def spellsSequences (s : State) (base : Nat) (tl tf tm : FseTable) :
    (raw : List (Nat × Nat × Nat)) → (l o m : Nat) → (pos last : Int) → Prop
  | [], _, _, _, pos, last => pos = last
  | x :: raw, l, o, m, pos, last =>
    ∃ el eo em,
      tl.entries[l]? = some el ∧ tf.entries[o]? = some eo ∧ tm.entries[m]? = some em ∧
        let oc := eo.sym.toNat
        let mb := mlBits em.sym.toNat
        let lb := llBits el.sym.toNat
        let p1 := pos - oc
        let p2 := p1 - mb
        let p3 := p2 - lb
        x = (2 ^ oc + streamBits s base pos oc, mlBase em.sym.toNat + streamBits s base p1 mb,
          llBase el.sym.toNat + streamBits s base p2 lb) ∧
        if raw.isEmpty then 0 ≤ p3 ∧ p3 = last
        else
          let p4 := p3 - el.nb.toNat
          let p5 := p4 - em.nb.toNat
          let p6 := p5 - eo.nb.toNat
          0 ≤ p6 ∧
            spellsSequences s base tl tf tm raw (el.base.toNat + streamBits s base p3 el.nb.toNat)
              (eo.base.toNat + streamBits s base p5 eo.nb.toNat) (em.base.toNat + streamBits s base p4 em.nb.toNat) p6 last

/-- The raw sequences resolve, from the cache `rep`, to the entries of SEQ and leave the cache `out` (R262). -/
def resolves : (rep : RepCache) → (raw : List (Nat × Nat × Nat)) → (seq : List SeqEntry) → (out : RepCache) → Prop
  | rep, [], seq, out => seq = [] ∧ out = rep
  | rep, x :: raw, seq, out =>
    ∃ off rep' rest, resolveRep rep x.1 x.2.2 = some (off, rep') ∧
      seq = ⟨BitVec.ofNat 32 x.2.2, BitVec.ofNat 32 off, BitVec.ofNat 32 x.2.1⟩ :: rest ∧ resolves rep' raw rest out

/-- The section after its modes byte: three tables, each as R43 and R156 have it, then a stream that spells the raw
sequences to its end exactly (R254 to R261). -/
def seqContent (s : State) (m : Byte) (p lim : Nat) (tl tf tm : FseTable) (raw : List (Nat × Nat × Nat)) : Prop :=
  modeReserved m = 0 ∧ tableOkFor .ll tl ∧ tableOkFor .off tf ∧ tableOkFor .ml tm ∧
    ∃ p1 p2 p3 pos,
      describes s .ll (modeLl m) p lim tl p1 ∧ describes s .off (modeOff m) p1 lim tf p2 ∧
        describes s .ml (modeMl m) p2 lim tm p3 ∧ p3 ≤ lim ∧ streamAt s p3 (lim - p3) pos ∧
        spellsSequences s p3 tl tf tm raw (streamBits s p3 pos tl.al.toNat)
          (streamBits s p3 (pos - tl.al.toNat) tf.al.toNat)
          (streamBits s p3 (pos - tl.al.toNat - tf.al.toNat) tm.al.toNat)
          (pos - tl.al.toNat - tf.al.toNat - tm.al.toNat) 0

/-- The description of table `t` in a mode at IN[p .. lim-1] ends with cause `c` (R254). -/
def describeStops (s : State) (t : TSel) (mode : BitVec 2) (p lim : Nat) (c : Cause) : Prop :=
  match mode.toNat with
  | 0 => False
  | 1 => if lim < p + 1 then c = .seqRleByte else maxSym t < (inByte s p).toNat ∧ c = .fseRleSymbol
  | 2 => ncountStops s p lim 0 t c
  | _ => (s.ft.get t).valid = false ∧ c = .fseRepeatNoTable

/-- With `n` sequences still to come, REP being `rep`, the stream at IN[base] from position `pos` and states `l`, `o`,
`m` ends with cause `c`: a sequence reads below the stream, or resolves to offset 0, or bits are left over (R259 to
R263). -/
def sequencesStop (s : State) (base : Nat) (tl tf tm : FseTable) :
    (n : Nat) → (rep : RepCache) → (l o m : Nat) → (pos : Int) → (c : Cause) → Prop
  | 0, _, _, _, _, pos, c => pos ≠ 0 ∧ c = .seqNotConsumed
  | n + 1, rep, l, o, m, pos, c =>
    ∃ el eo em,
      tl.entries[l]? = some el ∧ tf.entries[o]? = some eo ∧ tm.entries[m]? = some em ∧
        let oc := eo.sym.toNat
        let mb := mlBits em.sym.toNat
        let lb := llBits el.sym.toNat
        let p1 := pos - oc
        let p2 := p1 - mb
        let p3 := p2 - lb
        let p4 := p3 - el.nb.toNat
        let p5 := p4 - em.nb.toNat
        let p6 := p5 - eo.nb.toNat
        let q := if n = 0 then p3 else p6
        if q < 0 then c = .seqUnderflow
        else
          match resolveRep rep (2 ^ oc + streamBits s base pos oc) (llBase el.sym.toNat + streamBits s base p2 lb) with
          | none => c = .seqRepZero
          | some out =>
            sequencesStop s base tl tf tm n out.2 (el.base.toNat + streamBits s base p3 el.nb.toNat)
              (eo.base.toNat + streamBits s base p5 eo.nb.toNat) (em.base.toNat + streamBits s base p4 em.nb.toNat) q c

/-- The section of `n` sequences after its modes byte ends with cause `c`: in a table description, at the end mark of
its stream, or in its sequences (R254 to R263). The tables built are each as R43 and R156 have it. -/
def seqStops (s : State) (m : Byte) (p lim n : Nat) (c : Cause) : Prop :=
  describeStops s .ll (modeLl m) p lim c ∨
    ∃ tl p1, describes s .ll (modeLl m) p lim tl p1 ∧
      (describeStops s .off (modeOff m) p1 lim c ∨
        ∃ tf p2, describes s .off (modeOff m) p1 lim tf p2 ∧
          (describeStops s .ml (modeMl m) p2 lim c ∨
            ∃ tm p3, describes s .ml (modeMl m) p2 lim tm p3 ∧ tableOkFor .ll tl ∧ tableOkFor .off tf ∧ tableOkFor .ml tm ∧
              (streamStops s p3 (lim - p3) c ∨
                ∃ pos, streamAt s p3 (lim - p3) pos ∧
                  sequencesStop s p3 tl tf tm n s.rep (streamBits s p3 pos tl.al.toNat)
                    (streamBits s p3 (pos - tl.al.toNat) tf.al.toNat)
                    (streamBits s p3 (pos - tl.al.toNat - tf.al.toNat) tm.al.toNat)
                    (pos - tl.al.toNat - tf.al.toNat - tm.al.toNat) c)))

/-! ## Ends of a command -/

/-- `t` holds what R42 gives in its FRAME_RESET column for a frame of block maximum `n`: the values it names, and IN and
IN_LEN as in `s`. -/
def frameStarted (n : Nat) (s t : State) : Prop :=
  t.status = 0 ∧ t.blockMax.toNat = n ∧ t.res = 0 ∧ t.fr = ⟨false, 0, 0, 0⟩ ∧
    (∀ r, t.rr.get r = ⟨false, 0, 0, 0⟩) ∧ (∀ x, (t.ft.get x).valid = false) ∧ t.dist.valid = false ∧
    (∀ x, t.st.get x = 0) ∧ t.nw = 0 ∧ t.ht.valid = false ∧ t.litLen = 0 ∧ t.nbSeq = 0 ∧ t.rep = ⟨1, 4, 8⟩ ∧
    t.inMem = s.inMem ∧ t.inEra = s.inEra ∧ t.inLen = s.inLen

/-- The command ended in error `c`, and STATUS is all it changed: RES, every register and every memory are as before
(the model's count of free values apart). -/
def onlyStatus (c : Cause) (op : BitVec 8) (s t : State) : Prop :=
  { t with draws := s.draws } = { s with status := packStatus c op }

end Sys2Proof.Machine
end

