-- ==== Sys2Proof/Certificates/Slice0/Obligations.lean ====
section
/-! DEFINITION. The statements about the model, from the numbered rules of spec/. Where a statement speaks of a command
as exec runs it, `noError s = true` says that no error is recorded (R311 is ErrorGateIgnoresCommands). -/

open Sys2Proof Sys2Proof.Machine

/-! ## Encoding (30_encoding.md) -/

/-- The words of R87's examples, and first bytes of each format, decode to what they stand for. -/
def Obligations.SpelledWordsDecode : Prop :=
  decode (.command ⟨0x00000000, 7, 9⟩) = .ok .nop ∧
  decode (.command ⟨0x00000001, 0x00020000, 0⟩) = .ok (.frameReset 131072) ∧
  decode (.command ⟨0x0002C41A, 0, 0⟩) = .ok (.brRread 4 11) ∧
  decode (.command ⟨0x00001020, 0, 0⟩) = .ok (.fseNcount 2) ∧
  decode (.command ⟨0x00000C28, 0, 0⟩) = .ok (.fseInitst 1 4) ∧
  decode (.command ⟨0x00000232, 100, 0x40⟩) = .ok (.hufStream 2 100 0x40) ∧
  decode (.command ⟨0x00000040, 0, 0x21⟩) = .ok (.litDecode 0 0x21) ∧
  decode (.element .lithdr [0x28]) = .ok (.lithdrRaw1b 5) ∧
  decode (.element .hufhdr [0x84]) = .ok (.hufhdrRaw 4) ∧
  decode (.element .seqcnt [0xFF, 0x02, 0x01]) = .ok (.seqcnt3b 0x02 0x01) ∧
  decode (.element .modes [0x54]) = .ok (.modes 1 1 1)

/-- Decoding an encoded well-formed instruction gives it back: all 48 constructors, every operand value. -/
def Obligations.DecodeEncodeRoundTrip : Prop :=
  ∀ i : Instr, i.WellFormed = true → decode (encode i) = .ok i

/-- What the decoder accepts is what the encoder writes: the command word is the encoder's, bit for bit, and the encoder's
bytes of an element are a prefix of those given. Of the argument words it says nothing: a decoded command does not carry
one that its rule does not read (log 21). -/
def Obligations.DecodedCodeIsTheEncoding : Prop :=
  (∀ (c : Command) (i : Instr), decode (.command c) = .ok i → ∃ b0 b1, encode i = .command ⟨c.word, b0, b1⟩) ∧
  ∀ (f : Format) (bytes : List Byte) (i : Instr), decode (.element f bytes) = .ok i →
    ∃ bs rest, encode i = .element f bs ∧ bytes = bs ++ rest

/-- R83. -/
def Obligations.UndefinedOpRaisesBadOp : Prop :=
  ∀ (c : Command) (s : State), noError s = true → fieldOp c.word ∉ fieldUse.map Prod.fst →
    issue c s = .next { s with status := packStatus .badOp (fieldOp c.word) }

/-- R84. -/
def Obligations.UnusedFieldRaisesBadField : Prop :=
  ∀ (c : Command) (s : State) (op : BitVec 8) (r t n : Bool), noError s = true → (op, r, t, n) ∈ fieldUse →
    fieldOp c.word = op →
    (fieldReserved c.word ≠ 0 ∨ r = false ∧ fieldR c.word ≠ 0 ∨ t = false ∧ fieldT c.word ≠ 0 ∨
      n = false ∧ fieldN c.word ≠ 0) →
    issue c s = .next { s with status := packStatus .badField op }

/-- R85 step 4, and R161 for FSE_PREDEF. -/
def Obligations.SelectorOutOfRangeRefused : Prop :=
  ∀ (i : Instr) (c : Command) (s : State), noError s = true → encode i = .command c → i.WellFormed = false →
    exec i s = .next { s with status := packStatus .argRange (opOf i) }

/-! ## Steps, STATUS and errors (60_exceptions.md) -/

/-- A step takes the next of the host's actions: a command that decodes runs as exec has it, a command that does not is
rejected, and with nothing waiting the state is held. -/
def Obligations.StepRunsDecodedCommand : Prop :=
  (∀ s : State, s.port = [] → step s = .next s) ∧
  (∀ (s : State) (c : Command) (rest : List HostAction) (i : Instr), s.port = .command c :: rest →
    decode (.command c) = .ok i → step s = exec i { s with port := rest }) ∧
  ∀ (s : State) (c : Command) (rest : List HostAction) (r : Reject), s.port = .command c :: rest →
    decode (.command c) = .error r → step s = rejectCommand (fieldOp c.word) r { s with port := rest }

/-- The codes of R312, in the fields of R23. -/
def Obligations.CauseCodes : Prop :=
  (∀ c : Cause, ∃ row ∈ causeTable, row.1 = c) ∧
  ∀ row ∈ causeTable, ∀ op : BitVec 8,
    (packStatus row.1 op).toNat = row.2.1 + 2 ^ 8 * row.2.2 + 2 ^ 16 * op.toNat

/-- R311. -/
def Obligations.ErrorGateIgnoresCommands : Prop :=
  ∀ (c : Command) (s : State), noError s = false →
    (c.word ≠ 1 ∨ c.a0 = 0 ∨ 131072 < c.a0.toNat → issue c s = .next s) ∧
    (c.word = 1 ∧ 1 ≤ c.a0.toNat ∧ c.a0.toNat ≤ 131072 → ∃ t, issue c s = .next t ∧ frameStarted c.a0.toNat s t)

/-- R310, R313: a command leaves STATUS, clears it (FRAME_RESET), or records one cause with its own OP; and where it
records one, RES, BLOCK_MAX and IN are as before. The OP of a format row is that of the command that parses it, the
model's choice (log 14). -/
def Obligations.StatusRecordsTheFirstError : Prop :=
  ∀ (i : Instr) (s t : State), noError s = true → exec i s = .next t →
    (t.status = s.status ∨ (∃ a0, i = .frameReset a0 ∧ t.status = 0) ∨ ∃ c, t.status = packStatus c (opOf i)) ∧
    (noError t = false → t.res = s.res ∧ t.blockMax = s.blockMax ∧ t.inMem = s.inMem ∧ t.inEra = s.inEra)

/-- R313, first item. -/
def Obligations.IllegalCommandChangesOnlyStatus : Prop :=
  ∀ (i : Instr) (s t : State) (c : Cause), noError s = true → exec i s = .next t →
    t.status = packStatus c (opOf i) → causeCategory c = .illegalCommand → t = { s with status := t.status }

/-- A VALID bit is cleared by FRAME_RESET alone, whatever error a command ends in: the model's reading of R41 and R313
(log 7), under which a bit that was 1 stays 1 although the failed command had set it again. -/
def Obligations.ValidBitsClearedOnlyByFrameReset : Prop :=
  ∀ (i : Instr) (s t : State), exec i s = .next t → (∀ a0, i ≠ .frameReset a0) →
    (s.fr.valid = true → t.fr.valid = true) ∧ (s.dist.valid = true → t.dist.valid = true) ∧
    (s.ht.valid = true → t.ht.valid = true) ∧ (∀ r, (s.rr.get r).valid = true → (t.rr.get r).valid = true) ∧
    ∀ x, (s.ft.get x).valid = true → (t.ft.get x).valid = true

/-- The frame of every instruction: a part of the state that is not among those it may change (`mayChange`, from its
rule and from its write set of R313) is unchanged, in success and in error. A format row's parts are those of the command
that parses it, the model's choice (log 14). Of LIT, HUF_STREAM changes no byte outside A1 .. A1+A0-1, however it ends and
whether or not its reader's bytes were disturbed (R203, R313). -/
def Obligations.WriteSetFrame : Prop :=
  (∀ (i : Instr) (s t : State), exec i s = .next t → ∀ p, p ∉ mayChange i → samePart p s t) ∧
  ∀ (r : BitVec 3) (a0 a1 : Word) (s t : State), exec (.hufStream r a0 a1) s = .next t →
    ∀ a, a < a1.toNat ∨ a1.toNat + a0.toNat ≤ a → litByte? t a = litByte? s a

/-! ## The host and reset (20_memory.md, 70_reset_and_hazards.md) -/

/-- HostWriteIN(a, b): IN[a] becomes b, no other byte of IN changes, and the readers whose range holds a are marked as
disturbed (R60, R62). The marks are the model's own (log 10). -/
def Obligations.HostWriteChangesOneByte : Prop :=
  ∀ (s : State) (a : BitVec 17) (b : Byte) (rest : List HostAction), s.port = .writeIn a b :: rest →
    ∃ t, step s = .next t ∧ t.port = rest ∧
      (∀ c, inByte t c = if c = a.toNat then b else inByte s c) ∧
      (∀ p, p ∉ [Part.port, .inMem] ++ allMarks → samePart p s t) ∧
      (t.frStale = true ↔
        s.frStale = true ∨ s.fr.valid = true ∧ s.fr.base.toNat ≤ a.toNat ∧ a.toNat < s.fr.lim.toNat) ∧
      ∀ r, (t.rrStale.get r = true ↔ s.rrStale.get r = true ∨
        (s.rr.get r).valid = true ∧ (s.rr.get r).base.toNat ≤ a.toNat ∧
          a.toNat < (s.rr.get r).base.toNat + (s.rr.get r).len.toNat)

/-- Power-on puts every element at the value of R42's power-on column; what is unspecified there holds what the model
chose (log 3) and is not stated. -/
def Obligations.PowerOnValues : Prop :=
  ∀ (s : State) (rest : List HostAction), s.port = .powerOn :: rest →
    ∃ t, step s = .next t ∧
      ∀ u ∈ [t, State.reset],
        u.res = 0 ∧ u.status = 0 ∧ u.inLen = 0 ∧ u.blockMax = 131072 ∧ u.fr = ⟨false, 0, 0, 0⟩ ∧
        (∀ r, u.rr.get r = ⟨false, 0, 0, 0⟩) ∧ (∀ x, (u.ft.get x).valid = false) ∧ u.dist.valid = false ∧
        (∀ x, u.st.get x = 0) ∧ u.nw = 0 ∧ u.ht.valid = false ∧ u.litLen = 0 ∧ u.nbSeq = 0 ∧ u.rep = ⟨1, 4, 8⟩

/-! ## Control (46_control.md) -/

/-- R290. -/
def Obligations.NopChangesNothing : Prop :=
  (∀ s : State, exec .nop s = .next s) ∧
  ∀ (c : Command) (s : State), fieldOp c.word = 0 →
    issue c s =
      .next (if c.word ≠ 0 ∧ noError s = true then { s with status := packStatus .badField 0x00 } else s)

/-- R291 with the FRAME_RESET column of R42; what that column calls unspecified is not stated (log 6). -/
def Obligations.FrameResetStartsAFrame : Prop :=
  ∀ (a0 : Word) (s : State),
    (1 ≤ a0.toNat ∧ a0.toNat ≤ 131072 →
      ∃ t, exec (.frameReset a0) s = .next t ∧ frameStarted a0.toNat s t ∧ t.port = s.port) ∧
    (a0.toNat < 1 ∨ 131072 < a0.toNat →
      exec (.frameReset a0) s =
        .next (if noError s = true then { s with status := packStatus .argRange 0x01 } else s))

/-- R292: IN_LEN alone changes, but for the marks of R62's hazard (R44), the model's own (log 10): a reader whose range
ends above the new length is marked, and every other mark keeps its value. -/
def Obligations.SetInlenDeclaresTheInput : Prop :=
  ∀ (a0 : Word) (s : State), noError s = true →
    (a0.toNat ≤ 131072 →
      ∃ t, exec (.setInlen a0) s = .next t ∧ t.inLen.toNat = a0.toNat ∧
        (∀ p, p ∉ [Part.inLen] ++ allMarks → samePart p s t) ∧
        (t.frStale = true ↔ s.frStale = true ∨ s.fr.valid = true ∧ a0.toNat < s.fr.lim.toNat) ∧
        ∀ r, (t.rrStale.get r = true ↔ s.rrStale.get r = true ∨
          (s.rr.get r).valid = true ∧ a0.toNat < (s.rr.get r).base.toNat + (s.rr.get r).len.toNat)) ∧
    (131072 < a0.toNat → exec (.setInlen a0) s = .next { s with status := packStatus .argRange 0x02 })

/-! ## Bit readers (41_bitreader.md) -/

/-- R127. -/
def Obligations.BrFinitPlacesTheForwardReader : Prop :=
  ∀ (a0 a1 : Word) (s : State), noError s = true →
    (a0.toNat ≤ a1.toNat ∧ a1.toNat ≤ s.inLen.toNat →
      ∃ b l, b.toNat = a0.toNat ∧ l.toNat = a1.toNat ∧
        exec (.brFinit a0 a1) s = .next { s with fr := ⟨true, b, l, 0⟩, frStale := false }) ∧
    (¬(a0.toNat ≤ a1.toNat ∧ a1.toNat ≤ s.inLen.toNat) →
      exec (.brFinit a0 a1) s = .next { s with status := packStatus .argRange 0x10 })

/-- R123, R128, for a reader whose bytes were not disturbed (DisturbedReadersReturnSomeValue has the others). -/
def Obligations.BrFpeekSumsForwardBits : Prop :=
  ∀ (n : BitVec 5) (s : State), noError s = true →
    (s.fr.valid = true → frOk s → s.frStale = false →
      exec (.brFpeek n) s = .next { s with res := BitVec.ofNat 32 (fBits s n.toNat) }) ∧
    (s.fr.valid = false → exec (.brFpeek n) s = .next { s with status := packStatus .notReady 0x11 })

/-- R124, R125, R129, for a reader whose bytes were not disturbed (DisturbedReadersReturnSomeValue has the others). -/
def Obligations.BrFreadConsumesForwardBits : Prop :=
  ∀ (n : BitVec 5) (s : State), noError s = true →
    (s.fr.valid = true → frOk s → s.frStale = false →
      s.fr.pos.toNat + n.toNat ≤ 8 * (s.fr.lim.toNat - s.fr.base.toNat) →
      ∃ q, q.toNat = s.fr.pos.toNat + n.toNat ∧
        exec (.brFread n) s = .next { s with res := BitVec.ofNat 32 (fBits s n.toNat), fr := { s.fr with pos := q } }) ∧
    (s.fr.valid = true → frOk s → s.frStale = false →
      8 * (s.fr.lim.toNat - s.fr.base.toNat) < s.fr.pos.toNat + n.toNat →
      ∃ t, exec (.brFread n) s = .next t ∧ onlyStatus .brFwdOverrun 0x12 s t) ∧
    (s.fr.valid = false → exec (.brFread n) s = .next { s with status := packStatus .notReady 0x12 })

/-- R126, R130. A reader over disturbed bytes aligns and returns its address as any other does: the model's reading of
R62 (log 11). -/
def Obligations.BrFalignRoundsUpToAByte : Prop :=
  ∀ s : State, noError s = true →
    (s.fr.valid = true → frOk s →
      ∃ q, q.toNat = (s.fr.pos.toNat + 7) / 8 * 8 ∧ q.toNat ≤ 8 * (s.fr.lim.toNat - s.fr.base.toNat) ∧
        exec .brFalign s =
          .next { s with res := BitVec.ofNat 32 (s.fr.base.toNat + q.toNat / 8), fr := { s.fr with pos := q } }) ∧
    (s.fr.valid = false → exec .brFalign s = .next { s with status := packStatus .notReady 0x13 })

/-- R131, R136. That the reader's mark of disturbance is cleared is the model's own (log 10). -/
def Obligations.BrRinitFindsTheEndMark : Prop :=
  ∀ (r : RSel) (a0 a1 : Word) (s : State), noError s = true → s.inLen.toNat ≤ 131072 →
    (s.inLen.toNat < a0.toNat + a1.toNat →
      exec (.brRinit (readerCode r) a0 a1) s = .next { s with status := packStatus .argRange 0x18 }) ∧
    (a0.toNat + a1.toNat ≤ s.inLen.toNat → a1 = 0 →
      ∃ t, exec (.brRinit (readerCode r) a0 a1) s = .next t ∧ onlyStatus .brEmpty 0x18 s t) ∧
    (a0.toNat + a1.toNat ≤ s.inLen.toNat → a1 ≠ 0 → inByte s (a0.toNat + a1.toNat - 1) = 0 →
      ∃ t, exec (.brRinit (readerCode r) a0 a1) s = .next t ∧ onlyStatus .brNoEndMark 0x18 s t) ∧
    ∀ pos, a0.toNat + a1.toNat ≤ s.inLen.toNat → streamAt s a0.toNat a1.toNat pos →
      ∃ rd, rd.valid = true ∧ rd.base.toNat = a0.toNat ∧ rd.len.toNat = a1.toNat ∧ rd.pos.toInt = pos ∧
        exec (.brRinit (readerCode r) a0 a1) s =
          .next { s with rr := s.rr.set r rd, rrStale := s.rrStale.clear r }

/-- R121, R132, for a reader whose bytes were not disturbed. -/
def Obligations.BrRpeekReadsBitsDownward : Prop :=
  ∀ (r : RSel) (n : BitVec 5) (s : State), noError s = true →
    ((s.rr.get r).valid = true → rrOk s r → s.rrStale.get r = false →
      exec (.brRpeek (readerCode r) n) s =
        .next { s with
          res := BitVec.ofNat 32 (streamBits s (s.rr.get r).base.toNat (s.rr.get r).pos.toInt n.toNat) }) ∧
    ((s.rr.get r).valid = false →
      exec (.brRpeek (readerCode r) n) s = .next { s with status := packStatus .notReady 0x19 })

/-- R121, R122, R133, for a reader whose bytes were not disturbed: no overrun is an error, and the position saturates
at -2^31. -/
def Obligations.BrRreadConsumesBitsDownward : Prop :=
  ∀ (r : RSel) (n : BitVec 5) (s : State), noError s = true →
    ((s.rr.get r).valid = true → rrOk s r → s.rrStale.get r = false →
      ∃ q, q.toInt = max ((s.rr.get r).pos.toInt - n.toNat) (-2 ^ 31) ∧
        exec (.brRread (readerCode r) n) s =
          .next { s with
            res := BitVec.ofNat 32 (streamBits s (s.rr.get r).base.toNat (s.rr.get r).pos.toInt n.toNat)
            rr := s.rr.set r { s.rr.get r with pos := q } }) ∧
    ((s.rr.get r).valid = false →
      exec (.brRread (readerCode r) n) s = .next { s with status := packStatus .notReady 0x1A })

/-- R134 and R135. A reader over disturbed bytes moves and reports its position as any other does: the model's reading of
R62 (log 11). -/
def Obligations.BrRconsumeMovesAndRstatReportsPos : Prop :=
  ∀ (r : RSel) (n : BitVec 5) (s : State), noError s = true →
    ((s.rr.get r).valid = true →
      (∃ q, q.toInt = max ((s.rr.get r).pos.toInt - n.toNat) (-2 ^ 31) ∧
        exec (.brRconsume (readerCode r) n) s = .next { s with rr := s.rr.set r { s.rr.get r with pos := q } }) ∧
      ∃ v : Word, v.toInt = (s.rr.get r).pos.toInt ∧ exec (.brRstat (readerCode r)) s = .next { s with res := v }) ∧
    ((s.rr.get r).valid = false →
      exec (.brRconsume (readerCode r) n) s = .next { s with status := packStatus .notReady 0x1B } ∧
      exec (.brRstat (readerCode r)) s = .next { s with status := packStatus .notReady 0x1C })

/-- R62 in the model (log 10, log 11): over disturbed bytes a read returns some n-bit value, moves its reader as any
read does, and changes nothing else; a read of 0 bits returns 0 (R122). BR_FREAD past the region raises BR_FWD_OVERRUN as
over any bytes, with STATUS alone changed. -/
def Obligations.DisturbedReadersReturnSomeValue : Prop :=
  ∀ (r : RSel) (n : BitVec 5) (s : State), noError s = true →
    (s.fr.valid = true → frOk s → s.frStale = true →
      (∃ v d, v < 2 ^ n.toNat ∧ exec (.brFpeek n) s = .next { s with res := BitVec.ofNat 32 v, draws := d }) ∧
      (s.fr.pos.toNat + n.toNat ≤ 8 * (s.fr.lim.toNat - s.fr.base.toNat) →
        ∃ v d q, v < 2 ^ n.toNat ∧ q.toNat = s.fr.pos.toNat + n.toNat ∧
          exec (.brFread n) s = .next { s with res := BitVec.ofNat 32 v, draws := d, fr := { s.fr with pos := q } }) ∧
      (8 * (s.fr.lim.toNat - s.fr.base.toNat) < s.fr.pos.toNat + n.toNat →
        ∃ t, exec (.brFread n) s = .next t ∧ onlyStatus .brFwdOverrun 0x12 s t)) ∧
    ((s.rr.get r).valid = true → rrOk s r → s.rrStale.get r = true →
      (∃ v d, v < 2 ^ n.toNat ∧
        exec (.brRpeek (readerCode r) n) s = .next { s with res := BitVec.ofNat 32 v, draws := d }) ∧
      ∃ v d q, v < 2 ^ n.toNat ∧ q.toInt = max ((s.rr.get r).pos.toInt - n.toNat) (-2 ^ 31) ∧
        exec (.brRread (readerCode r) n) s =
          .next { s with res := BitVec.ofNat 32 v, draws := d, rr := s.rr.set r { s.rr.get r with pos := q } })

/-! ## FSE (42_fse.md) -/

/-- FSE_NCOUNT reads back the distribution whose header stands at FR's position (R93, R150, R160): the fields are those
of the inverse of R150's two branches (`countField`, `runFields`). -/
def Obligations.FseNcountReadsTheHeader : Prop :=
  ∀ (t : TSel) (al : Nat) (counts : List Int) (last : Nat) (s : State), noError s = true →
    (s.fr.valid = true → frOk s → s.frStale = false →
      ncountAt s s.fr.base.toNat s.fr.lim.toNat s.fr.pos.toNat t al counts last →
      exec (.fseNcount (tableCode t)) s =
        .next { s with
          res := BitVec.ofNat 32 (s.fr.base.toNat + (last + 7) / 8)
          fr := { s.fr with pos := BitVec.ofNat 21 ((last + 7) / 8 * 8) }
          dist := ⟨true, t, BitVec.ofNat 4 al, BitVec.ofNat 9 counts.length, counts.map fun c => BitVec.ofInt 11 c⟩ }) ∧
    (s.fr.valid = false → exec (.fseNcount (tableCode t)) s = .next { s with status := packStatus .notReady 0x20 })

/-- R150, R124: where the header at FR's position stops the parse (`ncountStops`: a field past the region, an accuracy
log above MAXLOG, a zero run past MAXSYM, mass left over after MAXSYM), FSE_NCOUNT raises that cause. R313: after any error
of FSE_NCOUNT, DIST is as before, and so is every part but STATUS, FR.POS and the model's count of free values. -/
def Obligations.FseNcountErrorKeepsDist : Prop :=
  (∀ (t : TSel) (s : State) (c : Cause), noError s = true → s.fr.valid = true → frOk s → s.frStale = false →
    ncountStops s s.fr.base.toNat s.fr.lim.toNat s.fr.pos.toNat t c →
    ∃ u, exec (.fseNcount (tableCode t)) s = .next u ∧ u.status = packStatus c 0x20) ∧
  ∀ (t : BitVec 3) (s u : State), noError s = true → exec (.fseNcount t) s = .next u → noError u = false →
    u.dist = s.dist ∧ u.fr = { s.fr with pos := u.fr.pos } ∧
      ∀ p, p ∉ [Part.status, .draws, .fr] → samePart p s u

/-- R152, R161: the three rows, written out. -/
def Obligations.FsePredefLoadsTheRow : Prop :=
  ∀ s : State, noError s = true →
    exec (.fsePredef 0) s = .next { s with dist := ⟨true, .ll, 6, 36,
      [4, 3, 2, 2, 2, 2, 2, 2, 2, 2, 2, 2, 2, 1, 1, 1, 2, 2, 2, 2, 2, 2, 2, 2, 2, 3, 2, 1, 1, 1, 1, 1, -1, -1, -1, -1]⟩ } ∧
    exec (.fsePredef 1) s = .next { s with dist := ⟨true, .off, 5, 29,
      [1, 1, 1, 1, 1, 1, 2, 2, 2, 1, 1, 1, 1, 1, 1, 1, 1, 1, 1, 1, 1, 1, 1, 1, -1, -1, -1, -1, -1]⟩ } ∧
    exec (.fsePredef 2) s = .next { s with dist := ⟨true, .ml, 6, 53,
      [1, 4, 3, 2, 2, 2, 2, 2, 2, 1, 1, 1, 1, 1, 1, 1, 1, 1, 1, 1, 1, 1, 1, 1, 1, 1, 1] ++
        [1, 1, 1, 1, 1, 1, 1, 1, 1, 1, 1, 1, 1, 1, 1, 1, 1, 1, 1, -1, -1, -1, -1, -1, -1, -1]⟩ } ∧
    ∀ t : BitVec 3, 2 < t.toNat → exec (.fsePredef t) s = .next { s with status := packStatus .argRange 0x21 }

/-- R156, R162: FSE_BUILD completes on every distribution ReadNCount and LoadPredef leave, and the table has the
properties of R156. -/
def Obligations.FseBuildOccupancy : Prop :=
  ∀ (t : TSel) (s : State), noError s = true →
    (s.dist.valid = true → s.dist.tag = t → distOk s.dist →
      ∃ e : List FseEntry,
        exec (.fseBuild (tableCode t)) s = .next { s with ft := s.ft.set t ⟨true, s.dist.al, e⟩ } ∧
        e.length = 2 ^ s.dist.al.toNat ∧
        (∀ x : Byte, e.countP (fun a => a.sym = x) = occupancy (distCounts s.dist) x.toNat) ∧
        ∀ a ∈ e, a.nb.toNat ≤ s.dist.al.toNat ∧ a.base.toNat + 2 ^ a.nb.toNat - 1 ≤ 2 ^ s.dist.al.toNat - 1) ∧
    (s.dist.valid = false ∨ s.dist.tag ≠ t →
      exec (.fseBuild (tableCode t)) s = .next { s with status := packStatus .notReady 0x22 })

/-- R153 to R155: which symbol each slot holds, and its NB and BASE. -/
def Obligations.FseBuildPlacement : Prop :=
  ∀ (t : TSel) (s : State), noError s = true → s.dist.valid = true → s.dist.tag = t → distOk s.dist →
    ∃ e : List FseEntry,
      exec (.fseBuild (tableCode t)) s = .next { s with ft := s.ft.set t ⟨true, s.dist.al, e⟩ } ∧
      (∀ j x, (lowSymbols (distCounts s.dist))[j]? = some x →
        (e[2 ^ s.dist.al.toNat - 1 - j]?).map FseEntry.sym = some (BitVec.ofNat 8 x)) ∧
      ((spreadPositions (2 ^ s.dist.al.toNat) (lowSymbols (distCounts s.dist)).length).map fun p =>
          (e[p]?).map FseEntry.sym) =
        (spreadSymbols (distCounts s.dist)).map (fun x => some (BitVec.ofNat 8 x)) ∧
      ∀ u a, e[u]? = some a →
        let x := slotCounter (distCounts s.dist) e u a.sym
        a.nb.toNat = s.dist.al.toNat - x.log2 ∧ a.base.toNat = x * 2 ^ a.nb.toNat - 2 ^ s.dist.al.toNat

/-- R157, R158, R163, R164. -/
def Obligations.FseRleAndRepeat : Prop :=
  ∀ (t : TSel) (a0 : Word) (s : State), noError s = true →
    (a0.toNat ≤ maxSym t →
      exec (.fseRle (tableCode t) a0) s =
        .next { s with ft := s.ft.set t ⟨true, 0, [⟨BitVec.ofNat 8 a0.toNat, 0, 0⟩]⟩ }) ∧
    (maxSym t < a0.toNat →
      ∃ u, exec (.fseRle (tableCode t) a0) s = .next u ∧ u.status = packStatus .fseRleSymbol 0x23 ∧
        (u.ft.get t).valid = (s.ft.get t).valid) ∧
    ((s.ft.get t).valid = true → exec (.fseRepeat (tableCode t)) s = .next s) ∧
    ((s.ft.get t).valid = false →
      ∃ u, exec (.fseRepeat (tableCode t)) s = .next u ∧ onlyStatus .fseRepeatNoTable 0x24 s u)

/-- R159, R165, for a reader whose bytes were not disturbed. -/
def Obligations.FseInitstReadsAState : Prop :=
  ∀ (x : SSel) (r : RSel) (s : State), noError s = true →
    ((s.ft.get (tabOf x)).valid = true → tableOkFor (tabOf x) (s.ft.get (tabOf x)) →
      (s.rr.get r).valid = true → rrOk s r → s.rrStale.get r = false →
      ∃ v q,
        v.toNat = streamBits s (s.rr.get r).base.toNat (s.rr.get r).pos.toInt (s.ft.get (tabOf x)).al.toNat ∧
        v.toNat < 2 ^ (s.ft.get (tabOf x)).al.toNat ∧
        q.toInt = max ((s.rr.get r).pos.toInt - (s.ft.get (tabOf x)).al.toNat) (-2 ^ 31) ∧
        exec (.fseInitst (stateCode x) (readerCode r)) s =
          .next { s with st := s.st.set x v, rr := s.rr.set r { s.rr.get r with pos := q } }) ∧
    ((s.ft.get (tabOf x)).valid = false ∨ (s.rr.get r).valid = false →
      exec (.fseInitst (stateCode x) (readerCode r)) s = .next { s with status := packStatus .notReady 0x28 })

/-- R159, R166. -/
def Obligations.FseSymReportsTheSymbol : Prop :=
  ∀ (x : SSel) (s : State), noError s = true →
    (∀ e, (s.ft.get (tabOf x)).valid = true → (s.st.get x).toNat < 2 ^ (s.ft.get (tabOf x)).al.toNat →
      (s.ft.get (tabOf x)).entries[(s.st.get x).toNat]? = some e →
      exec (.fseSym (stateCode x)) s = .next { s with res := e.sym.setWidth 32 }) ∧
    ((s.ft.get (tabOf x)).valid = false ∨ 2 ^ (s.ft.get (tabOf x)).al.toNat ≤ (s.st.get x).toNat →
      exec (.fseSym (stateCode x)) s = .next { s with status := packStatus .notReady 0x29 })

/-- R159, R167, and R43's fourth item: the new state stays inside the table. For a reader whose bytes were not
disturbed. -/
def Obligations.FseUpdstAdvancesTheState : Prop :=
  ∀ (x : SSel) (r : RSel) (s : State), noError s = true →
    (∀ e, (s.ft.get (tabOf x)).valid = true → tableOkFor (tabOf x) (s.ft.get (tabOf x)) →
      (s.rr.get r).valid = true → rrOk s r → s.rrStale.get r = false →
      (s.ft.get (tabOf x)).entries[(s.st.get x).toNat]? = some e →
      ∃ v q,
        v.toNat = e.base.toNat + streamBits s (s.rr.get r).base.toNat (s.rr.get r).pos.toInt e.nb.toNat ∧
        v.toNat < 2 ^ (s.ft.get (tabOf x)).al.toNat ∧
        q.toInt = max ((s.rr.get r).pos.toInt - e.nb.toNat) (-2 ^ 31) ∧
        exec (.fseUpdst (stateCode x) (readerCode r)) s =
          .next { s with st := s.st.set x v, rr := s.rr.set r { s.rr.get r with pos := q } }) ∧
    ((s.ft.get (tabOf x)).valid = false ∨ (s.rr.get r).valid = false ∨
        2 ^ (s.ft.get (tabOf x)).al.toNat ≤ (s.st.get x).toNat →
      exec (.fseUpdst (stateCode x) (readerCode r)) s = .next { s with status := packStatus .notReady 0x2A })

/-! ## Huffman (43_huffman.md) -/

/-- HUF_TREE on a description with raw weights that pass R194 to R196: W, NW and HT take the completed weights and their
canonical code (R197, R198), RES the size; nothing else changes (R344). The HUFHDR_RAW row does the same over the whole
input, the model's choice (log 14). -/
def Obligations.HufTreeRawBuildsTheCode : Prop :=
  ∀ (i : Instr) (s : State) (hb a lim size maxLen : Nat) (wd : List Byte) (last : Byte), noError s = true →
    s.inLen.toNat ≤ 131072 → treeRegion i s hb a lim → rawTreeAt s hb a lim wd size → weightsOk wd maxLen last →
    canonicalCode maxLen (wd ++ [last]) (huffEntries maxLen (wd ++ [last])) ∧
    exec i s =
      .next { s with
        res := BitVec.ofNat 32 size
        w := wd ++ [last]
        nw := BitVec.ofNat 9 (wd.length + 1)
        ht := codeTable maxLen (wd ++ [last]) }

/-- HUF_TREE on a description with FSE-coded weights that pass R194 to R196 (R192, R193). The HUFHDR_FSE row does the same
over the whole input, the model's choice (log 14). -/
def Obligations.HufTreeFseBuildsTheCode : Prop :=
  ∀ (i : Instr) (s : State) (hb a lim size maxLen : Nat) (wd : List Byte) (last : Byte), noError s = true →
    s.inLen.toNat ≤ 131072 → treeRegion i s hb a lim → fseTreeAt s hb a lim wd size → weightsOk wd maxLen last →
    ∃ t, exec i s = .next t ∧ noError t = true ∧ t.res = BitVec.ofNat 32 size ∧ t.w = wd ++ [last] ∧
      t.nw = BitVec.ofNat 9 (wd.length + 1) ∧ t.ht = codeTable maxLen (wd ++ [last]) ∧
      t.fr.valid = true ∧ t.dist.valid = true ∧ (t.ft.get .hw).valid = true ∧ (t.rr.get .r5).valid = true

/-- R190 to R196: a tree description of either form ends in the error of its first failing check (`treeStops`): past its
limit, in the header or the stream of FSE-coded weights, too many of them, or a check of R194 to R196; HT.VALID keeps its
value. HUF_TREE over a region that is not inside the input raises ARG_RANGE (R201). The HUFHDR rows parse the whole input,
the model's choice (log 14). -/
def Obligations.HufTreeErrorsInOrder : Prop :=
  (∀ (i : Instr) (s : State) (hb a lim : Nat) (c : Cause), noError s = true → s.inLen.toNat ≤ 131072 →
    treeRegion i s hb a lim → treeStops s hb a lim c →
    ∃ t, exec i s = .next t ∧ t.status = packStatus c 0x30 ∧ t.ht.valid = s.ht.valid) ∧
  ∀ (a0 a1 : Word) (s : State), noError s = true → ¬(a0.toNat ≤ a1.toNat ∧ a1.toNat ≤ s.inLen.toNat) →
    exec (.hufTree a0 a1) s = .next { s with status := packStatus .argRange 0x30 }

/-- R199, R202, for a reader whose bytes were not disturbed. -/
def Obligations.HufSymDecodesOneLiteral : Prop :=
  ∀ (r : RSel) (s : State) (e : HufEntry), noError s = true →
    (s.ht.valid = true → (s.rr.get r).valid = true → rrOk s r → s.rrStale.get r = false →
      s.ht.entries[streamBits s (s.rr.get r).base.toNat (s.rr.get r).pos.toInt s.ht.maxLen.toNat]? = some e →
      ((e.nb.toNat : Int) ≤ (s.rr.get r).pos.toInt →
        ∃ q, q.toInt = (s.rr.get r).pos.toInt - e.nb.toNat ∧
          exec (.hufSym (readerCode r)) s =
            .next { s with res := e.sym.setWidth 32, rr := s.rr.set r { s.rr.get r with pos := q } }) ∧
      ((s.rr.get r).pos.toInt < e.nb.toNat →
        ∃ t, exec (.hufSym (readerCode r)) s = .next t ∧ t.status = packStatus .hufOverrun 0x31)) ∧
    (s.ht.valid = false ∨ (s.rr.get r).valid = false →
      exec (.hufSym (readerCode r)) s = .next { s with status := packStatus .notReady 0x31 })

/-- R200, R203: a stream that spells A0 literals to its end exactly writes them to LIT[A1 ..] and moves its reader to 0;
one that spells them without ending raises HUF_NOT_CONSUMED; one whose next code is cut short raises HUF_OVERRUN; and LIT
outside A1 .. A1+A0-1 keeps its bytes. For a reader whose bytes were not disturbed. -/
def Obligations.HufStreamWritesItsLiterals : Prop :=
  ∀ (r : RSel) (a0 a1 : Word) (s : State) (bs : List Byte) (last : Int), noError s = true →
    (a1.toNat + a0.toNat ≤ 131072 → s.ht.valid = true → (s.rr.get r).valid = true → rrOk s r →
      s.rrStale.get r = false → bs.length = a0.toNat →
      spells s s.ht (s.rr.get r).base.toNat bs (s.rr.get r).pos.toInt last →
      ∃ t, exec (.hufStream (readerCode r) a0 a1) s = .next t ∧
        (last = 0 →
          litHolds s t a1.toNat bs ∧ t.rr = s.rr.set r { s.rr.get r with pos := 0 } ∧
            ∀ p, p ∉ [Part.lit, .rr r] → samePart p s t) ∧
        (last ≠ 0 → t.status = packStatus .hufNotConsumed 0x32) ∧
        ∀ a, a < a1.toNat ∨ a1.toNat + a0.toNat ≤ a → litByte? t a = litByte? s a) ∧
    (∀ e, a1.toNat + a0.toNat ≤ 131072 → s.ht.valid = true → (s.rr.get r).valid = true → rrOk s r →
      s.rrStale.get r = false → bs.length < a0.toNat →
      spells s s.ht (s.rr.get r).base.toNat bs (s.rr.get r).pos.toInt last →
      s.ht.entries[streamBits s (s.rr.get r).base.toNat last s.ht.maxLen.toNat]? = some e → last < e.nb.toNat →
      ∃ t, exec (.hufStream (readerCode r) a0 a1) s = .next t ∧ t.status = packStatus .hufOverrun 0x32 ∧
        ∀ a, a < a1.toNat ∨ a1.toNat + a0.toNat ≤ a → litByte? t a = litByte? s a) ∧
    (131072 < a1.toNat + a0.toNat →
      exec (.hufStream (readerCode r) a0 a1) s = .next { s with status := packStatus .argRange 0x32 }) ∧
    (a1.toNat + a0.toNat ≤ 131072 → s.ht.valid = false ∨ (s.rr.get r).valid = false →
      exec (.hufStream (readerCode r) a0 a1) s = .next { s with status := packStatus .notReady 0x32 })

/-! ## Literals (44_literals.md) -/

/-- R221: LIT_DECODE copies the bytes after a Raw header, and so do the three LITHDR_RAW rows over the whole input, the
model's choice (log 14). LIT above the literals keeps its bytes (log 19). -/
def Obligations.RawLiteralsAreCopied : Prop :=
  ∀ (i : Instr) (s : State) (h : LitHeader) (a lim : Nat) (bs : List Byte), noError s = true → RangesOk s →
    litRegion i s h a lim → h.type = .raw → litError h a lim s.blockMax.toNat s.ht.valid = none →
    bs.length = h.regen → inBytes s (a + h.size) bs →
    ∃ t, exec i s = .next t ∧ litHolds s t 0 bs ∧ t.litLen.toNat = h.regen ∧ t.res.toNat = litSize h ∧
      ∀ p, p ∉ [Part.lit, .litLen, .res] → samePart p s t

/-- R222: LIT_DECODE repeats the byte after an RLE header, and so do the three LITHDR_RLE rows over the whole input, the
model's choice (log 14). LIT above the literals keeps its bytes (log 19). -/
def Obligations.RleLiteralsRepeatOneByte : Prop :=
  ∀ (i : Instr) (s : State) (h : LitHeader) (a lim : Nat), noError s = true → RangesOk s →
    litRegion i s h a lim → h.type = .rle → litError h a lim s.blockMax.toNat s.ht.valid = none →
    ∃ t, exec i s = .next t ∧ litHolds s t 0 (List.replicate h.regen (inByte s (a + h.size))) ∧
      t.litLen.toNat = h.regen ∧ t.res.toNat = litSize h ∧ ∀ p, p ∉ [Part.lit, .litLen, .res] → samePart p s t

/-- R223, R226 to R228: LIT_DECODE builds HT from the tree description of a Compressed section and decodes one or four
streams with it. The four LITHDR_COMP rows do the same over the whole input (log 14), and LIT above the literals keeps its
bytes (log 19): the model's choices. -/
def Obligations.CompressedLiteralsDecode : Prop :=
  ∀ (i : Instr) (s : State) (h : LitHeader) (a lim : Nat) (bs : List Byte) (ht : HufTable), noError s = true →
    RangesOk s → litRegion i s h a lim → h.type = .compressed →
    litError h a lim s.blockMax.toNat s.ht.valid = none → litContent s h a bs ht →
    ∃ t, exec i s = .next t ∧ noError t = true ∧ litHolds s t 0 bs ∧ t.litLen.toNat = h.regen ∧
      t.res.toNat = litSize h ∧ t.ht = ht

/-- R223, R226 to R228: LIT_DECODE decodes the one or four streams of a Treeless section with the HT held, which it leaves
as it is. The four LITHDR_TREELESS rows do the same over the whole input (log 14), and LIT above the literals keeps its
bytes (log 19): the model's choices. -/
def Obligations.TreelessLiteralsDecode : Prop :=
  ∀ (i : Instr) (s : State) (h : LitHeader) (a lim : Nat) (bs : List Byte), noError s = true →
    RangesOk s → litRegion i s h a lim → h.type = .treeless →
    litError h a lim s.blockMax.toNat s.ht.valid = none → litContent s h a bs s.ht →
    ∃ t, exec i s = .next t ∧ noError t = true ∧ litHolds s t 0 bs ∧ t.litLen.toNat = h.regen ∧
      t.res.toNat = litSize h ∧ t.ht = s.ht ∧ t.w = s.w ∧ t.fr = s.fr ∧ t.dist = s.dist

/-- R223 to R230: a literals section ends in the error of its first failing check: one that looks at no body byte
(`litError`), or, where those pass, one of its tree description, its jump table or its streams (`litBodyStops`). The 14
LITHDR rows decode the whole input, the model's choice (log 14). -/
def Obligations.LiteralsErrorsInOrder : Prop :=
  (∀ (i : Instr) (s : State) (h : LitHeader) (a lim : Nat) (c : Cause), noError s = true → RangesOk s →
    litRegion i s h a lim →
    litError h a lim s.blockMax.toNat s.ht.valid = some c ∨
      litError h a lim s.blockMax.toNat s.ht.valid = none ∧ litBodyStops s h a c →
    ∃ t, exec i s = .next t ∧ t.status = packStatus c 0x40) ∧
  ∀ (a0 a1 : Word) (s : State), noError s = true →
    (a0 = a1 → a1.toNat ≤ s.inLen.toNat →
      ∃ t, exec (.litDecode a0 a1) s = .next t ∧ t.status = packStatus .litHeader 0x40) ∧
    (a0.toNat < a1.toNat → a1.toNat ≤ s.inLen.toNat → s.inLen.toNat ≤ 131072 →
      a1.toNat < a0.toNat + litHeaderBytes (inByte s a0.toNat) →
      ∃ t, exec (.litDecode a0 a1) s = .next t ∧ t.status = packStatus .litHeader 0x40) ∧
    (¬(a0.toNat ≤ a1.toNat ∧ a1.toNat ≤ s.inLen.toNat) →
      exec (.litDecode a0 a1) s = .next { s with status := packStatus .argRange 0x40 })

/-! ## Sequences (45_sequences.md) -/

/-- R252: SEQ_DECODE over a section that begins with 00; the SEQCNT_ZERO row over the whole input, the model's choice
(log 14). -/
def Obligations.ZeroSequenceCountEndsTheSection : Prop :=
  ∀ (i : Instr) (s : State) (a lim : Nat), noError s = true → RangesOk s →
    (∃ a0 a1, i = .seqDecode a0 a1 ∧ a = a0.toNat ∧ lim = a1.toNat ∧ lim ≤ s.inLen.toNat ∧ inByte s a = 0) ∨
      i = .seqcntZero ∧ a = 0 ∧ lim = s.inLen.toNat →
    (lim = a + 1 →
      ∃ t, exec i s = .next t ∧ t.nbSeq = 0 ∧ t.seq = [] ∧ t.res = 0 ∧
        ∀ p, p ∉ [Part.res, .seq, .nbSeq] → samePart p s t) ∧
    (a + 1 < lim → ∃ t, exec i s = .next t ∧ t.status = packStatus .seqTrailing 0x50)

/-- R256, R257: LL_BASE, LL_BITS, ML_BASE and ML_BITS, written out. R254 to R262: SEQ_DECODE on a section of n ≥ 1 sequences
in any of the four modes; and the SEQCNT_1B, 2B and 3B rows and MODES over the whole input, the model's choice (log 14). The
order of a 2-byte count's bytes is the model's choice between rules (log 27). -/
def Obligations.SequencesDecode : Prop :=
  ((List.range 36).map llBase =
      [0, 1, 2, 3, 4, 5, 6, 7, 8, 9, 10, 11, 12, 13, 14, 15, 16, 18, 20, 22, 24, 28, 32, 40, 48, 64, 128, 256, 512, 1024, 2048] ++
        [4096, 8192, 16384, 32768, 65536] ∧
    (List.range 36).map llBits =
      [0, 0, 0, 0, 0, 0, 0, 0, 0, 0, 0, 0, 0, 0, 0, 0, 1, 1, 1, 1, 2, 2, 3, 3, 4, 6, 7, 8, 9, 10, 11, 12, 13, 14, 15, 16] ∧
    (List.range 53).map mlBase =
      [3, 4, 5, 6, 7, 8, 9, 10, 11, 12, 13, 14, 15, 16, 17, 18, 19, 20, 21, 22, 23, 24, 25, 26, 27, 28, 29, 30, 31, 32, 33, 34] ++
        [35, 37, 39, 41, 43, 47, 51, 59, 67, 83, 99, 131, 259, 515, 1027, 2051, 4099, 8195, 16387, 32771, 65539] ∧
    (List.range 53).map mlBits =
      [0, 0, 0, 0, 0, 0, 0, 0, 0, 0, 0, 0, 0, 0, 0, 0, 0, 0, 0, 0, 0, 0, 0, 0, 0, 0, 0, 0, 0, 0, 0, 0] ++
        [1, 1, 1, 1, 2, 2, 3, 3, 4, 4, 5, 7, 8, 9, 10, 11, 12, 13, 14, 15, 16]) ∧
  ∀ (i : Instr) (s : State) (n p lim : Nat) (m : Byte) (tl tf tm : FseTable) (raw : List (Nat × Nat × Nat))
    (entries : List SeqEntry) (rep : RepCache), noError s = true → RangesOk s → seqRegion i s n m p lim →
    raw.length = n → seqContent s m p lim tl tf tm raw → resolves s.rep raw entries rep →
    ∃ t, exec i s = .next t ∧ noError t = true ∧ t.seq = entries ∧ t.nbSeq.toNat = n ∧ t.res.toNat = n ∧
      t.rep = rep ∧ t.ft.get .ll = tl ∧ t.ft.get .off = tf ∧ t.ft.get .ml = tm

/-- R253 to R263: a sequences section ends in the error of its first failing check: a count or modes byte past the limit
(`seqHeaderCut`), reserved mode bits, then a table description, the stream or a sequence (`seqStops`). The SEQCNT rows and
MODES decode the whole input (log 14), the bytes of a 2-byte count are taken in R94's order (log 27), and the bytes 80 00
with a byte after them are left to LongZeroCountNeverCompletes (log 13): these are the model's choices. -/
def Obligations.SequencesErrorsInOrder : Prop :=
  (∀ (i : Instr) (s : State), noError s = true → RangesOk s → seqHeaderCut i s →
    ∃ t, exec i s = .next t ∧ t.status = packStatus .seqHeader 0x50) ∧
  (∀ (i : Instr) (s : State) (n p lim : Nat) (m : Byte), noError s = true → RangesOk s → seqRegion i s n m p lim →
    (modeReserved m ≠ 0 → ∃ t, exec i s = .next t ∧ t.status = packStatus .seqModesReserved 0x50) ∧
    ∀ c, modeReserved m = 0 → seqStops s m p lim n c → ∃ t, exec i s = .next t ∧ t.status = packStatus c 0x50) ∧
  ∀ (a0 a1 : Word) (s : State), noError s = true →
    (a0 = a1 → a1.toNat ≤ s.inLen.toNat →
      ∃ t, exec (.seqDecode a0 a1) s = .next t ∧ t.status = packStatus .seqHeader 0x50) ∧
    (¬(a0.toNat ≤ a1.toNat ∧ a1.toNat ≤ s.inLen.toNat) →
      exec (.seqDecode a0 a1) s = .next { s with status := packStatus .argRange 0x50 })

/-- A count of 0 in the 2-byte form (80 00): where the section ends there, SEQ_HEADER, R263's check for the byte after the
count; where it goes on, SEQ_TRAILING (R252, D27), although R263 would take the next byte as the modes byte. No table is set
(R40). What is done with these bytes is the model's choice between those rules (log 13); the SEQCNT_2B row and MODES decode
the whole input, its choice too (log 14). -/
def Obligations.LongZeroCountNeverCompletes : Prop :=
  ∀ (i : Instr) (s : State) (a lim : Nat), noError s = true → RangesOk s →
    (∃ a0 a1, i = .seqDecode a0 a1 ∧ a = a0.toNat ∧ lim = a1.toNat ∧ lim ≤ s.inLen.toNat ∧ countAt s a 0 2) ∨
      (i = .seqcnt2b 0 0 ∨ (∃ ll off ml, i = .modes ll off ml) ∧ countAt s 0 0 2) ∧ a = 0 ∧ lim = s.inLen.toNat →
    a + 2 ≤ lim →
    ∃ t, exec i s = .next t ∧ t.status = packStatus (if lim = a + 2 then .seqHeader else .seqTrailing) 0x50 ∧
      ∀ x, (t.ft.get x).valid = (s.ft.get x).valid

/-- R262, R265. The premise is OffsetsOk's: REP[0] is never 0. -/
def Obligations.SeqResolveSubstitutesRepeatOffsets : Prop :=
  ∀ (a0 a1 : Word) (s : State) (x y z : Word), noError s = true → s.rep = ⟨x, y, z⟩ → x ≠ 0 →
    (a0 = 0 → exec (.seqResolve a0 a1) s = .next { s with status := packStatus .argRange 0x51 }) ∧
    (3 < a0.toNat → exec (.seqResolve a0 a1) s = .next { s with res := a0 - 3, rep := ⟨a0 - 3, x, y⟩ }) ∧
    (a0 = 1 ∧ a1 ≠ 0 → exec (.seqResolve a0 a1) s = .next { s with res := x }) ∧
    (a0 = 2 ∧ a1 ≠ 0 ∨ a0 = 1 ∧ a1 = 0 → exec (.seqResolve a0 a1) s = .next { s with res := y, rep := ⟨y, x, z⟩ }) ∧
    (a0 = 3 ∧ a1 ≠ 0 ∨ a0 = 2 ∧ a1 = 0 → exec (.seqResolve a0 a1) s = .next { s with res := z, rep := ⟨z, x, y⟩ }) ∧
    (a0 = 3 ∧ a1 = 0 ∧ x ≠ 1 → exec (.seqResolve a0 a1) s = .next { s with res := x - 1, rep := ⟨x - 1, x, y⟩ }) ∧
    (a0 = 3 ∧ a1 = 0 ∧ x = 1 → ∃ t, exec (.seqResolve a0 a1) s = .next t ∧ onlyStatus .seqRepZero 0x51 s t)

/-! ## Blocks (46_control.md) -/

/-- R293, R294: DECODE_BLOCK is SET_INLEN, LIT_DECODE and SEQ_DECODE in turn, with the same checks, and its own checks
come first. -/
def Obligations.BlockEqualsItsSections : Prop :=
  ∀ (a0 : Word) (s : State), noError s = true →
    (131072 < a0.toNat → exec (.decodeBlock a0) s = .next { s with status := packStatus .argRange 0x03 }) ∧
    (a0.toNat ≤ 131072 → s.blockMax.toNat < a0.toNat →
      ∃ t, exec (.decodeBlock a0) s = .next t ∧ t.status = packStatus .blkTooLarge 0x03) ∧
    (a0.toNat ≤ 131072 → a0.toNat ≤ s.blockMax.toNat →
      ∀ s1 t1, exec (.setInlen a0) s = .next s1 → exec (.litDecode 0 a0) s1 = .next t1 →
        (∀ c, t1.status = packStatus c 0x40 →
          ∃ t, exec (.decodeBlock a0) s = .next t ∧ t.status = packStatus c 0x03) ∧
        (noError t1 = true → ∀ t2, exec (.seqDecode t1.res a0) t1 = .next t2 →
          (∀ c, t2.status = packStatus c 0x50 →
            ∃ t, exec (.decodeBlock a0) s = .next t ∧ t.status = packStatus c 0x03) ∧
          (noError t2 = true → exec (.decodeBlock a0) s = .next t2)))

/-- R220, R293: DECODE_BLOCK on a body that is a literals section of any type followed by a sequences section, the byte 00
or one of n ≥ 1 sequences, yields the literals and the sequences. The model's choices: LIT above the literals keeps its
bytes (log 19), a 2-byte count is read in R94's order (log 27), and no other form of a count of 0 is accepted (log 13). -/
def Obligations.BlockDecodesBothSections : Prop :=
  ∀ (a0 : Word) (s : State) (h : LitHeader) (bs : List Byte) (ht : HufTable) (raw : List (Nat × Nat × Nat))
    (entries : List SeqEntry) (rep : RepCache), noError s = true → RangesOk s → 1 ≤ a0.toNat →
    a0.toNat ≤ s.blockMax.toNat → headerAt s 0 h → litError h 0 a0.toNat s.blockMax.toNat s.ht.valid = none →
    litContent s h 0 bs ht →
    (inByte s (litSize h) = 0 ∧ a0.toNat = litSize h + 1 ∧ raw = [] ∨
      ∃ size tl tf tm,
        1 ≤ raw.length ∧ countAt s (litSize h) raw.length size ∧ litSize h + size + 1 ≤ a0.toNat ∧
          seqContent s (inByte s (litSize h + size)) (litSize h + size + 1) a0.toNat tl tf tm raw) →
    resolves s.rep raw entries rep →
    ∃ t, exec (.decodeBlock a0) s = .next t ∧ noError t = true ∧ t.inLen.toNat = a0.toNat ∧ litHolds s t 0 bs ∧
      t.litLen.toNat = h.regen ∧ t.seq = entries ∧ t.nbSeq.toNat = raw.length ∧ t.res.toNat = raw.length ∧ t.rep = rep

/-- What a format element's row means (log 14): where IN begins with the element, running the row is running the command
that parses it over the whole input. -/
def Obligations.ElementRowsRunTheirParser : Prop :=
  ∀ (i : Instr) (s : State), s.inLen.toNat ≤ 131072 → i.WellFormed = true →
    (∀ bs, encode i = .element .lithdr bs → inBytes s 0 bs →
      exec i s = exec (.litDecode 0 (s.inLen.setWidth 32)) s) ∧
    (∀ bs, encode i = .element .hufhdr bs → inBytes s 0 bs →
      exec i s = exec (.hufTree 0 (s.inLen.setWidth 32)) s) ∧
    (∀ bs, encode i = .element .seqcnt bs → inBytes s 0 bs →
      exec i s = exec (.seqDecode 0 (s.inLen.setWidth 32)) s) ∧
    ∀ m n size, encode i = .element .modes [m] → countAt s 0 n size → inByte s size = m →
      exec i s = exec (.seqDecode 0 (s.inLen.setWidth 32)) s

/-- R75, R347: the two decoders of a block may be issued in either order, and the outputs are the same. -/
def Obligations.SectionsMayRunInEitherOrder : Prop :=
  ∀ (a0 a1 b0 b1 : Word) (s l1 l2 : State), noError s = true → ReadersOk s → TablesOk s → HuffOk s →
    exec (.litDecode a0 a1) s = .next l1 → exec (.seqDecode b0 b1) l1 = .next l2 → noError l2 = true →
    ∃ q1 q2, exec (.seqDecode b0 b1) s = .next q1 ∧ exec (.litDecode a0 a1) q1 = .next q2 ∧ noError q2 = true ∧
      q2.lit = l2.lit ∧ q2.litLen = l2.litLen ∧ q2.ht = l2.ht ∧ q2.seq = l2.seq ∧ q2.nbSeq = l2.nbSeq ∧
      q2.rep = l2.rep ∧ q2.ft.get .ll = l2.ft.get .ll ∧ q2.ft.get .off = l2.ft.get .off ∧ q2.ft.get .ml = l2.ft.get .ml

/-! ## Invariants (10_state.md R43) -/

/-- The state after reset meets every invariant below. -/
def Obligations.ResetMeetsTheInvariants : Prop :=
  ReadersOk State.reset ∧ TablesOk State.reset ∧ HuffOk State.reset ∧ OffsetsOk State.reset ∧ statusOk State.reset

/-- R43, first two items, with the ranges of R24, R25, R33, R34 and the canonical form of IN and LIT: every step keeps
them, after an error too (the model's reading, log 9), and from such a state no step ends in one of the model's own faults
(log 12): each command has a next state. -/
def Obligations.StepKeepsReadersAndNeverStops : Prop :=
  ∀ s : State, ReadersOk s → ∃ t, step s = .next t ∧ ReadersOk t

/-- R43, third item, with R28, R29, R151: every step keeps the FSE tables and the staged distribution well formed. -/
def Obligations.StepKeepsTables : Prop :=
  ∀ s t : State, TablesOk s → step s = .next t → TablesOk t

/-- R43, last item: every step keeps HT the canonical code of W. -/
def Obligations.StepKeepsTheHuffmanCode : Prop :=
  ∀ s t : State, HuffOk s → step s = .next t → HuffOk t

/-- R262: no step leaves an offset of 0 in REP or SEQ (TablesOk, an invariant of its own, keeps an Offset_Value below
2^32); and STATUS is always 0 or a code of R312 (R23). -/
def Obligations.StepKeepsOffsetsAndStatus : Prop :=
  (∀ s t : State, TablesOk s → OffsetsOk s → step s = .next t → OffsetsOk t) ∧
  ∀ s t : State, statusOk s → step s = .next t → statusOk t
end

