-- ==== Sys2Proof/Laws/Memory.lean ====
section
/-! SUPPORT. The laws of the byte memories: read after write, the canonical form and its uniqueness. -/

namespace Sys2Proof.Machine

/-! ## Reading -/

@[simp] theorem Memory.get?_nil (a : Nat) : Memory.get? [] a = none := rfl

theorem Memory.get?_cons (k : Nat) (b : Byte) (m : Memory) (a : Nat) :
    Memory.get? ((k, b) :: m) a = if k = a then some b else Memory.get? m a := rfl

/-- Read after write: the byte written at its address, every other address as before. -/
theorem Memory.get?_set (m : Memory) (a : Nat) (b : Byte) (c : Nat) :
    (m.set a b).get? c = if a = c then some b else m.get? c := by
  induction m with
  | nil => rfl
  | cons cell m ih =>
    obtain ⟨k, x⟩ := cell
    by_cases h1 : a < k
    · simp [Memory.set, h1, Memory.get?_cons]
    · by_cases h2 : a = k
      · subst h2
        by_cases hc : a = c <;> simp [Memory.set, Memory.get?_cons, hc]
      · simp only [Memory.set, h1, h2, if_false, Memory.get?_cons, ih]
        by_cases hk : k = c
        · subst hk; simp [h2]
        · simp [hk]

@[simp] theorem Memory.get?_set_same (m : Memory) (a : Nat) (b : Byte) : (m.set a b).get? a = some b := by
  simp [Memory.get?_set]

theorem Memory.get?_set_ne {m : Memory} {a c : Nat} {b : Byte} (h : a ≠ c) : (m.set a b).get? c = m.get? c := by
  simp [Memory.get?_set, h]

/-- Reading after a range was forgotten. -/
theorem Memory.get?_forget (m : Memory) (a n c : Nat) :
    (m.forget a n).get? c = if a ≤ c ∧ c < a + n then none else m.get? c := by
  induction m with
  | nil => simp [Memory.forget]
  | cons cell m ih =>
    obtain ⟨k, x⟩ := cell
    have split : Memory.forget ((k, x) :: m) a n =
        if a ≤ k ∧ k < a + n then Memory.forget m a n else (k, x) :: Memory.forget m a n := by
      by_cases hr : a ≤ k ∧ k < a + n
      · rw [if_pos hr]; exact List.filter_cons_of_neg (by simpa using hr)
      · rw [if_neg hr]; exact List.filter_cons_of_pos (by simp; omega)
    rw [split]
    by_cases hr : a ≤ k ∧ k < a + n <;> by_cases hk : k = c
    · subst hk; rw [if_pos hr, ih, if_pos hr]; simp [hr]
    · rw [if_pos hr, ih, Memory.get?_cons, if_neg hk]
    · subst hk; rw [if_neg hr, if_neg hr, Memory.get?_cons, Memory.get?_cons, if_pos rfl, if_pos rfl]
    · rw [if_neg hr, Memory.get?_cons, ih, Memory.get?_cons, if_neg hk, if_neg hk]

/-! ## The canonical form -/

/-- The canonical form as a statement about the list of addresses. -/
theorem Memory.wf_iff (size : Nat) (m : Memory) :
    Memory.wf size m = true ↔ (m.map Prod.fst).Pairwise (· < ·) ∧ ∀ c ∈ m, c.1 < size := by
  induction m with
  | nil => simp [Memory.wf]
  | cons cell m ih =>
    obtain ⟨k, x⟩ := cell
    cases m with
    | nil => simp [Memory.wf]
    | cons cell' m =>
      obtain ⟨k', x'⟩ := cell'
      simp only [Memory.wf, Bool.and_eq_true, decide_eq_true_eq, ih, List.map_cons, List.pairwise_cons,
        List.mem_cons, List.mem_map, forall_eq_or_imp]
      constructor
      · rintro ⟨hk, ⟨hlt, hp⟩, hs, hall⟩
        refine ⟨⟨⟨hk, ?_⟩, hlt, hp⟩, hk.trans hs, hs, hall⟩
        rintro j ⟨c, hc, rfl⟩
        exact hk.trans (hlt _ ⟨c, hc, rfl⟩)
      · rintro ⟨⟨⟨hk, -⟩, hlt, hp⟩, -, hs, hall⟩
        exact ⟨hk, ⟨hlt, hp⟩, hs, hall⟩

theorem Memory.mem_set {m : Memory} {a : Nat} {b : Byte} {c : Nat × Byte} (h : c ∈ m.set a b) : c = (a, b) ∨ c ∈ m := by
  induction m with
  | nil => simpa [Memory.set] using h
  | cons cell m ih =>
    obtain ⟨k, x⟩ := cell
    unfold Memory.set at h
    split_ifs at h <;> simp only [List.mem_cons] at h ⊢ <;> tauto

/-- A write inside the memory keeps the canonical form. -/
theorem Memory.wf_set {size : Nat} {m : Memory} {a : Nat} {b : Byte} (hm : Memory.wf size m = true) (ha : a < size) :
    Memory.wf size (m.set a b) = true := by
  rw [Memory.wf_iff] at hm ⊢
  obtain ⟨hp, hs⟩ := hm
  refine ⟨?_, fun c hc => (Memory.mem_set hc).elim (fun h => h ▸ ha) (hs c)⟩
  induction m with
  | nil => simp [Memory.set]
  | cons cell m ih =>
    obtain ⟨k, x⟩ := cell
    rw [List.map_cons, List.pairwise_cons] at hp
    unfold Memory.set
    split_ifs with h1 h2
    · simp only [List.map_cons, List.pairwise_cons, List.mem_cons, forall_eq_or_imp]
      exact ⟨⟨h1, fun j hj => h1.trans (hp.1 j hj)⟩, hp.1, hp.2⟩
    · subst h2; simpa [List.pairwise_cons] using hp
    · rw [List.map_cons, List.pairwise_cons]
      refine ⟨?_, ih hp.2 fun c hc => hs c (List.mem_cons_of_mem _ hc)⟩
      rintro j hj
      obtain ⟨c, hc, rfl⟩ := List.mem_map.1 hj
      obtain rfl | hc := Memory.mem_set hc
      · exact lt_of_le_of_ne (not_lt.1 h1) (Ne.symm h2)
      · exact hp.1 _ (List.mem_map_of_mem (f := Prod.fst) hc)

/-- Forgetting a range keeps the canonical form. -/
theorem Memory.wf_forget {size : Nat} {m : Memory} (a n : Nat) (hm : Memory.wf size m = true) :
    Memory.wf size (m.forget a n) = true := by
  rw [Memory.wf_iff] at hm ⊢
  exact ⟨hm.1.sublist (List.filter_sublist.map _), fun c hc => hm.2 c (List.mem_filter.1 hc).1⟩

@[simp] theorem Memory.wf_nil (size : Nat) : Memory.wf size [] = true := rfl

theorem Memory.get?_eq_none_of_lt {m : Memory} {a : Nat} (h : ∀ c ∈ m, a < c.1) : m.get? a = none := by
  induction m with
  | nil => rfl
  | cons cell m ih =>
    obtain ⟨k, x⟩ := cell
    have hk := h _ List.mem_cons_self
    rw [Memory.get?_cons, if_neg (by simpa using (ne_of_gt hk)), ih fun c hc => h c (List.mem_cons_of_mem _ hc)]

/-- One memory, one list: two canonical lists that read the same everywhere are equal. -/
theorem Memory.ext_get? {size : Nat} {m m' : Memory} (hm : Memory.wf size m = true) (hm' : Memory.wf size m' = true)
    (h : ∀ a, m.get? a = m'.get? a) : m = m' := by
  rw [Memory.wf_iff] at hm hm'
  replace hm := hm.1
  replace hm' := hm'.1
  induction m generalizing m' with
  | nil =>
    cases m' with
    | nil => rfl
    | cons c m' => have := h c.1; rw [show c = (c.1, c.2) from rfl, Memory.get?_cons] at this; simp at this
  | cons cell m ih =>
    obtain ⟨k, x⟩ := cell
    cases m' with
    | nil => have := h k; simp [Memory.get?_cons] at this
    | cons cell' m' =>
      obtain ⟨k', x'⟩ := cell'
      rw [List.map_cons, List.pairwise_cons] at hm hm'
      have low : ∀ c ∈ m, k < c.1 := fun c hc => hm.1 _ (List.mem_map_of_mem (f := Prod.fst) hc)
      have low' : ∀ c ∈ m', k' < c.1 := fun c hc => hm'.1 _ (List.mem_map_of_mem (f := Prod.fst) hc)
      have hkk : k = k' := by
        rcases lt_trichotomy k k' with hlt | heq | hgt
        · have := h k
          rw [Memory.get?_cons, if_pos rfl, Memory.get?_cons, if_neg (ne_of_gt hlt),
            Memory.get?_eq_none_of_lt fun c hc => hlt.trans (low' c hc)] at this
          cases this
        · exact heq
        · have := h k'
          rw [Memory.get?_cons, if_neg (ne_of_gt hgt), Memory.get?_cons, if_pos rfl,
            Memory.get?_eq_none_of_lt fun c hc => hgt.trans (low c hc)] at this
          cases this
      subst hkk
      have hx : x = x' := by simpa [Memory.get?_cons] using h k
      subst hx
      congr 1
      refine ih (fun a => ?_) hm.2 hm'.2
      by_cases ha : k = a
      · subst ha
        rw [Memory.get?_eq_none_of_lt low, Memory.get?_eq_none_of_lt low']
      · simpa [Memory.get?_cons, ha] using h a

/-! ## Reset -/

theorem reset_inMem_wf : Memory.wf Config.inCap State.reset.inMem = true := rfl
theorem reset_lit_wf : Memory.wf Config.litCap State.reset.lit = true := rfl

end Sys2Proof.Machine
end

