-- ==== Sys2Proof/Laws/State.lean ====
section
/-! SUPPORT. The fields of each named state update, and the reads and writes of the register files: the simp set the
other laws rest on. -/

namespace Sys2Proof.Machine

/-! ### setInLen -/

@[simp] theorem setInLen_port (n : Nat) (s : State) :
    (setInLen n s).port = s.port := rfl
@[simp] theorem setInLen_res (n : Nat) (s : State) :
    (setInLen n s).res = s.res := rfl
@[simp] theorem setInLen_status (n : Nat) (s : State) :
    (setInLen n s).status = s.status := rfl
@[simp] theorem setInLen_inLen (n : Nat) (s : State) :
    (setInLen n s).inLen = BitVec.ofNat 18 n := rfl
@[simp] theorem setInLen_blockMax (n : Nat) (s : State) :
    (setInLen n s).blockMax = s.blockMax := rfl
@[simp] theorem setInLen_inMem (n : Nat) (s : State) :
    (setInLen n s).inMem = s.inMem := rfl
@[simp] theorem setInLen_inEra (n : Nat) (s : State) :
    (setInLen n s).inEra = s.inEra := rfl
@[simp] theorem setInLen_fr (n : Nat) (s : State) :
    (setInLen n s).fr = s.fr := rfl
@[simp] theorem setInLen_frStale (n : Nat) (s : State) :
    (setInLen n s).frStale = (s.frStale || frCut s.fr n) := rfl
@[simp] theorem setInLen_rr (n : Nat) (s : State) :
    (setInLen n s).rr = s.rr := rfl
@[simp] theorem setInLen_rrStale (n : Nat) (s : State) :
    (setInLen n s).rrStale = markReverse (fun rd => rrCut rd n) s.rr s.rrStale := rfl
@[simp] theorem setInLen_ft (n : Nat) (s : State) :
    (setInLen n s).ft = s.ft := rfl
@[simp] theorem setInLen_dist (n : Nat) (s : State) :
    (setInLen n s).dist = s.dist := rfl
@[simp] theorem setInLen_st (n : Nat) (s : State) :
    (setInLen n s).st = s.st := rfl
@[simp] theorem setInLen_w (n : Nat) (s : State) :
    (setInLen n s).w = s.w := rfl
@[simp] theorem setInLen_nw (n : Nat) (s : State) :
    (setInLen n s).nw = s.nw := rfl
@[simp] theorem setInLen_ht (n : Nat) (s : State) :
    (setInLen n s).ht = s.ht := rfl
@[simp] theorem setInLen_lit (n : Nat) (s : State) :
    (setInLen n s).lit = s.lit := rfl
@[simp] theorem setInLen_litLen (n : Nat) (s : State) :
    (setInLen n s).litLen = s.litLen := rfl
@[simp] theorem setInLen_seq (n : Nat) (s : State) :
    (setInLen n s).seq = s.seq := rfl
@[simp] theorem setInLen_nbSeq (n : Nat) (s : State) :
    (setInLen n s).nbSeq = s.nbSeq := rfl
@[simp] theorem setInLen_rep (n : Nat) (s : State) :
    (setInLen n s).rep = s.rep := rfl
@[simp] theorem setInLen_draws (n : Nat) (s : State) :
    (setInLen n s).draws = s.draws := rfl

/-! ### markWrite -/

@[simp] theorem markWrite_port (a : Nat) (s : State) :
    (markWrite a s).port = s.port := rfl
@[simp] theorem markWrite_res (a : Nat) (s : State) :
    (markWrite a s).res = s.res := rfl
@[simp] theorem markWrite_status (a : Nat) (s : State) :
    (markWrite a s).status = s.status := rfl
@[simp] theorem markWrite_inLen (a : Nat) (s : State) :
    (markWrite a s).inLen = s.inLen := rfl
@[simp] theorem markWrite_blockMax (a : Nat) (s : State) :
    (markWrite a s).blockMax = s.blockMax := rfl
@[simp] theorem markWrite_inMem (a : Nat) (s : State) :
    (markWrite a s).inMem = s.inMem := rfl
@[simp] theorem markWrite_inEra (a : Nat) (s : State) :
    (markWrite a s).inEra = s.inEra := rfl
@[simp] theorem markWrite_fr (a : Nat) (s : State) :
    (markWrite a s).fr = s.fr := rfl
@[simp] theorem markWrite_frStale (a : Nat) (s : State) :
    (markWrite a s).frStale = (s.frStale || frTouched s.fr a) := rfl
@[simp] theorem markWrite_rr (a : Nat) (s : State) :
    (markWrite a s).rr = s.rr := rfl
@[simp] theorem markWrite_rrStale (a : Nat) (s : State) :
    (markWrite a s).rrStale = markReverse (fun rd => rrTouched rd a) s.rr s.rrStale := rfl
@[simp] theorem markWrite_ft (a : Nat) (s : State) :
    (markWrite a s).ft = s.ft := rfl
@[simp] theorem markWrite_dist (a : Nat) (s : State) :
    (markWrite a s).dist = s.dist := rfl
@[simp] theorem markWrite_st (a : Nat) (s : State) :
    (markWrite a s).st = s.st := rfl
@[simp] theorem markWrite_w (a : Nat) (s : State) :
    (markWrite a s).w = s.w := rfl
@[simp] theorem markWrite_nw (a : Nat) (s : State) :
    (markWrite a s).nw = s.nw := rfl
@[simp] theorem markWrite_ht (a : Nat) (s : State) :
    (markWrite a s).ht = s.ht := rfl
@[simp] theorem markWrite_lit (a : Nat) (s : State) :
    (markWrite a s).lit = s.lit := rfl
@[simp] theorem markWrite_litLen (a : Nat) (s : State) :
    (markWrite a s).litLen = s.litLen := rfl
@[simp] theorem markWrite_seq (a : Nat) (s : State) :
    (markWrite a s).seq = s.seq := rfl
@[simp] theorem markWrite_nbSeq (a : Nat) (s : State) :
    (markWrite a s).nbSeq = s.nbSeq := rfl
@[simp] theorem markWrite_rep (a : Nat) (s : State) :
    (markWrite a s).rep = s.rep := rfl
@[simp] theorem markWrite_draws (a : Nat) (s : State) :
    (markWrite a s).draws = s.draws := rfl

/-! ### hostWriteIn -/

@[simp] theorem hostWriteIn_port (a : Nat) (b : Byte) (s : State) :
    (hostWriteIn a b s).port = s.port := rfl
@[simp] theorem hostWriteIn_res (a : Nat) (b : Byte) (s : State) :
    (hostWriteIn a b s).res = s.res := rfl
@[simp] theorem hostWriteIn_status (a : Nat) (b : Byte) (s : State) :
    (hostWriteIn a b s).status = s.status := rfl
@[simp] theorem hostWriteIn_inLen (a : Nat) (b : Byte) (s : State) :
    (hostWriteIn a b s).inLen = s.inLen := rfl
@[simp] theorem hostWriteIn_blockMax (a : Nat) (b : Byte) (s : State) :
    (hostWriteIn a b s).blockMax = s.blockMax := rfl
@[simp] theorem hostWriteIn_inMem (a : Nat) (b : Byte) (s : State) :
    (hostWriteIn a b s).inMem = s.inMem.set a b := rfl
@[simp] theorem hostWriteIn_inEra (a : Nat) (b : Byte) (s : State) :
    (hostWriteIn a b s).inEra = s.inEra := rfl
@[simp] theorem hostWriteIn_fr (a : Nat) (b : Byte) (s : State) :
    (hostWriteIn a b s).fr = s.fr := rfl
@[simp] theorem hostWriteIn_frStale (a : Nat) (b : Byte) (s : State) :
    (hostWriteIn a b s).frStale = (s.frStale || frTouched s.fr a) := rfl
@[simp] theorem hostWriteIn_rr (a : Nat) (b : Byte) (s : State) :
    (hostWriteIn a b s).rr = s.rr := rfl
@[simp] theorem hostWriteIn_rrStale (a : Nat) (b : Byte) (s : State) :
    (hostWriteIn a b s).rrStale = markReverse (fun rd => rrTouched rd a) s.rr s.rrStale := rfl
@[simp] theorem hostWriteIn_ft (a : Nat) (b : Byte) (s : State) :
    (hostWriteIn a b s).ft = s.ft := rfl
@[simp] theorem hostWriteIn_dist (a : Nat) (b : Byte) (s : State) :
    (hostWriteIn a b s).dist = s.dist := rfl
@[simp] theorem hostWriteIn_st (a : Nat) (b : Byte) (s : State) :
    (hostWriteIn a b s).st = s.st := rfl
@[simp] theorem hostWriteIn_w (a : Nat) (b : Byte) (s : State) :
    (hostWriteIn a b s).w = s.w := rfl
@[simp] theorem hostWriteIn_nw (a : Nat) (b : Byte) (s : State) :
    (hostWriteIn a b s).nw = s.nw := rfl
@[simp] theorem hostWriteIn_ht (a : Nat) (b : Byte) (s : State) :
    (hostWriteIn a b s).ht = s.ht := rfl
@[simp] theorem hostWriteIn_lit (a : Nat) (b : Byte) (s : State) :
    (hostWriteIn a b s).lit = s.lit := rfl
@[simp] theorem hostWriteIn_litLen (a : Nat) (b : Byte) (s : State) :
    (hostWriteIn a b s).litLen = s.litLen := rfl
@[simp] theorem hostWriteIn_seq (a : Nat) (b : Byte) (s : State) :
    (hostWriteIn a b s).seq = s.seq := rfl
@[simp] theorem hostWriteIn_nbSeq (a : Nat) (b : Byte) (s : State) :
    (hostWriteIn a b s).nbSeq = s.nbSeq := rfl
@[simp] theorem hostWriteIn_rep (a : Nat) (b : Byte) (s : State) :
    (hostWriteIn a b s).rep = s.rep := rfl
@[simp] theorem hostWriteIn_draws (a : Nat) (b : Byte) (s : State) :
    (hostWriteIn a b s).draws = s.draws := rfl

/-! ### frameResetState -/

@[simp] theorem frameResetState_port (n : Nat) (s : State) :
    (frameResetState n s).port = s.port := rfl
@[simp] theorem frameResetState_res (n : Nat) (s : State) :
    (frameResetState n s).res = 0 := rfl
@[simp] theorem frameResetState_status (n : Nat) (s : State) :
    (frameResetState n s).status = 0 := rfl
@[simp] theorem frameResetState_inLen (n : Nat) (s : State) :
    (frameResetState n s).inLen = s.inLen := rfl
@[simp] theorem frameResetState_blockMax (n : Nat) (s : State) :
    (frameResetState n s).blockMax = BitVec.ofNat 18 n := rfl
@[simp] theorem frameResetState_inMem (n : Nat) (s : State) :
    (frameResetState n s).inMem = s.inMem := rfl
@[simp] theorem frameResetState_inEra (n : Nat) (s : State) :
    (frameResetState n s).inEra = s.inEra := rfl
@[simp] theorem frameResetState_fr (n : Nat) (s : State) :
    (frameResetState n s).fr = ⟨false, 0, 0, 0⟩ := rfl
@[simp] theorem frameResetState_frStale (n : Nat) (s : State) :
    (frameResetState n s).frStale = false := rfl
@[simp] theorem frameResetState_rr (n : Nat) (s : State) :
    (frameResetState n s).rr = ⟨revReaderReset, revReaderReset, revReaderReset, revReaderReset, revReaderReset, revReaderReset⟩ := rfl
@[simp] theorem frameResetState_rrStale (n : Nat) (s : State) :
    (frameResetState n s).rrStale = ⟨false, false, false, false, false, false⟩ := rfl
@[simp] theorem frameResetState_st (n : Nat) (s : State) :
    (frameResetState n s).st = ⟨0, 0, 0, 0, 0⟩ := rfl
@[simp] theorem frameResetState_w (n : Nat) (s : State) :
    (frameResetState n s).w = [] := rfl
@[simp] theorem frameResetState_nw (n : Nat) (s : State) :
    (frameResetState n s).nw = 0 := rfl
@[simp] theorem frameResetState_lit (n : Nat) (s : State) :
    (frameResetState n s).lit = [] := rfl
@[simp] theorem frameResetState_litLen (n : Nat) (s : State) :
    (frameResetState n s).litLen = 0 := rfl
@[simp] theorem frameResetState_seq (n : Nat) (s : State) :
    (frameResetState n s).seq = [] := rfl
@[simp] theorem frameResetState_nbSeq (n : Nat) (s : State) :
    (frameResetState n s).nbSeq = 0 := rfl
@[simp] theorem frameResetState_rep (n : Nat) (s : State) :
    (frameResetState n s).rep = ⟨1, 4, 8⟩ := rfl
@[simp] theorem frameResetState_draws (n : Nat) (s : State) :
    (frameResetState n s).draws = s.draws + 1 := rfl

/-! ### powerOnState -/

@[simp] theorem powerOnState_port (s : State) :
    (powerOnState s).port = s.port := rfl
@[simp] theorem powerOnState_res (s : State) :
    (powerOnState s).res = State.reset.res := rfl
@[simp] theorem powerOnState_status (s : State) :
    (powerOnState s).status = State.reset.status := rfl
@[simp] theorem powerOnState_inLen (s : State) :
    (powerOnState s).inLen = State.reset.inLen := rfl
@[simp] theorem powerOnState_blockMax (s : State) :
    (powerOnState s).blockMax = State.reset.blockMax := rfl
@[simp] theorem powerOnState_inMem (s : State) :
    (powerOnState s).inMem = State.reset.inMem := rfl
@[simp] theorem powerOnState_inEra (s : State) :
    (powerOnState s).inEra = s.draws + 1 := rfl
@[simp] theorem powerOnState_fr (s : State) :
    (powerOnState s).fr = State.reset.fr := rfl
@[simp] theorem powerOnState_frStale (s : State) :
    (powerOnState s).frStale = State.reset.frStale := rfl
@[simp] theorem powerOnState_rr (s : State) :
    (powerOnState s).rr = State.reset.rr := rfl
@[simp] theorem powerOnState_rrStale (s : State) :
    (powerOnState s).rrStale = State.reset.rrStale := rfl
@[simp] theorem powerOnState_ft (s : State) :
    (powerOnState s).ft = State.reset.ft := rfl
@[simp] theorem powerOnState_dist (s : State) :
    (powerOnState s).dist = State.reset.dist := rfl
@[simp] theorem powerOnState_st (s : State) :
    (powerOnState s).st = State.reset.st := rfl
@[simp] theorem powerOnState_w (s : State) :
    (powerOnState s).w = State.reset.w := rfl
@[simp] theorem powerOnState_nw (s : State) :
    (powerOnState s).nw = State.reset.nw := rfl
@[simp] theorem powerOnState_ht (s : State) :
    (powerOnState s).ht = State.reset.ht := rfl
@[simp] theorem powerOnState_lit (s : State) :
    (powerOnState s).lit = State.reset.lit := rfl
@[simp] theorem powerOnState_litLen (s : State) :
    (powerOnState s).litLen = State.reset.litLen := rfl
@[simp] theorem powerOnState_seq (s : State) :
    (powerOnState s).seq = State.reset.seq := rfl
@[simp] theorem powerOnState_nbSeq (s : State) :
    (powerOnState s).nbSeq = State.reset.nbSeq := rfl
@[simp] theorem powerOnState_rep (s : State) :
    (powerOnState s).rep = State.reset.rep := rfl
@[simp] theorem powerOnState_draws (s : State) :
    (powerOnState s).draws = s.draws + 1 := rfl

@[simp] theorem frameResetState_ft_valid (n : Nat) (s : State) (t : TSel) :
    ((frameResetState n s).ft.get t).valid = false := by cases t <;> rfl
@[simp] theorem frameResetState_dist_valid (n : Nat) (s : State) : (frameResetState n s).dist.valid = false := rfl
@[simp] theorem frameResetState_ht_valid (n : Nat) (s : State) : (frameResetState n s).ht.valid = false := rfl

/-! ### recordError -/

@[simp] theorem recordError_port (c : Cause) (op : BitVec 8) (s : State) :
    (recordError c op s).port = s.port := by unfold recordError; split <;> rfl
@[simp] theorem recordError_res (c : Cause) (op : BitVec 8) (s : State) :
    (recordError c op s).res = s.res := by unfold recordError; split <;> rfl
@[simp] theorem recordError_inLen (c : Cause) (op : BitVec 8) (s : State) :
    (recordError c op s).inLen = s.inLen := by unfold recordError; split <;> rfl
@[simp] theorem recordError_blockMax (c : Cause) (op : BitVec 8) (s : State) :
    (recordError c op s).blockMax = s.blockMax := by unfold recordError; split <;> rfl
@[simp] theorem recordError_inMem (c : Cause) (op : BitVec 8) (s : State) :
    (recordError c op s).inMem = s.inMem := by unfold recordError; split <;> rfl
@[simp] theorem recordError_inEra (c : Cause) (op : BitVec 8) (s : State) :
    (recordError c op s).inEra = s.inEra := by unfold recordError; split <;> rfl
@[simp] theorem recordError_fr (c : Cause) (op : BitVec 8) (s : State) :
    (recordError c op s).fr = s.fr := by unfold recordError; split <;> rfl
@[simp] theorem recordError_frStale (c : Cause) (op : BitVec 8) (s : State) :
    (recordError c op s).frStale = s.frStale := by unfold recordError; split <;> rfl
@[simp] theorem recordError_rr (c : Cause) (op : BitVec 8) (s : State) :
    (recordError c op s).rr = s.rr := by unfold recordError; split <;> rfl
@[simp] theorem recordError_rrStale (c : Cause) (op : BitVec 8) (s : State) :
    (recordError c op s).rrStale = s.rrStale := by unfold recordError; split <;> rfl
@[simp] theorem recordError_ft (c : Cause) (op : BitVec 8) (s : State) :
    (recordError c op s).ft = s.ft := by unfold recordError; split <;> rfl
@[simp] theorem recordError_dist (c : Cause) (op : BitVec 8) (s : State) :
    (recordError c op s).dist = s.dist := by unfold recordError; split <;> rfl
@[simp] theorem recordError_st (c : Cause) (op : BitVec 8) (s : State) :
    (recordError c op s).st = s.st := by unfold recordError; split <;> rfl
@[simp] theorem recordError_w (c : Cause) (op : BitVec 8) (s : State) :
    (recordError c op s).w = s.w := by unfold recordError; split <;> rfl
@[simp] theorem recordError_nw (c : Cause) (op : BitVec 8) (s : State) :
    (recordError c op s).nw = s.nw := by unfold recordError; split <;> rfl
@[simp] theorem recordError_ht (c : Cause) (op : BitVec 8) (s : State) :
    (recordError c op s).ht = s.ht := by unfold recordError; split <;> rfl
@[simp] theorem recordError_lit (c : Cause) (op : BitVec 8) (s : State) :
    (recordError c op s).lit = s.lit := by unfold recordError; split <;> rfl
@[simp] theorem recordError_litLen (c : Cause) (op : BitVec 8) (s : State) :
    (recordError c op s).litLen = s.litLen := by unfold recordError; split <;> rfl
@[simp] theorem recordError_seq (c : Cause) (op : BitVec 8) (s : State) :
    (recordError c op s).seq = s.seq := by unfold recordError; split <;> rfl
@[simp] theorem recordError_nbSeq (c : Cause) (op : BitVec 8) (s : State) :
    (recordError c op s).nbSeq = s.nbSeq := by unfold recordError; split <;> rfl
@[simp] theorem recordError_rep (c : Cause) (op : BitVec 8) (s : State) :
    (recordError c op s).rep = s.rep := by unfold recordError; split <;> rfl
@[simp] theorem recordError_draws (c : Cause) (op : BitVec 8) (s : State) :
    (recordError c op s).draws = s.draws := by unfold recordError; split <;> rfl

theorem recordError_of_noError {c : Cause} {op : BitVec 8} {s : State} (h : noError s = true) :
    recordError c op s = { s with status := packStatus c op } := by simp [recordError, h]

theorem recordError_of_error {c : Cause} {op : BitVec 8} {s : State} (h : noError s = false) :
    recordError c op s = s := by simp [recordError, h]

/-! ### Register files -/

@[simp] theorem RevBank.get_set_same (b : RevBank) (r : RSel) (v : RevReader) : (b.set r v).get r = v := by
  cases r <;> rfl
theorem RevBank.get_set_ne {b : RevBank} {r q : RSel} {v : RevReader} (h : q ≠ r) : (b.set r v).get q = b.get q := by
  cases r <;> cases q <;> first | rfl | exact absurd rfl h
@[simp] theorem RevBank.set_get (b : RevBank) (r : RSel) : b.set r (b.get r) = b := by cases r <;> rfl
@[simp] theorem RevBank.set_set (b : RevBank) (r : RSel) (u v : RevReader) : (b.set r u).set r v = b.set r v := by
  cases r <;> rfl
@[ext] theorem RevBank.ext_get {b c : RevBank} (h : ∀ r, b.get r = c.get r) : b = c := by
  have h0 := h .r0; have h1 := h .r1; have h2 := h .r2; have h3 := h .r3; have h4 := h .r4; have h5 := h .r5
  cases b; cases c; simp_all [RevBank.get]

@[simp] theorem RevMarks.get_clear_same (m : RevMarks) (r : RSel) : (m.clear r).get r = false := by cases r <;> rfl
theorem RevMarks.get_clear_ne {m : RevMarks} {r q : RSel} (h : q ≠ r) : (m.clear r).get q = m.get q := by
  cases r <;> cases q <;> first | rfl | exact absurd rfl h
/-- A reader's mark after a marking: the old one, or the hit. -/
@[simp] theorem markReverse_get (hit : RevReader → Bool) (b : RevBank) (m : RevMarks) (r : RSel) :
    (markReverse hit b m).get r = (m.get r || hit (b.get r)) := by cases r <;> rfl

@[simp] theorem FseBank.get_set_same (b : FseBank) (t : TSel) (v : FseTable) : (b.set t v).get t = v := by
  cases t <;> rfl
theorem FseBank.get_set_ne {b : FseBank} {t u : TSel} {v : FseTable} (h : u ≠ t) : (b.set t v).get u = b.get u := by
  cases t <;> cases u <;> first | rfl | exact absurd rfl h
@[simp] theorem FseBank.set_get (b : FseBank) (t : TSel) : b.set t (b.get t) = b := by cases t <;> rfl

@[simp] theorem StBank.get_set_same (b : StBank) (x : SSel) (v : BitVec 9) : (b.set x v).get x = v := by
  cases x <;> rfl
theorem StBank.get_set_ne {b : StBank} {x y : SSel} {v : BitVec 9} (h : y ≠ x) : (b.set x v).get y = b.get y := by
  cases x <;> cases y <;> first | rfl | exact absurd rfl h

/-! ### STATUS -/

@[simp] theorem noError_reset : noError State.reset = true := by decide

/-- STATUS holds an error after one is packed: no category has code 0. -/
theorem statusCat_packStatus (c : Cause) (op : BitVec 8) : statusCat (packStatus c op) = categoryCode (causeCategory c) := by
  apply BitVec.eq_of_toNat_eq
  have hcat := (categoryCode (causeCategory c)).isLt
  have hc := (causeCode c).isLt
  have hop := op.isLt
  simp only [statusCat, packStatus, BitVec.extractLsb'_toNat, BitVec.toNat_ofNat, Nat.shiftRight_zero]
  omega

theorem noError_of_packStatus {s : State} {c : Cause} {op : BitVec 8} (h : s.status = packStatus c op) :
    noError s = false := by
  unfold noError
  rw [h, statusCat_packStatus]
  cases c <;> rfl

end Sys2Proof.Machine
end

