-- ==== Sys2Proof/Laws/Ops.lean ====
section
/-! SUPPORT. How operations run: one equation for each primitive, what a sequence of two can do, how a command ends, and
what taking an error leaves unchanged. Later proofs cite these and unfold no operation of Machine/Ops.lean. -/

namespace Sys2Proof.Machine

variable {α β : Type}

/-! ## Primitives -/

@[simp] theorem pure_apply (a : α) (s : State) : (pure a : Op α) s = .ok a s := rfl
@[simp] theorem raise_apply (c : Cause) (s : State) : (raise c : Op α) s = .error (.raise c) s := rfl
@[simp] theorem stop_apply (f : Fault) (s : State) : (stop f : Op α) s = .error (.fault f) s := rfl
@[simp] theorem look_apply (f : State → α) (s : State) : look f s = .ok (f s) s := rfl
@[simp] theorem change_apply (f : State → State) (s : State) : change f s = .ok () (f s) := rfl
@[simp] theorem draw_apply (x : Config.Slot) (s : State) :
    draw x s = .ok (Config.freeNat s.draws x) { s with draws := s.draws + 1 } := rfl
@[simp] theorem setRes_apply (v : Nat) (s : State) : setRes v s = .ok () { s with res := BitVec.ofNat 32 v } := rfl
@[simp] theorem setTable_apply (t : TSel) (v : FseTable) (s : State) :
    setTable t v s = .ok () { s with ft := s.ft.set t v } := rfl
@[simp] theorem setSt_apply (x : SSel) (v : Nat) (s : State) :
    setSt x v s = .ok () { s with st := s.st.set x (BitVec.ofNat 9 v) } := rfl

theorem ensure_apply (p : Prop) [Decidable p] (c : Cause) (s : State) :
    ensure p c s = if p then .ok () s else .error (.raise c) s := rfl
@[simp] theorem ensure_of {p : Prop} [Decidable p] {c : Cause} {s : State} (h : p) : ensure p c s = .ok () s := if_pos h
theorem ensure_of_not {p : Prop} [Decidable p] {c : Cause} {s : State} (h : ¬p) :
    ensure p c s = .error (.raise c) s := if_neg h
theorem ensure_eq_ok {p : Prop} [Decidable p] {c : Cause} {s t : State} {u : Unit} :
    ensure p c s = .ok u t ↔ p ∧ t = s := by
  by_cases h : p <;> simp [ensure_apply, h, eq_comm]
theorem ensure_eq_error {p : Prop} [Decidable p] {c : Cause} {s t : State} {e : Stop} :
    ensure p c s = .error e t ↔ ¬p ∧ e = .raise c ∧ t = s := by
  by_cases h : p <;> simp [ensure_apply, h, eq_comm]

theorem readIn_of_lt {a : Nat} {s : State} (h : a < Config.inCap) : readIn a s = .ok (inByte s a) s := if_pos h
theorem readIn_eq_ok {a : Nat} {s t : State} {b : Byte} :
    readIn a s = .ok b t ↔ a < Config.inCap ∧ b = inByte s a ∧ t = s := by
  by_cases h : a < Config.inCap <;> simp [readIn, h, eq_comm]
theorem writeLit_of_lt {a : Nat} {b : Byte} {s : State} (h : a < Config.litCap) :
    writeLit a b s = .ok () { s with lit := s.lit.set a b } := if_pos h
theorem seqAppend_of_lt {ll off ml : Nat} {s : State} (h : s.nbSeq.toNat < Config.seqCap) :
    seqAppend ll off ml s = .ok () { s with
      seq := s.seq ++ [⟨BitVec.ofNat 32 ll, BitVec.ofNat 32 off, BitVec.ofNat 32 ml⟩]
      nbSeq := BitVec.ofNat 17 (s.nbSeq.toNat + 1) } := if_pos h

/-! ## One operation after another -/

@[simp] theorem bind_apply (x : Op α) (f : α → Op β) (s : State) :
    (x >>= f) s = match x s with
      | .ok a t => f a t
      | .error e t => .error e t := by
  show EStateM.bind x f s = _
  unfold EStateM.bind
  cases x s <;> rfl

theorem bind_of_ok {x : Op α} {f : α → Op β} {s t : State} {a : α} (h : x s = .ok a t) : (x >>= f) s = f a t := by
  rw [bind_apply, h]
theorem bind_of_error {x : Op α} {f : α → Op β} {s t : State} {e : Stop} (h : x s = .error e t) :
    (x >>= f) s = .error e t := by rw [bind_apply, h]

/-- A sequence that ends well: both parts did. -/
theorem bind_eq_ok {x : Op α} {f : α → Op β} {s t : State} {b : β} :
    (x >>= f) s = .ok b t ↔ ∃ a u, x s = .ok a u ∧ f a u = .ok b t := by
  rw [bind_apply]
  cases h : x s <;> simp

/-- A sequence that stops: the first part did, or the second. -/
theorem bind_eq_error {x : Op α} {f : α → Op β} {s t : State} {e : Stop} :
    (x >>= f) s = .error e t ↔ x s = .error e t ∨ ∃ a u, x s = .ok a u ∧ f a u = .error e t := by
  rw [bind_apply]
  cases h : x s <;> simp

/-! ## Selectors, ranges, readiness -/

@[simp] theorem select_some (v : α) (s : State) : select (some v) s = .ok v s := rfl
@[simp] theorem select_none (s : State) : select (none : Option α) s = .error (.raise .argRange) s := rfl
theorem selectReader_of {r : BitVec 3} {k : RSel} (h : readerOf? r = some k) (s : State) : selectReader r s = .ok k s := by
  simp [selectReader, h]
theorem selectTable_of {t : BitVec 3} {k : TSel} (h : tableOf? t = some k) (s : State) : selectTable t s = .ok k s := by
  simp [selectTable, h]
theorem selectState_of {x : BitVec 3} {k : SSel} (h : stateOf? x = some k) (s : State) : selectState x s = .ok k s := by
  simp [selectState, h]

/-- R85 step 4: the selector R names a reader exactly when it is 0..5. -/
theorem readerOf?_isSome (r : BitVec 3) : (readerOf? r).isSome = readerOk r := by revert r; decide
theorem tableOf?_isSome (t : BitVec 3) : (tableOf? t).isSome = tableOk t := by revert t; decide
theorem stateOf?_isSome (x : BitVec 3) : (stateOf? x).isSome = stateOk x := by revert x; decide

theorem checkRegion_apply (a lim : Nat) (s : State) :
    checkRegion a lim s = if a ≤ lim ∧ lim ≤ s.inLen.toNat then .ok () s else .error (.raise .argRange) s := rfl
theorem needForward_apply (s : State) :
    needForward s = if s.fr.valid = true then .ok () s else .error (.raise .notReady) s := rfl
theorem needReader_apply (r : RSel) (s : State) :
    needReader r s = if (s.rr.get r).valid = true then .ok () s else .error (.raise .notReady) s := rfl
theorem needTable_apply (x : SSel) (s : State) :
    needTable x s = if (s.ft.get (tabOf x)).valid = true then .ok () s else .error (.raise .notReady) s := rfl
theorem needInTable_apply (x : SSel) (s : State) :
    needInTable x s =
      if decide ((s.st.get x).toNat < 2 ^ (s.ft.get (tabOf x)).al.toNat) = true then .ok () s
      else .error (.raise .notReady) s := rfl
theorem needHuffman_apply (s : State) :
    needHuffman s = if s.ht.valid = true then .ok () s else .error (.raise .notReady) s := rfl

/-! ## The end of a command -/

theorem runCommand_of_noError {op : BitVec 8} {ws : List Element} {body : Op Unit} {s : State} (h : noError s = true) :
    runCommand op ws body s = finish op ws s (body s) := by simp [runCommand, gateShut, h]

theorem runCommand_of_error {op : BitVec 8} {ws : List Element} {body : Op Unit} {s : State} (h : noError s = false) :
    runCommand op ws body s = .next s := by simp [runCommand, gateShut, h]

/-- All that an ended command can be: its operation's state, or an error taken. -/
theorem finish_eq_next {op : BitVec 8} {ws : List Element} {s t : State} {r : EStateM.Result Stop State Unit} :
    finish op ws s r = .next t ↔ r = .ok () t ∨ ∃ c s1, r = .error (.raise c) s1 ∧ t = takeError op ws c s s1 := by
  cases r with
  | ok u s' => simp [finish]
  | error e s' =>
    cases e with
    | raise c =>
      simp only [finish, Host.Outcome.next.injEq, reduceCtorEq, false_or]
      constructor
      · rintro rfl; exact ⟨c, s', rfl, rfl⟩
      · rintro ⟨c', s1, h, rfl⟩; cases h; rfl
    | fault f => simp [finish]

theorem finish_ne_refused {op : BitVec 8} {ws : List Element} {s : State} {r : EStateM.Result Stop State Unit} {x : Refusal} :
    finish op ws s r ≠ .refused x := by
  cases r with
  | ok u s' => simp [finish]
  | error e s' => cases e <;> simp [finish]

/-- All that a gated command can do when it answers a next state. -/
theorem runCommand_eq_next {op : BitVec 8} {ws : List Element} {body : Op Unit} {s t : State} :
    runCommand op ws body s = .next t ↔
      noError s = false ∧ t = s ∨
      noError s = true ∧ (body s = .ok () t ∨ ∃ c s1, body s = .error (.raise c) s1 ∧ t = takeError op ws c s s1) := by
  cases h : noError s
  · simp [runCommand_of_error h, eq_comm]
  · simp [runCommand_of_noError h, finish_eq_next]

/-! ## Taking an error -/

theorem takeError_of_illegal {op : BitVec 8} {ws : List Element} {c : Cause} {s0 s1 : State}
    (h : causeCategory c = .illegalCommand) : takeError op ws c s0 s1 = recordError c op s0 := by simp [takeError, h]

theorem takeError_nil {op : BitVec 8} {c : Cause} {s0 s1 : State} (h : causeCategory c ≠ .illegalCommand) :
    takeError op [] c s0 s1 = recordError c op { s0 with draws := s1.draws + 1 } := by simp [takeError, h, unspecify]

/-- STATUS after a command's first error (R310). -/
theorem takeError_status {op : BitVec 8} {ws : List Element} {c : Cause} {s0 s1 : State} (h : noError s0 = true) :
    (takeError op ws c s0 s1).status = packStatus c op := by
  have key : (unspecify ws c s0 s1).status = s0.status := by
    have fold : ∀ (l : List Element) (u : State),
        (l.foldl (fun s e => unspecifyElement c s1.draws s0 s1 e s) u).status = u.status := by
      intro l
      induction l with
      | nil => intro u; rfl
      | cons e l ih => intro u; rw [List.foldl_cons, ih]; cases e <;> rfl
    exact fold ws s0
  unfold takeError recordError
  split_ifs with h1 h2
  · rfl
  · rfl
  · exact absurd (by simpa [noError, key] using h) h2

/-- RES, BLOCK_MAX, IN, the interface and the marks after an error: all as before (R313). -/
theorem takeError_kept {op : BitVec 8} {ws : List Element} {c : Cause} {s0 s1 : State} :
    (takeError op ws c s0 s1).res = s0.res ∧ (takeError op ws c s0 s1).blockMax = s0.blockMax ∧
      (takeError op ws c s0 s1).inMem = s0.inMem ∧ (takeError op ws c s0 s1).inEra = s0.inEra ∧
      (takeError op ws c s0 s1).port = s0.port ∧ (takeError op ws c s0 s1).frStale = s0.frStale ∧
      (takeError op ws c s0 s1).rrStale = s0.rrStale := by
  have fold : ∀ (l : List Element) (u : State),
      (l.foldl (fun s e => unspecifyElement c s1.draws s0 s1 e s) u).res = u.res ∧
      (l.foldl (fun s e => unspecifyElement c s1.draws s0 s1 e s) u).blockMax = u.blockMax ∧
      (l.foldl (fun s e => unspecifyElement c s1.draws s0 s1 e s) u).inMem = u.inMem ∧
      (l.foldl (fun s e => unspecifyElement c s1.draws s0 s1 e s) u).inEra = u.inEra ∧
      (l.foldl (fun s e => unspecifyElement c s1.draws s0 s1 e s) u).port = u.port ∧
      (l.foldl (fun s e => unspecifyElement c s1.draws s0 s1 e s) u).frStale = u.frStale ∧
      (l.foldl (fun s e => unspecifyElement c s1.draws s0 s1 e s) u).rrStale = u.rrStale := by
    intro l
    induction l with
    | nil => intro u; simp
    | cons e l ih =>
      intro u
      rw [List.foldl_cons]
      obtain ⟨h1, h2, h3, h4, h5, h6, h7⟩ := ih (unspecifyElement c s1.draws s0 s1 e u)
      rw [h1, h2, h3, h4, h5, h6, h7]
      cases e <;> exact ⟨rfl, rfl, rfl, rfl, rfl, rfl, rfl⟩
  unfold takeError
  simp only [recordError_res, recordError_blockMax, recordError_inMem, recordError_inEra, recordError_port,
    recordError_frStale, recordError_rrStale]
  split_ifs
  · exact ⟨rfl, rfl, rfl, rfl, rfl, rfl, rfl⟩
  · exact fold ws s0

end Sys2Proof.Machine
end

