-- ==== Sys2Proof/Laws/Frame.lean ====
section
/-! SUPPORT. Footprints: for each operation the parts of the state it can change, however it ends. -/

namespace Sys2Proof.Machine

variable {α β : Type}

/-! ## Keeping parts -/

/-- Every part outside `ps` holds in `t` what it holds in `s`. -/
def Keeps (ps : List Part) (s t : State) : Prop := ∀ p, p ∉ ps → samePart p s t

theorem samePart.refl (p : Part) (s : State) : samePart p s s := by cases p <;> rfl
theorem samePart.trans {p : Part} {s t u : State} (h : samePart p s t) (k : samePart p t u) : samePart p s u := by
  cases p <;> exact Eq.trans k h

theorem Keeps.refl (ps : List Part) (s : State) : Keeps ps s s := fun p _ => .refl p s
theorem Keeps.trans {ps : List Part} {s t u : State} (h : Keeps ps s t) (k : Keeps ps t u) : Keeps ps s u :=
  fun p hp => (h p hp).trans (k p hp)
theorem Keeps.mono {ps qs : List Part} {s t : State} (h : Keeps ps s t) (sub : ps ⊆ qs) : Keeps qs s t :=
  fun p hp => h p fun hp' => hp (sub hp')

/-! ## Footprints -/

/-- The state an operation reached. -/
def reached : EStateM.Result Stop State α → State
  | .ok _ s => s
  | .error _ s => s

/-- However `x` ends, it has changed no part outside `ps`. -/
def Touches (ps : List Part) (x : Op α) : Prop := ∀ s, Keeps ps s (reached (x s))

theorem Touches.mono {ps qs : List Part} {x : Op α} (h : Touches ps x) (sub : ps ⊆ qs) : Touches qs x :=
  fun s => (h s).mono sub

theorem Touches.ok {ps : List Part} {x : Op α} (h : Touches ps x) {s t : State} {a : α} (e : x s = .ok a t) :
    Keeps ps s t := by simpa [e, reached] using h s
theorem Touches.error {ps : List Part} {x : Op α} (h : Touches ps x) {s t : State} {e : Stop} (k : x s = .error e t) :
    Keeps ps s t := by simpa [k, reached] using h s

theorem Touches.pure {ps : List Part} (a : α) : Touches ps (pure a) := fun s => .refl ps s
theorem Touches.bind {ps : List Part} {x : Op α} {f : α → Op β} (hx : Touches ps x) (hf : ∀ a, Touches ps (f a)) :
    Touches ps (x >>= f) := fun s => by
  rw [bind_apply]
  cases h : x s with
  | ok a t => exact (hx.ok h).trans (hf a t)
  | error e t => exact hx.error h
theorem Touches.raise {ps : List Part} (c : Cause) : Touches ps (raise c : Op α) := fun s => .refl ps s
theorem Touches.stop {ps : List Part} (f : Fault) : Touches ps (stop f : Op α) := fun s => .refl ps s
theorem Touches.look {ps : List Part} (f : State → α) : Touches ps (look f) := fun s => .refl ps s
theorem Touches.ensure {ps : List Part} (p : Prop) [Decidable p] (c : Cause) : Touches ps (ensure p c) := fun s => by
  rw [ensure_apply]; split_ifs <;> exact .refl ps s
theorem Touches.change {ps : List Part} {f : State → State} (h : ∀ s, Keeps ps s (f s)) : Touches ps (change f) := h
theorem Touches.ite {ps : List Part} {c : Prop} [Decidable c] {x y : Op α} (hx : Touches ps x) (hy : Touches ps y) :
    Touches ps (if c then x else y) := by split_ifs <;> assumption

theorem touches_draw (x : Config.Slot) : Touches [.draws] (draw x) := fun s p hp => by
  cases p <;> first | rfl | simp at hp
theorem touches_setRes (v : Nat) : Touches [.res] (setRes v) := fun s p hp => by
  cases p <;> first | rfl | simp at hp
theorem touches_setResNbSeq : Touches [.res] setResNbSeq := fun s p hp => by
  cases p <;> first | rfl | simp at hp
theorem touches_readIn {ps : List Part} (a : Nat) : Touches ps (readIn a) := fun s => by
  unfold readIn; split_ifs <;> exact .refl ps s
theorem touches_readBytes {ps : List Part} : ∀ n a, Touches ps (readBytes a n)
  | 0, _ => .pure _
  | n + 1, a => .bind (touches_readIn a) fun _ => .bind (touches_readBytes n (a + 1)) fun _ => .pure _
theorem touches_memRead {ps : List Part} (a n : Nat) : Touches ps (memRead a n) :=
  .bind (touches_readBytes n a) fun _ => .pure _
theorem touches_writeLit (a : Nat) (b : Byte) : Touches [.lit] (writeLit a b) := fun s p hp => by
  unfold writeLit; split_ifs <;> cases p <;> first | rfl | simp at hp
theorem touches_seqAppend (ll off ml : Nat) : Touches [.seq, .nbSeq] (seqAppend ll off ml) := fun s p hp => by
  unfold seqAppend; split_ifs <;> cases p <;> first | rfl | simp at hp
theorem touches_setTable (t : TSel) (v : FseTable) : Touches [.ft t] (setTable t v) := fun s p hp => by
  cases p <;> first | rfl | exact FseBank.get_set_ne (by simpa using hp)
theorem touches_setSt (x : SSel) (v : Nat) : Touches [.st x] (setSt x v) := fun s p hp => by
  cases p <;> first | rfl | exact StBank.get_set_ne (by simpa using hp)

/-! ### Operands -/

theorem touches_select {ps : List Part} (v : Option α) : Touches ps (select v) := by
  cases v with
  | none => exact .raise _
  | some a => exact .pure a
theorem touches_checkRegion {ps : List Part} (a lim : Nat) : Touches ps (checkRegion a lim) :=
  .bind (.look _) fun _ => .ensure _ _
theorem touches_needForward {ps : List Part} : Touches ps needForward := .bind (.look _) fun _ => .ensure _ _
theorem touches_needReader {ps : List Part} (r : RSel) : Touches ps (needReader r) := .bind (.look _) fun _ => .ensure _ _
theorem touches_needTable {ps : List Part} (x : SSel) : Touches ps (needTable x) := .bind (.look _) fun _ => .ensure _ _
theorem touches_needInTable {ps : List Part} (x : SSel) : Touches ps (needInTable x) :=
  .bind (.look _) fun _ => .ensure _ _
theorem touches_needHuffman {ps : List Part} : Touches ps needHuffman := .bind (.look _) fun _ => .ensure _ _

/-! ### Bit readers -/

theorem touches_fpeek (n : Nat) : Touches [.draws] (fpeek n) :=
  .bind (.look _) fun _ => .ite (.stop _) (.ite (.bind (touches_draw _) fun _ => .pure _) (.pure _))
theorem touches_fconsume (n : Nat) : Touches [.fr] (fconsume n) :=
  .bind (.look _) fun _ => .bind (.ensure _ _) fun _ => .change fun s p hp => by
    cases p <;> first | rfl | simp at hp
theorem touches_fread (n : Nat) : Touches [.draws, .fr] (fread n) :=
  .bind ((touches_fpeek n).mono (by simp)) fun _ => .bind ((touches_fconsume n).mono (by simp)) fun _ => .pure _
theorem touches_falign : Touches [.fr] falign :=
  .bind (.change fun s p hp => by cases p <;> first | rfl | simp at hp) fun _ => .look _
theorem touches_finit (base lim : Nat) : Touches [.fr, .frStale] (finit base lim) :=
  .change fun s p hp => by cases p <;> first | rfl | simp at hp
theorem touches_rpeek (r : RSel) (n : Nat) : Touches [.draws] (rpeek r n) :=
  .bind (.look _) fun _ => .ite (.stop _) (.ite (.bind (touches_draw _) fun _ => .pure _) (.pure _))
theorem touches_rconsume (r : RSel) (n : Nat) : Touches [.rr r] (rconsume r n) :=
  .change fun s p hp => by cases p <;> first | rfl | exact RevBank.get_set_ne (by simpa using hp)
theorem touches_rread (r : RSel) (n : Nat) : Touches [.draws, .rr r] (rread r n) :=
  .bind ((touches_rpeek r n).mono (by simp)) fun _ => .bind ((touches_rconsume r n).mono (by simp)) fun _ => .pure _
theorem touches_rpos {ps : List Part} (r : RSel) : Touches ps (rpos r) := .look _
theorem touches_rinit (r : RSel) (base len : Nat) : Touches [.rr r, .rrStale r] (rinit r base len) :=
  .bind (.ensure _ _) fun _ => .bind (touches_readIn _) fun _ => .bind (.ensure _ _) fun _ => .change fun s p hp => by
    cases p <;> first
      | rfl
      | exact RevBank.get_set_ne (by simpa using hp)
      | exact RevMarks.get_clear_ne (by simpa using hp)

/-! ### FSE -/

theorem touches_setDist (t : TSel) (al : Nat) (counts : List Int) : Touches [.dist] (setDist t al counts) :=
  .change fun s p hp => by cases p <;> first | rfl | simp at hp
theorem touches_readZeroRun : ∀ (fuel n0 : Nat), Touches [.draws, .fr] (readZeroRun fuel n0)
  | 0, _ => .raise _
  | fuel + 1, _ => .bind (touches_fread 2) fun _ => .ite (touches_readZeroRun fuel _) (.pure _)
theorem touches_readZeros (t : TSel) (counts : List Int) : Touches [.draws, .fr] (readZeros t counts) :=
  .bind (.look _) fun _ => .bind (touches_readZeroRun _ _) fun _ => .bind (.ensure _ _) fun _ => .pure _
theorem touches_continueRun (t : TSel) (prev0 : Bool) (counts : List Int) :
    Touches [.draws, .fr] (continueRun t prev0 counts) := .ite (touches_readZeros t counts) (.pure _)
theorem touches_readCountField (remaining threshold nbits : Nat) :
    Touches [.draws, .fr] (readCountField remaining threshold nbits) :=
  .bind ((touches_fpeek _).mono (by simp)) fun _ =>
    .ite (.bind ((touches_fconsume _).mono (by simp)) fun _ => .pure _)
      (.bind ((touches_fpeek _).mono (by simp)) fun _ => .bind ((touches_fconsume _).mono (by simp)) fun _ => .pure _)
theorem touches_ncountLoop (t : TSel) : ∀ fuel remaining threshold nbits counts prev0,
    Touches [.draws, .fr] (ncountLoop t fuel remaining threshold nbits counts prev0)
  | 0, _, _, _, _, _ => .pure _
  | fuel + 1, _, _, _, counts, prev0 =>
    .ite (.pure _)
      (.bind (touches_continueRun t prev0 counts) fun _ =>
        .bind (touches_readCountField _ _ _) fun _ => touches_ncountLoop t fuel _ _ _ _ _)
theorem touches_readNCount (t : TSel) : Touches [.draws, .fr, .dist] (readNCount t) :=
  .bind ((touches_fread 4).mono (by simp)) fun _ => .bind (.ensure _ _) fun _ =>
    .bind ((touches_ncountLoop t _ _ _ _ _ _).mono (by simp)) fun _ => .bind (.ensure _ _) fun _ =>
      .bind (touches_falign.mono (by simp)) fun _ => .bind ((touches_setDist _ _ _).mono (by simp)) fun _ => .pure _
theorem touches_buildTable (t : TSel) : Touches [.ft t] (buildTable t) :=
  .bind (.look _) fun s => by
    split
    · exact .raise _
    · exact touches_setTable _ _
theorem touches_rleTable (t : TSel) (sym : Nat) : Touches [.ft t] (rleTable t sym) :=
  .bind (.ensure _ _) fun _ => touches_setTable _ _
theorem touches_repeatTable {ps : List Part} (t : TSel) : Touches ps (repeatTable t) :=
  .bind (.look _) fun _ => .ensure _ _
theorem touches_initState (x : SSel) (r : RSel) : Touches [.draws, .rr r, .st x] (initState x r) :=
  .bind (.look _) fun _ => .bind ((touches_rread _ _).mono (by simp)) fun _ => (touches_setSt _ _).mono (by simp)
theorem touches_symOf {ps : List Part} (x : SSel) : Touches ps (symOf x) := .look _
theorem touches_updState (x : SSel) (r : RSel) : Touches [.draws, .rr r, .st x] (updState x r) :=
  .bind (.look _) fun _ => .bind ((touches_rread _ _).mono (by simp)) fun _ => (touches_setSt _ _).mono (by simp)

/-! ### Huffman -/

theorem touches_rawWeightsFrom {ps : List Part} (a : Nat) : ∀ k i, Touches ps (rawWeightsFrom a k i)
  | 0, _ => .pure _
  | k + 1, i => .bind (touches_readIn _) fun _ => .bind (touches_rawWeightsFrom a k (i + 1)) fun _ => .pure _
theorem touches_rawWeights {ps : List Part} (a hb lim : Nat) : Touches ps (rawWeights a hb lim) :=
  .bind (.ensure _ _) fun _ => .bind (touches_rawWeightsFrom _ _ _) fun _ => .pure _
theorem touches_weightLoop : ∀ fuel wd, Touches [.draws, .rr .r5, .st .w1, .st .w2] (weightLoop fuel wd)
  | 0, _ => .raise _
  | fuel + 1, wd =>
    .bind (.ensure _ _) fun _ => .bind (touches_symOf _) fun _ =>
      .bind ((touches_updState .w1 .r5).mono (by simp)) fun _ => .bind (touches_rpos _) fun _ =>
        .ite (.bind (touches_symOf _) fun _ => .pure _)
          (.bind (.ensure _ _) fun _ => .bind (touches_symOf _) fun _ =>
            .bind ((touches_updState .w2 .r5).mono (by simp)) fun _ => .bind (touches_rpos _) fun _ =>
              .ite (.bind (touches_symOf _) fun _ => .pure _) (touches_weightLoop fuel _))

/-- What HuffTree changes beside W, NW and HT. -/
def weightParts : List Part := [.draws, .fr, .frStale, .dist, .ft .hw, .rr .r5, .rrStale .r5, .st .w1, .st .w2]

theorem touches_fseWeights (a hb lim : Nat) : Touches weightParts (fseWeights a hb lim) :=
  .bind (.ensure _ _) fun _ => .bind ((touches_finit _ _).mono (by simp [weightParts])) fun _ =>
    .bind ((touches_readNCount .hw).mono (by simp [weightParts])) fun _ =>
      .bind ((touches_buildTable .hw).mono (by simp [weightParts])) fun _ =>
        .bind ((touches_rinit .r5 _ _).mono (by simp [weightParts])) fun _ =>
          .bind ((touches_initState .w1 .r5).mono (by simp [weightParts])) fun _ =>
            .bind ((touches_initState .w2 .r5).mono (by simp [weightParts])) fun _ =>
              .bind ((touches_weightLoop _ _).mono (by simp [weightParts])) fun _ => .pure _
theorem touches_huffBuild (wd : List Byte) : Touches [.w, .nw, .ht] (huffBuild wd) :=
  .bind (.ensure _ _) fun _ => .bind (.ensure _ _) fun _ => .bind (.ensure _ _) fun _ => .bind (.ensure _ _) fun _ =>
    .bind (.ensure _ _) fun _ => .change fun s p hp => by cases p <;> first | rfl | simp at hp
theorem touches_readWeights (hb a lim : Nat) : Touches weightParts (readWeights hb a lim) :=
  .ite (touches_fseWeights a hb lim) (touches_rawWeights a hb lim)
theorem touches_huffTreeFrom (hb a lim : Nat) : Touches hufTreeParts (huffTreeFrom hb a lim) := by
  refine .bind ((touches_readWeights hb a lim).mono ?_) fun _ => .bind ((touches_huffBuild _).mono ?_) fun _ => .pure _
  · decide
  · decide
theorem touches_huffTree (a lim : Nat) : Touches hufTreeParts (huffTree a lim) :=
  .bind (.ensure _ _) fun _ => .bind (touches_readIn _) fun _ => touches_huffTreeFrom _ _ _
theorem touches_huffSym (r : RSel) : Touches [.draws, .rr r] (huffSym r) :=
  .bind (.look _) fun _ => .bind ((touches_rpeek _ _).mono (by simp)) fun _ => .bind (.look _) fun _ =>
    .bind ((touches_rconsume _ _).mono (by simp)) fun _ => .bind (touches_rpos _) fun _ =>
      .bind (.ensure _ _) fun _ => .pure _
theorem touches_huffSymbols (r : RSel) : ∀ count dst, Touches [.draws, .rr r, .lit] (huffSymbols r count dst)
  | 0, _ => .pure _
  | count + 1, dst =>
    .bind ((touches_huffSym r).mono (by simp)) fun _ => .bind ((touches_writeLit _ _).mono (by simp)) fun _ =>
      touches_huffSymbols r count (dst + 1)
theorem touches_huffStream (r : RSel) (count dst : Nat) : Touches [.draws, .rr r, .lit] (huffStream r count dst) :=
  .bind (touches_huffSymbols r count dst) fun _ => .bind (touches_rpos _) fun _ => .ensure _ _

/-! ### Literals -/

theorem touches_copyLit : ∀ k src dst, Touches [.lit] (copyLit k src dst)
  | 0, _, _ => .pure _
  | k + 1, _, _ => .bind (touches_readIn _) fun _ => .bind (touches_writeLit _ _) fun _ => touches_copyLit k _ _
theorem touches_fillLit (b : Byte) : ∀ k dst, Touches [.lit] (fillLit b k dst)
  | 0, _ => .pure _
  | k + 1, _ => .bind (touches_writeLit _ _) fun _ => touches_fillLit b k _
theorem touches_litStream (r : RSel) (q len count dst : Nat) :
    Touches [.draws, .rr r, .rrStale r, .lit] (litStream r q len count dst) :=
  .bind ((touches_rinit r q len).mono (by simp)) fun _ => (touches_huffStream r count dst).mono (by simp)
theorem touches_fourStreams (p last regen : Nat) : Touches litDecodeParts (fourStreams p last regen) :=
  .bind (.ensure _ _) fun _ => .bind (touches_memRead _ _) fun _ => .bind (touches_memRead _ _) fun _ =>
    .bind (touches_memRead _ _) fun _ => .bind (.ensure _ _) fun _ =>
      .bind ((touches_litStream .r0 _ _ _ _).mono (by decide)) fun _ =>
        .bind ((touches_litStream .r1 _ _ _ _).mono (by decide)) fun _ =>
          .bind ((touches_litStream .r2 _ _ _ _).mono (by decide)) fun _ =>
            (touches_litStream .r3 _ _ _ _).mono (by decide)
theorem touches_bodyTable (h : LitHeader) (p last : Nat) : Touches hufTreeParts (bodyTable h p last) :=
  .ite (touches_huffTree p last) (.bind (.bind (.look _) fun _ => .ensure _ _) fun _ => .pure _)
theorem touches_codedBody (h : LitHeader) (p last : Nat) : Touches litDecodeParts (codedBody h p last) :=
  .bind ((touches_bodyTable h p last).mono (by decide)) fun _ =>
    .ite ((touches_litStream .r0 _ _ _ _).mono (by decide)) (touches_fourStreams _ _ _)
theorem touches_litBody (h : LitHeader) (a lim : Nat) : Touches litDecodeParts (litBody h a lim) := by
  unfold litBody
  split
  · exact .bind (.ensure _ _) fun _ => .bind ((touches_copyLit _ _ _).mono (by decide)) fun _ => .pure _
  · exact .bind (.ensure _ _) fun _ => .bind (touches_readIn _) fun _ =>
      .bind ((touches_fillLit _ _ _).mono (by decide)) fun _ => .pure _
  all_goals
    exact .bind (.ensure _ _) fun _ => .bind (.ensure _ _) fun _ => .bind (touches_codedBody h _ _) fun _ => .pure _
theorem touches_litSection (h : LitHeader) (a lim : Nat) : Touches litDecodeParts (litSection h a lim) :=
  .bind (.ensure _ _) fun _ => .bind (.bind (.look _) fun _ => .ensure _ _) fun _ =>
    .bind (touches_litBody h a lim) fun _ =>
      .bind (.change fun s p hp => by
        cases p <;> first | rfl | exact absurd (by decide) hp) fun _ => .pure _
theorem touches_litDecode (a lim : Nat) : Touches litDecodeParts (litDecode a lim) :=
  .bind (.ensure _ _) fun _ => .bind (touches_readIn _) fun _ => .bind (.ensure _ _) fun _ =>
    .bind (touches_readBytes _ _) fun _ => touches_litSection _ _ _

/-! ### Sequences -/

theorem touches_resolveOffset (ofv ll : Nat) : Touches [.rep] (resolveOffset ofv ll) :=
  .bind (.look _) fun _ => by
    split
    · exact .raise _
    · exact .bind (.change fun s p hp => by cases p <;> first | rfl | simp at hp) fun _ => .pure _
theorem touches_seqTable (t : TSel) (mode : BitVec 2) (p lim : Nat) :
    Touches [.draws, .fr, .frStale, .dist, .ft t] (seqTable t mode p lim) := by
  unfold seqTable
  split
  · exact .bind ((touches_setDist _ _ _).mono (by simp)) fun _ =>
      .bind ((touches_buildTable t).mono (by simp)) fun _ => .pure _
  · exact .bind (.ensure _ _) fun _ => .bind (touches_readIn _) fun _ =>
      .bind ((touches_rleTable t _).mono (by simp)) fun _ => .pure _
  · exact .bind ((touches_finit _ _).mono (by simp)) fun _ => .bind ((touches_readNCount t).mono (by simp)) fun _ =>
      .bind ((touches_buildTable t).mono (by simp)) fun _ => .pure _
  · exact .bind (touches_repeatTable t) fun _ => .pure _
theorem touches_seqReads : Touches [.draws, .rr .r4] seqReads :=
  .bind (touches_symOf _) fun _ => .bind (touches_symOf _) fun _ => .bind (touches_symOf _) fun _ =>
    .bind (touches_rread _ _) fun _ => .bind (touches_rread _ _) fun _ => .bind (touches_rread _ _) fun _ => .pure _
theorem touches_seqUpdates (last : Bool) : Touches [.draws, .rr .r4, .st .ll, .st .off, .st .ml] (seqUpdates last) :=
  .ite (.pure _)
    (.bind ((touches_updState .ll .r4).mono (by simp)) fun _ =>
      .bind ((touches_updState .ml .r4).mono (by simp)) fun _ => (touches_updState .off .r4).mono (by simp))
theorem touches_seqStep (last : Bool) : Touches seqDecodeParts (seqStep last) :=
  .bind (touches_seqReads.mono (by decide)) fun _ => .bind ((touches_seqUpdates last).mono (by decide)) fun _ =>
    .bind (touches_rpos _) fun _ => .bind (.ensure _ _) fun _ =>
      .bind ((touches_resolveOffset _ _).mono (by decide)) fun _ => (touches_seqAppend _ _ _).mono (by decide)
theorem touches_seqLoop : ∀ k, Touches seqDecodeParts (seqLoop k)
  | 0 => .pure _
  | k + 1 => .bind (touches_seqStep _) fun _ => touches_seqLoop k
theorem touches_seqFromModes (m : Byte) (count p lim : Nat) : Touches seqDecodeParts (seqFromModes m count p lim) :=
  .bind (.ensure _ _) fun _ => .bind ((touches_seqTable .ll _ _ _).mono (by decide)) fun _ =>
    .bind ((touches_seqTable .off _ _ _).mono (by decide)) fun _ =>
      .bind ((touches_seqTable .ml _ _ _).mono (by decide)) fun _ =>
        .bind ((touches_rinit .r4 _ _).mono (by decide)) fun _ =>
          .bind ((touches_initState .ll .r4).mono (by decide)) fun _ =>
            .bind ((touches_initState .off .r4).mono (by decide)) fun _ =>
              .bind ((touches_initState .ml .r4).mono (by decide)) fun _ =>
                .bind (touches_seqLoop count) fun _ => .bind (touches_rpos _) fun _ => .ensure _ _
theorem touches_modesByte {ps : List Part} (forced : Option Byte) (a : Nat) : Touches ps (modesByte forced a) := by
  cases forced
  · exact touches_readIn _
  · exact .pure _
theorem touches_seqFromCount (c : SeqCount) (forced : Option Byte) (a lim : Nat) :
    Touches seqDecodeParts (seqFromCount c forced a lim) :=
  .bind (.ensure _ _) fun _ => .ite (.ensure _ _)
    (.bind (.ensure _ _) fun _ => .bind (.ensure _ _) fun _ => .bind (touches_modesByte _ _) fun _ =>
      touches_seqFromModes _ _ _ _)
theorem touches_seqStart : Touches [.seq, .nbSeq] seqStart :=
  .change fun s p hp => by cases p <;> first | rfl | simp at hp
theorem touches_readSeqCount {ps : List Part} (a lim : Nat) : Touches ps (readSeqCount a lim) :=
  .bind (.ensure _ _) fun _ => .bind (touches_readIn _) fun _ => .bind (.ensure _ _) fun _ =>
    .bind (touches_readBytes _ _) fun _ => .pure _
theorem touches_seqDecode (a lim : Nat) : Touches seqDecodeParts (seqDecode a lim) :=
  .bind (touches_seqStart.mono (by decide)) fun _ => .bind (touches_readSeqCount _ _) fun _ =>
    touches_seqFromCount _ _ _ _

/-! ## Errors -/

/-- The parts an element of a write set stands for (R313). -/
def partsOfElement : Element → List Part
  | .inLen => [.inLen]
  | .frPos | .fr => [.fr]
  | .dist => [.dist]
  | .rr r | .rrPos r => [.rr r]
  | .ft t => [.ft t]
  | .st x => [.st x]
  | .w => [.w, .nw]
  | .ht => [.ht]
  | .lit | .litRange _ _ => [.lit]
  | .litLen => [.litLen]
  | .seq => [.seq, .nbSeq]
  | .rep => [.rep]

theorem unspecifyElement_keeps (c : Cause) (d : Nat) (s0 s1 : State) (e : Element) (s : State) :
    Keeps (partsOfElement e) s (unspecifyElement c d s0 s1 e s) := fun p hp => by
  cases e <;> cases p <;> first
    | rfl
    | exact RevBank.get_set_ne (by simpa [partsOfElement] using hp)
    | exact FseBank.get_set_ne (by simpa [partsOfElement] using hp)
    | exact StBank.get_set_ne (by simpa [partsOfElement] using hp)
    | simp [partsOfElement] at hp

/-- What taking an error changes: STATUS, the draws, and the write set (R310, R313). -/
theorem takeError_keeps (op : BitVec 8) (ws : List Element) (c : Cause) (s0 s1 : State) :
    Keeps (.status :: .draws :: ws.flatMap partsOfElement) s0 (takeError op ws c s0 s1) := by
  have status : ∀ (qs : List Part) (t : State), Keeps (.status :: qs) t (recordError c op t) := fun qs t p hp => by
    unfold recordError
    split_ifs
    · cases p <;> first | rfl | simp at hp
    · exact .refl p t
  have fold : ∀ (l : List Element) (u : State),
      Keeps (l.flatMap partsOfElement) u (l.foldl (fun s e => unspecifyElement c s1.draws s0 s1 e s) u) := by
    intro l
    induction l with
    | nil => exact fun u => .refl _ u
    | cons e l ih =>
      intro u
      rw [List.foldl_cons, List.flatMap_cons]
      exact ((unspecifyElement_keeps c _ s0 s1 e u).mono (List.subset_append_left _ _)).trans
        ((ih _).mono (List.subset_append_right _ _))
  unfold takeError
  split_ifs
  · exact status _ s0
  · refine Keeps.trans ?_ (status _ _)
    refine Keeps.trans ((fold ws s0).mono fun p hp => by simp [hp]) ?_
    intro p hp
    unfold unspecify
    cases p <;> first | rfl | simp at hp

/-- What a gated command changes, however it ends. -/
theorem runCommand_keeps {op : BitVec 8} {ws : List Element} {body : Op Unit} {ps : List Part} {s t : State}
    (hb : Touches ps body) (hw : .status :: .draws :: ws.flatMap partsOfElement ⊆ ps)
    (h : runCommand op ws body s = .next t) : Keeps ps s t := by
  rcases runCommand_eq_next.1 h with ⟨-, rfl⟩ | ⟨-, hok | ⟨c, s1, -, rfl⟩⟩
  · exact .refl _ _
  · exact hb.ok hok
  · exact (takeError_keeps op ws c s s1).mono hw

end Sys2Proof.Machine
end

