-- ==== Sys2Proof/Laws/PerInstr.lean ====
section
/-! SUPPORT. The statements made for every instruction, one lemma for each constructor of Instr: an encoded well-formed
instruction decodes to itself. -/

namespace Sys2Proof.Laws

/-! ## Commands -/

theorem fieldOp_packWord (op : BitVec 8) (r t : BitVec 3) (n : BitVec 5) : fieldOp (packWord op r t n) = op := by
  apply BitVec.eq_of_toNat_eq
  simp only [fieldOp, packWord, BitVec.extractLsb'_toNat, BitVec.toNat_ofNat, Nat.shiftRight_eq_div_pow]
  omega
theorem fieldR_packWord (op : BitVec 8) (r t : BitVec 3) (n : BitVec 5) : fieldR (packWord op r t n) = r := by
  apply BitVec.eq_of_toNat_eq
  simp only [fieldR, packWord, BitVec.extractLsb'_toNat, BitVec.toNat_ofNat, Nat.shiftRight_eq_div_pow]
  omega
theorem fieldT_packWord (op : BitVec 8) (r t : BitVec 3) (n : BitVec 5) : fieldT (packWord op r t n) = t := by
  apply BitVec.eq_of_toNat_eq
  simp only [fieldT, packWord, BitVec.extractLsb'_toNat, BitVec.toNat_ofNat, Nat.shiftRight_eq_div_pow]
  omega
theorem fieldN_packWord (op : BitVec 8) (r t : BitVec 3) (n : BitVec 5) : fieldN (packWord op r t n) = n := by
  apply BitVec.eq_of_toNat_eq
  simp only [fieldN, packWord, BitVec.extractLsb'_toNat, BitVec.toNat_ofNat, Nat.shiftRight_eq_div_pow]
  omega
theorem fieldReserved_packWord (op : BitVec 8) (r t : BitVec 3) (n : BitVec 5) :
    fieldReserved (packWord op r t n) = 0 := by
  apply BitVec.eq_of_toNat_eq
  simp only [fieldReserved, packWord, BitVec.extractLsb'_toNat, BitVec.toNat_ofNat, Nat.shiftRight_eq_div_pow,
    BitVec.ofNat_eq_ofNat]
  omega

/-- The row of R82 for an OP. -/
def findRow (op : BitVec 8) : Option CommandRow := commandRows.find? fun c => c.op == op

/-- A packed word decodes by the row of its OP when the fields that row does not use are 0 (R80, R82, R84). -/
theorem decode_packWord {op : BitVec 8} {row : CommandRow} (h : findRow op = some row)
    (r t : BitVec 3) (n : BitVec 5) (a0 a1 : Word) (hr : (row.usesR || r == 0) = true) (ht : (row.usesT || t == 0) = true)
    (hn : (row.usesN || n == 0) = true) : decode (commandOf op r t n a0 a1) = .ok (row.make r t n a0 a1) := by
  have fields : fieldsOk row (packWord op r t n) = true := by
    simp only [fieldsOk, fieldReserved_packWord, fieldR_packWord, fieldT_packWord, fieldN_packWord, hr, ht, hn]
    rfl
  have row_of : commandRows.find? (fun c => c.op == op) = some row := h
  simp only [decode, commandOf, decodeCommand, fieldOp_packWord, row_of, fields, if_true, fieldR_packWord, fieldT_packWord,
    fieldN_packWord]

/-! ## Format elements -/

theorem leNat_leBytes (n x : Nat) : leNat (leBytes n x) = x % 256 ^ n := by
  induction n generalizing x with
  | zero => simp [leBytes, leNat, Nat.mod_one]
  | succ n ih =>
    rw [leBytes, leNat, ih, BitVec.toNat_ofNat, pow_succ' 256 n, Nat.mod_mul]

@[simp] theorem length_leBytes (n x : Nat) : (leBytes n x).length = n := by
  induction n generalizing x with
  | zero => rfl
  | succ n ih => simp [leBytes, ih]

/-- A literals header of `n` bytes decodes by its value `x`, where its first byte gives `n` bytes (R89, R90). -/
theorem decode_lithdr {n x : Nat} (hn : litHeaderSize (BitVec.ofNat 8 x) = n + 1) :
    decode (.element .lithdr (leBytes (n + 1) x)) = .ok (instrOfLitHeader (litHeader (leBytes (n + 1) x))) := by
  have e : leBytes (n + 1) x = BitVec.ofNat 8 x :: leBytes n (x / 256) := rfl
  rw [e]
  simp [decode, decodeElement, hn]

/-- The header a value `x` of `n + 1` bytes gives, type by type. -/
theorem litHeader_leBytes {n x : Nat} (hn : litHeaderSize (BitVec.ofNat 8 x) = n + 1) :
    litHeader (leBytes (n + 1) x) =
      match litTypeOf (BitVec.ofNat 8 x) with
      | .raw => ⟨.raw, n + 1, 1, if n + 1 = 1 then x % 256 ^ (n + 1) / 8 else x % 256 ^ (n + 1) / 16, 0⟩
      | .rle => ⟨.rle, n + 1, 1, if n + 1 = 1 then x % 256 ^ (n + 1) / 8 else x % 256 ^ (n + 1) / 16, 0⟩
      | .compressed =>
        ⟨.compressed, n + 1, if sizeFormat (BitVec.ofNat 8 x) = 0 then 1 else 4,
          x % 256 ^ (n + 1) / 16 % 2 ^ sizeFieldBits (n + 1),
          x % 256 ^ (n + 1) / 2 ^ (4 + sizeFieldBits (n + 1)) % 2 ^ sizeFieldBits (n + 1)⟩
      | .treeless =>
        ⟨.treeless, n + 1, if sizeFormat (BitVec.ofNat 8 x) = 0 then 1 else 4,
          x % 256 ^ (n + 1) / 16 % 2 ^ sizeFieldBits (n + 1),
          x % 256 ^ (n + 1) / 2 ^ (4 + sizeFieldBits (n + 1)) % 2 ^ sizeFieldBits (n + 1)⟩ := by
  have e : leBytes (n + 1) x = BitVec.ofNat 8 x :: leBytes n (x / 256) := rfl
  have hd : (leBytes (n + 1) x).headD 0 = BitVec.ofNat 8 x := by rw [e]; rfl
  have tk : (leBytes (n + 1) x).take (n + 1) = leBytes (n + 1) x := List.take_of_length_le (by simp)
  unfold litHeader
  cases h : litTypeOf (BitVec.ofNat 8 x) <;> simp only [hd, hn, tk, leNat_leBytes, h]

theorem litTypeOf_ofNat (x : Nat) : litTypeOf (BitVec.ofNat 8 x) = litTypeOf (BitVec.ofNat 8 (x % 4)) := by
  have : (BitVec.ofNat 8 x).toNat % 4 = (BitVec.ofNat 8 (x % 4)).toNat % 4 := by simp only [BitVec.toNat_ofNat]; omega
  unfold litTypeOf
  rw [this]
theorem sizeFormat_ofNat (x : Nat) : sizeFormat (BitVec.ofNat 8 x) = x / 4 % 4 := by
  simp only [sizeFormat, BitVec.toNat_ofNat]; omega

/-- Raw and RLE headers of 2 and 3 bytes. -/
theorem decode_simpleHeader {type sf n regen : Nat} {lt : LitType}
    (hlt : type = 0 ∧ lt = .raw ∨ type = 1 ∧ lt = .rle)
    (hsf : sf = 1 ∧ n = 1 ∨ sf = 3 ∧ n = 2) (hreg : 16 * regen + 16 ≤ 256 ^ (n + 1)) :
    decode (simpleHeader type sf (n + 1) regen) = .ok (instrOfLitHeader ⟨lt, n + 1, 1, regen, 0⟩) := by
  have hx : n + 1 ≠ 1 := by omega
  have sz : sizeFormat (BitVec.ofNat 8 (type + 4 * sf + 16 * regen)) = sf := by rw [sizeFormat_ofNat]; omega
  have ty : litTypeOf (BitVec.ofNat 8 (type + 4 * sf + 16 * regen)) = lt := by
    rw [litTypeOf_ofNat, show (type + 4 * sf + 16 * regen) % 4 = type by omega]
    rcases hlt with ⟨rfl, rfl⟩ | ⟨rfl, rfl⟩ <;> rfl
  have hs : litHeaderSize (BitVec.ofNat 8 (type + 4 * sf + 16 * regen)) = n + 1 := by
    unfold litHeaderSize
    rw [sz, ty]
    rcases hlt with ⟨rfl, rfl⟩ | ⟨rfl, rfl⟩ <;> rcases hsf with ⟨rfl, rfl⟩ | ⟨rfl, rfl⟩ <;> rfl
  have val : (type + 4 * sf + 16 * regen) % 256 ^ (n + 1) / 16 = regen := by
    rw [Nat.mod_eq_of_lt (by omega)]; omega
  simp only [simpleHeader, if_neg hx, decode_lithdr hs, litHeader_leBytes hs, ty]
  rcases hlt with ⟨rfl, rfl⟩ | ⟨rfl, rfl⟩ <;> simp only [val]

/-- Compressed and Treeless headers. -/
theorem decode_streamHeader {type sf n bits streams regen comp : Nat} {lt : LitType}
    (hlt : type = 2 ∧ lt = .compressed ∨ type = 3 ∧ lt = .treeless)
    (hsf : sf = 0 ∧ n = 2 ∧ bits = 10 ∧ streams = 1 ∨ sf = 1 ∧ n = 2 ∧ bits = 10 ∧ streams = 4 ∨
      sf = 2 ∧ n = 3 ∧ bits = 14 ∧ streams = 4 ∨ sf = 3 ∧ n = 4 ∧ bits = 18 ∧ streams = 4)
    (hreg : regen < 2 ^ bits) (hcomp : comp < 2 ^ bits) :
    decode (streamHeader type sf (n + 1) bits regen comp) = .ok (instrOfLitHeader ⟨lt, n + 1, streams, regen, comp⟩) := by
  have x16 : 2 ^ (4 + bits) * comp = 16 * (2 ^ bits * comp) := by rw [pow_add]; ring
  have sz : sizeFormat (BitVec.ofNat 8 (type + 4 * sf + 16 * regen + 2 ^ (4 + bits) * comp)) = sf := by
    rw [sizeFormat_ofNat, x16]; omega
  have ty : litTypeOf (BitVec.ofNat 8 (type + 4 * sf + 16 * regen + 2 ^ (4 + bits) * comp)) = lt := by
    rw [x16, litTypeOf_ofNat, show (type + 4 * sf + 16 * regen + 16 * (2 ^ bits * comp)) % 4 = type by omega]
    rcases hlt with ⟨rfl, rfl⟩ | ⟨rfl, rfl⟩ <;> rfl
  have hs : litHeaderSize (BitVec.ofNat 8 (type + 4 * sf + 16 * regen + 2 ^ (4 + bits) * comp)) = n + 1 := by
    unfold litHeaderSize
    rw [sz, ty]
    rcases hlt with ⟨rfl, rfl⟩ | ⟨rfl, rfl⟩ <;>
      rcases hsf with ⟨rfl, rfl, rfl, rfl⟩ | ⟨rfl, rfl, rfl, rfl⟩ | ⟨rfl, rfl, rfl, rfl⟩ | ⟨rfl, rfl, rfl, rfl⟩ <;> rfl
  have field : sizeFieldBits (n + 1) = bits := by
    rcases hsf with ⟨-, rfl, rfl, -⟩ | ⟨-, rfl, rfl, -⟩ | ⟨-, rfl, rfl, -⟩ | ⟨-, rfl, rfl, -⟩ <;> rfl
  have st : (if sf = 0 then 1 else 4) = streams := by
    rcases hsf with ⟨rfl, -, -, rfl⟩ | ⟨rfl, -, -, rfl⟩ | ⟨rfl, -, -, rfl⟩ | ⟨rfl, -, -, rfl⟩ <;> rfl
  have vals : (type + 4 * sf + 16 * regen + 2 ^ (4 + bits) * comp) % 256 ^ (n + 1) / 16 % 2 ^ bits = regen ∧
      (type + 4 * sf + 16 * regen + 2 ^ (4 + bits) * comp) % 256 ^ (n + 1) / 2 ^ (4 + bits) % 2 ^ bits = comp := by
    rcases hsf with ⟨rfl, rfl, rfl, -⟩ | ⟨rfl, rfl, rfl, -⟩ | ⟨rfl, rfl, rfl, -⟩ | ⟨rfl, rfl, rfl, -⟩ <;>
      norm_num at hreg hcomp ⊢ <;> omega
  simp only [streamHeader, decode_lithdr hs, litHeader_leBytes hs, ty, sz, field]
  rcases hlt with ⟨rfl, rfl⟩ | ⟨rfl, rfl⟩ <;> simp only [vals, st]

/-! ## The round trip -/

/-- An encoded well-formed instruction decodes to itself. -/
def RoundTrip.Statement (i : Instr) : Prop := i.WellFormed = true → decode (encode i) = .ok i

theorem RoundTrip.nop : RoundTrip.Statement .nop := fun _ =>
  decode_packWord (show findRow opcNop = some _ from rfl) 0 0 0 0 0 rfl rfl rfl
theorem RoundTrip.frameReset (a0 : Word) : RoundTrip.Statement (.frameReset a0) := fun _ =>
  decode_packWord (show findRow opcFrameReset = some _ from rfl) 0 0 0 a0 0 rfl rfl rfl
theorem RoundTrip.setInlen (a0 : Word) : RoundTrip.Statement (.setInlen a0) := fun _ =>
  decode_packWord (show findRow opcSetInlen = some _ from rfl) 0 0 0 a0 0 rfl rfl rfl
theorem RoundTrip.decodeBlock (a0 : Word) : RoundTrip.Statement (.decodeBlock a0) := fun _ =>
  decode_packWord (show findRow opcDecodeBlock = some _ from rfl) 0 0 0 a0 0 rfl rfl rfl
theorem RoundTrip.brFinit (a0 : Word) (a1 : Word) : RoundTrip.Statement (.brFinit a0 a1) := fun _ =>
  decode_packWord (show findRow opcBrFinit = some _ from rfl) 0 0 0 a0 a1 rfl rfl rfl
theorem RoundTrip.brFpeek (n : BitVec 5) : RoundTrip.Statement (.brFpeek n) := fun _ =>
  decode_packWord (show findRow opcBrFpeek = some _ from rfl) 0 0 n 0 0 rfl rfl rfl
theorem RoundTrip.brFread (n : BitVec 5) : RoundTrip.Statement (.brFread n) := fun _ =>
  decode_packWord (show findRow opcBrFread = some _ from rfl) 0 0 n 0 0 rfl rfl rfl
theorem RoundTrip.brFalign : RoundTrip.Statement .brFalign := fun _ =>
  decode_packWord (show findRow opcBrFalign = some _ from rfl) 0 0 0 0 0 rfl rfl rfl
theorem RoundTrip.brRinit (r : BitVec 3) (a0 : Word) (a1 : Word) : RoundTrip.Statement (.brRinit r a0 a1) := fun _ =>
  decode_packWord (show findRow opcBrRinit = some _ from rfl) r 0 0 a0 a1 rfl rfl rfl
theorem RoundTrip.brRpeek (r : BitVec 3) (n : BitVec 5) : RoundTrip.Statement (.brRpeek r n) := fun _ =>
  decode_packWord (show findRow opcBrRpeek = some _ from rfl) r 0 n 0 0 rfl rfl rfl
theorem RoundTrip.brRread (r : BitVec 3) (n : BitVec 5) : RoundTrip.Statement (.brRread r n) := fun _ =>
  decode_packWord (show findRow opcBrRread = some _ from rfl) r 0 n 0 0 rfl rfl rfl
theorem RoundTrip.brRconsume (r : BitVec 3) (n : BitVec 5) : RoundTrip.Statement (.brRconsume r n) := fun _ =>
  decode_packWord (show findRow opcBrRconsume = some _ from rfl) r 0 n 0 0 rfl rfl rfl
theorem RoundTrip.brRstat (r : BitVec 3) : RoundTrip.Statement (.brRstat r) := fun _ =>
  decode_packWord (show findRow opcBrRstat = some _ from rfl) r 0 0 0 0 rfl rfl rfl
theorem RoundTrip.fseNcount (t : BitVec 3) : RoundTrip.Statement (.fseNcount t) := fun _ =>
  decode_packWord (show findRow opcFseNcount = some _ from rfl) 0 t 0 0 0 rfl rfl rfl
theorem RoundTrip.fsePredef (t : BitVec 3) : RoundTrip.Statement (.fsePredef t) := fun _ =>
  decode_packWord (show findRow opcFsePredef = some _ from rfl) 0 t 0 0 0 rfl rfl rfl
theorem RoundTrip.fseBuild (t : BitVec 3) : RoundTrip.Statement (.fseBuild t) := fun _ =>
  decode_packWord (show findRow opcFseBuild = some _ from rfl) 0 t 0 0 0 rfl rfl rfl
theorem RoundTrip.fseRle (t : BitVec 3) (a0 : Word) : RoundTrip.Statement (.fseRle t a0) := fun _ =>
  decode_packWord (show findRow opcFseRle = some _ from rfl) 0 t 0 a0 0 rfl rfl rfl
theorem RoundTrip.fseRepeat (t : BitVec 3) : RoundTrip.Statement (.fseRepeat t) := fun _ =>
  decode_packWord (show findRow opcFseRepeat = some _ from rfl) 0 t 0 0 0 rfl rfl rfl
theorem RoundTrip.fseInitst (x : BitVec 3) (r : BitVec 3) : RoundTrip.Statement (.fseInitst x r) := fun _ =>
  decode_packWord (show findRow opcFseInitst = some _ from rfl) r x 0 0 0 rfl rfl rfl
theorem RoundTrip.fseSym (x : BitVec 3) : RoundTrip.Statement (.fseSym x) := fun _ =>
  decode_packWord (show findRow opcFseSym = some _ from rfl) 0 x 0 0 0 rfl rfl rfl
theorem RoundTrip.fseUpdst (x : BitVec 3) (r : BitVec 3) : RoundTrip.Statement (.fseUpdst x r) := fun _ =>
  decode_packWord (show findRow opcFseUpdst = some _ from rfl) r x 0 0 0 rfl rfl rfl
theorem RoundTrip.hufTree (a0 : Word) (a1 : Word) : RoundTrip.Statement (.hufTree a0 a1) := fun _ =>
  decode_packWord (show findRow opcHufTree = some _ from rfl) 0 0 0 a0 a1 rfl rfl rfl
theorem RoundTrip.hufSym (r : BitVec 3) : RoundTrip.Statement (.hufSym r) := fun _ =>
  decode_packWord (show findRow opcHufSym = some _ from rfl) r 0 0 0 0 rfl rfl rfl
theorem RoundTrip.hufStream (r : BitVec 3) (a0 : Word) (a1 : Word) : RoundTrip.Statement (.hufStream r a0 a1) := fun _ =>
  decode_packWord (show findRow opcHufStream = some _ from rfl) r 0 0 a0 a1 rfl rfl rfl
theorem RoundTrip.litDecode (a0 : Word) (a1 : Word) : RoundTrip.Statement (.litDecode a0 a1) := fun _ =>
  decode_packWord (show findRow opcLitDecode = some _ from rfl) 0 0 0 a0 a1 rfl rfl rfl
theorem RoundTrip.seqDecode (a0 : Word) (a1 : Word) : RoundTrip.Statement (.seqDecode a0 a1) := fun _ =>
  decode_packWord (show findRow opcSeqDecode = some _ from rfl) 0 0 0 a0 a1 rfl rfl rfl
theorem RoundTrip.seqResolve (a0 : Word) (a1 : Word) : RoundTrip.Statement (.seqResolve a0 a1) := fun _ =>
  decode_packWord (show findRow opcSeqResolve = some _ from rfl) 0 0 0 a0 a1 rfl rfl rfl

theorem RoundTrip.lithdrRaw1b (size : BitVec 5) : RoundTrip.Statement (.lithdrRaw1b size) := by
  unfold RoundTrip.Statement; revert size; decide
theorem RoundTrip.lithdrRle1b (size : BitVec 5) : RoundTrip.Statement (.lithdrRle1b size) := by
  unfold RoundTrip.Statement; revert size; decide
theorem RoundTrip.lithdrRaw2b (size : BitVec 12) : RoundTrip.Statement (.lithdrRaw2b size) := fun _ => by
  have h := size.isLt
  refine (decode_simpleHeader (n := 1) (lt := .raw) (by simp) (by simp) (by omega)).trans ?_
  simp [instrOfLitHeader]
theorem RoundTrip.lithdrRaw3b (size : BitVec 20) : RoundTrip.Statement (.lithdrRaw3b size) := fun _ => by
  have h := size.isLt
  refine (decode_simpleHeader (n := 2) (lt := .raw) (by simp) (by simp) (by omega)).trans ?_
  simp [instrOfLitHeader]
theorem RoundTrip.lithdrRle2b (size : BitVec 12) : RoundTrip.Statement (.lithdrRle2b size) := fun _ => by
  have h := size.isLt
  refine (decode_simpleHeader (n := 1) (lt := .rle) (by simp) (by simp) (by omega)).trans ?_
  simp [instrOfLitHeader]
theorem RoundTrip.lithdrRle3b (size : BitVec 20) : RoundTrip.Statement (.lithdrRle3b size) := fun _ => by
  have h := size.isLt
  refine (decode_simpleHeader (n := 2) (lt := .rle) (by simp) (by simp) (by omega)).trans ?_
  simp [instrOfLitHeader]
theorem RoundTrip.lithdrComp1s3b (regen comp : BitVec 10) : RoundTrip.Statement (.lithdrComp1s3b regen comp) := fun _ => by
  refine (decode_streamHeader (n := 2) (streams := 1) (lt := .compressed) (by simp) (by simp) regen.isLt comp.isLt).trans ?_
  simp [instrOfLitHeader]
theorem RoundTrip.lithdrComp4s3b (regen comp : BitVec 10) : RoundTrip.Statement (.lithdrComp4s3b regen comp) := fun _ => by
  refine (decode_streamHeader (n := 2) (streams := 4) (lt := .compressed) (by simp) (by simp) regen.isLt comp.isLt).trans ?_
  simp [instrOfLitHeader]
theorem RoundTrip.lithdrComp4s4b (regen comp : BitVec 14) : RoundTrip.Statement (.lithdrComp4s4b regen comp) := fun _ => by
  refine (decode_streamHeader (n := 3) (streams := 4) (lt := .compressed) (by simp) (by simp) regen.isLt comp.isLt).trans ?_
  simp [instrOfLitHeader]
theorem RoundTrip.lithdrComp4s5b (regen comp : BitVec 18) : RoundTrip.Statement (.lithdrComp4s5b regen comp) := fun _ => by
  refine (decode_streamHeader (n := 4) (streams := 4) (lt := .compressed) (by simp) (by simp) regen.isLt comp.isLt).trans ?_
  simp [instrOfLitHeader]
theorem RoundTrip.lithdrTreeless1s3b (regen comp : BitVec 10) : RoundTrip.Statement (.lithdrTreeless1s3b regen comp) := fun _ => by
  refine (decode_streamHeader (n := 2) (streams := 1) (lt := .treeless) (by simp) (by simp) regen.isLt comp.isLt).trans ?_
  simp [instrOfLitHeader]
theorem RoundTrip.lithdrTreeless4s3b (regen comp : BitVec 10) : RoundTrip.Statement (.lithdrTreeless4s3b regen comp) := fun _ => by
  refine (decode_streamHeader (n := 2) (streams := 4) (lt := .treeless) (by simp) (by simp) regen.isLt comp.isLt).trans ?_
  simp [instrOfLitHeader]
theorem RoundTrip.lithdrTreeless4s4b (regen comp : BitVec 14) : RoundTrip.Statement (.lithdrTreeless4s4b regen comp) := fun _ => by
  refine (decode_streamHeader (n := 3) (streams := 4) (lt := .treeless) (by simp) (by simp) regen.isLt comp.isLt).trans ?_
  simp [instrOfLitHeader]
theorem RoundTrip.lithdrTreeless4s5b (regen comp : BitVec 18) : RoundTrip.Statement (.lithdrTreeless4s5b regen comp) := fun _ => by
  refine (decode_streamHeader (n := 4) (streams := 4) (lt := .treeless) (by simp) (by simp) regen.isLt comp.isLt).trans ?_
  simp [instrOfLitHeader]

theorem RoundTrip.hufhdrFse (x : BitVec 7) : RoundTrip.Statement (.hufhdrFse x) := by
  unfold RoundTrip.Statement; revert x; decide
theorem RoundTrip.hufhdrRaw (x : BitVec 7) : RoundTrip.Statement (.hufhdrRaw x) := by
  unfold RoundTrip.Statement; revert x; decide
theorem RoundTrip.seqcntZero : RoundTrip.Statement .seqcntZero := fun _ => rfl
theorem RoundTrip.seqcnt1b (x : BitVec 7) : RoundTrip.Statement (.seqcnt1b x) := by
  unfold RoundTrip.Statement; revert x; decide
theorem RoundTrip.seqcnt2b (x : BitVec 7) (b1 : Byte) : RoundTrip.Statement (.seqcnt2b x b1) := fun hw => by
  have key : ∀ x : BitVec 7, (x != 127) = true →
      seqCountSize (BitVec.ofNat 8 (128 + x.toNat)) = 2 ∧ BitVec.ofNat 8 (128 + x.toNat) ≠ 0 ∧
        ¬(BitVec.ofNat 8 (128 + x.toNat)).toNat < 128 ∧ (BitVec.ofNat 8 (128 + x.toNat)).toNat < 255 ∧
          (BitVec.ofNat 8 (128 + x.toNat)).extractLsb' 0 7 = x := by decide
  obtain ⟨h1, h2, h3, h4, h5⟩ := key x hw
  simp only [encode, decode, decodeElement, h1, h2, h3, h4, h5, List.length_cons, List.length_nil, if_true, if_false]
  rfl
theorem RoundTrip.seqcnt3b (b1 b2 : Byte) : RoundTrip.Statement (.seqcnt3b b1 b2) := fun _ => rfl
theorem RoundTrip.modes (ll off ml : BitVec 2) : RoundTrip.Statement (.modes ll off ml) := by
  unfold RoundTrip.Statement; revert ll off ml; decide

end Sys2Proof.Laws
end

