-- ==== Sys2Proof/Laws/Readers.lean ====
section
/-! SUPPORT. What the bit readers' operations do, once and in the terms claims use: the sums of R121 and R123, the forms
of a peek over undisturbed and over disturbed bytes, consuming, selectors, and the entries of a table whose slots are all
taken. -/

namespace Sys2Proof.Machine

/-! ## Selectors -/

@[simp] theorem readerOf_code (r : RSel) : readerOf? (readerCode r) = some r := by cases r <;> rfl
@[simp] theorem tableOf_code (t : TSel) : tableOf? (tableCode t) = some t := by cases t <;> rfl
@[simp] theorem stateOf_code (x : SSel) : stateOf? (stateCode x) = some x := by cases x <;> rfl

/-! ## Bits -/

theorem bit_eq_bitOf (b : Byte) (k : Nat) : b.toNat / 2 ^ k % 2 = bitOf b k := by
  unfold bitOf BitVec.getLsbD
  rw [Nat.testBit_eq_decide_div_mod_eq]
  have : b.toNat / 2 ^ k % 2 < 2 := Nat.mod_lt _ (by norm_num)
  by_cases h : b.toNat / 2 ^ k % 2 = 1
  · simp [h]
  · have : b.toNat / 2 ^ k % 2 = 0 := by omega
    simp [this]

theorem bitOf_le_one (b : Byte) (k : Nat) : bitOf b k ≤ 1 := Bool.toNat_le _

theorem forwardBit_eq (s : State) (k : Nat) : forwardBit s k = fBitAt s k := by
  unfold forwardBit fBitAt; split_ifs <;> simp [bit_eq_bitOf]

theorem fBitAt_le_one (s : State) (k : Nat) : fBitAt s k ≤ 1 := by
  unfold fBitAt; split_ifs
  · exact bitOf_le_one _ _
  · omega

theorem reverseBit_eq (s : State) (rd : RevReader) (k : Int) : reverseBit s rd k = streamBit s rd.base.toNat k := by
  unfold reverseBit streamBit; split_ifs <;> simp [bit_eq_bitOf]

theorem streamBit_le_one (s : State) (base : Nat) (k : Int) : streamBit s base k ≤ 1 := by
  unfold streamBit; split_ifs
  · omega
  · exact bitOf_le_one _ _

/-- The bits `forwardBits` gathers are the sum of R123. -/
theorem forwardBits_eq_sum (s : State) (n k : Nat) :
    forwardBits s k n = ∑ i ∈ Finset.range n, fBitAt s (k + i) * 2 ^ i := by
  induction n generalizing k with
  | zero => simp [forwardBits]
  | succ n ih =>
    rw [forwardBits, ih, Finset.sum_range_succ', forwardBit_eq, Finset.mul_sum]
    simp only [pow_zero, mul_one, add_zero, pow_succ]
    rw [add_comm]
    congr 1
    apply Finset.sum_congr rfl
    intro i _
    rw [show k + 1 + i = k + (i + 1) by ring]; ring

theorem forwardBits_lt (s : State) (n k : Nat) : forwardBits s k n < 2 ^ n := by
  induction n generalizing k with
  | zero => simp [forwardBits]
  | succ n ih =>
    have h1 : forwardBit s k ≤ 1 := forwardBit_eq s k ▸ fBitAt_le_one s k
    have h2 := ih (k + 1)
    rw [forwardBits, pow_succ]; omega

/-- The bits `reverseBits` gathers are the value of R121. -/
theorem reverseBits_eq_streamBits (s : State) (rd : RevReader) (pos : Int) (n : Nat) :
    reverseBits s rd pos n = streamBits s rd.base.toNat pos n := by
  unfold streamBits
  induction n with
  | zero => simp [reverseBits]
  | succ n ih =>
    rw [reverseBits, ih, Finset.sum_range_succ, reverseBit_eq, Finset.mul_sum]
    simp only [Nat.add_sub_cancel, Nat.sub_self, pow_zero, mul_one]
    congr 1
    apply Finset.sum_congr rfl
    intro i hi
    have : i < n := Finset.mem_range.mp hi
    rw [show n - i = (n - 1 - i) + 1 by omega, pow_succ]; ring

theorem streamBits_lt (s : State) (base : Nat) (pos : Int) (n : Nat) : streamBits s base pos n < 2 ^ n := by
  unfold streamBits
  induction n with
  | zero => simp
  | succ n ih =>
    rw [Finset.sum_range_succ]
    have h1 := streamBit_le_one s base (pos - 1 - n)
    have h2 : ∑ i ∈ Finset.range n, streamBit s base (pos - 1 - i) * 2 ^ (n + 1 - 1 - i) =
        2 * ∑ i ∈ Finset.range n, streamBit s base (pos - 1 - i) * 2 ^ (n - 1 - i) := by
      rw [Finset.mul_sum]
      apply Finset.sum_congr rfl
      intro i hi
      have : i < n := Finset.mem_range.mp hi
      rw [show n + 1 - 1 - i = (n - 1 - i) + 1 by omega, pow_succ]; ring
    simp only [Nat.add_sub_cancel, Nat.sub_self, pow_zero, mul_one] at h2 ⊢
    rw [h2, pow_succ]; omega

/-! ## Forward reads -/

theorem fpeek_of_fresh {s : State} {n : Nat} (hv : s.fr.valid = true) (h : frOk s) (hs : s.frStale = false) :
    fpeek n s = .ok (fBits s n) s := by
  have h1 := (h hv).2.1
  unfold fpeek
  rw [bind_apply]
  simp only [look_apply, id]
  rw [if_neg (by omega)]
  simp [hs, forwardBits_eq_sum, fBits]

/-- Over any bytes a peek returns some n-bit value and changes nothing but the count of free values. -/
theorem fpeek_some {s : State} {n : Nat} (hv : s.fr.valid = true) (h : frOk s) :
    ∃ v d, v < 2 ^ n ∧ fpeek n s = .ok v { s with draws := d } := by
  have h1 := (h hv).2.1
  by_cases hs : s.frStale = true ∧ n ≠ 0
  · refine ⟨Config.freeNat s.draws .fwdBits % 2 ^ n, s.draws + 1, Nat.mod_lt _ (by positivity), ?_⟩
    unfold fpeek
    rw [bind_apply]
    simp only [look_apply, id]
    rw [if_neg (by omega), if_pos hs]; rfl
  · refine ⟨forwardBits s s.fr.pos.toNat n, s.draws, forwardBits_lt s n _, ?_⟩
    unfold fpeek
    rw [bind_apply]
    simp only [look_apply, id]
    rw [if_neg (by omega), if_neg hs]; rfl

theorem fconsume_of_le {s : State} {n : Nat} (h : s.fr.pos.toNat + n ≤ 8 * (s.fr.lim.toNat - s.fr.base.toNat)) :
    fconsume n s = .ok () { s with fr := { s.fr with pos := BitVec.ofNat 21 (s.fr.pos.toNat + n) } } := by
  simp [fconsume, h]

theorem fconsume_of_overrun {s : State} {n : Nat}
    (h : ¬s.fr.pos.toNat + n ≤ 8 * (s.fr.lim.toNat - s.fr.base.toNat)) :
    fconsume n s = .error (.raise .brFwdOverrun) s := by
  simp only [fconsume, bind_apply, look_apply, ensure_of_not h]

/-! ## Reverse reads -/

theorem rpeek_of_fresh {s : State} {r : RSel} {n : Nat} (hr : readerInRange (s.rr.get r) = true)
    (hs : s.rrStale.get r = false) :
    rpeek r n s = .ok (streamBits s (s.rr.get r).base.toNat (s.rr.get r).pos.toInt n) s := by
  unfold rpeek
  rw [bind_apply]
  simp [hr, hs, reverseBits_eq_streamBits]

/-- Over any bytes a peek returns some n-bit value and changes nothing but the count of free values. -/
theorem rpeek_some {s : State} {r : RSel} {n : Nat} (hr : readerInRange (s.rr.get r) = true) :
    ∃ v d, v < 2 ^ n ∧ rpeek r n s = .ok v { s with draws := d } := by
  by_cases hs : s.rrStale.get r = true ∧ n ≠ 0
  · refine ⟨Config.freeNat s.draws (.revBits r) % 2 ^ n, s.draws + 1, Nat.mod_lt _ (by positivity), ?_⟩
    unfold rpeek
    rw [bind_apply]
    simp only [look_apply, id]
    rw [if_neg (by simp [hr]), if_pos hs]; rfl
  · refine ⟨_, s.draws, streamBits_lt s (s.rr.get r).base.toNat (s.rr.get r).pos.toInt n, ?_⟩
    unfold rpeek
    rw [bind_apply]
    simp only [look_apply, id]
    rw [if_neg (by simp [hr]), if_neg hs, reverseBits_eq_streamBits]; rfl

@[simp] theorem rconsume_apply (r : RSel) (n : Nat) (s : State) :
    rconsume r n s = .ok () { s with rr := s.rr.set r { s.rr.get r with pos := posAfter (s.rr.get r).pos n } } := rfl

/-- A position after n bits is the saturated difference of R121. -/
theorem posAfter_toInt (pos : BitVec 32) (n : Nat) : (posAfter pos n).toInt = max (pos.toInt - n) (-2 ^ 31) := by
  unfold posAfter
  have h1 := pos.toInt_lt
  have h2 := pos.le_toInt
  rw [BitVec.toInt_ofInt]
  apply Int.bmod_eq_of_le
  · simp
  · simp; omega

/-! ## FSE tables -/

/-- What an unset slot would hold does not matter where every slot has a symbol. -/
theorem fillEntries_of_full {al u v : Nat} {slots : List (Option Nat)} {next : List Nat}
    (h : ∀ x ∈ slots, x.isSome = true) : fillEntries al u slots next = fillEntries al v slots next := by
  induction slots generalizing next with
  | nil => rfl
  | cons slot slots ih =>
    obtain ⟨x, rfl⟩ := Option.isSome_iff_exists.mp (h slot (by simp))
    simp only [fillEntries, Option.getD_some]
    rw [ih fun y hy => h y (by simp [hy])]

/-- A distribution whose spread fills every slot builds the same entries whatever an unset slot would hold. -/
theorem builds_of_full {al : Nat} {counts : List Int} {entries : List FseEntry}
    (full : (spreadSlots al counts).1.all Option.isSome = true) (h : buildEntries al 0 counts = some entries) :
    builds al counts entries := by
  intro u
  rw [← h]
  unfold buildEntries
  simp only [fillEntries_of_full (al := al) (u := u) (v := 0) (next := nextCounters counts)
    fun x hx => List.all_eq_true.mp full x hx]

end Sys2Proof.Machine
end

