-- ==== Sys2Proof/Tests/Slice0.lean ====
section
/-! SUPPORT. The model's own tests: the well-formedness checks, words written out from the encodings of 30_encoding.md,
one-step vectors of 95_test_vectors.md, and for every obligation with hypotheses a state and operands that meet them
(theorems witness_<obligation>). Expected values are the spec's. -/

open Sys2Proof Sys2Proof.Machine

namespace Tests

-- One test after another: each evaluation takes a stack of its own.
set_option Elab.async false

/-! ## Well-formedness -/

theorem test_reader_6_ill_formed : (Instr.brRpeek 6 1).WellFormed = false := by decide
theorem test_reader_7_ill_formed : (Instr.hufStream 7 0 0).WellFormed = false := by decide
theorem test_table_4_ill_formed : (Instr.fseBuild 4).WellFormed = false := by decide
theorem test_predef_hw_ill_formed : (Instr.fsePredef 3).WellFormed = false := by decide
theorem test_state_5_ill_formed : (Instr.fseSym 5).WellFormed = false := by decide
theorem test_initst_reader_ill_formed : (Instr.fseInitst 4 6).WellFormed = false := by decide
theorem test_one_byte_count_0_ill_formed : (Instr.seqcnt1b 0).WellFormed = false := by decide
theorem test_two_byte_count_ff_ill_formed : (Instr.seqcnt2b 127 0).WellFormed = false := by decide
theorem test_selectors_well_formed :
    (Instr.brRpeek 5 31).WellFormed = true ∧ (Instr.fseBuild 3).WellFormed = true ∧ (Instr.fseSym 4).WellFormed = true ∧
      (Instr.fsePredef 2).WellFormed = true := by decide

/-! ## Decoding: words written out from R80, R82 and R88 to R94 -/

/-- R87's examples. -/
theorem test_decode_control :
    decode (.command ⟨0x00000000, 0, 0⟩) = .ok .nop ∧
      decode (.command ⟨0x00000001, 0x20000, 0⟩) = .ok (.frameReset 131072) ∧
      decode (.command ⟨0x00000002, 6, 0⟩) = .ok (.setInlen 6) ∧
      decode (.command ⟨0x00000003, 7, 0⟩) = .ok (.decodeBlock 7) := by decide +kernel

/-- OP, R and N of the bit readers: N at bit 14, R at bit 8. -/
theorem test_decode_bit_readers :
    decode (.command ⟨0x00000010, 1, 3⟩) = .ok (.brFinit 1 3) ∧
      decode (.command ⟨0x00010011, 0, 0⟩) = .ok (.brFpeek 4) ∧
      decode (.command ⟨0x00018012, 0, 0⟩) = .ok (.brFread 6) ∧
      decode (.command ⟨0x00000013, 0, 0⟩) = .ok .brFalign ∧
      decode (.command ⟨0x00000418, 0, 2⟩) = .ok (.brRinit 4 0 2) ∧
      decode (.command ⟨0x0000C419, 0, 0⟩) = .ok (.brRpeek 4 3) ∧
      decode (.command ⟨0x0002C41A, 0, 0⟩) = .ok (.brRread 4 11) ∧
      decode (.command ⟨0x0001041B, 0, 0⟩) = .ok (.brRconsume 4 4) ∧
      decode (.command ⟨0x0000041C, 0, 0⟩) = .ok (.brRstat 4) := by decide +kernel

/-- T or S at bit 11. -/
theorem test_decode_fse :
    decode (.command ⟨0x00001820, 0, 0⟩) = .ok (.fseNcount 3) ∧
      decode (.command ⟨0x00000821, 0, 0⟩) = .ok (.fsePredef 1) ∧
      decode (.command ⟨0x00001022, 0, 0⟩) = .ok (.fseBuild 2) ∧
      decode (.command ⟨0x00001023, 52, 0⟩) = .ok (.fseRle 2 52) ∧
      decode (.command ⟨0x00000824, 0, 0⟩) = .ok (.fseRepeat 1) ∧
      decode (.command ⟨0x00000C28, 0, 0⟩) = .ok (.fseInitst 1 4) ∧
      decode (.command ⟨0x00000829, 0, 0⟩) = .ok (.fseSym 1) ∧
      decode (.command ⟨0x00000C2A, 0, 0⟩) = .ok (.fseUpdst 1 4) := by decide +kernel

theorem test_decode_huffman_and_sections :
    decode (.command ⟨0x00000030, 0, 4⟩) = .ok (.hufTree 0 4) ∧
      decode (.command ⟨0x00000031, 0, 0⟩) = .ok (.hufSym 0) ∧
      decode (.command ⟨0x00000232, 100, 0x40⟩) = .ok (.hufStream 2 100 0x40) ∧
      decode (.command ⟨0x00000040, 0, 0x21⟩) = .ok (.litDecode 0 0x21) ∧
      decode (.command ⟨0x00000050, 9, 11⟩) = .ok (.seqDecode 9 11) ∧
      decode (.command ⟨0x00000051, 1, 5⟩) = .ok (.seqResolve 1 5) := by decide +kernel

/-- Raw and RLE headers of 1, 2 and 3 bytes (R89): 28 and 44 06 are LI1 and LI4. -/
theorem test_decode_simple_headers :
    decode (.element .lithdr [0x28]) = .ok (.lithdrRaw1b 5) ∧
      decode (.element .lithdr [0x44, 0x06]) = .ok (.lithdrRaw2b 100) ∧
      decode (.element .lithdr [0x0C, 0x00, 0x10]) = .ok (.lithdrRaw3b 0x10000) ∧
      decode (.element .lithdr [0x29]) = .ok (.lithdrRle1b 5) ∧
      decode (.element .lithdr [0x45, 0x06]) = .ok (.lithdrRle2b 100) ∧
      decode (.element .lithdr [0x0D, 0x00, 0x10]) = .ok (.lithdrRle3b 0x10000) := by decide +kernel

/-- Compressed and Treeless headers of 3, 4 and 5 bytes (R90): 42 80 01, 66 C0 03 and 43 80 00 are LI7, LI8 and
LI12. -/
theorem test_decode_stream_headers :
    decode (.element .lithdr [0x42, 0x80, 0x01]) = .ok (.lithdrComp1s3b 4 6) ∧
      decode (.element .lithdr [0x66, 0xC0, 0x03]) = .ok (.lithdrComp4s3b 6 15) ∧
      decode (.element .lithdr [0x6A, 0x00, 0x04, 0x00]) = .ok (.lithdrComp4s4b 6 1) ∧
      decode (.element .lithdr [0x6E, 0x00, 0x40, 0x00, 0x00]) = .ok (.lithdrComp4s5b 6 1) ∧
      decode (.element .lithdr [0x43, 0x80, 0x00]) = .ok (.lithdrTreeless1s3b 4 2) ∧
      decode (.element .lithdr [0x67, 0x40, 0x00]) = .ok (.lithdrTreeless4s3b 6 1) ∧
      decode (.element .lithdr [0x6B, 0x00, 0x04, 0x00]) = .ok (.lithdrTreeless4s4b 6 1) ∧
      decode (.element .lithdr [0x6F, 0x00, 0x40, 0x00, 0x00]) = .ok (.lithdrTreeless4s5b 6 1) := by decide +kernel

/-- Tree header bytes (R92), counts (R94, SQ15) and modes (R94). -/
theorem test_decode_other_elements :
    decode (.element .hufhdr [0x12]) = .ok (.hufhdrFse 0x12) ∧
      decode (.element .hufhdr [0x84]) = .ok (.hufhdrRaw 4) ∧
      decode (.element .seqcnt [0x00]) = .ok .seqcntZero ∧
      decode (.element .seqcnt [0x7F]) = .ok (.seqcnt1b 127) ∧
      decode (.element .seqcnt [0xFE, 0xFF]) = .ok (.seqcnt2b 126 255) ∧
      decode (.element .seqcnt [0xFF, 0xFF, 0xFF]) = .ok (.seqcnt3b 255 255) ∧
      decode (.element .modes [0x90]) = .ok (.modes 2 1 0) := by decide +kernel

/-- Rejected codes: CT2, CT3, CT4, and the cut or reserved elements of SQ6 and SQ7. -/
theorem test_decode_rejects :
    decode (.command ⟨0x00000004, 0, 0⟩) = .error .badOp ∧
      decode (.command ⟨0x00080000, 0, 0⟩) = .error .badField ∧
      decode (.command ⟨0x00000112, 0, 0⟩) = .error .badField ∧
      decode (.element .seqcnt [0x80]) = .error .short ∧
      decode (.element .modes [0x55]) = .error .reservedModes := by decide +kernel

/-- The counts of SQ15. -/
theorem test_sequence_counts :
    (seqCount [0x7F]).count = 127 ∧ (seqCount [0x80, 0x80]).count = 128 ∧ (seqCount [0xFE, 0xFF]).count = 32511 ∧
      (seqCount [0xFF, 0x00, 0x00]).count = 32512 ∧ (seqCount [0xFF, 0xFF, 0xFF]).count = 98047 := by decide +kernel

/-- Table words: a command row, and one row of each format that first bytes can name (log 15). -/
theorem test_table_words :
    decodeTableWord 32 0x0002C41A = some (.brRread 4 11) ∧ decodeTableWord 8 0x28 = some (.lithdrRaw1b 5) ∧
      decodeTableWord 8 0x00 = some .seqcntZero ∧ decodeTableWord 8 0xFF = some (.seqcnt3b 0 0) ∧
      decodeTableWord 32 0x00000004 = none := by decide +kernel

/-! ## One step -/

/-- Reset with the bytes in IN from address 0 on, IN_LEN their number. -/
def at0 (bs : List Byte) : State :=
  { State.reset with inMem := storeBytes [] 0 bs, inLen := BitVec.ofNat 18 bs.length }

/-- The outcome is a next state with property `p`. -/
def ends (o : Result) (p : State → Bool) : Bool :=
  match o with
  | .next t => p t
  | .fault _ | .refused _ => false

/-- The command word `w` with its arguments, issued on `s`. -/
def send (w a0 a1 : Word) (s : State) : Result := step { s with port := [.command ⟨w, a0, a1⟩] }

/-- The literals in LIT from address 0. -/
def literals (s : State) (bs : List Byte) : Bool :=
  s.litLen.toNat == bs.length && (List.range bs.length).all fun k => litByte? s k == bs[k]?

/-- FR over IN, at position `pos`. -/
def withFr (s : State) (base lim : BitVec 18) (pos : BitVec 21) : State := { s with fr := ⟨true, base, lim, pos⟩ }

/-- RR[0] over IN. -/
def withR0 (s : State) (base len : BitVec 18) (pos : BitVec 32) : State := { s with rr := s.rr.set .r0 ⟨true, base, len, pos⟩ }

/-- The table of HU1. -/
def hu1 : HufTable := codeTable 4 [4, 3, 2, 0, 1, 1]

/-- `s` with HU1's code in W, NW and HT. -/
def withHu1 (s : State) : State := { s with w := [4, 3, 2, 0, 1, 1], nw := 6, ht := hu1 }

/-- NOP: CT1, after an error too. -/
theorem test_nop : ends (send 0 0 0 { State.reset with status := 0x00040105, res := 7 }) fun t =>
    decide (t = { State.reset with status := 0x00040105, res := 7 }) := by decide +kernel
theorem test_frame_reset : ends (send 1 0x20000 0 { State.reset with status := 0x00040105, rep := ⟨7, 7, 7⟩, nbSeq := 3 })
    fun t => t.status == 0 && t.rep == (⟨1, 4, 8⟩ : RepCache) && t.nbSeq == 0 && t.blockMax == 131072 := by decide +kernel
/-- CT7. -/
theorem test_frame_reset_range : ends (send 1 131073 0 State.reset) fun t => t.status == 0x00010305 := by decide +kernel
theorem test_set_inlen : ends (send 2 6 0 State.reset) fun t => t.inLen == 6 && t.status == 0 := by decide +kernel
/-- CT8. -/
theorem test_set_inlen_range : ends (send 2 131073 0 State.reset) fun t => t.status == 0x00020305 := by decide +kernel
/-- CT9. -/
theorem test_decode_block : ends (send 3 7 0 (at0 [0x28, 0x68, 0x65, 0x6C, 0x6C, 0x6F, 0x00])) fun t =>
    literals t [0x68, 0x65, 0x6C, 0x6C, 0x6F] && t.nbSeq == 0 && t.res == 0 && t.status == 0 := by decide +kernel
/-- E5. -/
theorem test_decode_block_sequence : ends (send 3 8 0 (at0 [0x08, 0x61, 0x01, 0x54, 0x01, 0x00, 0x07, 0x01])) fun t =>
    literals t [0x61] && t.seq == [(⟨1, 1, 10⟩ : SeqEntry)] && t.res == 1 && t.rep == (⟨1, 4, 8⟩ : RepCache) := by
  decide +kernel
/-- CT2, CT3, CT5 and CT6: BAD_OP, BAD_FIELD and ARG_RANGE. -/
theorem test_rejected_commands :
    ends (send 4 0 0 State.reset) (fun t => t.status == 0x00040105) = true ∧
      ends (send 0x00080000 0 0 State.reset) (fun t => t.status == 0x00000205) = true ∧
      ends (send 0x0000061C 0 0 State.reset) (fun t => t.status == 0x001C0305) = true ∧
      ends (send 0x00003820 0 0 State.reset) (fun t => t.status == 0x00200305) = true := by decide +kernel

/-- BR11. -/
theorem test_br_finit : ends (send 0x10 1 3 (at0 [0, 0xB5, 0x01])) fun t => t.fr == (⟨true, 1, 3, 0⟩ : FwdReader) := by
  decide +kernel
/-- BR14: bits past LIM read 0. -/
theorem test_br_fpeek : ends (send 0x00030011 0 0 (withFr (at0 [0xB5, 0xFF]) 0 1 0)) fun t =>
    t.res == 0xB5 && t.fr.pos == 0 := by decide +kernel
/-- BR12. -/
theorem test_br_fread : ends (send 0x00018012 0 0 (withFr (at0 [0, 0xB5, 0x01]) 1 3 4)) fun t =>
    t.res == 0x1B && t.fr.pos == 10 := by decide +kernel
/-- BR15. -/
theorem test_br_fread_overrun : ends (send 0x00024012 0 0 (withFr { at0 [0xB5] with res := 0xB5 } 0 1 0)) fun t =>
    t.status == 0x00121004 && t.res == 0xB5 := by decide +kernel
/-- BR13. -/
theorem test_br_falign : ends (send 0x13 0 0 (withFr (at0 [0, 0xB5, 0x01]) 1 3 10)) fun t =>
    t.res == 3 && t.fr.pos == 16 := by decide +kernel
/-- BR1. -/
theorem test_br_rinit : ends (send 0x418 0 2 (at0 [0x3C, 0x05])) fun t =>
    t.rr.r4 == (⟨true, 0, 2, 10⟩ : RevReader) && t.rr.r0.valid == false := by decide +kernel
/-- BR7. -/
theorem test_br_rinit_no_mark : ends (send 0x118 0 2 (at0 [0x3C, 0x00])) fun t => t.status == 0x00182103 := by
  decide +kernel
/-- BR2. -/
theorem test_br_rpeek : ends (send 0xC019 0 0 (withR0 (at0 [0x3C, 0x05]) 0 2 10)) fun t =>
    t.res == 2 && t.rr.r0.pos == 10 := by decide +kernel
/-- BR3. -/
theorem test_br_rread : ends (send 0x2C01A 0 0 (withR0 (at0 [0x3C, 0x05]) 0 2 10)) fun t =>
    t.res == 0x278 && t.rr.r0.pos == 0xFFFFFFFF := by decide +kernel
/-- BR5. -/
theorem test_br_rconsume : ends (send 0x1001B 0 0 (withR0 (at0 [0x3C, 0x05]) 0 2 10)) fun t =>
    t.res == 0 && t.rr.r0.pos == 6 := by decide +kernel
/-- R121: POS stops at -2^31. -/
theorem test_br_rconsume_saturates : ends (send 0x7C01B 0 0 (withR0 (at0 [0x3C]) 0 1 0x80000005)) fun t =>
    t.rr.r0.pos == 0x80000000 := by decide +kernel
/-- BR6. -/
theorem test_br_rstat : ends (send 0x01C 0 0 (withR0 (at0 [0x01]) 0 1 (-31))) fun t => t.res == 0xFFFFFFE1 := by
  decide +kernel

/-- FS1. -/
theorem test_fse_ncount : ends (send 0x20 0 0 (withFr (at0 [0x10, 0x3F]) 0 2 0)) fun t =>
    t.dist == (⟨true, .ll, 5, 2, [16, 16]⟩ : Dist) && t.fr.pos == 16 && t.res == 2 := by decide +kernel
/-- FS11. -/
theorem test_fse_ncount_zero_run : ends (send 0x820 0 0 (withFr (at0 [0x10, 0xFE, 0xFF, 0x5F]) 0 4 0)) fun t =>
    t.status == 0x00202303 && t.res == 0 := by decide +kernel
/-- FS13. -/
theorem test_fse_predef_hw : ends (send 0x1821 0 0 State.reset) fun t => t.status == 0x00210305 := by decide +kernel
/-- FS2: entries 0, 3, 7 and 31. -/
theorem test_fse_build : ends (send 0x22 0 0 { State.reset with dist := ⟨true, .ll, 5, 2, [16, 16]⟩ }) fun t =>
    t.ft.ll.entries.length == 32 && t.ft.ll.entries[0]? == some (⟨0, 1, 0⟩ : FseEntry) &&
      t.ft.ll.entries[3]? == some (⟨1, 1, 0⟩ : FseEntry) && t.ft.ll.entries[7]? == some (⟨1, 1, 4⟩ : FseEntry) &&
      t.ft.ll.entries[31]? == some (⟨1, 1, 30⟩ : FseEntry) := by decide +kernel
/-- FS3, OF: a count of -1 at the top, and entries 0, 1 and 15. -/
theorem test_fse_build_predefined : ends (send 0x822 0 0 (match loadPredef .off State.reset with
      | .ok _ s => s
      | .error _ s => s)) fun t =>
    t.ft.off.entries[31]? == some (⟨24, 5, 0⟩ : FseEntry) && t.ft.off.entries[0]? == some (⟨0, 5, 0⟩ : FseEntry) &&
      t.ft.off.entries[1]? == some (⟨6, 4, 0⟩ : FseEntry) && t.ft.off.entries[15]? == some (⟨7, 4, 16⟩ : FseEntry) := by
  decide +kernel
/-- FS6. -/
theorem test_fse_rle : ends (send 0x1023 52 0 State.reset) fun t => t.ft.ml == (⟨true, 0, [⟨52, 0, 0⟩]⟩ : FseTable) := by
  decide +kernel
/-- FS7. -/
theorem test_fse_rle_symbol : ends (send 0x1023 53 0 State.reset) fun t => t.status == 0x00232603 := by decide +kernel
/-- FS8. -/
theorem test_fse_repeat : ends (send 0x824 0 0 State.reset) fun t => t.status == 0x00242703 := by decide +kernel

/-- A table of two entries for the state commands: AL 1, symbols 23 and 27, NB 1 and 0. -/
def twoEntries : FseTable := ⟨true, 1, [⟨23, 1, 0⟩, ⟨27, 0, 1⟩]⟩

/-- `s` with that table in FT[OF]. -/
def withTwo (s : State) : State := { s with ft := s.ft.set .off twoEntries }

/-- R159: ST[OF] takes the next AL = 1 bit, bit 9 of 3C 05, which is 0. -/
theorem test_fse_initst : ends (send 0x828 0 0 (withTwo { withR0 (at0 [0x3C, 0x05]) 0 2 10 with st := ⟨0, 1, 0, 0, 0⟩ }))
    fun t => t.st.off == 0 && t.rr.r0.pos == 9 := by decide +kernel
theorem test_fse_sym : ends (send 0x829 0 0 (withTwo { State.reset with st := ⟨0, 1, 0, 0, 0⟩ })) fun t => t.res == 27 := by
  decide +kernel
/-- R159: BASE 0 plus the next NB = 1 bit, bit 5 of 3C 05, which is 1. -/
theorem test_fse_updst : ends (send 0x82A 0 0 (withTwo (withR0 (at0 [0x3C, 0x05]) 0 2 6))) fun t =>
    t.st.off == 1 && t.rr.r0.pos == 5 := by decide +kernel
/-- FS16. -/
theorem test_fse_initst_not_ready : ends (send 0x828 0 0 (withR0 (at0 [0x01]) 0 1 0)) fun t =>
    t.status == 0x00280405 := by decide +kernel

/-- HU1. -/
theorem test_huf_tree_raw : ends (send 0x30 0 4 (at0 [0x84, 0x43, 0x20, 0x10])) fun t =>
    t.w == [4, 3, 2, 0, 1, 1] && t.nw == 6 && t.ht.maxLen == 4 && t.res == 4 &&
      t.ht.entries.map (fun e => (e.sym.toNat, e.nb.toNat)) ==
        [(4, 4), (5, 4), (2, 3), (2, 3), (1, 2), (1, 2), (1, 2), (1, 2)] ++ List.replicate 8 (0, 1) := by decide +kernel
/-- HU4: 122 weights from a real encoder's FSE-coded description. -/
theorem test_huf_tree_fse : ends (send 0x30 0 19 (at0
      [0x12, 0x90, 0xCF, 0x01, 0x60, 0x83, 0x4D, 0xC8, 0x03, 0x0F, 0x64, 0x01, 0xF0, 0xFF, 0xFF, 0xB1, 0xEE, 0x06, 0x21]))
    fun t => t.nw == 123 && t.w.take 97 == (List.replicate 97 (0 : Byte)).set 32 2 &&
      t.w.drop 97 == [1, 1, 1, 1, 2, 1, 1, 1, 1, 1, 1, 1, 1, 1, 3, 1, 1, 1, 1, 1, 1, 1, 1, 1, 1, 1] &&
      t.ht.maxLen == 5 && t.res == 19 && t.rr.r5.pos == -3 && t.st.w1 == 16 && t.st.w2 == 4 := by decide +kernel
/-- HU2's second symbol. -/
theorem test_huf_sym : ends (send 0x31 0 0 (withHu1 (withR0 (at0 [0x84, 0x43, 0x20, 0x10, 0x01, 0x0D]) 4 2 10))) fun t =>
    t.res == 1 && t.rr.r0.pos == 8 := by decide +kernel
/-- HU15. -/
theorem test_huf_sym_overrun : ends (send 0x31 0 0 (withHu1 (withR0 (at0 [0x84, 0x43, 0x20, 0x10, 0x01]) 4 1 0))) fun t =>
    t.status == 0x00312F03 := by decide +kernel
/-- HU3. -/
theorem test_huf_stream : ends (send 0x32 4 0 (withHu1 (withR0 (at0 [0x84, 0x43, 0x20, 0x10, 0x01, 0x0D]) 4 2 11)))
    fun t => t.lit == [(0, 0), (1, 1), (2, 4), (3, 5)] && t.rr.r0.pos == 0 && t.litLen == 0 := by decide +kernel
/-- HU16. -/
theorem test_huf_stream_not_consumed : ends (send 0x32 3 0
      (withHu1 (withR0 (at0 [0x84, 0x43, 0x20, 0x10, 0x01, 0x0D]) 4 2 11))) fun t =>
    t.status == 0x00323003 := by decide +kernel

/-- LI2. -/
theorem test_lit_decode_rle : ends (send 0x40 0 2 (at0 [0x29, 0x41])) fun t =>
    literals t [0x41, 0x41, 0x41, 0x41, 0x41] && t.res == 2 := by decide +kernel
/-- LI8. -/
theorem test_lit_decode_four_streams : ends (send 0x40 0 18 (at0
      [0x66, 0xC0, 0x03, 0x84, 0x43, 0x20, 0x10, 0x01, 0x00, 0x01, 0x00, 0x02, 0x00, 0x07, 0x29, 0x01, 0x01, 0x01]))
    fun t => t.litLen == 6 && t.res == 18 && t.status == 0 := by decide +kernel

/-- SQ3. -/
theorem test_seq_decode_mixed : ends (send 0x50 0 8 (at0 [0x02, 0x90, 0x10, 0x3F, 0x02, 0xE3, 0x02, 0x1F])) fun t =>
    t.seq == [(⟨1, 2, 4⟩ : SeqEntry), ⟨0, 4, 16⟩] && t.res == 2 && t.rep == (⟨4, 2, 1⟩ : RepCache) &&
      t.st == (⟨29, 0, 8, 0, 0⟩ : StBank) && t.rr.r4 == (⟨true, 5, 3, 0⟩ : RevReader) := by decide +kernel
/-- SQ2. -/
theorem test_seq_decode_predefined : ends (send 0x50 0 5 (at0 [0x01, 0x00, 0x13, 0x8E, 0x08])) fun t =>
    t.seq == [(⟨4, 4, 8⟩ : SeqEntry)] && t.rep == (⟨4, 1, 4⟩ : RepCache) && t.res == 1 := by decide +kernel
/-- R252 and D27 where bytes follow 80 00, and R263 where none does; no table is set (log 13). -/
theorem test_seq_decode_long_zero : ends (send 0x50 0 7 (at0 [0x80, 0x00, 0x54, 0x01, 0x02, 0x00, 0x01])) (fun t =>
      t.status == 0x00503503 && !t.ft.ll.valid && !t.rr.r4.valid) = true ∧
    ends (send 0x50 0 2 (at0 [0x80, 0x00])) (fun t => t.status == 0x00501504 && !t.ft.ll.valid) = true := by decide +kernel
/-- R124: the read that overruns leaves POS where the reads before it have moved it, after FS10's four bits. -/
theorem test_overrun_position : ends (send 0x20 0 0 (withFr (at0 [0x10]) 0 1 0)) fun t =>
    t.status == 0x00201004 && t.fr.pos == 4 := by decide +kernel
/-- SR3. -/
theorem test_seq_resolve : ends (send 0x51 3 0 { State.reset with rep := ⟨8, 4, 1⟩ }) fun t =>
    t.res == 7 && t.rep == (⟨7, 8, 4⟩ : RepCache) := by decide +kernel
/-- SR8. -/
theorem test_seq_resolve_zero : ends (send 0x51 3 0 State.reset) fun t =>
    t.status == 0x00513803 && t.rep == (⟨1, 4, 8⟩ : RepCache) := by decide +kernel

/-- HostWriteIN: one byte, kept in address order. -/
theorem test_host_write : ends (step { at0 [1, 2, 3] with port := [.writeIn 1 9, .powerOn] }) fun t =>
    t.inMem == [(0, 1), (1, 9), (2, 3)] && t.port == [.powerOn] := by decide +kernel

/-! ## Format elements as rows of the table (log 14): the same sections, their header given -/

/-- LI1, through LITHDR_RAW_1B placed as the host places a word: an input of its header alone is cut short (LIT_RAW_BODY,
R225). -/
theorem test_row_lithdr_raw : ends (step (State.withFetchWord State.reset 8 0x28)) fun t => t.status == 0x00401204 := by
  decide +kernel
theorem test_row_lithdr_raw_body : ends (exec (.lithdrRaw1b 5) (at0 [0xEE, 0x68, 0x65, 0x6C, 0x6C, 0x6F])) fun t =>
    literals t [0x68, 0x65, 0x6C, 0x6C, 0x6F] && t.res == 6 := by decide +kernel
/-- LI7. -/
theorem test_row_lithdr_comp : ends (exec (.lithdrComp1s3b 4 6)
      (at0 [0x42, 0x80, 0x01, 0x84, 0x43, 0x20, 0x10, 0x01, 0x0D])) fun t =>
    literals t [0, 1, 4, 5] && t.res == 9 && t.ht.valid := by decide +kernel
/-- LI15. -/
theorem test_row_lithdr_treeless : ends (exec (.lithdrTreeless1s3b 4 2)
      (withHu1 (at0 [0x43, 0x80, 0x00, 0x01, 0x0D]))) fun t => literals t [0, 1, 4, 5] && t.res == 5 := by decide +kernel
/-- HU1. -/
theorem test_row_hufhdr_raw : ends (exec (.hufhdrRaw 4) (at0 [0x84, 0x43, 0x20, 0x10])) fun t =>
    t.w == [4, 3, 2, 0, 1, 1] && t.res == 4 := by decide +kernel
/-- SQ5: the row SEQCNT_ZERO with a byte left over, and without. -/
theorem test_row_seqcnt_zero :
    ends (exec .seqcntZero (at0 [0x00, 0x00])) (fun t => t.status == 0x00503503) = true ∧
      ends (step (State.withFetchWord State.reset 8 0x00)) (fun t => t.status == 0 && t.res == 0) = true := by
  decide +kernel
/-- SQ1, through its count row and through its modes row. -/
theorem test_row_seqcnt_and_modes :
    ends (exec (.seqcnt1b 1) (at0 [0x01, 0x54, 0x01, 0x02, 0x00, 0x04]))
        (fun t => t.seq == [(⟨1, 1, 3⟩ : SeqEntry)] && t.rep == (⟨1, 1, 4⟩ : RepCache)) = true ∧
      ends (exec (.modes 1 1 1) (at0 [0x01, 0x54, 0x01, 0x02, 0x00, 0x04]))
        (fun t => t.seq == [(⟨1, 1, 3⟩ : SeqEntry)] && t.res == 1) = true := by decide +kernel

/-! ## Witnesses: for each obligation with hypotheses, a state and operands that meet them, clause by clause -/

/-- The outcome is a next state with property `p`, as a statement. -/
theorem next_of_ends {o : Result} {p : State → Bool} (h : ends o p = true) : ∃ t, o = .next t ∧ p t = true := by
  cases o with
  | next t => exact ⟨t, rfl, h⟩
  | fault _ => cases h
  | refused _ => cases h

theorem ranges_at0_of (s : State) (h : decide (s.inLen.toNat ≤ Config.inCap) && decide (1 ≤ s.blockMax.toNat) &&
    decide (s.blockMax.toNat ≤ Config.blockMaxLimit) && decide (s.litLen.toNat ≤ Config.litCap) &&
    decide (s.nbSeq.toNat ≤ Config.seqCap) && Memory.wf Config.inCap s.inMem && Memory.wf Config.litCap s.lit = true) :
    RangesOk s := by
  simp only [Bool.and_eq_true, decide_eq_true_eq] at h
  obtain ⟨⟨⟨⟨⟨⟨h1, h2⟩, h3⟩, h4⟩, h5⟩, h6⟩, h7⟩ := h
  exact ⟨h1, ⟨h2, h3⟩, h4, h5, h6, h7⟩

/-! ### Encoding and steps -/

theorem witness_DecodeEncodeRoundTrip : (Instr.fseInitst 4 5).WellFormed = true ∧ (Instr.seqcnt2b 0 0).WellFormed = true := by
  decide +kernel
theorem witness_DecodedCodeIsTheEncoding :
    decode (.command ⟨0x0002C41A, 5, 6⟩) = .ok (.brRread 4 11) ∧
      decode (.element .seqcnt [0x80, 0x01, 0x54]) = .ok (.seqcnt2b 0 1) := by decide +kernel
theorem witness_UndefinedOpRaisesBadOp :
    noError State.reset = true ∧ fieldOp 0x04 ∉ fieldUse.map Prod.fst ∧ fieldOp 0x14 ∉ fieldUse.map Prod.fst ∧
      fieldOp 0x52 ∉ fieldUse.map Prod.fst ∧ fieldOp 0xFF ∉ fieldUse.map Prod.fst := by
  decide +kernel
theorem witness_UnusedFieldRaisesBadField :
    (0x00, false, false, false) ∈ fieldUse ∧ fieldOp 0x80000000 = 0x00 ∧ fieldReserved 0x80000000 ≠ 0 ∧
      (0x12, false, false, true) ∈ fieldUse ∧ fieldOp 0x00000112 = 0x12 ∧ fieldR 0x00000112 ≠ 0 ∧
      fieldOp 0x00002012 = 0x12 ∧ fieldT 0x00002012 ≠ 0 ∧
      (0x18, true, false, false) ∈ fieldUse ∧ fieldOp 0x00040018 = 0x18 ∧ fieldN 0x00040018 ≠ 0 := by decide +kernel
theorem witness_SelectorOutOfRangeRefused :
    (∃ c, encode (.brRstat 6) = .command c) ∧ (Instr.brRstat 6).WellFormed = false ∧
      (∃ c, encode (.fseNcount 4) = .command c) ∧ (Instr.fseNcount 4).WellFormed = false ∧
      (∃ c, encode (.fsePredef 3) = .command c) ∧ (Instr.fsePredef 3).WellFormed = false ∧
      (∃ c, encode (.fseUpdst 5 0) = .command c) ∧ (Instr.fseUpdst 5 0).WellFormed = false := by
  refine ⟨⟨_, rfl⟩, by decide +kernel, ⟨_, rfl⟩, by decide +kernel, ⟨_, rfl⟩, by decide +kernel, ⟨_, rfl⟩, by decide +kernel⟩
theorem witness_StepRunsDecodedCommand :
    State.reset.port = [] ∧ decode (.command ⟨0x13, 0, 0⟩) = .ok .brFalign ∧
      decode (.command ⟨0x14, 0, 0⟩) = .error .badOp ∧ decode (.command ⟨0x113, 0, 0⟩) = .error .badField := by
  decide +kernel
theorem witness_ErrorGateIgnoresCommands :
    noError { State.reset with status := 0x00040105 } = false ∧ (131072 : Word).toNat ≤ 131072 ∧
      131072 < (131073 : Word).toNat := by decide +kernel

/-- An error that is not illegal, and one that is: FSE_RLE of too large a symbol, BR_FALIGN with no reader. -/
theorem witness_StatusRecordsTheFirstError :
    (∃ t, exec (.fseRle 2 53) State.reset = .next t ∧ (noError t == false) = true) ∧
      ∃ t, exec (.setInlen 5) State.reset = .next t ∧ noError t = true :=
  ⟨next_of_ends (by decide +kernel), next_of_ends (by decide +kernel)⟩
theorem witness_IllegalCommandChangesOnlyStatus :
    ∃ t, exec .brFalign State.reset = .next t ∧ (t.status == packStatus .notReady (opOf .brFalign)) = true :=
  next_of_ends (by decide +kernel)
theorem witness_ValidBitsClearedOnlyByFrameReset :
    ∃ t, exec (.hufTree 0 1) (withHu1 (withFr (at0 [0x80]) 0 1 0)) = .next t ∧ (t.ht.valid && t.fr.valid) = true :=
  next_of_ends (by decide +kernel)
theorem witness_WriteSetFrame :
    (∃ t, exec (.brRread 0 3) (withR0 (at0 [0x3C, 0x05]) 0 2 10) = .next t ∧ (t.res == 2) = true) ∧
      Part.rep ∉ mayChange (.brRread 0 3) ∧ Part.rr .r1 ∉ mayChange (.brRread 0 3) ∧
      Part.lit ∉ mayChange (.seqDecode 0 0) ∧ Part.ft .ll ∉ mayChange (.litDecode 0 0) :=
  ⟨next_of_ends (by decide +kernel), by decide +kernel, by decide +kernel, by decide +kernel, by decide +kernel⟩
/-- HUF_STREAM over a disturbed reader, here of no literal, and one that fails, over an undisturbed reader: each in a next state. -/
theorem witness_WriteSetFrame_hufStream :
    let s := withHu1 (withR0 (at0 [0x01, 0x0D]) 0 2 11)
    (∃ t, exec (.hufStream 0 0 5) { withHu1 (withR0 (at0 [0x01]) 0 1 0) with rrStale := ⟨true, false, false, false, false, false⟩ } =
      .next t ∧ (t.rrStale.get .r0 == true) = true) ∧
      (∃ t, exec (.hufStream 0 3 5) s = .next t ∧ (noError t == false) = true) ∧ (4 < (5 : Word).toNat) ∧
      (5 : Word).toNat + (4 : Word).toNat ≤ 9 :=
  ⟨next_of_ends (by decide +kernel), next_of_ends (by decide +kernel), by decide +kernel, by decide +kernel⟩
theorem witness_HostWriteChangesOneByte :
    let s := { withFr (at0 [1, 2]) 0 2 0 with port := [.writeIn 1 7] }
    s.port = .writeIn 1 7 :: [] ∧ s.fr.valid = true ∧ s.fr.base.toNat ≤ (1 : BitVec 17).toNat ∧
      (1 : BitVec 17).toNat < s.fr.lim.toNat := by decide +kernel
theorem witness_PowerOnValues : { at0 [1] with port := [.powerOn, .powerOn] }.port = .powerOn :: [.powerOn] := rfl

/-! ### Control and readers -/

theorem witness_FrameResetStartsAFrame :
    1 ≤ (1 : Word).toNat ∧ (131072 : Word).toNat ≤ 131072 ∧ (0 : Word).toNat < 1 ∧ 131072 < (131073 : Word).toNat := by
  decide +kernel
/-- An input cut to 1 byte under FR and RR[0], and to 2, the end of both. -/
theorem witness_SetInlenDeclaresTheInput :
    let s := withR0 (withFr (at0 [1, 2]) 0 2 0) 0 2 8
    noError State.reset = true ∧ (131072 : Word).toNat ≤ 131072 ∧ 131072 < (131073 : Word).toNat ∧
      s.fr.valid = true ∧ (1 : Word).toNat < s.fr.lim.toNat ∧ ¬(2 : Word).toNat < s.fr.lim.toNat ∧
      (s.rr.get .r0).valid = true ∧ (1 : Word).toNat < (s.rr.get .r0).base.toNat + (s.rr.get .r0).len.toNat := by
  decide +kernel
theorem witness_BrFinitPlacesTheForwardReader :
    noError (at0 [1, 2]) = true ∧ (2 : Word).toNat ≤ (2 : Word).toNat ∧ (2 : Word).toNat ≤ (at0 [1, 2]).inLen.toNat ∧
      ¬((2 : Word).toNat ≤ (1 : Word).toNat ∧ (1 : Word).toNat ≤ (at0 [1, 2]).inLen.toNat) := by decide +kernel

/-- FR at position 4 over B5 01, IN[1..2]. -/
def forward : State := withFr (at0 [0, 0xB5, 0x01]) 1 3 4

theorem forward_ok : frOk forward := by unfold frOk; decide +kernel

theorem witness_BrFpeekSumsForwardBits :
    noError forward = true ∧ forward.fr.valid = true ∧ frOk forward ∧ forward.frStale = false ∧
      State.reset.fr.valid = false := ⟨by decide +kernel, by decide +kernel, forward_ok, by decide +kernel, by decide +kernel⟩
/-- 12 bits are left: 12 may be read, 13 may not. -/
theorem witness_BrFreadConsumesForwardBits :
    noError forward = true ∧ forward.fr.valid = true ∧ frOk forward ∧ forward.frStale = false ∧
      forward.fr.pos.toNat + (12 : BitVec 5).toNat ≤ 8 * (forward.fr.lim.toNat - forward.fr.base.toNat) ∧
      8 * (forward.fr.lim.toNat - forward.fr.base.toNat) < forward.fr.pos.toNat + (13 : BitVec 5).toNat :=
  ⟨by decide +kernel, by decide +kernel, forward_ok, by decide +kernel, by decide +kernel, by decide +kernel⟩
theorem witness_BrFalignRoundsUpToAByte : noError forward = true ∧ forward.fr.valid = true ∧ frOk forward :=
  ⟨by decide +kernel, by decide +kernel, forward_ok⟩

theorem witness_BrRinitFindsTheEndMark :
    let s := at0 [0x3C, 0x05, 0x00]
    noError s = true ∧ s.inLen.toNat ≤ 131072 ∧
      s.inLen.toNat < (1 : Word).toNat + (3 : Word).toNat ∧
      (3 : Word).toNat + (0 : Word).toNat ≤ s.inLen.toNat ∧
      ((0 : Word).toNat + (3 : Word).toNat ≤ s.inLen.toNat ∧ inByte s ((0 : Word).toNat + (3 : Word).toNat - 1) = 0) ∧
      (0 : Word).toNat + (2 : Word).toNat ≤ s.inLen.toNat ∧ streamAt s (0 : Word).toNat (2 : Word).toNat 10 := by
  unfold streamAt; decide +kernel

/-- RR[0] over 3C 05. -/
def reverse : State := withR0 (at0 [0x3C, 0x05]) 0 2 10

theorem reverse_ok : rrOk reverse .r0 := by unfold rrOk; decide +kernel

theorem witness_reverse_reads :
    noError reverse = true ∧ (reverse.rr.get .r0).valid = true ∧ rrOk reverse .r0 ∧ reverse.rrStale.get .r0 = false ∧
      (reverse.rr.get .r1).valid = false := ⟨by decide +kernel, by decide +kernel, reverse_ok, by decide +kernel, by decide +kernel⟩
theorem witness_BrRpeekReadsBitsDownward :
    noError reverse = true ∧ (reverse.rr.get .r0).valid = true ∧ rrOk reverse .r0 ∧ reverse.rrStale.get .r0 = false ∧
      (reverse.rr.get .r1).valid = false := witness_reverse_reads
theorem witness_BrRreadConsumesBitsDownward :
    noError reverse = true ∧ (reverse.rr.get .r0).valid = true ∧ rrOk reverse .r0 ∧ reverse.rrStale.get .r0 = false ∧
      (reverse.rr.get .r1).valid = false := witness_reverse_reads
theorem witness_BrRconsumeMovesAndRstatReportsPos :
    noError reverse = true ∧ (reverse.rr.get .r0).valid = true ∧ (reverse.rr.get .r1).valid = false := by decide +kernel

/-- A byte under FR and a byte under RR[0] written after both were initialised. -/
def disturbed : State := hostWriteIn 1 7 (withR0 forward 0 2 10)

theorem witness_DisturbedReadersReturnSomeValue :
    noError disturbed = true ∧ disturbed.fr.valid = true ∧ frOk disturbed ∧ disturbed.frStale = true ∧
      disturbed.fr.pos.toNat + (12 : BitVec 5).toNat ≤ 8 * (disturbed.fr.lim.toNat - disturbed.fr.base.toNat) ∧
      8 * (disturbed.fr.lim.toNat - disturbed.fr.base.toNat) < disturbed.fr.pos.toNat + (13 : BitVec 5).toNat ∧
      (disturbed.rr.get .r0).valid = true ∧ rrOk disturbed .r0 ∧ disturbed.rrStale.get .r0 = true := by
  unfold frOk rrOk; decide +kernel

/-! ### FSE -/

/-- FS1: FR over the header 10 3F. -/
def fs1 : State := withFr (at0 [0x10, 0x3F]) 0 2 0

/-- R160's example: the fields 17 and 31, of 5 bits each. -/
theorem fs1_fields : ncountFields [(0, 16), (0, 16)] (2 ^ 5 + 1) false = [(17, 5), (31, 5)] := by decide +kernel

/-- That header, wherever its three fields stand. -/
theorem fs1_header {s : State} {base lim k : Nat} {t : TSel} (hd : distribution t 5 [16, 16])
    (hl : k + 14 ≤ 8 * (lim - base))
    (h : fieldAt s base k 4 = 0 ∧ fieldAt s base (k + 4) 5 = 17 ∧ fieldAt s base (k + 4 + 5) 5 = 31) :
    ncountAt s base lim k t 5 [16, 16] (k + 14) :=
  ⟨hd, hl, [(0, 16), (0, 16)], rfl, by rw [fs1_fields]; exact ⟨h.1, h.2.1, h.2.2, rfl⟩⟩

theorem witness_FseNcountReadsTheHeader :
    noError fs1 = true ∧ fs1.fr.valid = true ∧ frOk fs1 ∧ fs1.frStale = false ∧
      ncountAt fs1 fs1.fr.base.toNat fs1.fr.lim.toNat fs1.fr.pos.toNat .ll 5 [16, 16] 14 :=
  ⟨by decide +kernel, by decide +kernel, by unfold frOk; decide +kernel, by decide +kernel,
    fs1_header (k := 0) (by unfold distribution; decide +kernel) (by decide +kernel) (by decide +kernel)⟩
/-- A count of 0 that is coded again after a zero run (R150): C = 0, 0, 0, 0, 32 as 0, a run of 2, then 0 again, an empty
run, and 32. -/
theorem witness_FseNcount_zeroAfterRun :
    itemCounts [(0, 0), (2, 0), (0, 32)] false = [0, 0, 0, 0, 32] ∧
      ncountFields [(0, 0), (2, 0), (0, 32)] (2 ^ 5 + 1) false = [(1, 5), (2, 2), (1, 5), (0, 2), (63, 6)] ∧
      distribution .ll 5 [0, 0, 0, 0, 32] := by unfold distribution; decide +kernel
/-- FS10: the header cut after its first byte. -/
theorem witness_FseNcountErrorKeepsDist :
    ∃ u, exec (.fseNcount 0) (withFr (at0 [0x10]) 0 1 0) = .next u ∧ (noError u == false) = true :=
  next_of_ends (by decide +kernel)
theorem fr_ok (bs : List Byte) (lim : BitVec 18) (h : bs.length < 2 ^ 18 ∧ lim.toNat ≤ bs.length ∧ bs.length ≤ 131072) :
    frOk (withFr (at0 bs) 0 lim 0) := fun _ =>
  ⟨Nat.zero_le _, h.2.1.trans h.2.2, Nat.zero_le _, fun _ => by
    rw [show (withFr (at0 bs) 0 lim 0).inLen.toNat = bs.length from Nat.mod_eq_of_lt h.1]; exact h.2.1⟩
/-- FS9, FS10, FS11 and FS12: each cause of R150, and a header that has no bit. -/
theorem witness_FseNcount_stops :
    frOk (withFr (at0 [0x04]) 0 1 0) ∧
      ncountStops (withFr (at0 [0x04]) 0 1 0) 0 1 0 .off .fseAlTooLarge ∧
      ncountStops (withFr (at0 [0x10]) 0 1 0) 0 1 0 .ll .brFwdOverrun ∧
      ncountStops (withFr (at0 [0x10]) 0 0 0) 0 0 0 .ll .brFwdOverrun ∧
      ncountStops (withFr (at0 [0x10, 0xFE, 0xFF, 0x5F]) 0 4 0) 0 4 0 .off .fseZeroRunPastMax ∧
      ncountStops (withFr (at0 [0x10, 0xFE, 0xFF, 0x1F, 0x01]) 0 5 0) 0 5 0 .off .fseNcountSum := by
  refine ⟨fr_ok _ _ (by decide +kernel), ?_, ?_, ?_, ?_, ?_⟩ <;> unfold ncountStops
  · rw [if_neg (by decide), if_pos (by decide +kernel)]
  · rw [if_neg (by decide), if_neg (by decide +kernel)]
    refine ⟨[], 4, rfl, by decide, by decide, by decide +kernel, by decide, ?_⟩
    rw [if_neg (by decide), if_neg (by decide)]
    exact ⟨by unfold countCut; decide +kernel, rfl⟩
  · rw [if_pos (by decide)]
  · rw [if_neg (by decide), if_neg (by decide +kernel)]
    refine ⟨[(0, 0)], 9, ⟨by decide +kernel, by simp only [ncountFields, fieldsAt]; decide +kernel⟩, by decide, by decide, by decide +kernel, by decide, ?_⟩
    rw [if_neg (by decide), if_pos (by decide)]
    refine ⟨10, ?_, by decide, ?_⟩
    · simp only [List.replicate, fieldsAt]; decide +kernel
    · rw [if_neg (by decide)]
      refine ⟨by decide +kernel, ?_⟩
      rw [if_pos (by decide +kernel)]
  · rw [if_neg (by decide), if_neg (by decide +kernel)]
    refine ⟨[(0, 0), (30, 1)], 36, ?_, by decide, by decide +kernel, by decide +kernel, by decide +kernel, ?_⟩
    · rw [show ncountFields [(0, 0), (30, 1)] (2 ^ (fieldAt (withFr (at0 [0x10, 0xFE, 0xFF, 0x1F, 0x01]) 0 5 0) 0 0 4 + 5) + 1)
          false = (1, 5) :: (List.replicate 10 (3, 2) ++ [(0, 2), (2, 5)]) by decide +kernel]
      simp only [List.replicate, List.cons_append, List.nil_append, fieldsAt]; decide +kernel
    · rw [if_pos (by decide +kernel)]
theorem witness_FsePredefLoadsTheRow : noError State.reset = true ∧ 2 < (3 : BitVec 3).toNat := by decide +kernel

/-- The distribution of FS1 staged. -/
def staged : State := { State.reset with dist := ⟨true, .ll, 5, 2, [16, 16]⟩ }

theorem witness_FseBuildOccupancy :
    noError staged = true ∧ staged.dist.valid = true ∧ staged.dist.tag = .ll ∧ distOk staged.dist ∧
      State.reset.dist.valid = false ∧ staged.dist.tag ≠ .off := by unfold distOk; decide +kernel
theorem witness_FseBuildPlacement :
    noError staged = true ∧ staged.dist.valid = true ∧ staged.dist.tag = .ll ∧ distOk staged.dist := by
  unfold distOk; decide +kernel
theorem witness_FseRleAndRepeat :
    (52 : Word).toNat ≤ maxSym .ml ∧ maxSym .ml < (53 : Word).toNat ∧ ((withTwo reverse).ft.get .off).valid = true ∧
      (State.reset.ft.get .off).valid = false := by decide +kernel
theorem witness_FseInitstReadsAState :
    let s := withTwo reverse
    noError s = true ∧ (s.ft.get (tabOf .off)).valid = true ∧ tableOkFor (tabOf .off) (s.ft.get (tabOf .off)) ∧
      (s.rr.get .r0).valid = true ∧ rrOk s .r0 ∧ s.rrStale.get .r0 = false ∧ (s.rr.get .r1).valid = false := by
  unfold tableOkFor rrOk; decide +kernel
/-- State 1 is the last entry of the table; state 2 is outside it. -/
theorem witness_FseSymReportsTheSymbol :
    let s := withTwo { reverse with st := ⟨0, 1, 0, 0, 0⟩ }
    noError s = true ∧ (s.ft.get (tabOf .off)).valid = true ∧
      (s.st.get .off).toNat < 2 ^ (s.ft.get (tabOf .off)).al.toNat ∧
      (s.ft.get (tabOf .off)).entries[(s.st.get .off).toNat]? = some ⟨27, 0, 1⟩ ∧
      2 ^ (s.ft.get (tabOf .off)).al.toNat ≤ (({ s with st := ⟨0, 2, 0, 0, 0⟩ } : State).st.get .off).toNat := by
  decide +kernel
theorem witness_FseUpdstAdvancesTheState :
    let s := withTwo reverse
    noError s = true ∧ (s.ft.get (tabOf .off)).valid = true ∧ tableOkFor (tabOf .off) (s.ft.get (tabOf .off)) ∧
      (s.rr.get .r0).valid = true ∧ rrOk s .r0 ∧ s.rrStale.get .r0 = false ∧
      (s.ft.get (tabOf .off)).entries[(s.st.get .off).toNat]? = some ⟨23, 1, 0⟩ := by
  unfold tableOkFor rrOk; decide +kernel

/-! ### Huffman -/

/-- HU1 in IN. -/
def hu1Bytes : List Byte := [0x84, 0x43, 0x20, 0x10]

theorem hu1_weightsOk : weightsOk [4, 3, 2, 0, 1] 4 1 := by unfold weightsOk massOf mass; decide +kernel

theorem hu1_rawTreeAt (s : State) (a : Nat) (h : inByte s (a + 1) = 0x43 ∧ inByte s (a + 2) = 0x20 ∧ inByte s (a + 3) = 0x10)
    (lim : Nat) (hl : a + 4 ≤ lim) : rawTreeAt s 0x84 a lim [4, 3, 2, 0, 1] 4 := by
  obtain ⟨h1, h2, h3⟩ := h
  refine ⟨by decide, by decide, by decide, by decide, hl, ?_⟩
  intro i hi
  have : i < 5 := hi
  interval_cases i <;> simp [h1, h2, h3]

theorem witness_HufTreeRawBuildsTheCode :
    let s := at0 hu1Bytes
    noError s = true ∧ s.inLen.toNat ≤ 131072 ∧ treeRegion (.hufTree 0 4) s 0x84 0 4 ∧ treeRegion (.hufhdrRaw 4) s 0x84 0 4 ∧
      rawTreeAt s 0x84 0 4 [4, 3, 2, 0, 1] 4 ∧ weightsOk [4, 3, 2, 0, 1] 4 1 := by
  refine ⟨by decide +kernel, by decide +kernel, ?_, ?_, hu1_rawTreeAt _ _ (by decide +kernel) _ (by decide), hu1_weightsOk⟩ <;>
    (unfold treeRegion; decide +kernel)

/-- The entries FS2 builds. -/
def fs2Entries : List FseEntry := (buildEntries 5 0 [16, 16]).getD []

theorem fs2_builds : builds 5 [16, 16] fs2Entries := builds_of_full (by decide +kernel) (by decide +kernel)

/-- A description of 4 bytes of FSE-coded weights: the header of FS1, then the stream 63 04. -/
def fseTree : State := at0 [0x04, 0x10, 0x3F, 0x63, 0x04]

/-- Its states are the two 5-bit halves of the 10 useful bits, its weights their symbols 1 and 1. -/
theorem fseTree_spells :
    spellsWeights fseTree 3 fs2Entries [1, 1] (streamBits fseTree 3 10 5) (streamBits fseTree 3 (10 - 5) 5) (10 - 2 * 5) := by
  refine ⟨⟨1, 1, 0⟩, by decide +kernel, rfl, ?_⟩
  rw [if_pos (by decide +kernel)]
  exact ⟨⟨1, 1, 0⟩, by decide +kernel, rfl⟩

/-- The weight table of a description that begins with FS1's header. -/
theorem fs1_weightTable {s : State} (h : fieldAt s 1 0 4 = 0 ∧ fieldAt s 1 4 5 = 17 ∧ fieldAt s 1 9 5 = 31) :
    weightTableAt s 4 0 5 5 fs2Entries 3 :=
  ⟨by decide, by decide, [16, 16], 14, fs1_header (k := 0) (by unfold distribution; decide +kernel) (by decide) h, fs2_builds,
    by unfold tableOkFor; decide +kernel, rfl⟩

theorem witness_HufTreeFseBuildsTheCode :
    noError fseTree = true ∧ fseTree.inLen.toNat ≤ 131072 ∧ treeRegion (.hufTree 0 5) fseTree 4 0 5 ∧
      treeRegion (.hufhdrFse 4) fseTree 4 0 5 ∧ fseTreeAt fseTree 4 0 5 [1, 1] 5 ∧ weightsOk [1, 1] 2 2 := by
  refine ⟨by decide +kernel, by decide +kernel, by unfold treeRegion; decide +kernel, by unfold treeRegion; decide +kernel,
    ⟨by decide, by decide, 5, fs2Entries, 3, 10, fs1_weightTable (by decide +kernel), ?_, fseTree_spells⟩,
    by unfold weightsOk massOf mass; decide +kernel⟩
  unfold streamAt; decide +kernel

/-- HU6 runs past its limit; HU9 to HU13 fail each check in turn. -/
theorem witness_HufTreeErrorsInOrder :
    treeRegion (.hufTree 0 2) (at0 [0x85, 0x43]) 0x85 0 2 ∧ 2 < 0 + treeSize 0x85 ∧
      rawTreeAt (at0 [0x81, 0xC1]) 0x81 0 2 [12, 1] 2 ∧ weightsError [12, 1] = some .hufWeightRange ∧
      weightsError [0, 0] = some .hufNoWeights ∧ weightsError [11, 11] = some .hufMaxlen ∧
      weightsError [4, 1] = some .hufNotSaturable ∧ weightsError [2, 0] = some .hufRank1 := by
  refine ⟨by unfold treeRegion; decide +kernel, by decide +kernel, ?_, by decide +kernel, by decide +kernel,
    by decide +kernel, by decide +kernel, by decide +kernel⟩
  unfold rawTreeAt; decide +kernel

/-- HU14: every entry has NB 0, so the stream is never used up. -/
def hu14 : State := at0 [0x04, 0xF0, 0x03, 0x00, 0x04]

/-- The 32 entries of the distribution C[0] = 32. -/
def flatEntries : List FseEntry := (buildEntries 5 0 [32]).getD []

theorem flat_goesOn (n : Nat) : weightsGoOn hu14 3 flatEntries n 0 0 0 := by
  induction n with
  | zero => trivial
  | succ n ih => exact ⟨⟨0, 0, 0⟩, by decide +kernel, by decide, ih⟩

/-- HU14, a description with no byte for its header, one with no end mark, and one whose two weights are 0. -/
theorem witness_HufTree_fseErrors :
    treeRegion (.hufTree 0 5) hu14 4 0 5 ∧ treeStops hu14 4 0 5 .hufTooManyWeights ∧
      treeStops (at0 [0x00]) 0 0 1 .brFwdOverrun ∧
      treeStops (at0 [0x04, 0x10, 0x3F, 0x63, 0x00]) 4 0 5 .brNoEndMark ∧
      treeStops (at0 [0x04, 0x10, 0x3F, 0x00, 0x04]) 4 0 5 .hufNoWeights := by
  refine ⟨by unfold treeRegion; decide +kernel, .inr (.inr ⟨by decide, by decide, .inr ⟨5, flatEntries, 3, ?_, .inr
    ⟨10, by unfold streamAt; decide +kernel, .inl ⟨?_, rfl⟩⟩⟩⟩), .inr (.inr ⟨by decide, by decide, .inl ?_⟩),
    .inr (.inr ⟨by decide, by decide, .inr ⟨5, fs2Entries, 3, fs1_weightTable (by decide +kernel),
      .inl (.inr (by decide +kernel))⟩⟩),
    .inr (.inr ⟨by decide, by decide, .inr ⟨5, fs2Entries, 3, fs1_weightTable (by decide +kernel), .inr
      ⟨10, by unfold streamAt; decide +kernel, .inr ⟨[0, 0], by decide, by decide +kernel, ?_⟩⟩⟩⟩)⟩
  · refine ⟨by decide, by decide, [32], 10, ⟨by unfold distribution; decide +kernel, by decide, [(0, 32)], rfl, ?_⟩,
      builds_of_full (by decide +kernel) (by decide +kernel), by unfold tableOkFor; decide +kernel, rfl⟩
    rw [show ncountFields [(0, 32)] (2 ^ 5 + 1) false = [(63, 6)] by decide +kernel]
    simp only [fieldsAt]; decide +kernel
  · rw [show streamBits hu14 3 10 5 = 0 by decide +kernel, show streamBits hu14 3 (10 - ((5 : Nat) : Int)) 5 = 0 by decide +kernel]
    exact flat_goesOn 254
  · unfold ncountStops; rw [if_pos (by decide)]
  · refine ⟨⟨0, 1, 0⟩, by decide +kernel, rfl, ?_⟩
    rw [if_pos (by decide +kernel)]
    exact ⟨⟨0, 1, 0⟩, by decide +kernel, rfl⟩

/-- HU2: RR[0] over 01 0D with HU1's code. -/
def hu2 : State := withHu1 (withR0 (at0 [0x84, 0x43, 0x20, 0x10, 0x01, 0x0D]) 4 2 11)

theorem hu2_ready :
    noError hu2 = true ∧ hu2.ht.valid = true ∧ (hu2.rr.get .r0).valid = true ∧ rrOk hu2 .r0 ∧ hu2.rrStale.get .r0 = false := by
  unfold rrOk; decide +kernel

/-- The four literals of HU3. -/
theorem hu2_spells (s : State) (base : Nat) (h : inByte s base = 0x01 ∧ inByte s (base + 1) = 0x0D) :
    spells s hu1 base [0, 1, 4, 5] 11 0 := by
  obtain ⟨h1, h2⟩ := h
  have b : ∀ pos : Int, streamBits s base pos 4 = streamBits (at0 [0x01, 0x0D]) 0 pos 4 ∨ 16 < pos := by
    intro pos
    by_cases hp : 16 < pos
    · exact .inr hp
    · left
      unfold streamBits
      apply Finset.sum_congr rfl
      intro i _
      congr 1
      unfold streamBit
      split_ifs with hk
      · rfl
      · have hlt : (pos - 1 - (i : Int)).toNat / 8 = 0 ∨ (pos - 1 - (i : Int)).toNat / 8 = 1 := by omega
        rcases hlt with e | e <;> rw [e]
        · rw [show base + 0 = base from rfl, h1]; rfl
        · rw [h2]; rfl
  have b' : ∀ pos : Int, pos ≤ 16 → streamBits s base pos hu1.maxLen.toNat = streamBits (at0 [0x01, 0x0D]) 0 pos 4 :=
    fun pos hp => (b pos).resolve_right (by omega)
  refine ⟨⟨0, 1⟩, ?_, rfl, by decide, ⟨1, 2⟩, ?_, rfl, by decide, ⟨4, 4⟩, ?_, rfl, by decide, ⟨5, 4⟩, ?_, rfl, by decide, rfl⟩ <;>
    (rw [b' _ (by decide)]; decide +kernel)

theorem witness_HufSymDecodesOneLiteral :
    noError hu2 = true ∧ hu2.ht.valid = true ∧ (hu2.rr.get .r0).valid = true ∧ rrOk hu2 .r0 ∧ hu2.rrStale.get .r0 = false ∧
      hu2.ht.entries[streamBits hu2 (hu2.rr.get .r0).base.toNat (hu2.rr.get .r0).pos.toInt hu2.ht.maxLen.toNat]? = some ⟨0, 1⟩ ∧
      ((1 : BitVec 4).toNat : Int) ≤ (hu2.rr.get .r0).pos.toInt :=
  ⟨hu2_ready.1, hu2_ready.2.1, hu2_ready.2.2.1, hu2_ready.2.2.2.1, hu2_ready.2.2.2.2, by decide +kernel, by decide +kernel⟩
/-- HU15: no bit is left for the code 0000. -/
theorem witness_HufSym_overrun :
    let s := withHu1 (withR0 (at0 [0x84, 0x43, 0x20, 0x10, 0x01]) 4 1 0)
    rrOk s .r0 ∧
      s.ht.entries[streamBits s (s.rr.get .r0).base.toNat (s.rr.get .r0).pos.toInt s.ht.maxLen.toNat]? = some ⟨4, 4⟩ ∧
      (s.rr.get .r0).pos.toInt < (4 : BitVec 4).toNat ∧ State.reset.ht.valid = false := by
  unfold rrOk; decide +kernel

/-- HU3: four literals, the stream at its end; of it, three literals (HU16) leave 4 bits; LIT's last address. -/
theorem witness_HufStreamWritesItsLiterals :
    (0 : Word).toNat + (4 : Word).toNat ≤ 131072 ∧ noError hu2 = true ∧ hu2.ht.valid = true ∧
      (hu2.rr.get .r0).valid = true ∧ rrOk hu2 .r0 ∧ hu2.rrStale.get .r0 = false ∧
      spells hu2 hu2.ht (hu2.rr.get .r0).base.toNat [0, 1, 4, 5] (hu2.rr.get .r0).pos.toInt 0 ∧
      (131071 : Word).toNat + (1 : Word).toNat ≤ 131072 ∧ 131072 < (131071 : Word).toNat + (2 : Word).toNat :=
  ⟨by decide +kernel, hu2_ready.1, hu2_ready.2.1, hu2_ready.2.2.1, hu2_ready.2.2.2.1, hu2_ready.2.2.2.2,
    hu2_spells hu2 4 (by decide +kernel), by decide +kernel, by decide +kernel⟩
/-- HU16's end and HU15's cut code. -/
theorem witness_HufStream_errors :
    (∃ last, spells hu2 hu2.ht 4 [0, 1, 4] 11 last ∧ last ≠ 0) ∧
      (let s := withHu1 (withR0 (at0 [0x84, 0x43, 0x20, 0x10, 0x01]) 4 1 0)
       spells s s.ht 4 [] 0 0 ∧ ([] : List Byte).length < (1 : Word).toNat ∧
        s.ht.entries[streamBits s 4 0 s.ht.maxLen.toNat]? = some ⟨4, 4⟩ ∧ (0 : Int) < (4 : BitVec 4).toNat) := by
  refine ⟨⟨4, ?_, by decide⟩, rfl, by decide +kernel, by decide +kernel, by decide +kernel⟩
  obtain ⟨e1, h1, h1', h1'', e2, h2, h2', h2'', e3, h3, h3', h3'', _⟩ := hu2_spells hu2 4 (by decide +kernel)
  refine ⟨e1, h1, h1', h1'', e2, h2, h2', h2'', e3, h3, h3', h3'', ?_⟩
  have a1 : e1 = ⟨0, 1⟩ := Option.some.inj (h1.symm.trans (by decide +kernel))
  subst a1
  have a2 : e2 = ⟨1, 2⟩ := Option.some.inj (h2.symm.trans (by decide +kernel))
  subst a2
  have a3 : e3 = ⟨4, 4⟩ := Option.some.inj (h3.symm.trans (by decide +kernel))
  subst a3
  rfl

/-! ### Literals sections -/

/-- LI1. -/
def li1 : State := at0 [0x28, 0x68, 0x65, 0x6C, 0x6C, 0x6F]

theorem witness_RawLiteralsAreCopied :
    noError li1 = true ∧ RangesOk li1 ∧ litRegion (.litDecode 0 6) li1 ⟨.raw, 1, 1, 5, 0⟩ 0 6 ∧
      litRegion (.lithdrRaw1b 5) li1 ⟨.raw, 1, 1, 5, 0⟩ 0 6 ∧
      litError ⟨.raw, 1, 1, 5, 0⟩ 0 6 li1.blockMax.toNat li1.ht.valid = none ∧
      inBytes li1 (0 + 1) [0x68, 0x65, 0x6C, 0x6C, 0x6F] := by
  refine ⟨by decide +kernel, ranges_at0_of _ (by decide +kernel), ⟨rfl, by decide, by decide, by decide +kernel, by decide,
    .lithdrRaw1b 5, [0x28], rfl, by decide +kernel, by unfold inBytes; decide +kernel⟩, ⟨rfl, rfl, by decide +kernel⟩,
    by decide +kernel, by unfold inBytes; decide +kernel⟩

/-- LI2, and LI3 of size 0. -/
theorem witness_RleLiteralsRepeatOneByte :
    let s := at0 [0x29, 0x41]
    noError s = true ∧ RangesOk s ∧ litRegion (.litDecode 0 2) s ⟨.rle, 1, 1, 5, 0⟩ 0 2 ∧
      litRegion (.lithdrRle1b 5) s ⟨.rle, 1, 1, 5, 0⟩ 0 2 ∧
      litError ⟨.rle, 1, 1, 5, 0⟩ 0 2 s.blockMax.toNat s.ht.valid = none ∧
      litRegion (.lithdrRle1b 0) (at0 [0x01, 0x41]) ⟨.rle, 1, 1, 0, 0⟩ 0 2 := by
  refine ⟨by decide +kernel, ranges_at0_of _ (by decide +kernel), ⟨rfl, by decide, by decide, by decide +kernel, by decide,
    .lithdrRle1b 5, [0x29], rfl, by decide +kernel, by unfold inBytes; decide +kernel⟩, ⟨rfl, rfl, by decide +kernel⟩,
    by decide +kernel, ⟨rfl, rfl, by decide +kernel⟩⟩

/-- LI7: one stream. -/
def li7 : State := at0 [0x42, 0x80, 0x01, 0x84, 0x43, 0x20, 0x10, 0x01, 0x0D]

theorem li7_content : litContent li7 ⟨.compressed, 3, 1, 4, 6⟩ 0 [0, 1, 4, 5] hu1 := by
  refine ⟨rfl, [4, 3, 2, 0, 1], 4, 4, 1, .inl ?_, hu1_weightsOk, rfl, ?_⟩
  · have e : (inByte li7 (0 + 3)).toNat = 0x84 := by decide +kernel
    simp only [e]
    exact hu1_rawTreeAt _ _ (by decide +kernel) _ (by decide)
  · unfold litStreams
    rw [if_pos rfl]
    exact ⟨11, by unfold streamAt; decide +kernel, hu2_spells li7 7 (by decide +kernel)⟩

theorem witness_CompressedLiteralsDecode :
    noError li7 = true ∧ RangesOk li7 ∧ litRegion (.litDecode 0 9) li7 ⟨.compressed, 3, 1, 4, 6⟩ 0 9 ∧
      litRegion (.lithdrComp1s3b 4 6) li7 ⟨.compressed, 3, 1, 4, 6⟩ 0 9 ∧
      litError ⟨.compressed, 3, 1, 4, 6⟩ 0 9 li7.blockMax.toNat li7.ht.valid = none ∧
      litContent li7 ⟨.compressed, 3, 1, 4, 6⟩ 0 [0, 1, 4, 5] hu1 := by
  refine ⟨by decide +kernel, ranges_at0_of _ (by decide +kernel), ⟨rfl, by decide, by decide, by decide +kernel, by decide,
    .lithdrComp1s3b 4 6, [0x42, 0x80, 0x01], rfl, by decide +kernel, by unfold inBytes; decide +kernel⟩,
    ⟨rfl, rfl, by decide +kernel⟩, by decide +kernel, li7_content⟩

/-- LI8: four streams, after a header of 3, 4 or 5 bytes (R90). -/
def li8With (header : List Byte) : State :=
  at0 (header ++ [0x84, 0x43, 0x20, 0x10, 0x01, 0x00, 0x01, 0x00, 0x02, 0x00, 0x07, 0x29, 0x01, 0x01, 0x01])

/-- The headers, each with its row. -/
def li8Headers : List (Instr × List Byte) :=
  [(.lithdrComp4s3b 6 15, [0x66, 0xC0, 0x03]), (.lithdrComp4s4b 6 15, [0x6A, 0x00, 0x3C, 0x00]),
    (.lithdrComp4s5b 6 15, [0x6E, 0x00, 0xC0, 0x03, 0x00])]

/-- Its streams hold 2, 2, 2 and 0 literals. -/
theorem li8_streams : ∀ x ∈ li8Headers,
    litStreams (li8With x.2) hu1 4 (x.2.length + 4) (x.2.length + 15) [0, 0, 1, 2, 4, 5] := by
  intro x hx
  simp only [li8Headers, List.mem_cons, List.not_mem_nil, or_false] at hx
  rcases hx with rfl | rfl | rfl <;>
  · unfold litStreams
    rw [if_neg (by decide), jumpSize, jumpSize, jumpSize]
    refine ⟨by decide +kernel, ⟨2, by unfold streamAt; decide +kernel, ?_⟩, ⟨5, by unfold streamAt; decide +kernel, ?_⟩,
      ⟨8, by unfold streamAt; decide +kernel, ?_⟩, ⟨0, by unfold streamAt; decide +kernel, rfl⟩⟩
    · exact ⟨⟨0, 1⟩, by decide +kernel, rfl, by decide, ⟨0, 1⟩, by decide +kernel, rfl, by decide, rfl⟩
    · exact ⟨⟨1, 2⟩, by decide +kernel, rfl, by decide, ⟨2, 3⟩, by decide +kernel, rfl, by decide, rfl⟩
    · exact ⟨⟨4, 4⟩, by decide +kernel, rfl, by decide, ⟨5, 4⟩, by decide +kernel, rfl, by decide, rfl⟩

theorem witness_CompressedLiterals_fourStreams : ∀ x ∈ li8Headers,
    let h : LitHeader := ⟨.compressed, x.2.length, 4, 6, 15⟩
    let lim := x.2.length + 15
    litRegion x.1 (li8With x.2) h 0 lim ∧ litRegion (.litDecode 0 (BitVec.ofNat 32 lim)) (li8With x.2) h 0 lim ∧
      litError h 0 lim (li8With x.2).blockMax.toNat (li8With x.2).ht.valid = none ∧
      litContent (li8With x.2) h 0 [0, 0, 1, 2, 4, 5] hu1 := by
  intro x hx
  have streams := li8_streams x hx
  have header : headerAt (li8With x.2) 0 ⟨.compressed, x.2.length, 4, 6, 15⟩ := by
    refine ⟨x.1, x.2, ?_⟩
    simp only [li8Headers, List.mem_cons, List.not_mem_nil, or_false] at hx
    rcases hx with rfl | rfl | rfl <;> exact ⟨rfl, by decide +kernel, by unfold inBytes; decide +kernel⟩
  simp only [li8Headers, List.mem_cons, List.not_mem_nil, or_false] at hx
  rcases hx with rfl | rfl | rfl <;>
  · refine ⟨⟨rfl, rfl, by decide +kernel⟩, ⟨rfl, by decide, by decide, by decide +kernel, by decide,
      header⟩, by decide +kernel, rfl, [4, 3, 2, 0, 1], 4, 4, 1,
      .inl ?_, hu1_weightsOk, rfl, streams⟩
    first
      | exact hu1_rawTreeAt _ 3 (by decide +kernel) _ (by decide)
      | exact hu1_rawTreeAt _ 4 (by decide +kernel) _ (by decide)
      | exact hu1_rawTreeAt _ 5 (by decide +kernel) _ (by decide)

/-- LI8's streams after a Treeless header of 3, 4 or 5 bytes. -/
def treelessWith (header : List Byte) : State :=
  withHu1 (at0 (header ++ [0x01, 0x00, 0x01, 0x00, 0x02, 0x00, 0x07, 0x29, 0x01, 0x01, 0x01]))

/-- The headers, each with its row. -/
def treelessHeaders : List (Instr × List Byte) :=
  [(.lithdrTreeless4s3b 6 11, [0x67, 0xC0, 0x02]), (.lithdrTreeless4s4b 6 11, [0x6B, 0x00, 0x2C, 0x00]),
    (.lithdrTreeless4s5b 6 11, [0x6F, 0x00, 0xC0, 0x02, 0x00])]

theorem witness_TreelessLiterals_fourStreams : ∀ x ∈ treelessHeaders,
    let h : LitHeader := ⟨.treeless, x.2.length, 4, 6, 11⟩
    let lim := x.2.length + 11
    litRegion x.1 (treelessWith x.2) h 0 lim ∧ litRegion (.litDecode 0 (BitVec.ofNat 32 lim)) (treelessWith x.2) h 0 lim ∧
      litError h 0 lim (treelessWith x.2).blockMax.toNat (treelessWith x.2).ht.valid = none ∧
      litContent (treelessWith x.2) h 0 [0, 0, 1, 2, 4, 5] (treelessWith x.2).ht := by
  intro x hx
  simp only [treelessHeaders, List.mem_cons, List.not_mem_nil, or_false] at hx
  rcases hx with rfl | rfl | rfl <;>
  · refine ⟨⟨rfl, rfl, by decide +kernel⟩, ⟨rfl, by decide, by decide, by decide +kernel, by decide, ?_⟩, by decide +kernel,
      rfl, rfl, ?_⟩
    · first
        | exact ⟨.lithdrTreeless4s3b 6 11, [0x67, 0xC0, 0x02], rfl, by decide +kernel, by unfold inBytes; decide +kernel⟩
        | exact ⟨.lithdrTreeless4s4b 6 11, [0x6B, 0x00, 0x2C, 0x00], rfl, by decide +kernel, by unfold inBytes; decide +kernel⟩
        | exact ⟨.lithdrTreeless4s5b 6 11, [0x6F, 0x00, 0xC0, 0x02, 0x00], rfl, by decide +kernel,
            by unfold inBytes; decide +kernel⟩
    · unfold litStreams
      rw [if_neg (by decide), jumpSize, jumpSize, jumpSize]
      refine ⟨by decide +kernel, ⟨2, by unfold streamAt; decide +kernel, ?_⟩, ⟨5, by unfold streamAt; decide +kernel, ?_⟩,
        ⟨8, by unfold streamAt; decide +kernel, ?_⟩, ⟨0, by unfold streamAt; decide +kernel, rfl⟩⟩
      · exact ⟨⟨0, 1⟩, by decide +kernel, rfl, by decide, ⟨0, 1⟩, by decide +kernel, rfl, by decide, rfl⟩
      · exact ⟨⟨1, 2⟩, by decide +kernel, rfl, by decide, ⟨2, 3⟩, by decide +kernel, rfl, by decide, rfl⟩
      · exact ⟨⟨4, 4⟩, by decide +kernel, rfl, by decide, ⟨5, 4⟩, by decide +kernel, rfl, by decide, rfl⟩

/-- LI15. -/
theorem witness_TreelessLiteralsDecode :
    let s := withHu1 (at0 [0x43, 0x80, 0x00, 0x01, 0x0D])
    noError s = true ∧ RangesOk s ∧ litRegion (.litDecode 0 5) s ⟨.treeless, 3, 1, 4, 2⟩ 0 5 ∧
      litRegion (.lithdrTreeless1s3b 4 2) s ⟨.treeless, 3, 1, 4, 2⟩ 0 5 ∧
      litError ⟨.treeless, 3, 1, 4, 2⟩ 0 5 s.blockMax.toNat s.ht.valid = none ∧
      litContent s ⟨.treeless, 3, 1, 4, 2⟩ 0 [0, 1, 4, 5] s.ht := by
  refine ⟨by decide +kernel, ranges_at0_of _ (by decide +kernel), ⟨rfl, by decide, by decide, by decide +kernel, by decide,
    .lithdrTreeless1s3b 4 2, [0x43, 0x80, 0x00], rfl, by decide +kernel, by unfold inBytes; decide +kernel⟩,
    ⟨rfl, rfl, by decide +kernel⟩, by decide +kernel, rfl, rfl, ?_⟩
  unfold litStreams
  rw [if_pos rfl]
  exact ⟨11, by unfold streamAt; decide +kernel, hu2_spells _ 3 (by decide +kernel)⟩

/-- Each cause, from LI6, LI9, LI10, LI12, LI13 and LI14, and a header cut after one of three bytes. -/
theorem witness_LiteralsErrorsInOrder :
    2 < 0 + litHeaderBytes 0x42 ∧ litHeaderBytes 0x28 = 1 ∧ litHeaderBytes 0x44 = 2 ∧ litHeaderBytes 0x6A = 4 ∧
      litHeaderBytes 0x6E = 5 ∧ litRegion (.lithdrRaw3b 0) (at0 [0x0C]) ⟨.raw, 3, 1, 0, 0⟩ 0 1 ∧
      litError ⟨.raw, 3, 1, 0, 0⟩ 0 1 131072 false = some .litHeader ∧
      litError ⟨.raw, 1, 1, 5, 0⟩ 0 6 4 false = some .litTooLarge ∧
      litError ⟨.raw, 1, 1, 5, 0⟩ 0 4 131072 false = some .litRawBody ∧
      litError ⟨.rle, 1, 1, 5, 0⟩ 0 1 131072 false = some .litRleBody ∧
      litError ⟨.compressed, 3, 4, 5, 15⟩ 0 18 131072 false = some .lit4sTooSmall ∧
      litError ⟨.compressed, 3, 1, 4, 6⟩ 0 8 131072 false = some .litCompBody ∧
      litError ⟨.treeless, 3, 1, 4, 2⟩ 0 5 131072 false = some .litTreelessNoTable ∧
      (3 : Word).toNat ≤ (at0 [1, 2, 3]).inLen.toNat ∧
      ¬((0 : Word).toNat ≤ (4 : Word).toNat ∧ (4 : Word).toNat ≤ (at0 [1, 2, 3]).inLen.toNat) := by
  refine ⟨by decide, by decide, by decide, by decide, by decide, ⟨rfl, rfl, by decide +kernel⟩, ?_⟩; decide +kernel

/-- A tree past its section, LI11's jump table, LI7 with no stream, with one literal less, and a stream of its end mark
alone for one literal. -/
theorem witness_Literals_bodyErrors :
    litBodyStops (at0 [0x42, 0x80, 0x00, 0x84, 0x43]) ⟨.compressed, 3, 1, 4, 2⟩ 0 .hufTreeOverrun ∧
      litBodyStops (at0 [0x66, 0xC0, 0x03, 0x84, 0x43, 0x20, 0x10, 0x01, 0x00, 0x01, 0x00, 0x03, 0x00, 0x07, 0x29, 0x01, 0x01, 0x01])
        ⟨.compressed, 3, 4, 6, 15⟩ 0 .litJumpTable ∧
      litBodyStops (at0 [0x42, 0x00, 0x01, 0x84, 0x43, 0x20, 0x10]) ⟨.compressed, 3, 1, 4, 4⟩ 0 .brEmpty ∧
      litBodyStops (withHu1 (at0 [0x33, 0x80, 0x00, 0x01, 0x0D])) ⟨.treeless, 3, 1, 3, 2⟩ 0 .hufNotConsumed ∧
      litBodyStops (withHu1 (at0 [0x13, 0x40, 0x00, 0x01])) ⟨.treeless, 3, 1, 1, 1⟩ 0 .hufOverrun := by
  have tree : ∀ (s : State) (lim : Nat), inByte s 3 = 0x84 → inByte s 4 = 0x43 ∧ inByte s 5 = 0x20 ∧ inByte s 6 = 0x10 →
      7 ≤ lim → treeAt s (inByte s 3).toNat 3 lim [4, 3, 2, 0, 1] 4 := fun s lim e h hl => by
    rw [e]; exact .inl (hu1_rawTreeAt s 3 h lim hl)
  refine ⟨.inl ⟨rfl, .inl (.inl ⟨by decide +kernel, rfl⟩)⟩,
    .inl ⟨rfl, .inr ⟨_, 4, 4, 1, tree _ _ (by decide +kernel) (by decide +kernel) (by decide), hu1_weightsOk, ?_⟩⟩,
    .inl ⟨rfl, .inr ⟨_, 4, 4, 1, tree _ _ (by decide +kernel) (by decide +kernel) (by decide), hu1_weightsOk, ?_⟩⟩,
    .inr ⟨rfl, ?_⟩, .inr ⟨rfl, ?_⟩⟩ <;> unfold litStreamsStop
  · rw [if_neg (by decide)]
    rw [if_pos]; decide +kernel
  · rw [if_pos rfl]
    exact .inl (.inl ⟨rfl, rfl⟩)
  · rw [if_pos rfl]
    refine .inr ⟨11, [0, 1, 4], 4, by unfold streamAt; decide +kernel, ?_, .inl ⟨rfl, by decide, rfl⟩⟩
    exact ⟨⟨0, 1⟩, by decide +kernel, rfl, by decide, ⟨1, 2⟩, by decide +kernel, rfl, by decide, ⟨4, 4⟩, by decide +kernel, rfl,
      by decide, rfl⟩
  · rw [if_pos rfl]
    exact .inr ⟨0, [], 0, by unfold streamAt; decide +kernel, rfl, .inr ⟨by decide, rfl, ⟨4, 4⟩, by decide +kernel, by decide⟩⟩

/-! ### Sequences sections -/

theorem witness_ZeroSequenceCountEndsTheSection :
    noError (at0 [0x00]) = true ∧ RangesOk (at0 [0x00]) ∧ (1 : Word).toNat ≤ (at0 [0x00]).inLen.toNat ∧
      inByte (at0 [0x00]) 0 = 0 ∧ (1 : Word).toNat = 0 + 1 ∧ 0 + 1 < (at0 [0x00, 0x00]).inLen.toNat :=
  ⟨by decide +kernel, ranges_at0_of _ (by decide +kernel), by decide +kernel, by decide +kernel, by decide +kernel,
    by decide +kernel⟩

/-- SQ1: all three tables RLE. -/
def sq1 : State := at0 [0x01, 0x54, 0x01, 0x02, 0x00, 0x04]

/-- A table of one entry. -/
def one (x : Byte) : FseTable := ⟨true, 0, [⟨x, 0, 0⟩]⟩

theorem one_ok (t : TSel) (x : Byte) (h : x.toNat ≤ maxSym t) : tableOkFor t (one x) := by
  refine ⟨by simp [one], rfl, ?_⟩
  intro e he
  simp only [one, List.mem_singleton] at he
  subst he
  exact ⟨Nat.le_refl _, Nat.le_refl _, h⟩

theorem sq1_content : seqContent sq1 0x54 2 6 (one 1) (one 2) (one 0) [(4, 3, 1)] := by
  refine ⟨by decide, one_ok _ _ (by decide), one_ok _ _ (by decide), one_ok _ _ (by decide), 3, 4, 5, 2, ?_, ?_, ?_,
    by decide, by unfold streamAt; decide +kernel, ?_⟩
  · exact (by decide +kernel : 3 = 2 + 1 ∧ 3 ≤ 6 ∧ (inByte sq1 2).toNat ≤ maxSym .ll ∧ one 1 = ⟨true, 0, [⟨inByte sq1 2, 0, 0⟩]⟩)
  · exact (by decide +kernel : 4 = 3 + 1 ∧ 4 ≤ 6 ∧ (inByte sq1 3).toNat ≤ maxSym .off ∧ one 2 = ⟨true, 0, [⟨inByte sq1 3, 0, 0⟩]⟩)
  · exact (by decide +kernel : 5 = 4 + 1 ∧ 5 ≤ 6 ∧ (inByte sq1 4).toNat ≤ maxSym .ml ∧ one 0 = ⟨true, 0, [⟨inByte sq1 4, 0, 0⟩]⟩)
  · refine ⟨⟨1, 0, 0⟩, ⟨2, 0, 0⟩, ⟨0, 0, 0⟩, by decide +kernel, by decide +kernel, by decide +kernel, by decide +kernel, ?_⟩
    rw [if_pos (by decide)]; decide +kernel

theorem witness_SequencesDecode :
    noError sq1 = true ∧ RangesOk sq1 ∧ seqRegion (.seqDecode 0 6) sq1 1 0x54 2 6 ∧ seqRegion (.seqcnt1b 1) sq1 1 0x54 2 6 ∧
      seqRegion (.modes 1 1 1) sq1 1 0x54 2 6 ∧ seqContent sq1 0x54 2 6 (one 1) (one 2) (one 0) [(4, 3, 1)] ∧
      resolves sq1.rep [(4, 3, 1)] [⟨1, 1, 3⟩] ⟨1, 1, 4⟩ := by
  have c : countAt sq1 0 1 1 :=
    ⟨.seqcnt1b 1, [0x01], by decide, rfl, by decide +kernel, by unfold inBytes; decide +kernel⟩
  refine ⟨by decide +kernel, ranges_at0_of _ (by decide +kernel),
    ⟨by decide, by decide, 1, c, by decide +kernel, by decide +kernel, by decide +kernel, by decide +kernel⟩,
    ⟨by decide, by decide, 1, by decide, rfl, by decide +kernel, rfl, by decide +kernel⟩,
    ⟨by decide, by decide, 1, c, by decide +kernel, rfl, by decide +kernel⟩, sq1_content,
    1, ⟨1, 1, 4⟩, [], by decide +kernel, by decide +kernel, rfl, rfl⟩

/-- SQ3: LL FSE_Compressed with FS1's header, OF RLE, ML Predefined; two sequences. -/
def sq3 : State := at0 [0x02, 0x90, 0x10, 0x3F, 0x02, 0xE3, 0x02, 0x1F]

/-- The entries of ML's predefined table (FS3). -/
def mlEntries : List FseEntry := (buildEntries 6 0 (predefCounts .ml)).getD []

theorem sq3_content :
    seqContent sq3 0x90 2 8 ⟨true, 5, fs2Entries⟩ (one 2) ⟨true, 6, mlEntries⟩ [(5, 4, 1), (7, 16, 0)] := by
  refine ⟨by decide, by unfold tableOkFor; decide +kernel, one_ok _ _ (by decide), by unfold tableOkFor; decide +kernel,
    4, 5, 5, 20, ?_, ?_, ?_, by decide, by unfold streamAt; decide +kernel, ?_⟩
  · refine ⟨5, [16, 16], 14, fs2Entries, ?_, fs2_builds, rfl, rfl⟩
    exact fs1_header (k := 0) (by unfold distribution; decide +kernel) (by decide) (by decide +kernel)
  · exact (by decide +kernel : 5 = 4 + 1 ∧ 5 ≤ 8 ∧ (inByte sq3 4).toNat ≤ maxSym .off ∧ one 2 = ⟨true, 0, [⟨inByte sq3 4, 0, 0⟩]⟩)
  · exact ⟨rfl, mlEntries, builds_of_full (by decide +kernel) (by decide +kernel), rfl⟩
  · refine ⟨⟨1, 1, 28⟩, ⟨2, 0, 0⟩, ⟨1, 4, 0⟩, by decide +kernel, by decide +kernel, by decide +kernel, by decide +kernel, ?_⟩
    rw [if_neg (by decide)]
    refine ⟨by decide +kernel, ⟨0, 1, 30⟩, ⟨2, 0, 0⟩, ⟨13, 6, 0⟩, by decide +kernel, by decide +kernel, by decide +kernel,
      by decide +kernel, ?_⟩
    rw [if_pos (by decide)]; decide +kernel

theorem witness_SequencesDecode_modes :
    seqRegion (.seqDecode 0 8) sq3 2 0x90 2 8 ∧
      seqContent sq3 0x90 2 8 ⟨true, 5, fs2Entries⟩ (one 2) ⟨true, 6, mlEntries⟩ [(5, 4, 1), (7, 16, 0)] ∧
      resolves sq3.rep [(5, 4, 1), (7, 16, 0)] [⟨1, 2, 4⟩, ⟨0, 4, 16⟩] ⟨4, 2, 1⟩ := by
  refine ⟨⟨by decide, by decide, 1, ⟨.seqcnt1b 2, [0x02], by decide, rfl, by decide +kernel, by unfold inBytes; decide +kernel⟩,
    by decide +kernel, by decide +kernel, by decide +kernel, by decide +kernel⟩, sq3_content,
    2, ⟨2, 1, 4⟩, [⟨0, 4, 16⟩], by decide +kernel, by decide +kernel, 4, ⟨4, 2, 1⟩, [], by decide +kernel, by decide +kernel, rfl, rfl⟩

/-- 32512 sequences, the least count of 3 bytes, none of which reads a bit. -/
def manySequences : State := at0 [0xFF, 0x00, 0x00, 0x54, 0x01, 0x00, 0x00, 0x01]

theorem many_spells (s : State) (base n : Nat) :
    spellsSequences s base (one 1) (one 0) (one 0) (List.replicate (n + 1) (1, 3, 1)) 0 0 0 0 0 := by
  induction n with
  | zero =>
    refine ⟨⟨1, 0, 0⟩, ⟨0, 0, 0⟩, ⟨0, 0, 0⟩, rfl, rfl, rfl, rfl, ?_⟩
    rw [if_pos (by decide)]; exact ⟨by decide +kernel, by decide +kernel⟩
  | succ n ih =>
    rw [List.replicate_succ]
    refine ⟨⟨1, 0, 0⟩, ⟨0, 0, 0⟩, ⟨0, 0, 0⟩, rfl, rfl, rfl, rfl, ?_⟩
    rw [if_neg (by simp)]
    exact ⟨by decide +kernel, ih⟩

theorem many_resolves (n : Nat) :
    resolves ⟨1, 4, 8⟩ (List.replicate n (1, 3, 1)) (List.replicate n ⟨1, 1, 3⟩) ⟨1, 4, 8⟩ := by
  induction n with
  | zero => exact ⟨rfl, rfl⟩
  | succ n ih =>
    rw [List.replicate_succ, List.replicate_succ]
    exact ⟨1, ⟨1, 4, 8⟩, List.replicate n ⟨1, 1, 3⟩, by decide +kernel, rfl, ih⟩

theorem witness_SequencesDecode_countForms :
    seqRegion (.seqcnt3b 0 0) manySequences 32512 0x54 4 8 ∧
      seqContent manySequences 0x54 4 8 (one 1) (one 0) (one 0) (List.replicate 32512 (1, 3, 1)) ∧
      resolves manySequences.rep (List.replicate 32512 (1, 3, 1)) (List.replicate 32512 ⟨1, 1, 3⟩) ⟨1, 4, 8⟩ ∧
      seqRegion (.seqcnt2b 0 1) (at0 [0x80, 0x01, 0x54, 0x01, 0x02, 0x00, 0x04]) 1 0x54 3 7 := by
  refine ⟨⟨by decide, by decide, 3, by decide, by decide +kernel, by decide +kernel, rfl, by decide +kernel⟩,
    ⟨by decide, one_ok _ _ (by decide), one_ok _ _ (by decide), one_ok _ _ (by decide), 5, 6, 7, 0, ?_, ?_, ?_,
    by decide, by unfold streamAt; decide +kernel, many_spells _ _ 32511⟩, many_resolves 32512,
    ⟨by decide, by decide, 2, by decide, by decide +kernel, by decide +kernel, rfl, by decide +kernel⟩⟩
  · exact (by decide +kernel : 5 = 4 + 1 ∧ 5 ≤ 8 ∧ (inByte manySequences 4).toNat ≤ maxSym .ll ∧ one 1 = ⟨true, 0, [⟨inByte manySequences 4, 0, 0⟩]⟩)
  · exact (by decide +kernel : 6 = 5 + 1 ∧ 6 ≤ 8 ∧ (inByte manySequences 5).toNat ≤ maxSym .off ∧ one 0 = ⟨true, 0, [⟨inByte manySequences 5, 0, 0⟩]⟩)
  · exact (by decide +kernel : 7 = 6 + 1 ∧ 7 ≤ 8 ∧ (inByte manySequences 6).toNat ≤ maxSym .ml ∧ one 0 = ⟨true, 0, [⟨inByte manySequences 6, 0, 0⟩]⟩)

/-- SQ6 and SQ8 through SEQ_DECODE and a row, a 3-byte count cut short, 80 00 alone, MODES with no byte, and an empty region. -/
theorem witness_SequencesErrorsInOrder :
    seqHeaderCut (.seqDecode 0 1) (at0 [0x80]) ∧ seqHeaderCut (.seqDecode 0 2) (at0 [0x80, 0x01]) ∧
      seqHeaderCut (.seqDecode 0 1) (at0 [0x05]) ∧ seqHeaderCut (.seqDecode 0 2) (at0 [0xFF, 0x00]) ∧
      seqHeaderCut (.seqcnt1b 5) (at0 [0x05]) ∧ seqHeaderCut (.seqcnt2b 0 1) (at0 [0x80]) ∧
      seqHeaderCut (.seqcnt2b 0 0) (at0 [0x80, 0x00]) ∧
      seqHeaderCut (.modes 1 1 1) (at0 [0x05]) ∧ seqHeaderCut .seqcntZero (at0 []) ∧ RangesOk (at0 [0x80]) ∧
      (6 : Word).toNat ≤ sq1.inLen.toNat ∧ ¬((0 : Word).toNat ≤ (7 : Word).toNat ∧ (7 : Word).toNat ≤ sq1.inLen.toNat) := by
  have five : countAt (at0 [0x05]) 0 5 1 :=
    ⟨.seqcnt1b 5, [0x05], by decide, rfl, by decide +kernel, by unfold inBytes; decide +kernel⟩
  exact ⟨⟨by decide, by decide +kernel, .inl (by decide +kernel)⟩,
    ⟨by decide, by decide +kernel, .inr ⟨1, 2, ⟨.seqcnt2b 0 1, [0x80, 0x01], by decide, rfl, by decide +kernel,
      by unfold inBytes; decide +kernel⟩, by decide, by decide⟩⟩,
    ⟨by decide, by decide +kernel, .inr ⟨5, 1, five, by decide, by decide⟩⟩,
    ⟨by decide, by decide +kernel, .inl (by decide +kernel)⟩,
    ⟨by decide, 5, 1, rfl, .inr ⟨by decide, by decide +kernel⟩⟩, ⟨by decide, 1, 2, rfl, .inl (by decide +kernel)⟩,
    ⟨by decide, 0, 2, rfl, .inr ⟨by decide, by decide +kernel⟩⟩,
    show headerCut _ _ _ from .inr ⟨5, 1, five, by decide, by decide +kernel⟩, ⟨by decide, 0, 1, rfl, .inl (by decide +kernel)⟩,
    ranges_at0_of _ (by decide +kernel), by decide +kernel, by decide +kernel⟩

/-- A section of count 1 in all-RLE modes 54, by its bytes after the modes byte. -/
def rleSection (bs : List Byte) : State := at0 ([0x01, 0x54] ++ bs)

theorem rle_region (bs : List Byte) (m : Byte) (n : Nat) (h : inByte (at0 ([0x01, m] ++ bs)) 0 = 0x01 ∧
    inByte (at0 ([0x01, m] ++ bs)) 1 = m ∧ (BitVec.ofNat 32 n).toNat = n ∧ 2 ≤ n ∧
    n ≤ (at0 ([0x01, m] ++ bs)).inLen.toNat) :
    seqRegion (.seqDecode 0 (BitVec.ofNat 32 n)) (at0 ([0x01, m] ++ bs)) 1 m 2 n := by
  obtain ⟨h1, h2, h3, h4, h5⟩ := h
  refine ⟨by decide, h4, 1, ⟨.seqcnt1b 1, [0x01], by decide, rfl, by decide +kernel, ?_⟩, h2.symm, rfl, h3.symm, h5⟩
  intro k hk
  have : k < 1 := hk
  interval_cases k
  exact h1

theorem rle_describes (s : State) (t : TSel) (p lim : Nat) (x : Byte)
    (h : p + 1 ≤ lim ∧ inByte s p = x ∧ x.toNat ≤ maxSym t) : describes s t 1 p lim (one x) (p + 1) :=
  ⟨rfl, h.1, h.2.1 ▸ h.2.2, by rw [h.2.1]; rfl⟩

/-- The stream part of a section in all-RLE modes, its three bytes given. -/
theorem rle_stops {s : State} {lim n : Nat} {x y z : Byte} {c : Cause}
    (h : (5 ≤ lim ∧ inByte s 2 = x ∧ inByte s 3 = y ∧ inByte s 4 = z) ∧ x.toNat ≤ 35 ∧ y.toNat ≤ 31 ∧ z.toNat ≤ 52)
    (k : streamStops s 5 (lim - 5) c ∨ ∃ pos, streamAt s 5 (lim - 5) pos ∧
      sequencesStop s 5 (one x) (one y) (one z) n s.rep (streamBits s 5 pos 0) (streamBits s 5 (pos - 0) 0)
        (streamBits s 5 (pos - 0 - 0) 0) (pos - 0 - 0 - 0) c) :
    seqStops s 0x54 2 lim n c :=
  .inr ⟨one x, 3, rle_describes s .ll 2 lim x ⟨by omega, h.1.2.1, h.2.1⟩, .inr
    ⟨one y, 4, rle_describes s .off 3 lim y ⟨by omega, h.1.2.2.1, h.2.2.1⟩, .inr
      ⟨one z, 5, rle_describes s .ml 4 lim z ⟨h.1.1, h.1.2.2.2, h.2.2.2⟩, one_ok _ _ h.2.1, one_ok _ _ h.2.2.1,
        one_ok _ _ h.2.2.2, k⟩⟩⟩

/-- SQ7's reserved bit; SQ9; a code above MAXSYM; FS9's header in the place of LL's; SQ11; SQ10. -/
theorem witness_Sequences_tableErrors :
    seqRegion (.seqDecode 0 6) (at0 ([0x01, 0x55] ++ [0x01, 0x02, 0x00, 0x04])) 1 0x55 2 6 ∧ modeReserved 0x55 ≠ 0 ∧
      seqRegion (.seqDecode 0 4) (at0 ([0x01, 0x54] ++ [0x01, 0x02])) 1 0x54 2 4 ∧ modeReserved 0x54 = 0 ∧
      seqStops (rleSection [0x01, 0x02]) 0x54 2 4 1 .seqRleByte ∧
      seqStops (rleSection [0x24, 0x02, 0x00, 0x04]) 0x54 2 6 1 .fseRleSymbol ∧
      seqStops (at0 [0x01, 0x90, 0x05, 0x01]) 0x90 2 4 1 .fseAlTooLarge ∧
      seqStops (at0 [0x01, 0xFC, 0x01]) 0xFC 2 3 1 .fseRepeatNoTable ∧
      seqStops (rleSection [0x01, 0x02, 0x00]) 0x54 2 5 1 .brEmpty := by
  refine ⟨rle_region _ _ _ (by decide +kernel), by decide, rle_region _ _ _ (by decide +kernel), by decide,
    .inr ⟨one 1, 3, rle_describes _ .ll 2 4 1 (by decide +kernel), .inr ⟨one 2, 4, rle_describes _ .off 3 4 2 (by decide +kernel),
      .inl ?_⟩⟩, .inl ?_, .inl ?_, .inl ?_, rle_stops (x := 1) (y := 2) (z := 0) (by decide +kernel) (.inl (.inl ⟨rfl, rfl⟩))⟩
  · show if 4 < 4 + 1 then Cause.seqRleByte = .seqRleByte
      else maxSym .ml < (inByte (rleSection [0x01, 0x02]) 4).toNat ∧ Cause.seqRleByte = .fseRleSymbol
    rw [if_pos (by decide)]
  · show if 6 < 2 + 1 then Cause.fseRleSymbol = .seqRleByte
      else maxSym .ll < (inByte (rleSection [0x24, 0x02, 0x00, 0x04]) 2).toNat ∧ Cause.fseRleSymbol = .fseRleSymbol
    rw [if_neg (by decide)]; exact ⟨by decide +kernel, rfl⟩
  · show ncountStops _ 2 4 0 .ll .fseAlTooLarge
    unfold ncountStops; rw [if_neg (by decide), if_pos (by decide +kernel)]
  · exact ⟨by decide +kernel, rfl⟩

/-- SQ1 with a bit of OF's code missing, with a bit left over, and SQ14; one in each of R261's and R262's checks. -/
theorem witness_Sequences_streamErrors :
    seqStops (rleSection [0x01, 0x02, 0x00, 0x02]) 0x54 2 6 1 .seqUnderflow ∧
      seqStops (rleSection [0x01, 0x02, 0x00, 0x08]) 0x54 2 6 1 .seqNotConsumed ∧
      seqStops (rleSection [0x00, 0x01, 0x00, 0x03]) 0x54 2 6 1 .seqRepZero := by
  refine ⟨rle_stops (x := 1) (y := 2) (z := 0) (by decide +kernel) (.inr ⟨1, by unfold streamAt; decide +kernel, ?_⟩),
    rle_stops (x := 1) (y := 2) (z := 0) (by decide +kernel) (.inr ⟨3, by unfold streamAt; decide +kernel, ?_⟩),
    rle_stops (x := 0) (y := 1) (z := 0) (by decide +kernel) (.inr ⟨1, by unfold streamAt; decide +kernel, ?_⟩)⟩
  · refine ⟨⟨1, 0, 0⟩, ⟨2, 0, 0⟩, ⟨0, 0, 0⟩, by decide +kernel, by decide +kernel, by decide +kernel, ?_⟩
    rw [if_pos (by decide +kernel)]
  · refine ⟨⟨1, 0, 0⟩, ⟨2, 0, 0⟩, ⟨0, 0, 0⟩, by decide +kernel, by decide +kernel, by decide +kernel, ?_⟩
    rw [if_neg (by decide +kernel)]
    split
    · exact absurd ‹_› (by decide +kernel)
    · exact ⟨by decide +kernel, rfl⟩
  · refine ⟨⟨0, 0, 0⟩, ⟨1, 0, 0⟩, ⟨0, 0, 0⟩, by decide +kernel, by decide +kernel, by decide +kernel, ?_⟩
    rw [if_neg (by decide +kernel)]
    split
    · rfl
    · rename_i h
      have k := congrArg Option.isSome h
      rw [Option.isSome_some] at k
      exact absurd k (by decide +kernel)

/-- 80 00 alone, and with bytes after it. -/
theorem witness_LongZeroCountNeverCompletes :
    noError (at0 [0x80, 0x00]) = true ∧ RangesOk (at0 [0x80, 0x00]) ∧ countAt (at0 [0x80, 0x00]) 0 0 2 ∧
      (2 : Word).toNat ≤ (at0 [0x80, 0x00]).inLen.toNat ∧ 0 + 2 ≤ (at0 [0x80, 0x00]).inLen.toNat ∧
      countAt (at0 [0x80, 0x00, 0x54]) 0 0 2 ∧ RangesOk (at0 [0x80, 0x00, 0x54]) := by
  refine ⟨by decide +kernel, ranges_at0_of _ (by decide +kernel), ?_, by decide +kernel, by decide +kernel, ?_,
    ranges_at0_of _ (by decide +kernel)⟩ <;>
    exact ⟨.seqcnt2b 0 0, [0x80, 0x00], by decide, rfl, by decide +kernel, by unfold inBytes; decide +kernel⟩

/-- SR3 with REP[0] = 8, SR8 with REP[0] = 1, and each A0 of a case. -/
theorem witness_SeqResolveSubstitutesRepeatOffsets :
    (8 : Word) ≠ 0 ∧ (8 : Word) ≠ 1 ∧ (1 : Word) ≠ 0 ∧ 3 < (4 : Word).toNat ∧ 3 < (0xFFFFFFFF : Word).toNat ∧
      State.reset.rep = ⟨1, 4, 8⟩ := by decide +kernel

/-! ### Blocks -/

/-- E5: a Raw literal, then one sequence. -/
def e5 : State := at0 [0x08, 0x61, 0x01, 0x54, 0x01, 0x00, 0x07, 0x01]

theorem witness_BlockEqualsItsSections :
    (∃ s1, exec (.setInlen 8) State.reset = .next s1 ∧ noError s1 = true) ∧
      (∃ t1, exec (.litDecode 0 8) e5 = .next t1 ∧ (t1.res == 2 && noError t1) = true) ∧
      (∃ t2, exec (.seqDecode 2 8) e5 = .next t2 ∧ noError t2 = true) ∧
      (8 : Word).toNat ≤ e5.blockMax.toNat ∧ (131072 : Word).toNat ≤ 131072 ∧ 131072 < (131073 : Word).toNat :=
  ⟨next_of_ends (by decide +kernel), next_of_ends (by decide +kernel), next_of_ends (by decide +kernel), by decide +kernel,
    by decide +kernel, by decide +kernel⟩
/-- CT12: a body longer than BLOCK_MAX. -/
theorem witness_Block_tooLarge : ({ State.reset with blockMax := 4 } : State).blockMax.toNat < (7 : Word).toNat := by
  decide +kernel

theorem witness_BlockDecodesBothSections :
    noError e5 = true ∧ RangesOk e5 ∧ 1 ≤ (8 : Word).toNat ∧ (8 : Word).toNat ≤ e5.blockMax.toNat ∧
      headerAt e5 0 ⟨.raw, 1, 1, 1, 0⟩ ∧
      litError ⟨.raw, 1, 1, 1, 0⟩ 0 (8 : Word).toNat e5.blockMax.toNat e5.ht.valid = none ∧
      litContent e5 ⟨.raw, 1, 1, 1, 0⟩ 0 [0x61] e5.ht ∧
      (∃ size tl tf tm, countAt e5 (litSize ⟨.raw, 1, 1, 1, 0⟩) 1 size ∧
        litSize ⟨.raw, 1, 1, 1, 0⟩ + size + 1 ≤ (8 : Word).toNat ∧
        seqContent e5 (inByte e5 (litSize ⟨.raw, 1, 1, 1, 0⟩ + size)) (litSize ⟨.raw, 1, 1, 1, 0⟩ + size + 1)
          (8 : Word).toNat tl tf tm [(1, 10, 1)]) ∧
      resolves e5.rep [(1, 10, 1)] [⟨1, 1, 10⟩] ⟨1, 4, 8⟩ := by
  refine ⟨by decide +kernel, ranges_at0_of _ (by decide +kernel), by decide +kernel, by decide +kernel,
    ⟨.lithdrRaw1b 1, [0x08], rfl, by decide +kernel, by unfold inBytes; decide +kernel⟩, by decide +kernel,
    ⟨rfl, by unfold inBytes; decide +kernel⟩,
    ⟨1, one 1, one 0, one 7, ⟨.seqcnt1b 1, [0x01], by decide, rfl, by decide +kernel, by unfold inBytes; decide +kernel⟩,
      by decide +kernel, ?_⟩, 1, ⟨1, 4, 8⟩, [], by decide +kernel, by decide +kernel, rfl, rfl⟩
  rw [show inByte e5 (litSize ⟨.raw, 1, 1, 1, 0⟩ + 1) = 0x54 by decide +kernel]
  refine ⟨by decide, one_ok _ _ (by decide), one_ok _ _ (by decide), one_ok _ _ (by decide), 5, 6, 7, 0, ?_, ?_, ?_,
    by decide +kernel, by unfold streamAt; decide +kernel, ?_⟩
  · exact (by decide +kernel : 5 = 4 + 1 ∧ 5 ≤ 8 ∧ (inByte e5 4).toNat ≤ maxSym .ll ∧ one 1 = ⟨true, 0, [⟨inByte e5 4, 0, 0⟩]⟩)
  · exact (by decide +kernel : 6 = 5 + 1 ∧ 6 ≤ 8 ∧ (inByte e5 5).toNat ≤ maxSym .off ∧ one 0 = ⟨true, 0, [⟨inByte e5 5, 0, 0⟩]⟩)
  · exact (by decide +kernel : 7 = 6 + 1 ∧ 7 ≤ 8 ∧ (inByte e5 6).toNat ≤ maxSym .ml ∧ one 7 = ⟨true, 0, [⟨inByte e5 6, 0, 0⟩]⟩)
  · refine ⟨⟨1, 0, 0⟩, ⟨0, 0, 0⟩, ⟨7, 0, 0⟩, by decide +kernel, by decide +kernel, by decide +kernel, by decide +kernel, ?_⟩
    rw [if_pos (by decide)]; decide +kernel

/-- CT9's body: no sequences. -/
theorem witness_Block_noSequences :
    let s := at0 [0x28, 0x68, 0x65, 0x6C, 0x6C, 0x6F, 0x00]
    headerAt s 0 ⟨.raw, 1, 1, 5, 0⟩ ∧ litContent s ⟨.raw, 1, 1, 5, 0⟩ 0 [0x68, 0x65, 0x6C, 0x6C, 0x6F] s.ht ∧
      inByte s (litSize ⟨.raw, 1, 1, 5, 0⟩) = 0 ∧ (7 : Word).toNat = litSize ⟨.raw, 1, 1, 5, 0⟩ + 1 := by
  refine ⟨⟨.lithdrRaw1b 5, [0x28], rfl, by decide +kernel, by unfold inBytes; decide +kernel⟩,
    ⟨rfl, by unfold inBytes; decide +kernel⟩, by decide +kernel, by decide +kernel⟩

theorem witness_ElementRowsRunTheirParser :
    encode (.lithdrRaw1b 5) = .element .lithdr [0x28] ∧ inByte li1 0 = 0x28 ∧
      encode (.hufhdrRaw 4) = .element .hufhdr [0x84] ∧ inByte (at0 hu1Bytes) 0 = 0x84 ∧
      encode (.seqcnt1b 1) = .element .seqcnt [0x01] ∧ inByte sq1 0 = 0x01 ∧
      encode (.modes 1 1 1) = .element .modes [0x54] ∧ inByte sq1 1 = 0x54 ∧ sq1.inLen.toNat ≤ 131072 := by decide +kernel

/-! ### Invariants -/

/-- A state with every reader, table and register of the invariants in use. -/
def busy : State :=
  withTwo (withHu1 { withR0 forward 0 2 10 with dist := ⟨true, .ll, 5, 2, [16, 16]⟩, seq := [⟨1, 2, 4⟩], nbSeq := 1 })

theorem busy_ranges : RangesOk busy := ranges_at0_of _ (by decide +kernel)
theorem busy_readers : ReadersOk busy := by
  refine ⟨busy_ranges, fun _ => by unfold frOk; decide +kernel, fun _ r => ?_⟩
  cases r <;> (unfold rrOk; decide +kernel)
theorem busy_tables : TablesOk busy := by
  refine ⟨fun _ _ => by unfold distOk; decide +kernel, fun _ t => ?_⟩
  cases t <;> (unfold tableOkFor; decide +kernel)
theorem busy_huffman : HuffOk busy := fun _ => by unfold huffOk; decide +kernel
theorem busy_offsets : OffsetsOk busy := ⟨by decide +kernel, by decide +kernel⟩

theorem witness_StepKeepsReadersAndNeverStops : ReadersOk busy ∧ noError busy = true := ⟨busy_readers, by decide +kernel⟩
theorem witness_StepKeepsTables : TablesOk busy ∧ (busy.dist.valid && busy.ft.off.valid) = true ∧ ∃ t, step busy = .next t :=
  ⟨busy_tables, by decide +kernel, _, rfl⟩
theorem witness_StepKeepsTheHuffmanCode : HuffOk busy ∧ busy.ht.valid = true ∧ ∃ t, step busy = .next t :=
  ⟨busy_huffman, by decide +kernel, _, rfl⟩
theorem witness_StepKeepsOffsetsAndStatus :
    TablesOk busy ∧ OffsetsOk busy ∧ busy.seq ≠ [] ∧ statusOk { busy with status := packStatus .badOp 4 } :=
  ⟨busy_tables, busy_offsets, by decide +kernel, .inr ⟨.badOp, 4, rfl⟩⟩

/-- E5's two sections, from a state that meets the invariants. -/
theorem witness_SectionsMayRunInEitherOrder :
    noError e5 = true ∧ ReadersOk e5 ∧ TablesOk e5 ∧ HuffOk e5 ∧
      ∃ l1, exec (.litDecode 0 8) e5 = .next l1 ∧
        ends (exec (.seqDecode 2 8) l1) noError = true := by
  refine ⟨by decide +kernel, ⟨ranges_at0_of _ (by decide +kernel), fun _ => by unfold frOk; decide +kernel, fun _ r => ?_⟩,
    ⟨fun _ h => absurd h (by decide +kernel), fun _ t => ?_⟩, fun _ => by unfold huffOk; decide +kernel, ?_⟩
  · cases r <;> (unfold rrOk; decide +kernel)
  · cases t <;> (unfold tableOkFor; decide +kernel)
  · exact next_of_ends (p := fun l1 => ends (exec (.seqDecode 2 8) l1) noError) (by decide +kernel)

end Tests
end

section
/-! SUPPORT. What the core can do, said once: the single changes an operation is made of, and what each of them keeps. -/

namespace Sys2Proof.Machine

/-! ## Invariants of a state in which no error is recorded -/

/-- The readers and the ranges of R24 to R27, R33, R34, R43. -/
structure Sound (s : State) : Prop where
  ranges : RangesOk s
  fr : frOk s
  rr : ∀ r, rrOk s r

/-- The staged distribution and the FSE tables of R28, R29, R43. -/
structure TablesSound (s : State) : Prop where
  dist : s.dist.valid = true → distOk s.dist
  ft : ∀ t, (s.ft.get t).valid = true → tableOkFor t (s.ft.get t)

/-- No offset of 0 in REP or SEQ (R262), over well formed tables. -/
structure OffsetsSound (s : State) : Prop where
  tables : TablesSound s
  rep : s.rep.rep0 ≠ 0 ∧ s.rep.rep1 ≠ 0 ∧ s.rep.rep2 ≠ 0
  seq : ∀ e ∈ s.seq, e.off ≠ 0

/-- Every VALID bit that is 1 in `s` is 1 in `t`. -/
structure KeepsValid (s t : State) : Prop where
  fr : s.fr.valid = true → t.fr.valid = true
  dist : s.dist.valid = true → t.dist.valid = true
  ht : s.ht.valid = true → t.ht.valid = true
  rr : ∀ r, (s.rr.get r).valid = true → (t.rr.get r).valid = true
  ft : ∀ x, (s.ft.get x).valid = true → (t.ft.get x).valid = true

theorem KeepsValid.refl (s : State) : KeepsValid s s := ⟨id, id, id, fun _ => id, fun _ => id⟩

theorem KeepsValid.trans {s t u : State} (h : KeepsValid s t) (k : KeepsValid t u) : KeepsValid s u :=
  ⟨k.fr ∘ h.fr, k.dist ∘ h.dist, k.ht ∘ h.ht, fun r => k.rr r ∘ h.rr r, fun x => k.ft x ∘ h.ft x⟩

/-! ## Changes -/

/-- A register holds a number that fits it. -/
theorem toNat_ofNat_of_lt {w n : Nat} (h : n < 2 ^ w) : (BitVec.ofNat w n).toNat = n := by
  rw [BitVec.toNat_ofNat, Nat.mod_eq_of_lt h]

/-- FR.POS is inside its region (R26). -/
def FrPosOk (fr : FwdReader) : Prop := fr.pos.toNat ≤ 8 * (fr.lim.toNat - fr.base.toNat)

/-- One change an operation of the core makes, with what its rule makes sure of. Every command but FRAME_RESET is made of
these, and of the setting of IN_LEN. -/
inductive Change : State → State → Prop
  | draws (s : State) (d : Nat) : Change s { s with draws := d }
  | res (s : State) (v : Word) : Change s { s with res := v }
  | frPos (s : State) (p : BitVec 21) (h : FrPosOk s.fr → FrPosOk { s.fr with pos := p }) :
    Change s { s with fr := { s.fr with pos := p } }
  | frInit (s : State) (base lim : BitVec 18) (hbase : base.toNat ≤ lim.toNat) (hlim : lim.toNat ≤ s.inLen.toNat) :
    Change s { s with fr := ⟨true, base, lim, 0⟩, frStale := false }
  | rrPos (s : State) (r : RSel) (p : BitVec 32) (h : p.toInt ≤ (s.rr.get r).pos.toInt) :
    Change s { s with rr := s.rr.set r { s.rr.get r with pos := p } }
  | rrInit (s : State) (r : RSel) (rd : RevReader) (hvalid : rd.valid = true) (hlen : 1 ≤ rd.len.toNat)
    (hpos : rd.pos.toInt < 8 * rd.len.toNat) (hlim : rd.base.toNat + rd.len.toNat ≤ s.inLen.toNat) :
    Change s { s with rr := s.rr.set r rd, rrStale := s.rrStale.clear r }
  | dist (s : State) (d : Dist) (hvalid : d.valid = true) (hd : distOk d) : Change s { s with dist := d }
  | table (s : State) (t : TSel) (f : FseTable) (hvalid : f.valid = true)
    (hf : (s.dist.valid = true → distOk s.dist) → tableOkFor t f) : Change s { s with ft := s.ft.set t f }
  | st (s : State) (x : SSel) (v : BitVec 9) : Change s { s with st := s.st.set x v }
  | code (s : State) (w : List Byte) (nw : BitVec 9) (ht : HufTable) (hvalid : ht.valid = true)
    (hcode : huffOk { s with w := w, nw := nw, ht := ht }) : Change s { s with w := w, nw := nw, ht := ht }
  | lit (s : State) (a : Nat) (b : Byte) (ha : a < Config.litCap) : Change s { s with lit := s.lit.set a b }
  | litLen (s : State) (n : BitVec 18) (hn : n.toNat ≤ s.blockMax.toNat) : Change s { s with litLen := n }
  | seqStart (s : State) : Change s { s with seq := [], nbSeq := 0 }
  | append (s : State) (ll ml : Word) (hn : s.nbSeq.toNat < Config.seqCap) :
    Change s { s with seq := s.seq ++ [⟨ll, s.rep.rep0, ml⟩], nbSeq := BitVec.ofNat 17 (s.nbSeq.toNat + 1) }
  | resolve (s : State) (ofv ll : Nat) (out : Nat × RepCache) (h : resolveRep s.rep ofv ll = some out)
    (hofv : TablesSound s → ofv < 2 ^ 32) : Change s { s with rep := out.2 }

/-- Any number of changes. -/
abbrev Changes : State → State → Prop := Relation.ReflTransGen Change

/-- What every change keeps, any number of them keep. -/
theorem Changes.keeps {p : State → Prop} (step : ∀ s t, Change s t → p s → p t) {s t : State} (h : Changes s t) (hs : p s) :
    p t := by
  induction h with
  | refl => exact hs
  | tail _ hc ih => exact step _ _ hc ih

theorem Change.frame {s t : State} (h : Change s t) :
    t.port = s.port ∧ t.status = s.status ∧ t.inLen = s.inLen ∧ t.blockMax = s.blockMax := by
  cases h <;> exact ⟨rfl, rfl, rfl, rfl⟩

/-- The interface, STATUS, IN_LEN and BLOCK_MAX stay. -/
theorem Changes.frame {s t : State} (h : Changes s t) :
    t.port = s.port ∧ t.status = s.status ∧ t.inLen = s.inLen ∧ t.blockMax = s.blockMax :=
  h.keeps (p := fun t => t.port = s.port ∧ t.status = s.status ∧ t.inLen = s.inLen ∧ t.blockMax = s.blockMax)
    (fun _ _ hc ⟨hp, hs, hi, hb⟩ =>
      let ⟨kp, ks, ki, kb⟩ := hc.frame
      ⟨kp.trans hp, ks.trans hs, ki.trans hi, kb.trans hb⟩)
    ⟨rfl, rfl, rfl, rfl⟩

theorem Changes.inLen {s t : State} (h : Changes s t) : t.inLen = s.inLen := h.frame.2.2.1
theorem Changes.blockMax {s t : State} (h : Changes s t) : t.blockMax = s.blockMax := h.frame.2.2.2
theorem Changes.noError {s t : State} (h : Changes s t) : noError t = noError s := by
  unfold Machine.noError; rw [h.frame.2.1]

/-! ## What each change keeps -/

theorem Change.keepsValid {s t : State} (h : Change s t) : KeepsValid s t := by
  cases h with
  | frInit => exact { KeepsValid.refl s with fr := fun _ => rfl }
  | rrPos r p h =>
    refine { KeepsValid.refl s with rr := fun q hq => ?_ }
    by_cases e : q = r
    · subst e; simpa using hq
    · simpa [RevBank.get_set_ne e] using hq
  | rrInit r rd hvalid =>
    refine { KeepsValid.refl s with rr := fun q hq => ?_ }
    by_cases e : q = r
    · subst e; simpa using hvalid
    · simpa [RevBank.get_set_ne e] using hq
  | dist d hvalid => exact { KeepsValid.refl s with dist := fun _ => hvalid }
  | table x f hvalid =>
    refine { KeepsValid.refl s with ft := fun y hy => ?_ }
    by_cases e : y = x
    · subst e; simpa using hvalid
    · simpa [FseBank.get_set_ne e] using hy
  | code w nw ht hvalid => exact { KeepsValid.refl s with ht := fun _ => hvalid }
  | draws | res | frPos | st | lit | litLen | seqStart | append | resolve =>
    exact ⟨id, id, id, fun _ => id, fun _ => id⟩

theorem Changes.keepsValid {s t : State} (h : Changes s t) : KeepsValid s t :=
  h.keeps (p := KeepsValid s) (fun _ _ hc hs => hs.trans hc.keepsValid) (.refl s)

theorem rrOk_of_get {s t : State} {r : RSel} (hr : t.rr.get r = s.rr.get r) (hm : t.rrStale.get r = s.rrStale.get r)
    (hi : t.inLen = s.inLen) (h : rrOk s r) : rrOk t r := by
  unfold rrOk at h ⊢
  rwa [hr, hm, hi]

theorem Change.sound {s t : State} (h : Change s t) (hs : Sound s) : Sound t := by
  obtain ⟨⟨inLen, blockMax, litLen, nbSeq, inMem, lit⟩, fr, rr⟩ := hs
  cases h with
  | frPos p h =>
    refine ⟨⟨inLen, blockMax, litLen, nbSeq, inMem, lit⟩, fun hv => ?_, rr⟩
    obtain ⟨hbase, hcap, hpos, hlim⟩ := fr hv
    exact ⟨hbase, hcap, h hpos, hlim⟩
  | frInit base lim hbase hlim =>
    exact ⟨⟨inLen, blockMax, litLen, nbSeq, inMem, lit⟩,
      fun _ => ⟨hbase, hlim.trans inLen, Nat.zero_le _, fun _ => hlim⟩, rr⟩
  | rrPos r p h =>
    refine ⟨⟨inLen, blockMax, litLen, nbSeq, inMem, lit⟩, fr, fun q => ?_⟩
    by_cases e : q = r
    · subst e
      intro hv
      simp only [RevBank.get_set_same] at hv ⊢
      obtain ⟨hlen, hrange, hend⟩ := rr q hv
      simp only [readerInRange, Bool.and_eq_true, decide_eq_true_eq] at hrange
      exact ⟨hlen, by simp only [readerInRange, Bool.and_eq_true, decide_eq_true_eq]; omega, hend⟩
    · exact rrOk_of_get (RevBank.get_set_ne e) rfl rfl (rr q)
  | rrInit r rd hvalid hlen hpos hlim =>
    refine ⟨⟨inLen, blockMax, litLen, nbSeq, inMem, lit⟩, fr, fun q => ?_⟩
    by_cases e : q = r
    · subst e
      intro _
      simp only [RevBank.get_set_same]
      refine ⟨hlen, ?_, fun _ => hlim⟩
      simp only [readerInRange, Bool.and_eq_true, decide_eq_true_eq]
      exact ⟨hlim.trans inLen, hpos⟩
    · exact rrOk_of_get (RevBank.get_set_ne e) (RevMarks.get_clear_ne e) rfl (rr q)
  | lit a b ha => exact ⟨⟨inLen, blockMax, litLen, nbSeq, inMem, Memory.wf_set lit ha⟩, fr, rr⟩
  | litLen n hn => exact ⟨⟨inLen, blockMax, hn.trans blockMax.2, nbSeq, inMem, lit⟩, fr, rr⟩
  | seqStart => exact ⟨⟨inLen, blockMax, litLen, Nat.zero_le _, inMem, lit⟩, fr, rr⟩
  | append ll ml hn =>
    refine ⟨⟨inLen, blockMax, litLen, ?_, inMem, lit⟩, fr, rr⟩
    simp only [BitVec.toNat_ofNat]
    omega
  | draws | res | dist | table | st | code | resolve => exact ⟨⟨inLen, blockMax, litLen, nbSeq, inMem, lit⟩, fr, rr⟩

theorem Changes.sound {s t : State} (h : Changes s t) (hs : Sound s) : Sound t := h.keeps (fun _ _ => Change.sound) hs

theorem Change.tablesSound {s t : State} (h : Change s t) (hs : TablesSound s) : TablesSound t := by
  cases h with
  | dist d hvalid hd => exact ⟨fun _ => hd, hs.ft⟩
  | table x f hvalid hf =>
    refine ⟨hs.dist, fun y hy => ?_⟩
    by_cases e : y = x
    · subst e; simpa using hf hs.dist
    · simp only [FseBank.get_set_ne e] at hy ⊢
      exact hs.ft y hy
  | draws | res | frPos | frInit | rrPos | rrInit | st | code | lit | litLen | seqStart | append | resolve =>
    exact ⟨hs.dist, hs.ft⟩

theorem Changes.tablesSound {s t : State} (h : Changes s t) (hs : TablesSound s) : TablesSound t :=
  h.keeps (fun _ _ => Change.tablesSound) hs

theorem Change.huffOk {s t : State} (h : Change s t) (hs : huffOk s) : huffOk t := by
  cases h with
  | code w nw ht hvalid hcode => exact hcode
  | draws | res | frPos | frInit | rrPos | rrInit | dist | table | st | lit | litLen | seqStart | append | resolve =>
    exact hs

/-- A word from a number that is not 0 and fits in it is not 0. -/
theorem ofNat32_ne_zero {n : Nat} (h0 : n ≠ 0) (h : n < 2 ^ 32) : BitVec.ofNat 32 n ≠ 0 := by
  intro e
  have := congrArg BitVec.toNat e
  rw [toNat_ofNat_of_lt h] at this
  exact h0 this

/-- All that ResolveOffset can answer (R262): a new offset, one of the cache moved to the front, or REP[0] - 1. -/
theorem resolveRep_cases {rep : RepCache} {ofv ll : Nat} {out : Nat × RepCache} (h : resolveRep rep ofv ll = some out) :
    (3 < ofv ∧ out = (ofv - 3, ⟨BitVec.ofNat 32 (ofv - 3), rep.rep0, rep.rep1⟩)) ∨
      out = (rep.rep0.toNat, rep) ∨ out = (rep.rep1.toNat, ⟨rep.rep1, rep.rep0, rep.rep2⟩) ∨
      out = (rep.rep2.toNat, ⟨rep.rep2, rep.rep0, rep.rep1⟩) ∨
      (rep.rep0.toNat - 1 ≠ 0 ∧
        out = (rep.rep0.toNat - 1, ⟨BitVec.ofNat 32 (rep.rep0.toNat - 1), rep.rep0, rep.rep1⟩)) := by
  unfold resolveRep at h
  by_cases hnew : 3 < ofv
  · rw [if_pos hnew] at h
    cases h
    exact .inl ⟨hnew, rfl⟩
  · rw [if_neg hnew] at h
    generalize (if ll = 0 then ofv else ofv - 1) = k at h
    split at h
    · cases h; exact .inr (.inl rfl)
    · cases h; exact .inr (.inr (.inl rfl))
    · cases h; exact .inr (.inr (.inr (.inl rfl)))
    · by_cases hlast : rep.rep0.toNat - 1 = 0
      · rw [if_pos hlast] at h; cases h
      · rw [if_neg hlast] at h
        cases h
        exact .inr (.inr (.inr (.inr ⟨hlast, rfl⟩)))

/-- ResolveOffset leaves no offset of 0 in the cache (R262). -/
theorem resolveRep_ne_zero {rep : RepCache} {ofv ll : Nat} {out : Nat × RepCache} (h : resolveRep rep ofv ll = some out)
    (hofv : ofv < 2 ^ 32) (hrep : rep.rep0 ≠ 0 ∧ rep.rep1 ≠ 0 ∧ rep.rep2 ≠ 0) :
    out.2.rep0 ≠ 0 ∧ out.2.rep1 ≠ 0 ∧ out.2.rep2 ≠ 0 := by
  obtain ⟨h0, h1, h2⟩ := hrep
  have lt0 := rep.rep0.isLt
  rcases resolveRep_cases h with ⟨hnew, rfl⟩ | rfl | rfl | rfl | ⟨hlast, rfl⟩
  · exact ⟨ofNat32_ne_zero (by omega) (by omega), h0, h1⟩
  · exact ⟨h0, h1, h2⟩
  · exact ⟨h1, h0, h2⟩
  · exact ⟨h2, h0, h1⟩
  · exact ⟨ofNat32_ne_zero hlast (by omega), h0, h1⟩

/-- The offset ResolveOffset returns is the most recent one of the cache it leaves (R262). -/
theorem resolveRep_fst {rep : RepCache} {ofv ll : Nat} {out : Nat × RepCache} (h : resolveRep rep ofv ll = some out) :
    BitVec.ofNat 32 out.1 = out.2.rep0 := by
  rcases resolveRep_cases h with ⟨-, rfl⟩ | rfl | rfl | rfl | ⟨-, rfl⟩ <;> simp

theorem Change.offsetsSound {s t : State} (h : Change s t) (hs : OffsetsSound s) : OffsetsSound t := by
  have tables := h.tablesSound hs.tables
  cases h with
  | seqStart => exact ⟨tables, hs.rep, fun e he => by simp at he⟩
  | append ll ml hn =>
    refine ⟨tables, hs.rep, fun e he => ?_⟩
    rcases List.mem_append.mp he with he | he
    · exact hs.seq e he
    · rw [List.mem_singleton.mp he]; exact hs.rep.1
  | resolve ofv ll out h hofv => exact ⟨tables, resolveRep_ne_zero h (hofv hs.tables) hs.rep, hs.seq⟩
  | draws | res | frPos | frInit | rrPos | rrInit | dist | table | st | code | lit | litLen =>
    exact ⟨tables, hs.rep, hs.seq⟩

end Sys2Proof.Machine
end

section
/-! SUPPORT. How an operation can end: by changes, with a value; by changes, in an error; or in a fault, which no sound
state leads to. One rule for each way to build an operation, and one lemma for each operation of the bit readers. -/

namespace Sys2Proof.Machine

variable {α β : Type}

/-- From `s`, `x` ends by changes alone: with a value and a state that meet `Q`, or in an error. It ends in a fault only
where `s` is not sound (log 12). -/
def Ends (x : Op α) (s : State) (Q : α → State → Prop) : Prop :=
  match x s with
  | .ok a t => Changes s t ∧ Q a t
  | .error (.raise _) t => Changes s t
  | .error (.fault _) _ => ¬Sound s

variable {s : State} {Q : α → State → Prop} {R : β → State → Prop}

theorem Ends.of_ok {x : Op α} {a : α} {t : State} (e : x s = .ok a t) (h : Changes s t) (hq : Q a t) : Ends x s Q := by
  unfold Ends; rw [e]; exact ⟨h, hq⟩

theorem Ends.of_raise {x : Op α} {c : Cause} (e : x s = .error (.raise c) s) : Ends x s Q := by
  unfold Ends; rw [e]

theorem Ends.of_fault {x : Op α} {f : Fault} {t : State} (e : x s = .error (.fault f) t) (h : ¬Sound s) : Ends x s Q := by
  unfold Ends; rw [e]; exact h

theorem Ends.ok {x : Op α} (h : Ends x s Q) {a : α} {t : State} (e : x s = .ok a t) : Changes s t ∧ Q a t := by
  unfold Ends at h; rwa [e] at h

theorem Ends.error {x : Op α} (h : Ends x s Q) {c : Cause} {t : State} (e : x s = .error (.raise c) t) : Changes s t := by
  unfold Ends at h; rwa [e] at h

theorem Ends.fault {x : Op α} (h : Ends x s Q) {f : Fault} {t : State} (e : x s = .error (.fault f) t) : ¬Sound s := by
  unfold Ends at h; rwa [e] at h

/-- One operation after another; the second may rest on how the first ended. -/
theorem Ends.bind {x : Op α} {f : α → Op β} (hx : Ends x s Q)
    (hf : ∀ a t, x s = .ok a t → Changes s t → Q a t → Ends (f a) t R) : Ends (x >>= f) s R := by
  cases e : x s with
  | ok a t =>
    obtain ⟨hc, hq⟩ := hx.ok e
    have hfa := hf a t e hc hq
    cases k : f a t with
    | ok b u =>
      obtain ⟨hd, hr⟩ := hfa.ok k
      exact .of_ok (by rw [bind_of_ok e, k]) (hc.trans hd) hr
    | error stop u =>
      cases stop with
      | raise c => unfold Ends; rw [bind_of_ok e, k]; exact hc.trans (hfa.error k)
      | fault g => exact .of_fault (by rw [bind_of_ok e, k]) fun hs => hfa.fault k (hc.sound hs)
  | error stop t =>
    cases stop with
    | raise c => unfold Ends; rw [bind_of_error e]; exact hx.error e
    | fault g => exact .of_fault (bind_of_error e) (hx.fault e)

theorem Ends.mono {Q' : α → State → Prop} {x : Op α} (hx : Ends x s Q) (h : ∀ a t, x s = .ok a t → Changes s t → Q a t → Q' a t) :
    Ends x s Q' := by
  cases e : x s with
  | ok a t => exact .of_ok e (hx.ok e).1 (h a t e (hx.ok e).1 (hx.ok e).2)
  | error stop t =>
    cases stop with
    | raise c => unfold Ends; rw [e]; exact hx.error e
    | fault g => exact .of_fault e (hx.fault e)

theorem Ends.pure {a : α} (h : Q a s) : Ends (pure a) s Q := .of_ok rfl .refl h
theorem Ends.raise {c : Cause} : Ends (raise c : Op α) s Q := .of_raise rfl
theorem Ends.stop {f : Fault} (h : ¬Sound s) : Ends (stop f : Op α) s Q := .of_fault rfl h
theorem Ends.look {f : State → α} (h : Q (f s) s) : Ends (look f) s Q := .of_ok rfl .refl h
theorem Ends.change {f : State → State} {Q : Unit → State → Prop} (h : Change s (f s)) (hq : Q () (f s)) :
    Ends (change f) s Q := .of_ok rfl (.single h) hq
theorem Ends.ite {c : Prop} [Decidable c] {x y : Op α} (hx : c → Ends x s Q) (hy : ¬c → Ends y s Q) :
    Ends (if c then x else y) s Q := by
  split_ifs with h
  · exact hx h
  · exact hy h
theorem Ends.ensure {p : Prop} [Decidable p] {c : Cause} {Q : Unit → State → Prop} (h : p → Q () s) :
    Ends (ensure p c) s Q := by
  by_cases hp : p
  · exact .of_ok (ensure_of hp) .refl (h hp)
  · exact .of_raise (ensure_of_not hp)

/-! ### Checks and reads that leave the state alone, and what follows them -/

theorem Ends.look_bind {f : State → α} {g : α → Op β} (h : Ends (g (f s)) s R) : Ends (Machine.look f >>= g) s R :=
  Ends.bind (Q := fun a t => a = f s ∧ t = s) (.look ⟨rfl, rfl⟩) fun _ _ _ _ ⟨ha, ht⟩ => by subst ha ht; exact h

theorem Ends.ensure_bind {p : Prop} [Decidable p] {c : Cause} {g : Unit → Op β} (h : p → Ends (g ()) s R) :
    Ends (Machine.ensure p c >>= g) s R :=
  Ends.bind (Q := fun _ t => p ∧ t = s) (.ensure fun hp => ⟨hp, rfl⟩) fun _ _ _ _ ⟨hp, ht⟩ => by subst ht; exact h hp

theorem Ends.select_bind {v : Option α} {g : α → Op β} (h : ∀ a, v = some a → Ends (g a) s R) :
    Ends (select v >>= g) s R := by
  cases v with
  | none => exact Ends.bind (Q := fun _ _ => False) .raise fun _ _ _ _ hq => hq.elim
  | some a => exact h a rfl

theorem Ends.checkRegion_bind {a lim : Nat} {g : Unit → Op β} (h : a ≤ lim ∧ lim ≤ s.inLen.toNat → Ends (g ()) s R) :
    Ends (checkRegion a lim >>= g) s R :=
  Ends.bind (Q := fun _ t => (a ≤ lim ∧ lim ≤ s.inLen.toNat) ∧ t = s) (.look_bind (.ensure fun hp => ⟨hp, rfl⟩))
    fun _ _ _ _ ⟨hp, ht⟩ => by subst ht; exact h hp

theorem Ends.needForward_bind {g : Unit → Op β} (h : s.fr.valid = true → Ends (g ()) s R) :
    Ends (needForward >>= g) s R :=
  Ends.bind (Q := fun _ t => s.fr.valid = true ∧ t = s) (.look_bind (.ensure fun hp => ⟨hp, rfl⟩))
    fun _ _ _ _ ⟨hp, ht⟩ => by subst ht; exact h hp

theorem Ends.needReader_bind {r : RSel} {g : Unit → Op β} (h : (s.rr.get r).valid = true → Ends (g ()) s R) :
    Ends (needReader r >>= g) s R :=
  Ends.bind (Q := fun _ t => (s.rr.get r).valid = true ∧ t = s) (.look_bind (.ensure fun hp => ⟨hp, rfl⟩))
    fun _ _ _ _ ⟨hp, ht⟩ => by subst ht; exact h hp

theorem Ends.needTable_bind {x : SSel} {g : Unit → Op β} (h : Ends (g ()) s R) : Ends (needTable x >>= g) s R :=
  Ends.bind (Q := fun _ t => t = s) (.look_bind (.ensure fun _ => rfl)) fun _ _ _ _ ht => by subst ht; exact h

theorem Ends.needInTable_bind {x : SSel} {g : Unit → Op β} (h : Ends (g ()) s R) : Ends (needInTable x >>= g) s R :=
  Ends.bind (Q := fun _ t => t = s) (.look_bind (.ensure fun _ => rfl)) fun _ _ _ _ ht => by subst ht; exact h

theorem Ends.needHuffman_bind {g : Unit → Op β} (h : Ends (g ()) s R) : Ends (needHuffman >>= g) s R :=
  Ends.bind (Q := fun _ t => t = s) (.look_bind (.ensure fun _ => rfl)) fun _ _ _ _ ht => by subst ht; exact h

/-- A byte below IN_LEN is a byte of IN. -/
theorem Sound.lt_inCap (h : Sound s) {a : Nat} (ha : a < s.inLen.toNat) : a < Config.inCap := ha.trans_le h.ranges.inLen

theorem Ends.readIn_bind {a : Nat} {g : Byte → Op β} (ha : a < s.inLen.toNat) (h : Ends (g (inByte s a)) s R) :
    Ends (readIn a >>= g) s R := by
  refine Ends.bind (Q := fun b t => b = inByte s a ∧ t = s) ?_ fun _ _ _ _ ⟨hb, ht⟩ => by subst hb ht; exact h
  by_cases hcap : a < Config.inCap
  · exact .of_ok (readIn_of_lt hcap) .refl ⟨rfl, rfl⟩
  · exact .of_fault (f := .inAddress) (t := s) (by simp [readIn, hcap]) fun hs => hcap (hs.lt_inCap ha)

theorem ends_readBytes : ∀ n a, a + n ≤ s.inLen.toNat → Ends (readBytes a n) s fun _ t => t = s
  | 0, _, _ => .pure rfl
  | n + 1, a, h => .readIn_bind (by omega) ((ends_readBytes n (a + 1) (by omega)).bind fun _ _ _ _ ht => .pure ht)

theorem Ends.readBytes_bind {a n : Nat} {g : List Byte → Op β} (ha : a + n ≤ s.inLen.toNat)
    (h : ∀ bs, Ends (g bs) s R) : Ends (readBytes a n >>= g) s R :=
  (ends_readBytes n a ha).bind fun bs _ _ _ ht => by subst ht; exact h bs

theorem Ends.memRead_bind {a n : Nat} {g : Nat → Op β} (ha : a + n ≤ s.inLen.toNat) (h : ∀ v, Ends (g v) s R) :
    Ends (memRead a n >>= g) s R :=
  Ends.bind (Q := fun _ t => t = s) (.readBytes_bind ha fun _ => .pure rfl) fun v _ _ _ ht => by subst ht; exact h v

/-! ### Registers and memories -/

theorem ends_draw (x : Config.Slot) : Ends (draw x) s fun _ t => t = { s with draws := s.draws + 1 } :=
  .of_ok rfl (.single (.draws s _)) rfl

theorem ends_setRes (v : Nat) : Ends (setRes v) s fun _ _ => True := .change (.res s _) trivial
theorem ends_setResNbSeq : Ends setResNbSeq s fun _ _ => True := .change (.res s _) trivial

theorem ends_setSt (x : SSel) (v : Nat) : Ends (setSt x v) s fun _ t => t = { s with st := s.st.set x (BitVec.ofNat 9 v) } :=
  .change (.st s x _) rfl

theorem ends_writeLit {a : Nat} (b : Byte) (ha : Sound s → a < Config.litCap) : Ends (writeLit a b) s fun _ _ => True := by
  by_cases hcap : a < Config.litCap
  · exact .of_ok (writeLit_of_lt hcap) (.single (.lit s a b hcap)) trivial
  · exact .of_fault (f := .litAddress) (t := s) (by simp [writeLit, hcap]) fun hs => hcap (ha hs)

/-! ### The forward reader -/

/-- FR stands in the region it stood in, and a position inside that region has stayed inside. -/
structure SameRegion (s t : State) : Prop where
  base : t.fr.base = s.fr.base
  lim : t.fr.lim = s.fr.lim
  pos : FrPosOk s.fr → FrPosOk t.fr

theorem SameRegion.refl (s : State) : SameRegion s s := ⟨rfl, rfl, id⟩
theorem SameRegion.trans {s t u : State} (h : SameRegion s t) (k : SameRegion t u) : SameRegion s u :=
  ⟨k.base.trans h.base, k.lim.trans h.lim, k.pos ∘ h.pos⟩
theorem SameRegion.of_fr {s t : State} (h : t.fr = s.fr) : SameRegion s t := ⟨by rw [h], by rw [h], by rw [h]; exact id⟩

/-- A peek of `n` bits (R123). -/
theorem ends_fpeek (n : Nat) (hv : s.fr.valid = true) : Ends (fpeek n) s fun v t => v < 2 ^ n ∧ SameRegion s t := by
  refine .look_bind (.ite (fun hcap => .stop fun hs => ?_) fun _ => .ite (fun _ => ?_) fun _ => ?_)
  · exact absurd (hs.fr hv).2.1 (not_le.mpr hcap)
  · exact (ends_draw _).bind fun v t _ _ ht => .pure ⟨Nat.mod_lt _ (by positivity), .of_fr (by rw [ht])⟩
  · exact .pure ⟨forwardBits_lt s n _, .refl s⟩

/-- The position FConsume leaves fits its register (R26, R124). -/
theorem ends_fconsume (n : Nat) : Ends (fconsume n) s fun _ t => SameRegion s t := by
  refine .look_bind (.ensure_bind fun h => ?_)
  have hlim := s.fr.lim.isLt
  have hpos : FrPosOk { s.fr with pos := BitVec.ofNat 21 (s.fr.pos.toNat + n) } := by
    simp only [FrPosOk, BitVec.toNat_ofNat]
    exact (Nat.mod_le _ _).trans h
  exact .change (.frPos s _ fun _ => hpos) ⟨rfl, rfl, fun _ => hpos⟩

theorem ends_fread (n : Nat) (hv : s.fr.valid = true) : Ends (fread n) s fun v t => v < 2 ^ n ∧ SameRegion s t :=
  (ends_fpeek n hv).bind fun _ _ _ _ ⟨hlt, hr⟩ =>
    (ends_fconsume n).bind fun _ _ _ _ hr' => .pure ⟨hlt, hr.trans hr'⟩

/-- FAlign stays inside the region, whose end is on a byte, and so does the address it returns (R126). -/
theorem ends_falign : Ends falign s fun v _ =>
    s.fr.base.toNat ≤ s.fr.lim.toNat → FrPosOk s.fr → v ≤ s.fr.lim.toNat := by
  have hlim := s.fr.lim.isLt
  have hpos : FrPosOk s.fr → FrPosOk { s.fr with pos := BitVec.ofNat 21 ((s.fr.pos.toNat + 7) / 8 * 8) } := by
    intro h
    simp only [FrPosOk, BitVec.toNat_ofNat] at h ⊢
    exact (Nat.mod_le _ _).trans (by omega)
  refine Ends.bind (Q := fun _ t => t = _) (.change (.frPos s _ hpos) rfl) fun _ t _ _ ht => .look fun hbase h => ?_
  have := hpos h
  subst ht
  simp only [FrPosOk] at this ⊢
  omega

theorem ends_finit {base lim : Nat} (hbase : base ≤ lim) (hlim : lim ≤ s.inLen.toNat) :
    Ends (finit base lim) s fun _ t =>
      t.fr.valid = true ∧ t.fr.base.toNat = base ∧ t.fr.lim.toNat = lim ∧ FrPosOk t.fr := by
  have hlt := s.inLen.isLt
  have eb : (BitVec.ofNat 18 base).toNat = base := toNat_ofNat_of_lt (by omega)
  have el : (BitVec.ofNat 18 lim).toNat = lim := toNat_ofNat_of_lt (by omega)
  exact .change (.frInit s _ _ (by omega) (by omega)) ⟨rfl, eb, el, Nat.zero_le _⟩

/-! ### The reverse readers -/

/-- A peek of `n` bits (R121). -/
theorem ends_rpeek (r : RSel) (n : Nat) (hv : (s.rr.get r).valid = true) : Ends (rpeek r n) s fun v _ => v < 2 ^ n := by
  refine .look_bind (.ite (fun hrange => .stop fun hs => ?_) fun _ => .ite (fun _ => ?_) fun _ => ?_)
  · rw [id, (hs.rr r hv).2.1] at hrange
    cases hrange
  · exact (ends_draw _).bind fun v t _ _ _ => .pure (Nat.mod_lt _ (by positivity))
  · exact .pure (reverseBits_eq_streamBits s _ _ n ▸ streamBits_lt s _ _ n)

theorem ends_rconsume (r : RSel) (n : Nat) : Ends (rconsume r n) s fun _ _ => True := by
  refine .change (.rrPos s r _ ?_) trivial
  have := (s.rr.get r).pos.le_toInt
  rw [posAfter_toInt]
  omega

theorem ends_rread (r : RSel) (n : Nat) (hv : (s.rr.get r).valid = true) : Ends (rread r n) s fun v _ => v < 2 ^ n :=
  (ends_rpeek r n hv).bind fun _ _ _ _ hlt => (ends_rconsume r n).bind fun _ _ _ _ _ => .pure hlt

theorem highbit_byte_lt {b : Byte} (hb : b ≠ 0) : highbit b.toNat < 8 := by
  have hlt := b.isLt
  have hne : b.toNat ≠ 0 := fun h => hb (BitVec.eq_of_toNat_eq h)
  exact (Nat.log2_lt hne).mpr (by omega)

/-- RInit puts the reader at the bit below the end mark of its stream (R136). -/
theorem ends_rinit (r : RSel) {base len : Nat} (h : base + len ≤ s.inLen.toNat) :
    Ends (rinit r base len) s fun _ t => (t.rr.get r).valid = true := by
  refine .ensure_bind fun hlen => .readIn_bind (by omega) (.ensure_bind fun hlast => ?_)
  have hbit := highbit_byte_lt hlast
  have hlt := s.inLen.isLt
  have el : (BitVec.ofNat 18 len).toNat = len := toNat_ofNat_of_lt (by omega)
  have eb : (BitVec.ofNat 18 base).toNat = base := toNat_ofNat_of_lt (by omega)
  refine .change (.rrInit s r _ rfl ?_ ?_ ?_) (by simp)
  · show 1 ≤ (BitVec.ofNat 18 len).toNat
    omega
  · show (BitVec.ofNat 32 _).toInt < 8 * ((BitVec.ofNat 18 len).toNat : Int)
    rw [el, BitVec.toInt_eq_toNat_of_lt] <;> simp only [BitVec.toNat_ofNat] <;> omega
  · show (BitVec.ofNat 18 base).toNat + (BitVec.ofNat 18 len).toNat ≤ s.inLen.toNat
    omega

end Sys2Proof.Machine
end

section
/-! SUPPORT. BuildTable (R153 to R156): over an accepted distribution every slot gets a symbol of the alphabet, and every
entry leads to entries of the table. -/

namespace Sys2Proof.Machine

/-! ## The positions of the spread (R154) -/

/-- The `k`th position of the spread, before those above `high` are skipped. -/
def spreadPos (size k : Nat) : Nat := k * spreadStep size % size

@[simp] theorem spreadPos_zero (size : Nat) : spreadPos size 0 = 0 := by simp [spreadPos]
@[simp] theorem spreadPos_size (size : Nat) : spreadPos size size = 0 := by simp [spreadPos]
theorem spreadPos_succ (size k : Nat) : (spreadPos size k + spreadStep size) % size = spreadPos size (k + 1) := by
  rw [spreadPos, spreadPos, Nat.mod_add_mod, Nat.succ_mul]

/-- The step of a table of at least 2^5 slots is odd, so it has no factor in common with the size. -/
theorem spreadStep_coprime {al : Nat} (h : 5 ≤ al) : Nat.Coprime (2 ^ al) (spreadStep (2 ^ al)) := by
  obtain ⟨k, rfl⟩ := Nat.exists_eq_add_of_le h
  refine Nat.Coprime.pow_left _ (Nat.coprime_two_left.mpr ?_)
  rw [Nat.odd_iff, spreadStep, pow_add]
  omega

theorem spreadPos_injOn {al : Nat} (h : 5 ≤ al) : Set.InjOn (spreadPos (2 ^ al)) (Finset.range (2 ^ al)) := by
  intro i hi j hj e
  simp only [Finset.coe_range, Set.mem_Iio] at hi hj
  have hmod : i ≡ j [MOD 2 ^ al] := Nat.ModEq.cancel_right_of_coprime (spreadStep_coprime h) e
  rwa [Nat.ModEq, Nat.mod_eq_of_lt hi, Nat.mod_eq_of_lt hj] at hmod

/-- The positions of a full round are all the slots. -/
theorem image_spreadPos {al : Nat} (h : 5 ≤ al) :
    (Finset.range (2 ^ al)).image (spreadPos (2 ^ al)) = Finset.range (2 ^ al) := by
  refine Finset.eq_of_subset_of_card_le (fun p hp => ?_) ?_
  · obtain ⟨k, -, rfl⟩ := Finset.mem_image.mp hp
    exact Finset.mem_range.mpr (Nat.mod_lt _ (by positivity))
  · rw [Finset.card_image_of_injOn (spreadPos_injOn h)]

/-- How many of the first `m` positions of the spread lie below `free`. -/
abbrev spreadCount (size free m : Nat) : Nat := Nat.count (fun k => spreadPos size k < free) m

/-- A full round passes each of the free slots once. -/
theorem spreadCount_size {al free : Nat} (h : 5 ≤ al) (hfree : free ≤ 2 ^ al) : spreadCount (2 ^ al) free (2 ^ al) = free := by
  have inj : Set.InjOn (spreadPos (2 ^ al)) ((Finset.range (2 ^ al)).filter fun k => spreadPos (2 ^ al) k < free) :=
    (spreadPos_injOn h).mono (Finset.coe_subset.mpr (Finset.filter_subset _ _))
  have img : ((Finset.range (2 ^ al)).filter fun k => spreadPos (2 ^ al) k < free).image (spreadPos (2 ^ al)) =
      Finset.range free := by
    rw [← Finset.filter_image (p := fun p => p < free), image_spreadPos h]
    ext p
    simp only [Finset.mem_filter, Finset.mem_range]
    omega
  rw [spreadCount, Nat.count_eq_card_filter_range, ← Finset.card_image_of_injOn inj, img, Finset.card_range]

/-- The next position of the spread: the first one after `m` below `free` (R154). -/
theorem spreadNext_spec {size free last : Nat} (hlast : spreadPos size last < free) :
    ∀ fuel m, m < last → last ≤ m + fuel + 1 →
      ∃ m', m < m' ∧ m' ≤ last ∧ spreadNext size free fuel (spreadPos size m) = spreadPos size m' ∧
        spreadPos size m' < free ∧ ∀ k, m < k → k < m' → ¬spreadPos size k < free
  | 0, m, hm, hfuel => by
    obtain rfl : last = m + 1 := by omega
    exact ⟨m + 1, by omega, le_rfl, spreadPos_succ size m, hlast, fun k h1 h2 => by omega⟩
  | fuel + 1, m, hm, hfuel => by
    by_cases hp : free ≤ spreadPos size (m + 1)
    · have hne : last ≠ m + 1 := fun e => by subst e; omega
      obtain ⟨m', h1, h2, h3, h4, h5⟩ := spreadNext_spec hlast fuel (m + 1) (by omega) (by omega)
      refine ⟨m', by omega, h2, ?_, h4, fun k hk hk' => ?_⟩
      · rw [spreadNext, spreadPos_succ, if_pos hp, h3]
      · obtain rfl | hlt := Nat.eq_or_lt_of_le hk
        · exact not_lt.mpr hp
        · exact h5 k hlt hk'
    · refine ⟨m + 1, by omega, hm, ?_, not_le.mp hp, fun k h1 h2 => by omega⟩
      rw [spreadNext, spreadPos_succ, if_neg hp]

/-! ## Filled slots -/

/-- Slot `p` holds a symbol below `n`. -/
def Filled (n : Nat) (slots : List (Option Nat)) (p : Nat) : Prop := ∃ y, slots[p]? = some (some y) ∧ y < n

theorem Filled.set_same {n : Nat} {slots : List (Option Nat)} {p sym : Nat} (hp : p < slots.length) (hsym : sym < n) :
    Filled n (slots.set p (some sym)) p := ⟨sym, by simp [hp], hsym⟩

theorem Filled.set {n : Nat} {slots : List (Option Nat)} {p q sym : Nat} (hsym : sym < n) (h : Filled n slots q) :
    Filled n (slots.set p (some sym)) q := by
  obtain ⟨y, hy, hlt⟩ := h
  by_cases e : p = q
  · subst e
    exact .set_same (List.getElem?_eq_some_iff.mp hy).1 hsym
  · exact ⟨y, by rw [List.getElem?_set_ne e, hy], hlt⟩

/-- Step 1 fills the slots from the top, one for each count of -1 (R153). -/
theorem placeLow_spec {n : Nat} : ∀ (counts : List Int) (sym : Nat) (slots : List (Option Nat)) (free : Nat),
    sym + counts.length ≤ n → counts.count (-1) ≤ free → free ≤ slots.length →
      (placeLow counts sym slots free).2 = free - counts.count (-1) ∧
        (placeLow counts sym slots free).1.length = slots.length ∧
        (∀ q, Filled n slots q → Filled n (placeLow counts sym slots free).1 q) ∧
        ∀ q, free - counts.count (-1) ≤ q → q < free → Filled n (placeLow counts sym slots free).1 q
  | [], _, _, _, _, _, _ => ⟨rfl, rfl, fun _ h => h, fun q h1 h2 => by simp at h1; omega⟩
  | c :: counts, sym, slots, free, hn, hcount, hlen => by
    simp only [List.length_cons] at hn
    by_cases hc : c = -1
    · subst hc
      rw [List.count_cons_self] at hcount ⊢
      obtain ⟨h1, h2, h3, h4⟩ := placeLow_spec (n := n) counts (sym + 1) (slots.set (free - 1) (some sym)) (free - 1)
        (by omega) (by omega) (by simp; omega)
      simp only [placeLow, if_true]
      refine ⟨by omega, by simpa using h2, fun q hq => h3 q (hq.set (by omega)), fun q hq hq' => ?_⟩
      by_cases e : q = free - 1
      · exact h3 q (e ▸ .set_same (by omega) (by omega))
      · exact h4 q (by omega) (by omega)
    · rw [List.count_cons_of_ne hc] at hcount ⊢
      simp only [placeLow, if_neg hc]
      exact placeLow_spec counts (sym + 1) slots free (by omega) hcount hlen

/-- The state of step 2 with `rest` slots still to fill: `m` positions of the spread are passed, and those of them below
`free` are filled (R154). -/
structure Spreading (size free n : Nat) (slots : List (Option Nat)) (pos rest m : Nat) : Prop where
  pos_eq : pos = spreadPos size m
  pos_free : 0 < free → pos < free
  round : m ≤ size
  count : spreadCount size free m + rest = free
  length : slots.length = size
  filled : ∀ k, k < m → spreadPos size k < free → Filled n slots (spreadPos size k)
  top : ∀ q, free ≤ q → q < size → Filled n slots q

/-- One more slot is filled. -/
theorem Spreading.place {al free n pos rest m sym : Nat} {slots : List (Option Nat)} (hal : 5 ≤ al) (hfree : free ≤ 2 ^ al)
    (h : Spreading (2 ^ al) free n slots pos (rest + 1) m) (hsym : sym < n) :
    ∃ m', Spreading (2 ^ al) free n (slots.set pos (some sym)) (spreadNext (2 ^ al) free (2 ^ al) pos) rest m' := by
  obtain ⟨rfl, hpos, hround, hcount, hlen, hfilled, htop⟩ := h
  have hm : m < 2 ^ al := by
    refine lt_of_le_of_ne hround fun e => ?_
    have := spreadCount_size hal hfree
    rw [e] at hcount
    omega
  obtain ⟨m', h1, h2, h3, h4, h5⟩ :=
    spreadNext_spec (size := 2 ^ al) (free := free) (last := 2 ^ al) (by simp; omega) (2 ^ al) m hm (by omega)
  have none_between : Nat.count (fun k => spreadPos (2 ^ al) (m + 1 + k) < free) (m' - (m + 1)) = 0 :=
    (Nat.count_iff_forall_not).mpr fun k hk => h5 _ (by omega) (by omega)
  have hcount' : spreadCount (2 ^ al) free m' = spreadCount (2 ^ al) free m + 1 := by
    obtain ⟨d, rfl⟩ := Nat.exists_eq_add_of_le h1
    rw [spreadCount, Nat.count_add, Nat.count_succ, if_pos (hpos (by omega))]
    simpa using none_between
  refine ⟨m', h3, fun _ => h3 ▸ h4, h2, by omega, by simpa using hlen, fun k hk hkf => ?_,
    fun q hq hq' => (htop q hq hq').set hsym⟩
  by_cases e : k = m
  · subst e
    exact .set_same (by rw [hlen]; omega) hsym
  · exact (hfilled k (by by_contra hge; exact h5 k (by omega) hk hkf) hkf).set hsym

theorem spreadSymbol_spec {al free n sym : Nat} (hal : 5 ≤ al) (hfree : free ≤ 2 ^ al) (hsym : sym < n) :
    ∀ (k rest : Nat) (slots : List (Option Nat)) (pos m : Nat), Spreading (2 ^ al) free n slots pos (k + rest) m →
      ∃ m', Spreading (2 ^ al) free n (spreadSymbol (2 ^ al) free sym k slots pos).1
        (spreadSymbol (2 ^ al) free sym k slots pos).2 rest m'
  | 0, rest, _, _, m, h => ⟨m, by rwa [Nat.zero_add] at h⟩
  | k + 1, rest, slots, pos, m, h => by
    obtain ⟨m', h'⟩ := Spreading.place hal hfree (rest := k + rest) (by rwa [show k + rest + 1 = k + 1 + rest by omega]) hsym
    exact spreadSymbol_spec hal hfree hsym k rest _ _ m' h'

theorem spreadAll_spec {al free n : Nat} (hal : 5 ≤ al) (hfree : free ≤ 2 ^ al) :
    ∀ (counts : List Int) (sym : Nat) (slots : List (Option Nat)) (pos m : Nat), sym + counts.length ≤ n →
      Spreading (2 ^ al) free n slots pos (counts.map Int.toNat).sum m →
      ∃ m', Spreading (2 ^ al) free n (spreadAll (2 ^ al) free counts sym slots pos).1
        (spreadAll (2 ^ al) free counts sym slots pos).2 0 m'
  | [], _, _, _, m, _, h => ⟨m, h⟩
  | c :: counts, sym, slots, pos, m, hn, h => by
    simp only [List.length_cons] at hn
    obtain ⟨m', h'⟩ := spreadSymbol_spec hal hfree (n := n) (sym := sym) (by omega) c.toNat (counts.map Int.toNat).sum slots pos m
      (by simpa using h)
    exact spreadAll_spec hal hfree counts (sym + 1) _ _ m' (by omega) h'

/-- Once the spread has passed as many slots as are free, every slot is filled. -/
theorem Spreading.all_filled {al free n pos m : Nat} {slots : List (Option Nat)} (hal : 5 ≤ al) (hfree : free ≤ 2 ^ al)
    (h : Spreading (2 ^ al) free n slots pos 0 m) {q : Nat} (hq : q < 2 ^ al) : Filled n slots q := by
  by_cases hlow : q < free
  · obtain ⟨k, hk, rfl⟩ := Finset.mem_image.mp (image_spreadPos hal ▸ Finset.mem_range.mpr hq)
    rw [Finset.mem_range] at hk
    refine h.filled k (not_le.mp fun hge => ?_) hlow
    have passed := h.count
    have round := spreadCount_size hal hfree
    have upto : spreadCount (2 ^ al) free m ≤ spreadCount (2 ^ al) free k := Nat.count_monotone _ hge
    have after : spreadCount (2 ^ al) free (k + 1) ≤ spreadCount (2 ^ al) free (2 ^ al) := Nat.count_monotone _ hk
    have this_one : spreadCount (2 ^ al) free (k + 1) = spreadCount (2 ^ al) free k + 1 := by
      rw [spreadCount, Nat.count_succ, if_pos hlow]
    omega
  · exact h.top q (not_lt.mp hlow) hq

/-- The mass of a distribution is its low symbols and the counts above 0. -/
theorem sum_natAbs_eq : ∀ {counts : List Int}, (∀ c ∈ counts, -1 ≤ c) →
    (counts.map Int.natAbs).sum = counts.count (-1) + (counts.map Int.toNat).sum
  | [], _ => rfl
  | c :: counts, h => by
    rw [List.forall_mem_cons] at h
    have ih := sum_natAbs_eq h.2
    simp only [List.map_cons, List.sum_cons, List.count_cons, beq_iff_eq]
    split_ifs with hc
    · subst hc; simp; omega
    · have := h.1; omega

/-- Every slot of the table of an accepted distribution gets a symbol (R156). -/
theorem spreadSlots_filled {al : Nat} {counts : List Int} (hal : 5 ≤ al) (hc : ∀ c ∈ counts, -1 ≤ c)
    (hsum : (counts.map Int.natAbs).sum = 2 ^ al) :
    (spreadSlots al counts).1.length = 2 ^ al ∧ ∀ q, q < 2 ^ al → Filled counts.length (spreadSlots al counts).1 q := by
  have mass := sum_natAbs_eq hc
  obtain ⟨free_eq, length_eq, -, low⟩ := placeLow_spec (n := counts.length) counts 0 (List.replicate (2 ^ al) none) (2 ^ al)
    (by omega) (by omega) (by simp)
  rw [List.length_replicate] at length_eq
  have start : Spreading (2 ^ al) (placeLow counts 0 (List.replicate (2 ^ al) none) (2 ^ al)).2 counts.length
      (placeLow counts 0 (List.replicate (2 ^ al) none) (2 ^ al)).1 0 (counts.map Int.toNat).sum 0 :=
    ⟨by simp, id, Nat.zero_le _, by rw [spreadCount, Nat.count_zero]; omega, length_eq, fun k hk => by omega,
      fun q hq => low q (by omega)⟩
  obtain ⟨m, done⟩ := spreadAll_spec hal (by omega) counts 0 _ _ 0 (by omega) start
  exact ⟨done.length, fun q hq => done.all_filled hal (by omega) hq⟩

/-! ## The entries (R155) -/

/-- An entry from counter value `x` leads to entries of the table. -/
theorem entry_in_table {al x : Nat} (hal : al ≤ 9) (hx : x < 2 ^ (al + 1)) :
    (BitVec.ofNat 4 (al - highbit x)).toNat ≤ al ∧
      (BitVec.ofNat 9 (x * 2 ^ (al - highbit x) - 2 ^ al)).toNat + 2 ^ (BitVec.ofNat 4 (al - highbit x)).toNat ≤ 2 ^ al := by
  have hbits : (BitVec.ofNat 4 (al - highbit x)).toNat = al - highbit x := toNat_ofNat_of_lt (by omega)
  have hlog : highbit x ≤ al := by
    by_cases h0 : x = 0
    · subst h0; exact Nat.zero_le _
    · exact Nat.lt_succ_iff.mp ((Nat.log2_lt h0).mpr hx)
  have hx1 : x + 1 ≤ 2 ^ (highbit x + 1) := Nat.lt_log2_self
  have top : (x + 1) * 2 ^ (al - highbit x) ≤ 2 ^ al + 2 ^ al := by
    calc (x + 1) * 2 ^ (al - highbit x) ≤ 2 ^ (highbit x + 1) * 2 ^ (al - highbit x) := Nat.mul_le_mul_right _ hx1
      _ = 2 ^ al + 2 ^ al := by rw [← pow_add, show highbit x + 1 + (al - highbit x) = al + 1 by omega, pow_succ]; ring
  have small : 2 ^ (al - highbit x) ≤ 2 ^ al := Nat.pow_le_pow_right (by norm_num) (Nat.sub_le _ _)
  rw [add_mul, one_mul] at top
  rw [hbits]
  refine ⟨Nat.sub_le _ _, ?_⟩
  have := Nat.mod_le (x * 2 ^ (al - highbit x) - 2 ^ al) (2 ^ 9)
  rw [BitVec.toNat_ofNat]
  omega

theorem length_fillEntries (al unset : Nat) : ∀ (slots : List (Option Nat)) (next : List Nat),
    (fillEntries al unset slots next).length = slots.length
  | [], _ => rfl
  | slot :: slots, next => by simp only [fillEntries, List.length_cons, length_fillEntries al unset slots]

/-- Over filled slots every entry leads to entries of the table and holds a symbol below `n`, as no counter can pass
2^(al+1) before the slots are used up. -/
theorem fillEntries_ok {al n unset : Nat} (hal : al ≤ 9) (hn : n ≤ 256) : ∀ (slots : List (Option Nat)) (next : List Nat),
    (∀ q, q < slots.length → Filled n slots q) → (∀ i, next.getD i 0 + slots.length ≤ 2 ^ (al + 1)) →
      ∀ e ∈ fillEntries al unset slots next,
        e.nb.toNat ≤ al ∧ e.base.toNat + 2 ^ e.nb.toNat ≤ 2 ^ al ∧ e.sym.toNat < n
  | [], _, _, _, e, he => by simp [fillEntries] at he
  | slot :: slots, next, hfilled, hnext, e, he => by
    obtain ⟨y, hy, hlt⟩ := hfilled 0 (by simp)
    obtain rfl : slot = some y := by simpa using hy
    simp only [List.length_cons] at hnext
    rw [fillEntries, List.mem_cons] at he
    rcases he with rfl | he
    · obtain ⟨hnb, hbase⟩ := entry_in_table (x := next.getD y 0) hal (by have := hnext y; omega)
      refine ⟨hnb, hbase, ?_⟩
      simp only [Option.getD_some, BitVec.toNat_ofNat]
      omega
    · refine fillEntries_ok hal hn slots _ (fun q hq => ?_) (fun i => ?_) e he
      · obtain ⟨z, hz, hz'⟩ := hfilled (q + 1) (by simpa using hq)
        exact ⟨z, by simpa using hz, hz'⟩
      · have hi := hnext i
        have hy := hnext y
        rw [Option.getD_some, List.getD_eq_getElem?_getD, List.getElem?_set]
        split_ifs with e hlen
        · simp only [Option.getD_some]; omega
        · simp only [Option.getD_none]; omega
        · rw [← List.getD_eq_getElem?_getD]; omega

/-- No counter starts above the mass of the distribution (R153). -/
theorem nextCounters_le (counts : List Int) (i : Nat) : (nextCounters counts).getD i 0 ≤ (counts.map Int.natAbs).sum := by
  rw [nextCounters, List.getD_eq_getElem?_getD, List.getElem?_map]
  cases h : counts[i]? with
  | none => exact Nat.zero_le _
  | some c =>
    have hmem : c.natAbs ∈ counts.map Int.natAbs := List.mem_map_of_mem (List.mem_of_getElem? h)
    have hle := List.single_le_sum (fun _ _ => Nat.zero_le _) _ hmem
    simp only [Option.map_some, Option.getD_some]
    split_ifs with hc
    · subst hc; exact hle
    · omega

theorem maxLog_le (t : TSel) : maxLog t ≤ 9 := by cases t <;> decide
theorem maxSym_le (t : TSel) : maxSym t ≤ 255 := by cases t <;> decide

/-- The table BuildTable writes from a well formed distribution is well formed (R43, R153 to R156). -/
theorem tableOkFor_of_buildEntries {d : Dist} {unset : Nat} {entries : List FseEntry} (hd : distOk d)
    (h : buildEntries d.al.toNat unset (distCounts d) = some entries) : tableOkFor d.tag ⟨true, d.al, entries⟩ := by
  obtain ⟨hal, hlog, -, hlen, -, hcounts, hsum⟩ := hd
  have hl : (distCounts d).length = d.counts.length := by simp [distCounts]
  have log := maxLog_le d.tag
  have sym := maxSym_le d.tag
  obtain ⟨slots_length, filled⟩ := spreadSlots_filled hal hcounts hsum
  simp only [buildEntries, Option.ite_none_right_eq_some, Option.some.injEq] at h
  obtain ⟨-, rfl⟩ := h
  refine ⟨hlog, by rw [length_fillEntries, slots_length], fun e he => ?_⟩
  obtain ⟨hnb, hbase, hsym⟩ := fillEntries_ok (n := (distCounts d).length) (hlog.trans log) (by omega) _ _
    (by rw [slots_length]; exact filled)
    (fun i => by rw [slots_length, pow_succ]; have := nextCounters_le (distCounts d) i; omega) e he
  exact ⟨hnb, hbase, by omega⟩

end Sys2Proof.Machine
end

section
/-! SUPPORT. How the operations of FSE end (42_fse.md): ReadNCount leaves an accepted distribution (R150), BuildTable a
well formed table, and a state register that points into its table keeps doing so (R159). -/

namespace Sys2Proof.Machine

variable {s : State}

/-! ## ReadNCount (R150) -/

/-- The counts read so far, with `rem` of the mass `total` left to read. -/
structure CountsSoFar (t : TSel) (total rem : Nat) (counts : List Int) : Prop where
  length : counts.length ≤ maxSym t + 1
  low : ∀ c ∈ counts, -1 ≤ c
  mass : (counts.map Int.natAbs).sum + rem = total

/-- The width of the count field fits the mass left: `threshold` is the highest power of 2 in it. -/
structure FieldWidth (rem threshold nbits : Nat) : Prop where
  pos : 1 ≤ nbits
  pow : threshold = 2 ^ (nbits - 1)
  le : threshold ≤ rem
  lt : rem < 2 * threshold

theorem narrow_width {rem : Nat} (hrem : 1 ≤ rem) : ∀ (nbits threshold : Nat), 1 ≤ nbits → threshold = 2 ^ (nbits - 1) →
    rem < 2 * threshold → FieldWidth rem (narrow rem nbits threshold).2 (narrow rem nbits threshold).1
  | 0, _, h, _, _ => by omega
  | nbits + 1, threshold, h, hpow, hlt => by
    rw [Nat.add_sub_cancel] at hpow
    unfold narrow
    split_ifs with hn
    · cases nbits with
      | zero => simp at hpow; omega
      | succ k =>
        rw [pow_succ] at hpow
        exact narrow_width hrem (k + 1) (threshold / 2) (by omega) (by rw [Nat.add_sub_cancel]; omega) (by omega)
    · exact ⟨h, by rwa [Nat.add_sub_cancel], by omega, hlt⟩

theorem ends_readZeroRun : ∀ (fuel n0 : Nat) {s : State}, s.fr.valid = true →
    Ends (readZeroRun fuel n0) s fun _ t => SameRegion s t
  | 0, _, _, _ => .raise
  | fuel + 1, _, _, hv => (ends_fread 2 hv).bind fun _ _ _ hc ⟨_, hr⟩ =>
    .ite (fun _ => (ends_readZeroRun fuel _ (hc.keepsValid.fr hv)).mono fun _ _ _ _ hr' => hr.trans hr') fun _ => .pure hr

theorem ends_continueRun (t : TSel) (prev0 : Bool) {counts : List Int} {total rem : Nat} (hv : s.fr.valid = true)
    (h : CountsSoFar t total rem counts) (hlen : counts.length ≤ maxSym t) :
    Ends (continueRun t prev0 counts) s fun out u =>
      CountsSoFar t total rem out ∧ out.length ≤ maxSym t ∧ SameRegion s u := by
  refine .ite (fun _ => ?_) fun _ => .pure ⟨h, hlen, .refl s⟩
  refine .look_bind ((ends_readZeroRun _ _ hv).bind fun n0 u _ _ hr => .ensure_bind fun hn0 => .pure ?_)
  have hlen' : (counts ++ List.replicate (n0 - counts.length) (0 : Int)).length ≤ maxSym t := by
    rw [List.length_append, List.length_replicate]; omega
  refine ⟨⟨hlen'.trans (Nat.le_succ _), fun c hc => ?_, ?_⟩, hlen', hr⟩
  · rcases List.mem_append.mp hc with hc | hc
    · exact h.low c hc
    · rw [List.eq_of_mem_replicate hc]; decide
  · simpa using h.mass

/-- A count field encodes at most the mass left (R150). -/
theorem ends_readCountField {rem threshold nbits : Nat} (hv : s.fr.valid = true) (h : FieldWidth rem threshold nbits) :
    Ends (readCountField rem threshold nbits) s fun v t => v ≤ rem ∧ SameRegion s t := by
  obtain ⟨hpos, hpow, hle, hlt⟩ := h
  have hwide : 2 ^ nbits = 2 * threshold := by
    rw [hpow, ← pow_succ', Nat.sub_add_cancel hpos]
  refine (ends_fpeek _ hv).bind fun low t _ hc ⟨_, hr⟩ => .ite (fun hlow => ?_) fun _ => ?_
  · exact (ends_fconsume _).bind fun _ _ _ _ hr' => .pure ⟨by omega, hr.trans hr'⟩
  · refine (ends_fpeek _ (hc.keepsValid.fr hv)).bind fun v t' _ hc' ⟨hv', hr'⟩ =>
      (ends_fconsume _).bind fun _ _ _ _ hr'' => .pure ⟨?_, hr.trans (hr'.trans hr'')⟩
    split_ifs <;> omega

theorem ends_ncountLoop (t : TSel) (total : Nat) : ∀ (fuel rem threshold nbits : Nat) (counts : List Int) (prev0 : Bool)
    {s : State}, s.fr.valid = true → FieldWidth rem threshold nbits → CountsSoFar t total rem counts →
      Ends (ncountLoop t fuel rem threshold nbits counts prev0) s fun out u =>
        CountsSoFar t total out.1 out.2 ∧ SameRegion s u
  | 0, _, _, _, _, _, s, _, _, h => .pure ⟨h, .refl s⟩
  | fuel + 1, rem, threshold, nbits, counts, prev0, s, hv, hw, h => by
    refine .ite (fun _ => .pure ⟨h, .refl s⟩) fun hgo => ?_
    refine (ends_continueRun t prev0 hv h (by omega)).bind fun counts u _ hc ⟨h, hlen, hr⟩ => ?_
    have hv := hc.keepsValid.fr hv
    refine (ends_readCountField hv hw).bind fun v u' _ hc' ⟨hle, hr'⟩ => ?_
    have next : CountsSoFar t total (rem - ((v : Int) - 1).natAbs) (counts ++ [(v : Int) - 1]) := by
      refine ⟨by simp; omega, fun c hc => ?_, ?_⟩
      · rcases List.mem_append.mp hc with hc | hc
        · exact h.low c hc
        · rw [List.mem_singleton.mp hc]; omega
      · have := h.mass
        simp only [List.map_append, List.map_cons, List.map_nil, List.sum_append, List.sum_cons, List.sum_nil]
        omega
    have width := narrow_width (rem := rem - ((v : Int) - 1).natAbs) (by omega) nbits threshold hw.pos hw.pow
      (by have := hw.lt; omega)
    exact (ends_ncountLoop t total fuel _ _ _ _ _ (hc'.keepsValid.fr hv) width next).mono
      fun _ _ _ _ ⟨h, hr''⟩ => ⟨h, hr.trans (hr'.trans hr'')⟩

/-! ## Distributions -/

/-- A count of a distribution fits the 11 bits it is staged in (R29). -/
theorem toInt_ofInt_count {c : Int} (h : -1 ≤ c) (h' : c ≤ 512) : (BitVec.ofInt 11 c).toInt = c := by
  rw [BitVec.toInt_ofInt]
  exact Int.bmod_eq_of_le (by norm_num; omega) (by norm_num; omega)

/-- Counts of the whole mass 2^al, as DIST holds them, are a distribution FSE_BUILD accepts (R29, R150 to R152). -/
theorem distOk_of_counts {t : TSel} {al : Nat} {counts : List Int} (hal : 5 ≤ al) (hlog : al ≤ maxLog t)
    (h : CountsSoFar t (2 ^ al + 1) 1 counts) :
    distOk ⟨true, t, BitVec.ofNat 4 al, BitVec.ofNat 9 counts.length, counts.map fun c => BitVec.ofInt 11 c⟩ := by
  obtain ⟨hlen, hlow, hmass⟩ := h
  have log := maxLog_le t
  have sym := maxSym_le t
  have mass : (counts.map Int.natAbs).sum = 2 ^ al := by omega
  have small : 2 ^ al ≤ 512 := Nat.pow_le_pow_right (n := 2) (by norm_num) (hlog.trans log)
  have pos : 0 < 2 ^ al := by positivity
  have al_eq : (BitVec.ofNat 4 al).toNat = al := toNat_ofNat_of_lt (by omega)
  have counts_eq : ((counts.map fun c => BitVec.ofInt 11 c).map fun c => c.toInt) = counts := by
    rw [List.map_map]
    refine (List.map_congr_left fun c hc => ?_).trans (List.map_id counts)
    have hle := List.single_le_sum (fun _ _ => Nat.zero_le _) _ (List.mem_map_of_mem (f := Int.natAbs) hc)
    exact toInt_ofInt_count (hlow c hc) (by omega)
  have nonempty : 1 ≤ counts.length := by
    cases counts with
    | nil => simp at mass; omega
    | cons c counts => simp
  refine ⟨by rw [al_eq]; exact hal, by rw [al_eq]; exact hlog, by simpa using nonempty, by simpa using hlen, ?_, ?_, ?_⟩
  · simp only [BitVec.toNat_ofNat, List.length_map]; omega
  · rw [distCounts, counts_eq]; exact hlow
  · rw [distCounts, counts_eq, al_eq]; exact mass

theorem ends_setDist {t : TSel} {al : Nat} {counts : List Int} (hal : 5 ≤ al) (hlog : al ≤ maxLog t)
    (h : CountsSoFar t (2 ^ al + 1) 1 counts) :
    Ends (setDist t al counts) s fun _ u => u.dist.valid = true ∧ u.dist.tag = t :=
  .change (.dist s _ rfl (distOk_of_counts hal hlog h)) ⟨rfl, rfl⟩

/-- The predefined distributions are distributions (R152). -/
theorem ends_loadPredef {t : TSel} (ht : t ≠ .hw) :
    Ends (loadPredef t) s fun _ u => u.dist.valid = true ∧ u.dist.tag = t := by
  cases t with
  | hw => exact absurd rfl ht
  | ll | off | ml => exact ends_setDist (by decide) (by decide) ⟨by decide, by decide, by decide⟩

/-- ReadNCount stages a distribution of its alphabet and returns an address of the region (R150). -/
theorem ends_readNCount (t : TSel) (hv : s.fr.valid = true) : Ends (readNCount t) s fun v u =>
    (u.dist.valid = true ∧ u.dist.tag = t) ∧
      (s.fr.base.toNat ≤ s.fr.lim.toNat → FrPosOk s.fr → v ≤ s.fr.lim.toNat) := by
  refine (ends_fread 4 hv).bind fun f u _ hc ⟨hf, hr⟩ => .ensure_bind fun hlog => ?_
  have width : FieldWidth (2 ^ (f + 5) + 1) (2 ^ (f + 5)) (f + 5 + 1) :=
    ⟨by omega, by simp, by omega, by have : 2 ≤ 2 ^ (f + 5) := Nat.le_self_pow (by omega) 2; omega⟩
  refine (ends_ncountLoop t (2 ^ (f + 5) + 1) _ _ _ _ [] false (hc.keepsValid.fr hv) width
    ⟨by simp, by simp, by simp⟩).bind fun out u' _ hc' ⟨counts, hr'⟩ => .ensure_bind fun hsum => ?_
  rw [hsum] at counts
  refine ends_falign.bind fun v u'' _ _ hv' => (ends_setDist (by omega) hlog counts).bind fun _ u3 _ _ hd => .pure ⟨hd, ?_⟩
  have region := hr.trans hr'
  rw [region.base, region.lim] at hv'
  exact fun hbase hpos => hv' hbase (region.pos hpos)

/-! ## Tables -/

theorem ends_buildTable {t : TSel} (hvalid : s.dist.valid = true) (htag : s.dist.tag = t) :
    Ends (buildTable t) s fun _ u => (u.ft.get t).valid = true := by
  refine .look_bind ?_
  cases h : buildEntries (id s).dist.al.toNat (Config.freeNat (id s).draws .symAt) (distCounts (id s).dist) with
  | none => exact .raise
  | some entries =>
    exact .change (.table s t _ rfl fun hd => htag ▸ tableOkFor_of_buildEntries (hd hvalid) h) (by simp)

/-- The table of one symbol is well formed (R157). -/
theorem tableOkFor_single {t : TSel} {sym : Nat} (h : sym ≤ maxSym t) :
    tableOkFor t ⟨true, 0, [⟨BitVec.ofNat 8 sym, 0, 0⟩]⟩ := by
  have := maxSym_le t
  refine ⟨by simp, by simp, fun e he => ?_⟩
  rw [List.mem_singleton.mp he]
  refine ⟨by simp, by simp, ?_⟩
  simp only [BitVec.toNat_ofNat]
  omega

theorem ends_rleTable (t : TSel) (sym : Nat) : Ends (rleTable t sym) s fun _ u => (u.ft.get t).valid = true :=
  .ensure_bind fun h => .change (.table s t _ rfl fun _ => tableOkFor_single h) (by simp)

theorem ends_repeatTable (t : TSel) : Ends (repeatTable t) s fun _ u => (u.ft.get t).valid = true :=
  .look_bind (.ensure fun h => h)

/-! ## State registers (R159) -/

/-- ST[x] points into its table (R30). -/
def StateIn (s : State) (x : SSel) : Prop := (s.st.get x).toNat < 2 ^ (s.ft.get (tabOf x)).al.toNat

/-- A state register that points into a well formed table finds one of its entries. -/
theorem stateEntry_mem {x : SSel} (h : tableOkFor (tabOf x) (s.ft.get (tabOf x))) (hx : StateIn s x) :
    stateEntry s x ∈ (s.ft.get (tabOf x)).entries := by
  have hlt : (s.st.get x).toNat < (s.ft.get (tabOf x)).entries.length := by rw [h.2.1]; exact hx
  rw [stateEntry, tableEntry, List.getElem?_eq_getElem hlt, Option.getD_some]
  exact List.getElem_mem hlt

theorem ends_initState (x : SSel) {r : RSel} (hv : (s.rr.get r).valid = true) :
    Ends (initState x r) s fun _ u => StateIn u x := by
  refine .look_bind ((ends_rread r _ hv).bind fun v t e _ hlt => (ends_setSt x v).mono fun _ u _ _ hu => ?_)
  have hft : t.ft.get (tabOf x) = s.ft.get (tabOf x) := (touches_rread r _).ok e (.ft (tabOf x)) (by simp)
  subst hu
  simp only [StateIn, StBank.get_set_same, hft, BitVec.toNat_ofNat]
  exact (Nat.mod_le _ _).trans_lt hlt

theorem ends_updState (x : SSel) {r : RSel} (hv : (s.rr.get r).valid = true) :
    Ends (updState x r) s fun _ u => tableOkFor (tabOf x) (s.ft.get (tabOf x)) → StateIn s x → StateIn u x := by
  refine .look_bind ((ends_rread r _ hv).bind fun v t e _ hlt => (ends_setSt x _).mono fun _ u _ _ hu hok hx => ?_)
  have hft : t.ft.get (tabOf x) = s.ft.get (tabOf x) := (touches_rread r _).ok e (.ft (tabOf x)) (by simp)
  have hentry := (hok.2.2 _ (stateEntry_mem hok hx)).2.1
  subst hu
  simp only [StateIn, StBank.get_set_same, hft, BitVec.toNat_ofNat]
  exact (Nat.mod_le _ _).trans_lt (by omega)

end Sys2Proof.Machine
end

section
/-! SUPPORT. How the operations of the Huffman decoder and of the literals section end (43_huffman.md, 44_literals.md):
HuffBuild leaves the canonical code of its weights (R197), and no byte is read past the region or written past LIT. -/

namespace Sys2Proof.Machine

variable {s : State}

/-! ## HuffBuild (R194 to R197) -/

theorem length_entriesOfWeight (maxlen w : Nat) : ∀ (wd : List Byte) (sym : Nat),
    (entriesOfWeight maxlen w wd sym).length = (wd.map fun x => if x.toNat = w then 2 ^ (w - 1) else 0).sum
  | [], _ => rfl
  | x :: wd, sym => by
    rw [entriesOfWeight, List.length_append, length_entriesOfWeight maxlen w wd, List.map_cons, List.sum_cons]
    split_ifs <;> simp

/-- A weight of at most `n` has its mass at one of the weights 1 to `n`. -/
theorem sum_weight_mass (x : Nat) : ∀ {n : Nat}, x ≤ n →
    ((List.range n).map fun k => if x = k + 1 then 2 ^ k else 0).sum = if x = 0 then 0 else 2 ^ (x - 1)
  | 0, h => by simp [Nat.le_zero.mp h]
  | n + 1, h => by
    rw [List.range_succ, List.map_append, List.sum_append]
    by_cases e : x = n + 1
    · have none : ((List.range n).map fun k => if x = k + 1 then 2 ^ k else 0).sum = 0 := by
        rw [List.sum_eq_zero_iff_forall_eq_nat]
        simp only [List.mem_map, List.mem_range]
        rintro y ⟨k, hk, rfl⟩
        rw [if_neg (by omega)]
      rw [none]
      simp [e]
    · rw [sum_weight_mass x (by omega)]
      simp [e]

/-- The code of weights of at most `maxlen` has as many entries as the weights have mass (R194, R197). -/
theorem length_huffEntries {maxlen : Nat} {wd : List Byte} (h : ∀ x ∈ wd, x.toNat ≤ maxlen) :
    (huffEntries maxlen wd).length = weightSum wd := by
  unfold huffEntries weightSum
  simp only [List.length_flatMap, length_entriesOfWeight, Nat.add_sub_cancel]
  induction wd with
  | nil => simp
  | cons x wd ih =>
    rw [List.forall_mem_cons] at h
    simp only [List.map_cons, List.sum_cons, List.sum_map_add]
    rw [ih h.2, sum_weight_mass x.toNat h.1]

theorem weightSum_append (wd : List Byte) (x : Byte) :
    weightSum (wd ++ [x]) = weightSum wd + if x.toNat = 0 then 0 else 2 ^ (x.toNat - 1) := by
  simp [weightSum]

/-- No weight has more mass than all of them, so none is above the code's length (R194). -/
theorem weight_le_of_mem {wd : List Byte} {x : Byte} (hx : x ∈ wd) : x.toNat ≤ highbit (weightSum wd) + 1 := by
  by_cases h0 : x.toNat = 0
  · omega
  · have hle : 2 ^ (x.toNat - 1) ≤ weightSum wd := by
      have := List.single_le_sum (fun _ _ => Nat.zero_le _) _
        (List.mem_map_of_mem (f := fun w : Byte => if w.toNat = 0 then 0 else 2 ^ (w.toNat - 1)) hx)
      rwa [if_neg h0] at this
    have hne : weightSum wd ≠ 0 := (lt_of_lt_of_le (by positivity) hle).ne'
    have := (Nat.le_log2 hne).mpr hle
    unfold highbit
    omega

/-- HuffBuild publishes the canonical code of its weights, the synthesized one included (R194 to R197). -/
theorem ends_huffBuild {wd : List Byte} (hlen : wd.length ≤ 255) : Ends (huffBuild wd) s fun _ _ => True := by
  refine .ensure_bind fun hrange => .ensure_bind fun hne => .ensure_bind fun hmax => .ensure_bind fun hpow =>
    .ensure_bind fun _ => .change (.code s _ _ _ rfl fun _ => ?_) trivial
  simp only [Config.hufMaxLen] at hrange hmax ⊢
  generalize hm : highbit (weightSum wd) + 1 = maxlen at hmax hpow ⊢
  generalize hr : 2 ^ maxlen - weightSum wd = rest at hpow ⊢
  have below : weightSum wd < 2 ^ maxlen := hm ▸ Nat.lt_log2_self
  have above : 2 ^ (maxlen - 1) ≤ weightSum wd := by
    rw [← hm, Nat.add_sub_cancel]; exact Nat.log2_self_le hne
  have double : 2 ^ maxlen = 2 * 2 ^ (maxlen - 1) := by rw [← pow_succ', Nat.sub_add_cancel (by omega)]
  have rest_pow : 2 ^ highbit rest = rest := by
    simp only [ispow2, Bool.and_eq_true, beq_iff_eq] at hpow; exact hpow.2
  have last_le : highbit rest ≤ maxlen - 1 :=
    (Nat.pow_le_pow_iff_right (a := 2) (by norm_num)).mp (by rw [rest_pow]; omega)
  have last_eq : (BitVec.ofNat 8 (highbit rest + 1)).toNat = highbit rest + 1 := toNat_ofNat_of_lt (by omega)
  have max_eq : (BitVec.ofNat 4 maxlen).toNat = maxlen := toNat_ofNat_of_lt (by omega)
  have weights : ∀ x ∈ wd ++ [BitVec.ofNat 8 (highbit rest + 1)], x.toNat ≤ maxlen := fun x hx => by
    rcases List.mem_append.mp hx with hx | hx
    · exact hm ▸ weight_le_of_mem hx
    · rw [List.mem_singleton.mp hx, last_eq]; omega
  refine ⟨by rw [max_eq]; omega, by rw [max_eq]; exact hmax, ?_, by rw [max_eq], ?_, fun x hx => (weights x hx).trans hmax⟩
  · rw [max_eq, length_huffEntries weights, weightSum_append, last_eq, if_neg (by omega), Nat.add_sub_cancel, rest_pow]
    omega
  · simp only [BitVec.toNat_ofNat, List.length_append, List.length_singleton]
    omega

/-! ## Weights (R191 to R193) -/

theorem ends_rawWeightsFrom (a : Nat) : ∀ k i, a + 1 + (i + k + 1) / 2 ≤ s.inLen.toNat →
    Ends (rawWeightsFrom a k i) s fun wd t => wd.length = k ∧ t = s
  | 0, _, _ => .pure ⟨rfl, rfl⟩
  | k + 1, i, h => .readIn_bind (by omega) ((ends_rawWeightsFrom a k (i + 1) (by omega)).bind
      fun _ _ _ _ ⟨hlen, ht⟩ => .pure ⟨by rw [List.length_cons, hlen], ht⟩)

/-- The weights of a description, few enough for HuffBuild, and its end inside the region. -/
def WeightsRead (a lim : Nat) (out : List Byte × Nat) : Prop := out.1.length ≤ 255 ∧ a ≤ out.2 ∧ out.2 ≤ lim

theorem ends_rawWeights {a hb lim : Nat} (hhb : hb < 256) (hlim : lim ≤ s.inLen.toNat) :
    Ends (rawWeights a hb lim) s fun out _ => WeightsRead a lim out := by
  have few : hb - 127 ≤ 255 := by omega
  unfold rawWeights
  generalize hb - 127 = n at few ⊢
  exact .ensure_bind fun hlast => (ends_rawWeightsFrom a n 0 (by omega)).bind
    fun _ _ _ _ ⟨hlen, _⟩ => .pure ⟨by simp only; omega, by simp only; omega, hlast⟩

theorem ends_weightLoop : ∀ (fuel : Nat) (wd : List Byte) {s : State}, (s.rr.get .r5).valid = true →
    Ends (weightLoop fuel wd) s fun out _ => out.length ≤ 255
  | 0, _, _, _ => .raise
  | fuel + 1, wd, s, hv => by
    refine .ensure_bind fun hlen => .look_bind ?_
    refine (ends_updState .w1 hv).bind fun _ t _ hc _ => .look_bind (.ite (fun _ => .look_bind (.pure ?_)) fun _ => ?_)
    · simp; omega
    refine .ensure_bind fun hlen' => .look_bind ?_
    refine (ends_updState .w2 (hc.keepsValid.rr _ hv)).bind fun _ u _ hc' _ =>
      .look_bind (.ite (fun _ => .look_bind (.pure ?_)) fun _ => ?_)
    · simp; omega
    · exact ends_weightLoop fuel _ (hc'.keepsValid.rr _ (hc.keepsValid.rr _ hv))

theorem ends_fseWeights {a hb lim : Nat} (hlim : lim ≤ s.inLen.toNat) :
    Ends (fseWeights a hb lim) s fun out _ => WeightsRead a lim out := by
  refine .ensure_bind fun hlast => ?_
  refine (ends_finit (by omega) (by omega)).bind fun _ t1 _ c1 ⟨hv, hbase, hend, hpos⟩ => ?_
  refine (ends_readNCount .hw hv).bind fun ws t2 _ c2 ⟨⟨hdv, htag⟩, hws⟩ => ?_
  have hws := hws (by omega) hpos
  refine (ends_buildTable hdv htag).bind fun _ t3 _ c3 _ => ?_
  have hin : t3.inLen = s.inLen := Changes.inLen ((c1.trans c2).trans c3)
  refine (ends_rinit .r5 (by rw [hin]; omega)).bind fun _ t4 _ c4 hr => ?_
  refine (ends_initState .w1 hr).bind fun _ t5 _ c5 _ => ?_
  have hr := c5.keepsValid.rr _ hr
  refine (ends_initState .w2 hr).bind fun _ t6 _ c6 _ => ?_
  exact (ends_weightLoop 128 [] (c6.keepsValid.rr _ hr)).bind fun wd _ _ _ hwd => .pure ⟨hwd, by simp only; omega, hlast⟩

/-! ## HuffTree (R190) -/

theorem ends_huffTreeFrom {hb a lim : Nat} (hhb : hb < 256) (hlim : lim ≤ s.inLen.toNat) :
    Ends (huffTreeFrom hb a lim) s fun v _ => a + v ≤ lim := by
  have weights : Ends (readWeights hb a lim) s fun out _ => WeightsRead a lim out :=
    .ite (fun _ => ends_fseWeights hlim) fun _ => ends_rawWeights hhb hlim
  exact weights.bind fun out _ _ _ ⟨hlen, hlo, hhi⟩ => (ends_huffBuild hlen).bind fun _ _ _ _ _ => .pure (by omega)

theorem ends_huffTree {a lim : Nat} (hlim : lim ≤ s.inLen.toNat) : Ends (huffTree a lim) s fun v _ => a + v ≤ lim :=
  .ensure_bind fun h => .readIn_bind (by omega) (ends_huffTreeFrom (inByte s a).isLt hlim)

/-! ## Literals (R199, R200, R220 to R230) -/

/-- LIT has room for `n` bytes: it has so for a literal count below BLOCK_MAX (R25, R63). -/
def LitRoom (s : State) (n : Nat) : Prop := n ≤ s.blockMax.toNat ∨ n ≤ Config.litCap

theorem LitRoom.le {n : Nat} (h : LitRoom s n) (hs : Sound s) : n ≤ Config.litCap :=
  h.elim (fun h => h.trans hs.ranges.blockMax.2) id
theorem LitRoom.mono {n m : Nat} (h : LitRoom s n) (hm : m ≤ n) : LitRoom s m := h.imp hm.trans hm.trans
theorem LitRoom.after {t : State} {n : Nat} (h : LitRoom s n) (hc : Changes s t) : LitRoom t n := by
  unfold LitRoom at h ⊢; rwa [hc.blockMax]

theorem ends_huffSym {r : RSel} (hv : (s.rr.get r).valid = true) : Ends (huffSym r) s fun _ _ => True :=
  .look_bind ((ends_rpeek r _ hv).bind fun _ _ _ _ _ => .look_bind ((ends_rconsume r _).bind fun _ _ _ _ _ =>
    .look_bind (.ensure_bind fun _ => .pure trivial)))

theorem ends_huffSymbols (r : RSel) : ∀ (count dst : Nat) {s : State}, (s.rr.get r).valid = true →
    LitRoom s (dst + count) → Ends (huffSymbols r count dst) s fun _ _ => True
  | 0, _, _, _, _ => .pure trivial
  | count + 1, dst, s, hv, hroom => by
    refine (ends_huffSym hv).bind fun b t _ hc _ => ?_
    have hroom := hroom.after hc
    refine (ends_writeLit b fun hs => by have := hroom.le hs; omega).bind fun _ u _ hc' _ => ?_
    exact ends_huffSymbols r count (dst + 1) (hc'.keepsValid.rr _ (hc.keepsValid.rr _ hv))
      ((hroom.after hc').mono (by omega))

theorem ends_huffStream {r : RSel} {count dst : Nat} (hv : (s.rr.get r).valid = true) (hroom : LitRoom s (dst + count)) :
    Ends (huffStream r count dst) s fun _ _ => True :=
  (ends_huffSymbols r count dst hv hroom).bind fun _ _ _ _ _ => .look_bind (.ensure fun _ => trivial)

theorem ends_copyLit : ∀ (k src dst : Nat) {s : State}, src + k ≤ s.inLen.toNat → LitRoom s (dst + k) →
    Ends (copyLit k src dst) s fun _ _ => True
  | 0, _, _, _, _, _ => .pure trivial
  | k + 1, src, dst, s, hsrc, hroom => by
    refine .readIn_bind (by omega) ((ends_writeLit _ fun hs => by have := hroom.le hs; omega).bind fun _ t _ hc _ => ?_)
    exact ends_copyLit k (src + 1) (dst + 1) (by rw [hc.inLen]; omega) ((hroom.after hc).mono (by omega))

theorem ends_fillLit (b : Byte) : ∀ (k dst : Nat) {s : State}, LitRoom s (dst + k) →
    Ends (fillLit b k dst) s fun _ _ => True
  | 0, _, _, _ => .pure trivial
  | k + 1, dst, s, hroom => by
    refine (ends_writeLit b fun hs => by have := hroom.le hs; omega).bind fun _ t _ hc _ => ?_
    exact ends_fillLit b k (dst + 1) ((hroom.after hc).mono (by omega))

theorem ends_litStream (r : RSel) {q len count dst : Nat} (hq : q + len ≤ s.inLen.toNat) (hroom : LitRoom s (dst + count)) :
    Ends (litStream r q len count dst) s fun _ _ => True :=
  (ends_rinit r hq).bind fun _ _ _ hc hv => ends_huffStream hv (hroom.after hc)

/-- The four streams stay inside the section and, since there are at least 6 literals, inside LIT (R227 to R229). -/
theorem ends_fourStreams {p last regen : Nat} (hlast : last ≤ s.inLen.toNat) (hregen : 6 ≤ regen) (hroom : LitRoom s regen) :
    Ends (fourStreams p last regen) s fun _ _ => True := by
  refine .ensure_bind fun htable => ?_
  refine .memRead_bind (by omega) fun s1 => .memRead_bind (by omega) fun s2 => .memRead_bind (by omega) fun s3 => ?_
  refine .ensure_bind fun hsizes => ?_
  refine (ends_litStream .r0 (by omega) (hroom.mono (by omega))).bind fun _ t1 _ c1 _ => ?_
  have hroom := hroom.after c1
  refine (ends_litStream .r1 (by rw [c1.inLen]; omega) (hroom.mono (by omega))).bind fun _ t2 _ c2 _ => ?_
  have hroom := hroom.after c2
  refine (ends_litStream .r2 (by rw [c2.inLen, c1.inLen]; omega) (hroom.mono (by omega))).bind fun _ t3 _ c3 _ => ?_
  exact ends_litStream .r3 (by rw [c3.inLen, c2.inLen, c1.inLen]; omega) ((hroom.after c3).mono (by omega))

theorem ends_bodyTable {h : LitHeader} {p last : Nat} (hp : p ≤ last) (hlast : last ≤ s.inLen.toNat) :
    Ends (bodyTable h p last) s fun v _ => p + v ≤ last :=
  .ite (fun _ => ends_huffTree hlast) fun _ =>
    Ends.bind (Q := fun _ _ => True) (.look_bind (.ensure fun _ => trivial)) fun _ _ _ _ _ => .pure hp

theorem ends_codedBody {h : LitHeader} {p last : Nat} (hp : p ≤ last) (hlast : last ≤ s.inLen.toNat)
    (hregen : h.streams = 1 ∨ 6 ≤ h.regen) (hroom : LitRoom s h.regen) : Ends (codedBody h p last) s fun _ _ => True := by
  refine (ends_bodyTable hp hlast).bind fun size t _ hc hsize => ?_
  have hroom := hroom.after hc
  rw [← hc.inLen] at hlast
  exact .ite (fun _ => ends_litStream .r0 (by omega) (by rwa [Nat.zero_add]))
    fun h1 => ends_fourStreams hlast (hregen.resolve_left h1) hroom

theorem ends_litBody (h : LitHeader) {a lim : Nat} (hlim : lim ≤ s.inLen.toNat) (hroom : LitRoom s h.regen) :
    Ends (litBody h a lim) s fun _ _ => True := by
  unfold litBody
  split
  case h_1 =>
    exact .ensure_bind fun hend => (ends_copyLit _ _ _ (by omega) (by rwa [Nat.zero_add])).bind
      fun _ _ _ _ _ => .pure trivial
  case h_2 =>
    exact .ensure_bind fun hend => .readIn_bind (by omega) ((ends_fillLit _ _ _ (by rwa [Nat.zero_add])).bind
      fun _ _ _ _ _ => .pure trivial)
  all_goals
    exact .ensure_bind fun hregen => .ensure_bind fun hend =>
      (ends_codedBody (Nat.le_add_right _ _) (by omega) hregen hroom).bind fun _ _ _ _ _ => .pure trivial

theorem ends_litSection (h : LitHeader) {a lim : Nat} (hlim : lim ≤ s.inLen.toNat) :
    Ends (litSection h a lim) s fun _ _ => True := by
  refine .ensure_bind fun _ => ?_
  refine Ends.bind (Q := fun _ t => h.regen ≤ s.blockMax.toNat ∧ t = s) (.look_bind (.ensure fun h => ⟨h, rfl⟩)) ?_
  rintro _ t - - ⟨hregen, rfl⟩
  refine (ends_litBody h hlim (.inl hregen)).bind fun v u _ hc _ => ?_
  refine Ends.bind (Q := fun _ _ => True) (.change (.litLen u _ ?_) trivial) fun _ _ _ _ _ => .pure trivial
  rw [hc.blockMax, BitVec.toNat_ofNat]
  exact (Nat.mod_le _ _).trans hregen

theorem ends_litDecode {a lim : Nat} (hlim : lim ≤ s.inLen.toNat) : Ends (litDecode a lim) s fun _ _ => True :=
  .ensure_bind fun _ => .readIn_bind (by omega) (.ensure_bind fun _ => .readBytes_bind (by omega) fun _ =>
    ends_litSection _ hlim)

end Sys2Proof.Machine
end

section
/-! SUPPORT. How the operations of the sequences section end (45_sequences.md): the state of the offset table keeps
pointing into it, so that every Offset_Value fits 32 bits (R258, R262), and SEQ has room for every count (R64, R250). -/

namespace Sys2Proof.Machine

variable {s : State}

/-! ## Offsets (R262) -/

theorem ends_resolveOffset {ofv ll : Nat} (hofv : TablesSound s → ofv < 2 ^ 32) :
    Ends (resolveOffset ofv ll) s fun off t => BitVec.ofNat 32 off = t.rep.rep0 := by
  refine .look_bind ?_
  cases h : resolveRep s.rep ofv ll with
  | none => exact .raise
  | some out =>
    exact Ends.bind (Q := fun _ t => t.rep = out.2) (.change (.resolve s ofv ll out h hofv) rfl)
      fun _ _ _ _ ht => .pure (by rw [ht]; exact resolveRep_fst h)

theorem ends_seqAppend (ll ml : Nat) {off : Nat} (hoff : BitVec.ofNat 32 off = s.rep.rep0)
    (hroom : s.nbSeq.toNat < Config.seqCap) :
    Ends (seqAppend ll off ml) s fun _ t => t.nbSeq.toNat = s.nbSeq.toNat + 1 := by
  simp only [Config.seqCap] at hroom
  refine .of_ok (seqAppend_of_lt hroom) (.single ?_) (by simp only [BitVec.toNat_ofNat]; omega)
  rw [hoff]
  exact .append s _ _ hroom

/-! ## Tables and states of a section -/

/-- The offset table is ready, and its state points into it where it is well formed. -/
structure OffsetReady (s : State) : Prop where
  valid : (s.ft.get .off).valid = true
  state : tableOkFor .off (s.ft.get .off) → StateIn s .off

theorem OffsetReady.of_keeps {ps : List Part} {t : State} (h : OffsetReady s) (k : Keeps ps s t) (hft : .ft .off ∉ ps)
    (hst : .st .off ∉ ps) : OffsetReady t := by
  have ft : t.ft.get .off = s.ft.get .off := k _ hft
  have st : t.st.get .off = s.st.get .off := k _ hst
  refine ⟨by rw [ft]; exact h.valid, fun hok => ?_⟩
  have := h.state (by rwa [← ft])
  unfold StateIn at this ⊢
  rwa [st, show t.ft.get (tabOf .off) = s.ft.get (tabOf .off) from ft]

theorem ends_seqTable {t : TSel} (ht : t ≠ .hw) (mode : BitVec 2) {p lim : Nat} (hp : p ≤ lim)
    (hlim : lim ≤ s.inLen.toNat) : Ends (seqTable t mode p lim) s fun v u => v ≤ lim ∧ (u.ft.get t).valid = true := by
  unfold seqTable
  split
  · exact (ends_loadPredef ht).bind fun _ _ _ _ ⟨hd, htag⟩ => (ends_buildTable hd htag).bind
      fun _ _ _ _ hv => .pure ⟨hp, hv⟩
  · exact .ensure_bind fun hend => .readIn_bind (by omega) ((ends_rleTable t _).bind fun _ _ _ _ hv => .pure ⟨hend, hv⟩)
  · refine (ends_finit hp hlim).bind fun _ _ _ _ ⟨hv, hbase, hend, hpos⟩ => ?_
    refine (ends_readNCount t hv).bind fun v _ _ _ ⟨⟨hd, htag⟩, hle⟩ => ?_
    exact (ends_buildTable hd htag).bind fun _ _ _ _ hv => .pure ⟨by have := hle (by omega) hpos; omega, hv⟩
  · exact (ends_repeatTable t).bind fun _ _ _ _ hv => .pure ⟨hp, hv⟩

/-! ## Sequences (R258 to R261) -/

/-- Over a well formed table an Offset_Value fits 32 bits: no offset code is above 31 (R151, R258). -/
theorem ends_seqReads (hv : (s.rr.get .r4).valid = true) (hr : OffsetReady s) :
    Ends seqReads s fun v _ => tableOkFor .off (s.ft.get .off) → v.1 < 2 ^ 32 := by
  refine .look_bind (.look_bind (.look_bind ?_))
  refine (ends_rread .r4 _ hv).bind fun e t1 _ c1 he => ?_
  have hv := c1.keepsValid.rr _ hv
  refine (ends_rread .r4 _ hv).bind fun m t2 _ c2 _ => ?_
  refine (ends_rread .r4 _ (c2.keepsValid.rr _ hv)).bind fun l t3 _ _ _ => .pure fun hok => ?_
  have code : (stateEntry s .off).sym.toNat ≤ 31 := (hok.2.2 _ (stateEntry_mem (x := .off) hok (hr.state hok))).2.2
  calc 2 ^ (stateEntry s .off).sym.toNat + e < 2 ^ ((stateEntry s .off).sym.toNat + 1) := by rw [pow_succ]; omega
    _ ≤ 2 ^ 32 := Nat.pow_le_pow_right (by norm_num) (by omega)

theorem ends_seqUpdates (last : Bool) (hv : (s.rr.get .r4).valid = true) (hr : OffsetReady s) :
    Ends (seqUpdates last) s fun _ t => OffsetReady t := by
  refine .ite (fun _ => .pure hr) fun _ => ?_
  refine (ends_updState .ll hv).bind fun _ t1 e1 c1 _ => ?_
  have hr := hr.of_keeps ((touches_updState .ll .r4).ok e1) (by decide) (by decide)
  have hv := c1.keepsValid.rr _ hv
  refine (ends_updState .ml hv).bind fun _ t2 e2 c2 _ => ?_
  have hr := hr.of_keeps ((touches_updState .ml .r4).ok e2) (by decide) (by decide)
  refine (ends_updState .off (c2.keepsValid.rr _ hv)).mono fun _ t3 e3 _ hin => ?_
  have ft : t3.ft.get .off = t2.ft.get .off := (touches_updState .off .r4).ok e3 (.ft .off) (by decide)
  exact ⟨by rw [ft]; exact hr.valid, fun hok => hin (ft ▸ hok) (hr.state (ft ▸ hok))⟩

theorem ends_seqStep (last : Bool) (hv : (s.rr.get .r4).valid = true) (hr : OffsetReady s)
    (hroom : s.nbSeq.toNat < Config.seqCap) :
    Ends (seqStep last) s fun _ t => OffsetReady t ∧ t.nbSeq.toNat = s.nbSeq.toNat + 1 := by
  refine (ends_seqReads hv hr).bind fun v t1 e1 c1 hofv => ?_
  have k1 := touches_seqReads.ok e1
  have hr1 := hr.of_keeps k1 (by decide) (by decide)
  refine (ends_seqUpdates last (c1.keepsValid.rr _ hv) hr1).bind fun _ t2 e2 _ hr2 => ?_
  have k2 := (touches_seqUpdates last).ok e2
  refine .look_bind (.ensure_bind fun _ => ?_)
  have ft : t2.ft.get .off = s.ft.get .off := (k1 (.ft .off) (by decide)).trans (k2 (.ft .off) (by decide))
  have fits : TablesSound t2 → v.1 < 2 ^ 32 := fun ht => hofv (ft ▸ ht.ft .off hr2.valid)
  refine (ends_resolveOffset fits).bind fun off t3 e3 _ hoff => ?_
  have k3 := (touches_resolveOffset v.1 v.2.2).ok e3
  have nb : t3.nbSeq = s.nbSeq :=
    ((k1 .nbSeq (by decide)).trans (k2 .nbSeq (by decide))).trans (k3 .nbSeq (by decide))
  refine (ends_seqAppend _ _ hoff (by rwa [nb])).mono fun _ t4 e4 _ hn => ?_
  exact ⟨(hr2.of_keeps k3 (by decide) (by decide)).of_keeps ((touches_seqAppend _ _ _).ok e4) (by decide) (by decide),
    by rw [hn, nb]⟩

theorem ends_seqLoop : ∀ (k : Nat) {s : State}, (s.rr.get .r4).valid = true → OffsetReady s →
    s.nbSeq.toNat + k ≤ Config.seqCap → Ends (seqLoop k) s fun _ _ => True
  | 0, _, _, _, _ => .pure trivial
  | k + 1, _, hv, hr, hroom =>
    (ends_seqStep _ hv hr (by omega)).bind fun _ _ _ hc ⟨hr, hn⟩ =>
      ends_seqLoop k (hc.keepsValid.rr _ hv) hr (by omega)

/-! ## Sections (R263) -/

theorem ends_seqFromModes (m : Byte) {count p lim : Nat} (hp : p ≤ lim) (hlim : lim ≤ s.inLen.toNat)
    (hroom : s.nbSeq.toNat + count ≤ Config.seqCap) : Ends (seqFromModes m count p lim) s fun _ _ => True := by
  refine .ensure_bind fun _ => ?_
  refine (ends_seqTable (by decide) _ hp hlim).bind fun p1 t1 e1 c1 ⟨hp1, _⟩ => ?_
  have same : samePart .nbSeq s t1 := (touches_seqTable .ll _ _ _).ok e1 _ (by decide)
  rw [← c1.inLen] at hlim
  refine (ends_seqTable (by decide) _ hp1 hlim).bind fun p2 t2 e2 c2 ⟨hp2, hoff⟩ => ?_
  have same := same.trans ((touches_seqTable .off _ _ _).ok e2 _ (by decide))
  rw [← c2.inLen] at hlim
  refine (ends_seqTable (by decide) _ hp2 hlim).bind fun p3 t3 e3 c3 ⟨hp3, _⟩ => ?_
  have same := same.trans ((touches_seqTable .ml _ _ _).ok e3 _ (by decide))
  rw [← c3.inLen] at hlim
  have hoff := c3.keepsValid.ft .off hoff
  refine (ends_rinit .r4 (by omega)).bind fun _ t4 e4 c4 hv => ?_
  have same := same.trans ((touches_rinit .r4 _ _).ok e4 _ (by decide))
  have hoff := c4.keepsValid.ft .off hoff
  refine (ends_initState .ll hv).bind fun _ t5 e5 c5 _ => ?_
  have same := same.trans ((touches_initState .ll .r4).ok e5 _ (by decide))
  have hv := c5.keepsValid.rr _ hv
  refine (ends_initState .off hv).bind fun _ t6 e6 c6 hst => ?_
  have same := same.trans ((touches_initState .off .r4).ok e6 _ (by decide))
  have hv := c6.keepsValid.rr _ hv
  have hr : OffsetReady t6 := ⟨c6.keepsValid.ft _ (c5.keepsValid.ft _ hoff), fun _ => hst⟩
  refine (ends_initState .ml hv).bind fun _ t7 e7 c7 _ => ?_
  have k7 := (touches_initState .ml .r4).ok e7
  have same : t7.nbSeq = s.nbSeq := same.trans (k7 _ (by decide))
  have hr := hr.of_keeps k7 (by decide) (by decide)
  refine (ends_seqLoop count (c7.keepsValid.rr _ hv) hr ?_).bind fun _ _ _ _ _ => .look_bind (.ensure fun _ => trivial)
  rwa [same]

theorem ends_seqFromCount {c : SeqCount} (forced : Option Byte) {a lim : Nat} (hlim : lim ≤ s.inLen.toNat)
    (hroom : s.nbSeq.toNat + c.count ≤ Config.seqCap) : Ends (seqFromCount c forced a lim) s fun _ _ => True := by
  refine .ensure_bind fun _ => .ite (fun _ => .ensure fun _ => trivial) fun _ =>
    .ensure_bind fun hend => .ensure_bind fun _ => ?_
  have section_ends : ∀ m, Ends (seqFromModes m c.count (a + c.size + 1) lim) s fun _ _ => True :=
    fun m => ends_seqFromModes m hend hlim hroom
  cases forced with
  | some m => exact section_ends m
  | none => exact .readIn_bind (by omega) (section_ends _)

/-- No form of Number_of_Sequences holds more than SEQ does (R64, R250). -/
theorem seqCount_le (bytes : List Byte) : (seqCount bytes).count ≤ Config.seqCap := by
  have h0 := (bytes.headD 0).isLt
  have h1 := (bytes.getD 1 0).isLt
  have h2 := (bytes.getD 2 0).isLt
  simp only [seqCount, Config.seqCap]
  split_ifs <;> simp only <;> omega

theorem ends_readSeqCount {a lim : Nat} (hlim : lim ≤ s.inLen.toNat) :
    Ends (readSeqCount a lim) s fun c t => c.count ≤ Config.seqCap ∧ t = s :=
  .ensure_bind fun _ => .readIn_bind (by omega) (.ensure_bind fun _ => .readBytes_bind (by omega)
    fun bs => .pure ⟨seqCount_le bs, rfl⟩)

theorem ends_seqStart : Ends seqStart s fun _ t => t.nbSeq.toNat = 0 := .change (.seqStart s) rfl

theorem ends_seqDecode {a lim : Nat} (hlim : lim ≤ s.inLen.toNat) : Ends (seqDecode a lim) s fun _ _ => True := by
  refine ends_seqStart.bind fun _ t _ hc hn => ?_
  rw [← hc.inLen] at hlim
  exact (ends_readSeqCount hlim).bind fun c u _ _ ⟨hle, hu⟩ => by
    subst hu; exact ends_seqFromCount none hlim (by omega)

end Sys2Proof.Machine
end

section
/-! SUPPORT. What a command and a step can do, said once: every command but FRAME_RESET is ignored, completes by changes,
or takes an error after changes (R85, R310, R311); every step is a command, an action of the host, or nothing (R65). -/

namespace Sys2Proof.Machine

variable {s t : State}

/-! ## Commands -/

/-- A command's operation goes from `s` to `t`: by changes, in DECODE_BLOCK after it has set IN_LEN (R293). -/
def Progress (s t : State) : Prop := Changes s t ∨ ∃ n, n ≤ Config.inCap ∧ Changes (setInLen n s) t

/-- The outcomes of a command other than FRAME_RESET. -/
inductive Course (s : State) : Result → Prop
  | ignored (h : noError s = false) : Course s (.next s)
  | done {t : State} (h : noError s = true) (hp : Progress s t) : Course s (.next t)
  | failed {s1 : State} (op : BitVec 8) (ws : List Element) (c : Cause) (h : noError s = true) (hp : Progress s s1) :
    Course s (.next (takeError op ws c s s1))
  | fault (f : Fault) (h : noError s = true) (hs : ¬Sound s) : Course s (.fault f)

/-- Whatever value it ends with. -/
theorem Ends.done {α : Type} {x : Op α} {Q : α → State → Prop} (h : Ends x s Q) : Ends x s fun _ _ => True :=
  h.mono fun _ _ _ _ _ => trivial

theorem course_of_ends {op : BitVec 8} {ws : List Element} {body : Op Unit}
    (h : Ends body s fun _ _ => True) : Course s (runCommand op ws body s) := by
  cases hn : noError s with
  | false => rw [runCommand_of_error hn]; exact .ignored hn
  | true =>
    rw [runCommand_of_noError hn]
    cases e : body s with
    | ok u t => exact .done hn (.inl (h.ok e).1)
    | error stop t =>
      cases stop with
      | raise c => exact .failed op ws c hn (.inl (h.error e))
      | fault f => exact .fault f hn (h.fault e)

theorem setInLen_toNat {n : Nat} (hn : n ≤ Config.inCap) (s : State) : (setInLen n s).inLen.toNat = n := by
  simp only [Config.inCap] at hn
  exact toNat_ofNat_of_lt (by omega)

/-- Setting IN_LEN keeps the state sound, since it marks the readers it cuts (R44, R62). -/
theorem Sound.setInLen {n : Nat} (hn : n ≤ Config.inCap) (h : Sound s) : Sound (setInLen n s) := by
  obtain ⟨⟨inLen, blockMax, litLen, nbSeq, inMem, lit⟩, fr, rr⟩ := h
  have len := setInLen_toNat hn s
  refine ⟨⟨by rwa [len], blockMax, litLen, nbSeq, inMem, lit⟩, fun hv => ?_, fun r hv => ?_⟩
  · obtain ⟨hbase, hcap, hpos, -⟩ := fr hv
    refine ⟨hbase, hcap, hpos, fun hm => ?_⟩
    simp only [setInLen_fr] at hv
    simp only [setInLen_frStale, Bool.or_eq_false_iff, frCut, hv, Bool.true_and, decide_eq_false_iff_not] at hm
    rw [len]
    exact not_lt.mp hm.2
  · obtain ⟨hlen, hrange, -⟩ := rr r hv
    refine ⟨hlen, hrange, fun hm => ?_⟩
    simp only [setInLen_rr] at hv
    simp only [setInLen_rrStale, markReverse_get, Bool.or_eq_false_iff, rrCut, hv, Bool.true_and,
      decide_eq_false_iff_not] at hm
    rw [len]
    exact not_lt.mp hm.2

theorem course_litHeader (h : LitHeader) : Course s (runLitHeader h s) :=
  course_of_ends (.look_bind ((ends_litSection h le_rfl).bind fun v _ _ _ _ => ends_setRes v))

theorem course_hufHeader {hb : Nat} (h : hb < 256) : Course s (runHufHeader hb s) :=
  course_of_ends (.look_bind (.ensure_bind fun _ => (ends_huffTreeFrom h le_rfl).bind fun v _ _ _ _ => ends_setRes v))

theorem course_seqCount (bytes : List Byte) : Course s (runSeqCount (seqCount bytes) s) :=
  course_of_ends (.look_bind (ends_seqStart.bind fun _ t _ hc hn =>
    (ends_seqFromCount none (le_of_eq (congrArg _ hc.inLen.symm)) (by have := seqCount_le bytes; omega)).bind
      fun _ _ _ _ _ => ends_setResNbSeq))

theorem course_modes (m : Byte) : Course s (runModes m s) := by
  refine course_of_ends (.look_bind (ends_seqStart.bind fun _ t _ hc hn => ?_))
  have hlim : s.inLen.toNat ≤ t.inLen.toNat := le_of_eq (congrArg _ hc.inLen.symm)
  refine (ends_readSeqCount hlim).bind fun c u _ _ ⟨hle, hu⟩ => ?_
  subst hu
  exact (ends_seqFromCount _ hlim (by omega)).bind fun _ _ _ _ _ => ends_setResNbSeq

/-- DECODE_BLOCK once its checks pass: the two sections over the declared block (R293). -/
theorem ends_sections {n : Nat} (hlen : n ≤ s.inLen.toNat) :
    Ends (litDecode 0 n >>= fun used => seqDecode used n >>= fun _ => setResNbSeq) s fun _ _ => True := by
  refine (ends_litDecode hlen).bind fun used t _ hc _ => ?_
  rw [← hc.inLen] at hlen
  exact (ends_seqDecode hlen).bind fun _ _ _ _ _ => ends_setResNbSeq

theorem course_decodeBlock (a0 : Word) : Course s (execDecodeBlock a0 s) := by
  unfold execDecodeBlock
  cases hn : noError s with
  | false => rw [runCommand_of_error hn]; exact .ignored hn
  | true =>
    rw [runCommand_of_noError hn]
    by_cases hcap : arg a0 ≤ Config.inCap
    · by_cases hmax : arg a0 ≤ s.blockMax.toNat
      · have h := ends_sections (s := setInLen (arg a0) s) (n := arg a0) (setInLen_toNat hcap s).ge
        rw [bind_of_ok (ensure_of hcap), bind_of_ok (look_apply _ s), bind_of_ok (ensure_of hmax),
          bind_of_ok (change_apply _ s)]
        generalize e : (litDecode 0 (arg a0) >>= fun used => seqDecode used (arg a0) >>= fun _ => setResNbSeq)
          (setInLen (arg a0) s) = r
        cases r with
        | ok u t => exact .done hn (.inr ⟨_, hcap, (h.ok e).1⟩)
        | error stop t =>
          cases stop with
          | raise c => exact .failed _ _ c hn (.inr ⟨_, hcap, h.error e⟩)
          | fault f => exact .fault f hn fun hs => h.fault e (hs.setInLen hcap)
      · rw [bind_of_ok (ensure_of hcap), bind_of_ok (look_apply _ s), bind_of_error (ensure_of_not hmax)]
        exact .failed _ _ _ hn (.inl .refl)
    · rw [bind_of_error (ensure_of_not hcap)]
      exact .failed _ _ _ hn (.inl .refl)

/-- An argument of a frame's block maximum in range (R291). -/
abbrev FrameArg (n : Nat) : Prop := 1 ≤ n ∧ n ≤ Config.blockMaxLimit

theorem FrameArg.toNat {n : Nat} (h : FrameArg n) : (BitVec.ofNat 18 n).toNat = n :=
  toNat_ofNat_of_lt (h.2.trans_lt (by decide))

/-- FRAME_RESET passes the error gate: it starts a frame, or raises ARG_RANGE where no error is recorded (R291, R311). -/
theorem exec_frameReset_of_range {a0 : Word} (h : FrameArg a0.toNat) (s : State) :
    exec (.frameReset a0) s = .next (frameResetState a0.toNat s) :=
  congrArg (finish opcFrameReset [] s) (bind_of_ok (ensure_of h))

theorem exec_frameReset_of_not_range {a0 : Word} (h : ¬FrameArg a0.toNat) (s : State) :
    exec (.frameReset a0) s = .next (recordError .argRange opcFrameReset s) :=
  congrArg (finish opcFrameReset [] s) (bind_of_error (ensure_of_not h))

theorem course_recordError {op : BitVec 8} {c : Cause} (h : causeCategory c = .illegalCommand) :
    Course s (.next (recordError c op s)) := by
  cases hn : noError s with
  | false => rw [recordError_of_error hn]; exact .ignored hn
  | true => rw [← takeError_of_illegal (ws := []) (s1 := s) h]; exact .failed op [] c hn (.inl .refl)

/-- SET_INLEN declares the input, or raises ARG_RANGE (R292). -/
theorem exec_setInlen_of_le {a0 : Word} (hn : noError s = true) (h : arg a0 ≤ Config.inCap) :
    exec (.setInlen a0) s = .next (setInLen (arg a0) s) :=
  (runCommand_of_noError hn).trans (congrArg (finish opcSetInlen [] s) (bind_of_ok (ensure_of h)))

theorem exec_setInlen_of_not_le {a0 : Word} (hn : noError s = true) (h : ¬arg a0 ≤ Config.inCap) :
    exec (.setInlen a0) s = .next (recordError .argRange opcSetInlen s) :=
  (runCommand_of_noError hn).trans (congrArg (finish opcSetInlen [] s) (bind_of_error (ensure_of_not h)))

theorem course_setInlen (a0 : Word) : Course s (exec (.setInlen a0) s) := by
  cases hn : noError s with
  | false =>
    have ignored : exec (.setInlen a0) s = .next s := runCommand_of_error hn
    rw [ignored]
    exact .ignored hn
  | true =>
    by_cases hcap : arg a0 ≤ Config.inCap
    · rw [exec_setInlen_of_le hn hcap]; exact .done hn (.inr ⟨_, hcap, .refl⟩)
    · rw [exec_setInlen_of_not_le hn hcap]; exact course_recordError rfl

/-- The course of every command. -/
theorem exec_course (s : State) : ∀ i : Instr, (∀ a0, i ≠ .frameReset a0) → Course s (exec i s)
  | .nop, _ => by
    cases hn : noError s with
    | false => exact .ignored hn
    | true => exact .done hn (.inl .refl)
  | .frameReset a0, h => absurd rfl (h a0)
  | .setInlen a0, _ => course_setInlen a0
  | .decodeBlock a0, _ => course_decodeBlock a0
  | .brFinit _ _, _ => course_of_ends (.checkRegion_bind fun ⟨hbase, hlim⟩ => (ends_finit hbase hlim).done)
  | .brFpeek n, _ => course_of_ends (.needForward_bind fun hv => (ends_fpeek _ hv).bind fun v _ _ _ _ => ends_setRes v)
  | .brFread n, _ => course_of_ends (.needForward_bind fun hv => (ends_fread _ hv).bind fun v _ _ _ _ => ends_setRes v)
  | .brFalign, _ => course_of_ends (.needForward_bind fun _ => ends_falign.bind fun v _ _ _ _ => ends_setRes v)
  | .brRinit _ _ _, _ => course_of_ends (.select_bind fun r _ => .look_bind (.ensure_bind fun h => (ends_rinit r h).done))
  | .brRpeek _ _, _ => course_of_ends (.select_bind fun r _ => .needReader_bind fun hv =>
      (ends_rpeek r _ hv).bind fun v _ _ _ _ => ends_setRes v)
  | .brRread _ _, _ => course_of_ends (.select_bind fun r _ => .needReader_bind fun hv =>
      (ends_rread r _ hv).bind fun v _ _ _ _ => ends_setRes v)
  | .brRconsume _ _, _ => course_of_ends (.select_bind fun r _ => .needReader_bind fun _ => ends_rconsume r _)
  | .brRstat _, _ => course_of_ends (.select_bind fun r _ => .needReader_bind fun _ =>
      .change (.res s _) trivial)
  | .fseNcount _, _ => course_of_ends (.select_bind fun t _ => .needForward_bind fun hv =>
      (ends_readNCount t hv).bind fun v _ _ _ _ => ends_setRes v)
  | .fsePredef _, _ => course_of_ends (.select_bind fun _ _ => .ensure_bind fun ht =>
      (ends_loadPredef ht).done)
  | .fseBuild _, _ => course_of_ends (.select_bind fun _ _ => .look_bind (.ensure_bind fun h =>
      (ends_buildTable h.1 h.2).done))
  | .fseRle _ _, _ => course_of_ends (.select_bind fun t _ =>
      (ends_rleTable t _).done)
  | .fseRepeat _, _ => course_of_ends (.select_bind fun t _ =>
      (ends_repeatTable t).done)
  | .fseInitst _ _, _ => course_of_ends (.select_bind fun _ _ => .select_bind fun x _ =>
      .needTable_bind (.needReader_bind fun hv => (ends_initState x hv).done))
  | .fseSym _, _ => course_of_ends (.select_bind fun _ _ => .needTable_bind (.needInTable_bind
      (.look_bind (ends_setRes _))))
  | .fseUpdst _ _, _ => course_of_ends (.select_bind fun _ _ => .select_bind fun x _ =>
      .needTable_bind (.needReader_bind fun hv => .needInTable_bind
        ((ends_updState x hv).done)))
  | .hufTree _ _, _ => course_of_ends (.checkRegion_bind fun ⟨_, hlim⟩ =>
      (ends_huffTree hlim).bind fun v _ _ _ _ => ends_setRes v)
  | .hufSym _, _ => course_of_ends (.select_bind fun _ _ => .needHuffman_bind (.needReader_bind fun hv =>
      (ends_huffSym hv).bind fun b _ _ _ _ => ends_setRes _))
  | .hufStream _ _ _, _ => course_of_ends (.select_bind fun _ _ => .ensure_bind fun hroom => .needHuffman_bind
      (.needReader_bind fun hv => ends_huffStream hv (.inr hroom)))
  | .litDecode _ _, _ => course_of_ends (.checkRegion_bind fun ⟨_, hlim⟩ =>
      (ends_litDecode hlim).bind fun v _ _ _ _ => ends_setRes v)
  | .seqDecode _ _, _ => course_of_ends (.checkRegion_bind fun ⟨_, hlim⟩ =>
      (ends_seqDecode hlim).bind fun _ _ _ _ _ => ends_setResNbSeq)
  | .seqResolve a0 _, _ => course_of_ends (.ensure_bind fun _ =>
      (ends_resolveOffset fun _ => a0.isLt).bind fun v _ _ _ _ => ends_setRes v)
  | .lithdrRaw1b _, _ | .lithdrRaw2b _, _ | .lithdrRaw3b _, _ | .lithdrRle1b _, _ | .lithdrRle2b _, _
  | .lithdrRle3b _, _ | .lithdrComp1s3b _ _, _ | .lithdrComp4s3b _ _, _ | .lithdrComp4s4b _ _, _
  | .lithdrComp4s5b _ _, _ | .lithdrTreeless1s3b _ _, _ | .lithdrTreeless4s3b _ _, _ | .lithdrTreeless4s4b _ _, _
  | .lithdrTreeless4s5b _ _, _ => course_litHeader _
  | .hufhdrFse x, _ => course_hufHeader (by have := x.isLt; omega)
  | .hufhdrRaw x, _ => course_hufHeader (by have := x.isLt; omega)
  | .seqcntZero, _ | .seqcnt1b _, _ | .seqcnt2b _ _, _ | .seqcnt3b _ _, _ => course_seqCount _
  | .modes _ _ _, _ => course_modes _

/-! ## Steps -/

/-- All that a step can do (R65, R72, R323, R340). -/
inductive Stepped (s : State) : Result → Prop
  | idle : Stepped s (.next s)
  | write (rest : List HostAction) (a : BitVec 17) (b : Byte) :
    Stepped s (.next (hostWriteIn a.toNat b { s with port := rest }))
  | powerOn (rest : List HostAction) : Stepped s (.next (powerOnState { s with port := rest }))
  | frameReset (rest : List HostAction) (n : Nat) (hn : FrameArg n) :
    Stepped s (.next (frameResetState n { s with port := rest }))
  | command (rest : List HostAction) {r : Result} (h : Course { s with port := rest } r) : Stepped s r

theorem issue_of_ok {c : Command} {i : Instr} (h : decodeCommand c = .ok i) (s : State) : issue c s = exec i s := by
  rw [issue, h]
theorem issue_of_error {c : Command} {r : Reject} (h : decodeCommand c = .error r) (s : State) :
    issue c s = rejectCommand (fieldOp c.word) r s := by rw [issue, h]

theorem course_reject (op : BitVec 8) (r : Reject) : Course s (rejectCommand op r s) := by
  cases r <;> exact course_of_ends .raise

theorem issue_stepped (c : Command) (rest : List HostAction) : Stepped s (issue c { s with port := rest }) := by
  cases e : decodeCommand c with
  | error r => rw [issue_of_error e]; exact .command rest (course_reject _ r)
  | ok i =>
    rw [issue_of_ok e]
    by_cases h : ∃ a0, i = .frameReset a0
    · obtain ⟨a0, rfl⟩ := h
      by_cases hn : FrameArg a0.toNat
      · rw [exec_frameReset_of_range hn]; exact .frameReset rest _ hn
      · rw [exec_frameReset_of_not_range hn]; exact .command rest (course_recordError rfl)
    · exact .command rest (exec_course _ i (not_exists.mp h))

theorem step_stepped (s : State) : Stepped s (step s) := by
  unfold step
  split
  · exact .idle
  · exact .write _ _ _
  · exact .powerOn _
  · exact issue_stepped _ _

/-- After an error is taken one is recorded (R310). -/
theorem noError_takeError {op : BitVec 8} {ws : List Element} {c : Cause} {s0 s1 : State} (h : noError s0 = true) :
    noError (takeError op ws c s0 s1) = false := noError_of_packStatus (takeError_status h)

/-- An invariant of the states in which no error is recorded. -/
structure Kept (I : State → Prop) : Prop where
  change : ∀ s t, Change s t → I s → I t
  setInLen : ∀ n s, I s → I (setInLen n s)
  port : ∀ s rest, I s → I { s with port := rest }
  write : ∀ (a : BitVec 17) b s, I s → I (hostWriteIn a.toNat b s)
  powerOn : ∀ s, I (powerOnState s)
  frameReset : ∀ n s, I (frameResetState n s)

theorem Progress.noError (h : Progress s t) : noError t = noError s := by
  rcases h with hc | ⟨n, -, hc⟩
  · exact hc.noError
  · exact hc.noError

/-- An invariant every change keeps holds after every step, while no error is recorded. -/
theorem Kept.step {I : State → Prop} (k : Kept I) (hs : noError s = true → I s) (h : step s = .next t)
    (ht : noError t = true) : I t := by
  have stepped := step_stepped s
  rw [h] at stepped
  cases stepped with
  | idle => exact hs ht
  | write rest a b => exact k.write a b _ (k.port s rest (hs ht))
  | powerOn rest => exact k.powerOn _
  | frameReset rest n hn => exact k.frameReset n _
  | command rest hc =>
    cases hc with
    | ignored hn => rw [ht] at hn; cases hn
    | done hn hp =>
      have hI := k.port s rest (hs hn)
      rcases hp with hc | ⟨n, -, hc⟩
      · exact hc.keeps k.change hI
      · exact hc.keeps k.change (k.setInLen n _ hI)
    | failed op ws c hn hp => rw [noError_takeError hn] at ht; cases ht

end Sys2Proof.Machine
end

section
/-! CERTIFICATE. The invariants of the core (10_state.md R43): reset meets them and every step keeps them. -/

open Sys2Proof Sys2Proof.Machine

namespace Sys2Proof.Machine

variable {s t : State}

/-! ## Readers and ranges -/

theorem ReadersOk.sound (h : ReadersOk s) (hn : noError s = true) : Sound s := ⟨h.ranges, h.fr hn, h.rr hn⟩

theorem Sound.readersOk (h : Sound s) : ReadersOk s := ⟨h.ranges, fun _ => h.fr, fun _ => h.rr⟩

theorem ReadersOk.of_error (h : RangesOk s) (hn : noError s = false) : ReadersOk s :=
  ⟨h, fun h => absurd h (by simp [hn]), fun h => absurd h (by simp [hn])⟩

theorem ReadersOk.port (h : ReadersOk s) (rest : List HostAction) : ReadersOk { s with port := rest } :=
  ⟨⟨h.ranges.inLen, h.ranges.blockMax, h.ranges.litLen, h.ranges.nbSeq, h.ranges.inMem, h.ranges.lit⟩, h.fr, h.rr⟩

/-- A write of IN by the host leaves every reader where it is and removes no mark (R60, R62). -/
theorem ReadersOk.write (h : ReadersOk s) (a : BitVec 17) (b : Byte) : ReadersOk (hostWriteIn a.toNat b s) := by
  obtain ⟨⟨inLen, blockMax, litLen, nbSeq, inMem, lit⟩, fr, rr⟩ := h
  refine ⟨⟨inLen, blockMax, litLen, nbSeq, Memory.wf_set inMem a.isLt, lit⟩, fun hn hv => ?_, fun hn r hv => ?_⟩
  · obtain ⟨hbase, hcap, hpos, hlim⟩ := fr hn hv
    refine ⟨hbase, hcap, hpos, fun hm => hlim ?_⟩
    rw [hostWriteIn_frStale, Bool.or_eq_false_iff] at hm
    exact hm.1
  · obtain ⟨hlen, hrange, hlim⟩ := rr hn r hv
    refine ⟨hlen, hrange, fun hm => hlim ?_⟩
    rw [hostWriteIn_rrStale, markReverse_get, Bool.or_eq_false_iff] at hm
    exact hm.1

theorem rrOk_of_reset {r : RSel} (h : s.rr = State.reset.rr) : rrOk s r := fun hv => by
  rw [h] at hv; cases r <;> cases hv

theorem readersOk_powerOnState (s : State) : ReadersOk (powerOnState s) :=
  ⟨⟨Nat.zero_le _, ⟨show 1 ≤ 131072 by decide, le_refl 131072⟩, Nat.zero_le _, Nat.zero_le _, rfl, rfl⟩, fun _ hv => (by cases hv),
    fun _ _ => rrOk_of_reset rfl⟩

theorem ReadersOk.frameReset (h : ReadersOk s) {n : Nat} (hn : FrameArg n) : ReadersOk (frameResetState n s) := by
  refine ⟨⟨h.ranges.inLen, ?_, Nat.zero_le _, Nat.zero_le _, h.ranges.inMem, rfl⟩, fun _ hv => (by cases hv),
    fun _ _ => rrOk_of_reset rfl⟩
  rw [frameResetState_blockMax, hn.toNat]
  exact hn

/-- What an error leaves unspecified stays in the range its register is declared with (log 9). -/
theorem RangesOk.unspecifyElement (h : RangesOk s) (c : Cause) (d : Nat) (s0 s1 : State) (e : Element) :
    RangesOk (unspecifyElement c d s0 s1 e s) := by
  obtain ⟨inLen, blockMax, litLen, nbSeq, inMem, lit⟩ := h
  cases e with
  | inLen =>
    refine ⟨?_, blockMax, litLen, nbSeq, inMem, lit⟩
    simp only [Machine.unspecifyElement, Config.inCap, BitVec.toNat_ofNat]
    omega
  | litLen =>
    refine ⟨inLen, blockMax, ?_, nbSeq, inMem, lit⟩
    simp only [Machine.unspecifyElement, Config.litCap, BitVec.toNat_ofNat]
    omega
  | seq =>
    refine ⟨inLen, blockMax, litLen, ?_, inMem, lit⟩
    simp only [Machine.unspecifyElement, Config.seqCap, BitVec.toNat_ofNat]
    omega
  | lit => exact ⟨inLen, blockMax, litLen, nbSeq, inMem, rfl⟩
  | litRange a n => exact ⟨inLen, blockMax, litLen, nbSeq, inMem, Memory.wf_forget a n lit⟩
  | frPos | fr | dist | rr r | rrPos r | ft x | st x | w | ht | rep =>
    exact ⟨inLen, blockMax, litLen, nbSeq, inMem, lit⟩

theorem RangesOk.recordError (h : RangesOk s) (c : Cause) (op : BitVec 8) : RangesOk (recordError c op s) := by
  obtain ⟨inLen, blockMax, litLen, nbSeq, inMem, lit⟩ := h
  constructor <;> simpa

/-- What every element of a write set keeps, an error keeps (R310, R313). -/
theorem takeError_induction {p : State → Prop} {op : BitVec 8} {ws : List Element} {c : Cause} {s0 s1 : State} (h : p s0)
    (element : ∀ e ∈ ws, ∀ u, p u → p (unspecifyElement c s1.draws s0 s1 e u)) (draws : ∀ u d, p u → p { u with draws := d })
    (record : ∀ u, p u → p (recordError c op u)) : p (takeError op ws c s0 s1) := by
  have fold : p (ws.foldl (fun u e => unspecifyElement c s1.draws s0 s1 e u) s0) :=
    List.foldlRecOn ws _ h fun u hu e he => element e he u hu
  unfold takeError
  split_ifs
  · exact record _ h
  · exact record _ (draws _ _ fold)

theorem RangesOk.takeError (h : RangesOk s) (op : BitVec 8) (ws : List Element) (c : Cause) (s1 : State) :
    RangesOk (takeError op ws c s s1) :=
  takeError_induction h (fun e _ _ hu => hu.unspecifyElement c _ s s1 e)
    (fun _ _ hu => ⟨hu.inLen, hu.blockMax, hu.litLen, hu.nbSeq, hu.inMem, hu.lit⟩) fun _ hu => hu.recordError c op

theorem Progress.sound (hp : Progress s t) (h : Sound s) : Sound t := by
  rcases hp with hc | ⟨n, hn, hc⟩
  · exact hc.sound h
  · exact hc.sound (h.setInLen hn)

/-- A command in a state with sound readers has a next state with sound readers. -/
theorem Course.readersOk {r : Result} (hc : Course s r) (h : ReadersOk s) : ∃ t, r = .next t ∧ ReadersOk t := by
  cases hc with
  | ignored hn => exact ⟨s, rfl, h⟩
  | done hn hp => exact ⟨_, rfl, (hp.sound (h.sound hn)).readersOk⟩
  | failed op ws c hn hp => exact ⟨_, rfl, .of_error (h.ranges.takeError op ws c _) (noError_takeError hn)⟩
  | fault f hn hs => exact absurd (h.sound hn) hs

theorem Stepped.readersOk {r : Result} (hs : Stepped s r) (h : ReadersOk s) : ∃ t, r = .next t ∧ ReadersOk t := by
  cases hs with
  | idle => exact ⟨s, rfl, h⟩
  | write rest a b => exact ⟨_, rfl, (h.port rest).write a b⟩
  | powerOn rest => exact ⟨_, rfl, readersOk_powerOnState _⟩
  | frameReset rest n hn => exact ⟨_, rfl, (h.port rest).frameReset hn⟩
  | command rest hc => exact hc.readersOk (h.port rest)

/-! ## Tables, the Huffman code, offsets -/

theorem tablesSound_of_invalid (hd : s.dist.valid = false) (hf : ∀ t, (s.ft.get t).valid = false) : TablesSound s :=
  ⟨fun h => absurd h (by simp [hd]), fun t h => absurd h (by simp [hf])⟩

theorem reset_ft_valid (t : TSel) : (State.reset.ft.get t).valid = false := by cases t <;> rfl

theorem TablesSound.kept : Kept TablesSound where
  change _ _ hc := hc.tablesSound
  setInLen _ _ h := ⟨h.dist, h.ft⟩
  port _ _ h := ⟨h.dist, h.ft⟩
  write _ _ _ h := ⟨h.dist, h.ft⟩
  powerOn _ := tablesSound_of_invalid rfl reset_ft_valid
  frameReset n s := tablesSound_of_invalid rfl (frameResetState_ft_valid n s)

theorem huffOk_kept : Kept huffOk where
  change _ _ hc := hc.huffOk
  setInLen _ _ h := h
  port _ _ h := h
  write _ _ _ h := h
  powerOn _ hv := by cases hv
  frameReset _ _ hv := by cases hv

/-- The cache of a new frame holds no 0, and SEQ no offset (R42). -/
theorem offsetsSound_of_reset (ht : TablesSound s) (hrep : s.rep = ⟨1, 4, 8⟩) (hseq : s.seq = []) : OffsetsSound s :=
  ⟨ht, by rw [hrep]; decide, by rw [hseq]; exact fun e he => by cases he⟩

theorem OffsetsSound.kept : Kept OffsetsSound where
  change _ _ hc := hc.offsetsSound
  setInLen n s h := ⟨TablesSound.kept.setInLen n s h.tables, h.rep, h.seq⟩
  port s rest h := ⟨TablesSound.kept.port s rest h.tables, h.rep, h.seq⟩
  write a b s h := ⟨TablesSound.kept.write a b s h.tables, h.rep, h.seq⟩
  powerOn s := offsetsSound_of_reset (TablesSound.kept.powerOn s) rfl rfl
  frameReset n s := offsetsSound_of_reset (TablesSound.kept.frameReset n s) rfl rfl

theorem TablesOk.sound (h : TablesOk s) (hn : noError s = true) : TablesSound s := ⟨h.dist hn, h.ft hn⟩

/-! ## STATUS -/

theorem Progress.status (hp : Progress s t) : t.status = s.status := by
  rcases hp with hc | ⟨n, -, hc⟩
  · exact hc.frame.2.1
  · exact hc.frame.2.1

theorem Course.statusOk (hc : Course s (.next t)) (h : statusOk s) : statusOk t := by
  cases hc with
  | ignored hn => exact h
  | done hn hp => unfold Machine.statusOk at h ⊢; rwa [hp.status]
  | failed op ws c hn hp => exact .inr ⟨c, op, takeError_status hn⟩

theorem Stepped.statusOk (hs : Stepped s (.next t)) (h : statusOk s) : statusOk t := by
  cases hs with
  | idle => exact h
  | write => exact h
  | powerOn => exact .inl rfl
  | frameReset => exact .inl rfl
  | command rest hc => exact hc.statusOk h

/-! ## VALID bits (R41) -/

theorem KeepsValid.unspecifyElement {s0 s1 : State} (h1 : KeepsValid s0 s1) (c : Cause) (d : Nat) (e : Element) {u : State}
    (h : KeepsValid s0 u) : KeepsValid s0 (unspecifyElement c d s0 s1 e u) := by
  have after : ∀ {old reached : Bool} {x : Config.Slot}, (old = true → reached = true) → old = true →
      validAfterError old reached d x = true := fun hr ho => by simp [validAfterError, hr ho, ho]
  cases e with
  | fr => exact { h with fr := after h1.fr }
  | dist =>
    refine { h with dist := fun hv => ?_ }
    simp only [Machine.unspecifyElement, distAfterError]
    split_ifs
    · exact h1.dist hv
    · exact after h1.dist hv
  | ht => exact { h with ht := after h1.ht }
  | rr r =>
    refine { h with rr := fun q hq => ?_ }
    by_cases e : q = r
    · subst e; simp only [Machine.unspecifyElement, RevBank.get_set_same]; exact after (h1.rr q) hq
    · simp only [Machine.unspecifyElement, RevBank.get_set_ne e]; exact h.rr q hq
  | rrPos r =>
    refine { h with rr := fun q hq => ?_ }
    by_cases e : q = r
    · subst e; simp only [Machine.unspecifyElement, RevBank.get_set_same]; exact h.rr q hq
    · simp only [Machine.unspecifyElement, RevBank.get_set_ne e]; exact h.rr q hq
  | ft x =>
    refine { h with ft := fun y hy => ?_ }
    by_cases e : y = x
    · subst e; simp only [Machine.unspecifyElement, FseBank.get_set_same]; exact after (h1.ft y) hy
    · simp only [Machine.unspecifyElement, FseBank.get_set_ne e]; exact h.ft y hy
  | inLen | frPos | st x | w | lit | litRange a n | litLen | seq | rep => exact ⟨h.fr, h.dist, h.ht, h.rr, h.ft⟩

theorem KeepsValid.takeError {s0 s1 : State} (h : KeepsValid s0 s1) (op : BitVec 8) (ws : List Element) (c : Cause) :
    KeepsValid s0 (takeError op ws c s0 s1) :=
  takeError_induction (.refl s0) (fun e _ _ hu => h.unspecifyElement c _ e hu)
    (fun _ _ hu => ⟨hu.fr, hu.dist, hu.ht, hu.rr, hu.ft⟩)
    fun _ hu => ⟨by simpa using hu.fr, by simpa using hu.dist, by simpa using hu.ht, by simpa using hu.rr, by simpa using hu.ft⟩

theorem Progress.keepsValid (hp : Progress s t) : KeepsValid s t := by
  rcases hp with hc | ⟨n, -, hc⟩
  · exact hc.keepsValid
  · have k := hc.keepsValid
    exact ⟨k.fr, k.dist, k.ht, k.rr, k.ft⟩

theorem Course.keepsValid (hc : Course s (.next t)) : KeepsValid s t := by
  cases hc with
  | ignored hn => exact .refl s
  | done hn hp => exact hp.keepsValid
  | failed op ws c hn hp => exact hp.keepsValid.takeError op ws c

end Sys2Proof.Machine

/-- Settles O57: every operation reads and writes inside the region its checks have passed, so no fault of log 12 is left
for a step from sound readers, and each change keeps the readers sound. -/
theorem stepKeepsReadersAndNeverStops : Obligations.StepKeepsReadersAndNeverStops :=
  fun s hs => (step_stepped s).readersOk hs

/-- Settles O58: only distributions of the whole mass are staged, and BuildTable makes well formed tables of them. -/
theorem stepKeepsTables : Obligations.StepKeepsTables := by
  intro s t hs h
  have kept := TablesSound.kept.step hs.sound h
  exact ⟨fun hn => (kept hn).dist, fun hn => (kept hn).ft⟩

/-- Settles O59: HuffBuild alone writes W and HT, and it writes the code of the weights. -/
theorem stepKeepsTheHuffmanCode : Obligations.StepKeepsTheHuffmanCode :=
  fun _ _ hs h => huffOk_kept.step hs h

/-- Settles O60: no Offset_Value read from a well formed table is above 32 bits, so no resolved offset wraps to 0; and
STATUS changes by recording an error or by a reset alone. -/
theorem stepKeepsOffsetsAndStatus : Obligations.StepKeepsOffsetsAndStatus := by
  refine ⟨fun s t htables hs h => ?_, fun s t hs h => ?_⟩
  · have kept := OffsetsSound.kept.step (fun hn => ⟨htables.sound hn, hs.rep hn, hs.seq hn⟩) h
    exact ⟨fun hn => (kept hn).rep, fun hn => (kept hn).seq⟩
  · have stepped := step_stepped s
    rw [h] at stepped
    exact stepped.statusOk hs

/-- Settles O12: no change clears a VALID bit, and an error leaves one that was 1 before as it is. -/
theorem validBitsClearedOnlyByFrameReset : Obligations.ValidBitsClearedOnlyByFrameReset := by
  intro i s t h hi
  have hc := exec_course s i hi
  rw [h] at hc
  obtain ⟨fr, dist, ht, rr, ft⟩ := hc.keepsValid
  exact ⟨fr, dist, ht, rr, ft⟩

/-- Settles O56: after reset no element is valid and every register is in its range. -/
theorem resetMeetsTheInvariants : Obligations.ResetMeetsTheInvariants := by
  have tables : TablesSound State.reset := tablesSound_of_invalid rfl reset_ft_valid
  have offsets : OffsetsSound State.reset := offsetsSound_of_reset tables rfl rfl
  refine ⟨⟨⟨by decide, by decide, by decide, by decide, reset_inMem_wf, reset_lit_wf⟩, fun _ hv => ?_, fun _ _ =>
    rrOk_of_reset rfl⟩, ⟨fun _ => tables.dist, fun _ => tables.ft⟩, fun _ hv => ?_, ⟨fun _ => offsets.rep, fun _ =>
    offsets.seq⟩, .inl rfl⟩ <;> cases hv
end

section
/-! CERTIFICATE. What each instruction leaves unchanged (R313): the parts outside `mayChange`, in success and in error. -/

open Sys2Proof Sys2Proof.Machine

namespace Sys2Proof.Machine

variable {α β : Type} {s t : State}

/-! ## Commands whose errors are all IllegalCommand: these change STATUS alone (R313) -/

/-- However `x` ends, it raises no cause but one of category IllegalCommand. -/
def OnlyIllegal (x : Op α) : Prop := ∀ s c t, x s = .error (.raise c) t → causeCategory c = .illegalCommand

theorem OnlyIllegal.bind {x : Op α} {f : α → Op β} (hx : OnlyIllegal x) (hf : ∀ a, OnlyIllegal (f a)) :
    OnlyIllegal (x >>= f) := fun s c t e => by
  rcases bind_eq_error.mp e with e | ⟨a, u, -, e⟩
  · exact hx s c t e
  · exact hf a u c t e
theorem OnlyIllegal.look (f : State → α) : OnlyIllegal (look f) := fun _ _ _ e => by cases e
theorem OnlyIllegal.change (f : State → State) : OnlyIllegal (change f) := fun _ _ _ e => by cases e
theorem OnlyIllegal.ensure (p : Prop) [Decidable p] {c : Cause} (h : causeCategory c = .illegalCommand) :
    OnlyIllegal (ensure p c) := fun s c' t e => by
  obtain ⟨-, hc, -⟩ := ensure_eq_error.mp e
  cases hc
  exact h
theorem OnlyIllegal.select (v : Option α) : OnlyIllegal (select v) := fun s c t e => by
  cases v <;> cases e
  rfl
/-- The common shape of a readiness check. -/
theorem OnlyIllegal.check (f : State → α) (p : α → Prop) [∀ a, Decidable (p a)] {c : Cause}
    (h : causeCategory c = .illegalCommand) : OnlyIllegal (Machine.look f >>= fun a => Machine.ensure (p a) c) :=
  .bind (.look f) fun _ => .ensure _ h

theorem recordError_keeps (c : Cause) (op : BitVec 8) (s : State) : Keeps [.status] s (recordError c op s) := fun p hp => by
  unfold recordError
  split_ifs
  · cases p with
    | status => simp at hp
    | _ => rfl
  · exact .refl p s

/-- What such a command changes, however it ends: no draw of a free value is among it. -/
theorem runCommand_keeps_of_onlyIllegal {op : BitVec 8} {ws : List Element} {body : Op Unit} {ps : List Part}
    (hb : Touches ps body) (hi : OnlyIllegal body) (hs : .status ∈ ps) (h : runCommand op ws body s = .next t) :
    Keeps ps s t := by
  rcases runCommand_eq_next.1 h with ⟨-, rfl⟩ | ⟨-, hok | ⟨c, s1, he, rfl⟩⟩
  · exact .refl _ _
  · exact hb.ok hok
  · rw [takeError_of_illegal (hi _ _ _ he)]
    exact (recordError_keeps c op s).mono (by simpa using hs)

/-! ## Selectors -/

theorem Touches.select_bind {ps : List Part} {v : Option α} {f : α → Op β} (h : ∀ a, v = some a → Touches ps (f a)) :
    Touches ps (select v >>= f) := fun s => by
  cases v with
  | none => exact .refl ps s
  | some a => exact h a rfl s

/-- The parts of the write set a selector gives are those the selector adds. -/
theorem flatMap_setOf (v : Option α) (f : α → List Element) :
    (setOf v f).flatMap partsOfElement = partsOf v fun a => (f a).flatMap partsOfElement := by
  cases v <;> rfl

/-! ## FRAME_RESET -/

theorem frameReset_keeps (a0 : Word) (h : exec (.frameReset a0) s = .next t) : Keeps frameResetParts s t := by
  by_cases hn : FrameArg a0.toNat
  · rw [exec_frameReset_of_range hn] at h
    cases h
    intro p hp
    cases p with
    | port | inLen | inMem | inEra => rfl
    | rr r | rrStale r | ft r | st r => cases r <;> exact absurd (by decide) hp
    | _ => exact absurd (by decide) hp
  · rw [exec_frameReset_of_not_range hn] at h
    cases h
    exact (recordError_keeps _ _ s).mono (by decide)

/-! ## The rows of the format -/

theorem litHeader_keeps {h : LitHeader} (e : runLitHeader h s = .next t) : Keeps litDecodeParts s t :=
  runCommand_keeps (.bind (.look _) fun _ => .bind (touches_litSection _ _ _) fun v => (touches_setRes v).mono (by decide))
    (by decide) e

theorem hufHeader_keeps {hb : Nat} (e : runHufHeader hb s = .next t) : Keeps hufTreeParts s t :=
  runCommand_keeps (.bind (.look _) fun _ => .bind (.ensure _ _) fun _ => .bind (touches_huffTreeFrom _ _ _) fun v =>
    (touches_setRes v).mono (by decide)) (by decide) e

theorem seqCount_keeps {c : SeqCount} (e : runSeqCount c s = .next t) : Keeps seqDecodeParts s t :=
  runCommand_keeps (.bind (.look _) fun _ => .bind (touches_seqStart.mono (by decide)) fun _ =>
    .bind (touches_seqFromCount _ _ _ _) fun _ => touches_setResNbSeq.mono (by decide)) (by decide) e

theorem modes_keeps {m : Byte} (e : runModes m s = .next t) : Keeps seqDecodeParts s t :=
  runCommand_keeps (.bind (.look _) fun _ => .bind (touches_seqStart.mono (by decide)) fun _ =>
    .bind (touches_readSeqCount _ _) fun _ => .bind (touches_seqFromCount _ _ _ _) fun _ =>
      touches_setResNbSeq.mono (by decide)) (by decide) e

/-! ## Every instruction -/

theorem touches_setInLen (n : Nat) : Touches ([.inLen] ++ allMarks) (change (setInLen n)) :=
  .change fun s p hp => by
    cases p with
    | inLen | frStale => exact absurd (by decide) hp
    | rrStale r => cases r <;> exact absurd (by decide) hp
    | _ => rfl

theorem decodeBlock_keeps (a0 : Word) (h : execDecodeBlock a0 s = .next t) : Keeps (mayChange (.decodeBlock a0)) s t :=
  runCommand_keeps (ps := [.inLen] ++ allMarks ++ litDecodeParts ++ seqDecodeParts)
    (.bind (.ensure _ _) fun _ => .bind (.look _) fun _ => .bind (.ensure _ _) fun _ =>
      .bind ((touches_setInLen _).mono (by decide)) fun _ => .bind ((touches_litDecode _ _).mono (by decide)) fun _ =>
        .bind ((touches_seqDecode _ _).mono (by decide)) fun _ => touches_setResNbSeq.mono (by decide)) (by decide) h

/-- The frame of every instruction. -/
theorem exec_keeps : ∀ (i : Instr), exec i s = .next t → Keeps (mayChange i) s t
  | .nop, h => by cases h; exact .refl _ s
  | .frameReset a0, h => frameReset_keeps a0 h
  | .setInlen a0, h => runCommand_keeps_of_onlyIllegal (ps := [.status, .inLen] ++ allMarks)
      (.bind (.ensure _ _) fun _ => (touches_setInLen _).mono (by decide))
      (.bind (.ensure _ rfl) fun _ => .change _) (by simp) h
  | .decodeBlock a0, h => decodeBlock_keeps a0 h
  | .brFinit _ _, h => runCommand_keeps_of_onlyIllegal
      (.bind (touches_checkRegion _ _) fun _ => (touches_finit _ _).mono (by simp [mayChange]))
      (.bind (.check _ _ rfl) fun _ => .change _) (by simp [mayChange]) h
  | .brFpeek n, h => runCommand_keeps (.bind touches_needForward fun _ =>
      .bind ((touches_fpeek _).mono (by simp [mayChange])) fun v => (touches_setRes v).mono (by simp [mayChange]))
      (by simp [mayChange]) h
  | .brFread n, h => runCommand_keeps (.bind touches_needForward fun _ =>
      .bind ((touches_fread _).mono (by simp [mayChange])) fun v => (touches_setRes v).mono (by simp [mayChange]))
      (by simp [mayChange, partsOfElement]) h
  | .brFalign, h => runCommand_keeps_of_onlyIllegal (.bind touches_needForward fun _ =>
      .bind (touches_falign.mono (by simp [mayChange])) fun v => (touches_setRes v).mono (by simp [mayChange]))
      (.bind (.check _ _ rfl) fun _ => .bind (.bind (.change _) fun _ => .look _) fun _ => .change _)
      (by simp [mayChange]) h
  | .brRinit _ _ _, h => runCommand_keeps (.select_bind fun r hr => .bind (.look _) fun _ => .bind (.ensure _ _) fun _ =>
      (touches_rinit r _ _).mono (by simp [mayChange, partsOf, hr, readerParts])) (by simp [mayChange]) h
  | .brRpeek _ _, h => runCommand_keeps (.select_bind fun r hr => .bind (touches_needReader r) fun _ =>
      .bind ((touches_rpeek r _).mono (by simp [mayChange])) fun v => (touches_setRes v).mono (by simp [mayChange]))
      (by simp [mayChange]) h
  | .brRread _ _, h => runCommand_keeps (.select_bind fun r hr => .bind (touches_needReader r) fun _ =>
      .bind ((touches_rread r _).mono (by simp [mayChange, partsOf, hr])) fun v =>
        (touches_setRes v).mono (by simp [mayChange])) (by simp [mayChange]) h
  | .brRconsume _ _, h => runCommand_keeps_of_onlyIllegal (.select_bind fun r hr => .bind (touches_needReader r) fun _ =>
      (touches_rconsume r _).mono (by simp [mayChange, partsOf, hr]))
      (.bind (.select _) fun _ => .bind (.check _ _ rfl) fun _ => .change _) (by simp [mayChange]) h
  | .brRstat _, h => runCommand_keeps_of_onlyIllegal (.select_bind fun r hr => .bind (touches_needReader r) fun _ =>
      .change fun s p hp => by
        cases p with
        | res => simp [mayChange] at hp
        | _ => rfl)
      (.bind (.select _) fun _ => .bind (.check _ _ rfl) fun _ => .change _) (by simp [mayChange]) h
  | .fseNcount _, h => runCommand_keeps (.select_bind fun t _ => .bind touches_needForward fun _ =>
      .bind ((touches_readNCount t).mono (by simp [mayChange])) fun v => (touches_setRes v).mono (by simp [mayChange]))
      (by simp [mayChange, partsOfElement]) h
  | .fsePredef _, h => runCommand_keeps_of_onlyIllegal (.select_bind fun t _ => .bind (.ensure _ _) fun _ =>
      (touches_setDist _ _ _).mono (by simp [mayChange]))
      (.bind (.select _) fun _ => .bind (.ensure _ rfl) fun _ => .change _) (by simp [mayChange]) h
  | .fseBuild _, h => runCommand_keeps (.select_bind fun t ht => .bind (.look _) fun _ => .bind (.ensure _ _) fun _ =>
      (touches_buildTable t).mono (by simp [mayChange, partsOf, ht]))
      (by simp [mayChange, flatMap_setOf, partsOfElement]) h
  | .fseRle _ _, h => runCommand_keeps (.select_bind fun t ht =>
      (touches_rleTable t _).mono (by simp [mayChange, partsOf, ht]))
      (by simp [mayChange, flatMap_setOf, partsOfElement]) h
  | .fseRepeat _, h => runCommand_keeps (.select_bind fun t _ => touches_repeatTable t) (by simp [mayChange]) h
  | .fseInitst _ _, h => runCommand_keeps (.select_bind fun r hr => .select_bind fun x hx => .bind (touches_needTable x) fun _ =>
      .bind (touches_needReader r) fun _ => (touches_initState x r).mono (by simp [mayChange, partsOf, hr, hx]))
      (by simp [mayChange]) h
  | .fseSym _, h => runCommand_keeps_of_onlyIllegal (.select_bind fun x _ => .bind (touches_needTable x) fun _ =>
      .bind (touches_needInTable x) fun _ => .bind (touches_symOf x) fun v => (touches_setRes _).mono (by simp [mayChange]))
      (.bind (.select _) fun _ => .bind (.check _ _ rfl) fun _ => .bind (.check _ _ rfl) fun _ => .bind (.look _) fun _ =>
        .change _) (by simp [mayChange]) h
  | .fseUpdst _ _, h => runCommand_keeps (.select_bind fun r hr => .select_bind fun x hx => .bind (touches_needTable x) fun _ =>
      .bind (touches_needReader r) fun _ => .bind (touches_needInTable x) fun _ =>
        (touches_updState x r).mono (by simp [mayChange, partsOf, hr, hx])) (by simp [mayChange]) h
  | .hufTree _ _, h => runCommand_keeps (ps := hufTreeParts) (.bind (touches_checkRegion _ _) fun _ =>
      .bind (touches_huffTree _ _) fun v => (touches_setRes v).mono (by decide)) (by decide) h
  | .hufSym _, h => runCommand_keeps (.select_bind fun r hr => .bind touches_needHuffman fun _ =>
      .bind (touches_needReader r) fun _ => .bind ((touches_huffSym r).mono (by simp [mayChange, partsOf, hr])) fun v =>
        (touches_setRes _).mono (by simp [mayChange])) (by simp [mayChange, flatMap_setOf, partsOfElement]) h
  | .hufStream _ _ _, h => runCommand_keeps (.select_bind fun r hr => .bind (.ensure _ _) fun _ => .bind touches_needHuffman fun _ =>
      .bind (touches_needReader r) fun _ => (touches_huffStream r _ _).mono (by simp [mayChange, partsOf, hr]))
      (by cases e : readerOf? _ <;> simp [mayChange, e, setOf, partsOf, partsOfElement]) h
  | .litDecode _ _, h => runCommand_keeps (ps := litDecodeParts) (.bind (touches_checkRegion _ _) fun _ =>
      .bind (touches_litDecode _ _) fun v => (touches_setRes v).mono (by decide)) (by decide) h
  | .seqDecode _ _, h => runCommand_keeps (ps := seqDecodeParts) (.bind (touches_checkRegion _ _) fun _ =>
      .bind (touches_seqDecode _ _) fun _ => touches_setResNbSeq.mono (by decide)) (by decide) h
  | .seqResolve _ _, h => runCommand_keeps (.bind (.ensure _ _) fun _ =>
      .bind ((touches_resolveOffset _ _).mono (by simp [mayChange])) fun v => (touches_setRes v).mono (by simp [mayChange]))
      (by simp [mayChange]) h
  | .lithdrRaw1b _, h | .lithdrRaw2b _, h | .lithdrRaw3b _, h | .lithdrRle1b _, h | .lithdrRle2b _, h
  | .lithdrRle3b _, h | .lithdrComp1s3b _ _, h | .lithdrComp4s3b _ _, h | .lithdrComp4s4b _ _, h
  | .lithdrComp4s5b _ _, h | .lithdrTreeless1s3b _ _, h | .lithdrTreeless4s3b _ _, h | .lithdrTreeless4s4b _ _, h
  | .lithdrTreeless4s5b _ _, h => litHeader_keeps h
  | .hufhdrFse _, h | .hufhdrRaw _, h => hufHeader_keeps h
  | .seqcntZero, h | .seqcnt1b _, h | .seqcnt2b _ _, h | .seqcnt3b _ _, h => seqCount_keeps h
  | .modes _ _ _, h => modes_keeps h

/-! ## The bytes of LIT that HUF_STREAM leaves alone (R203, R313) -/

/-- The bytes of LIT outside LIT[lo .. hi-1] are in `t` as in `s`. -/
def SameLit (lo hi : Nat) (s t : State) : Prop := ∀ a, a < lo ∨ hi ≤ a → litByte? t a = litByte? s a

theorem SameLit.of_lit {lo hi : Nat} (h : t.lit = s.lit) : SameLit lo hi s t := fun a _ => by rw [litByte?, h, litByte?]
theorem SameLit.trans {lo hi : Nat} {u : State} (h : SameLit lo hi s t) (k : SameLit lo hi t u) : SameLit lo hi s u :=
  fun a ha => (k a ha).trans (h a ha)
theorem SameLit.mono {lo hi lo' hi' : Nat} (h : SameLit lo hi s t) (hlo : lo' ≤ lo) (hhi : hi ≤ hi') :
    SameLit lo' hi' s t := fun a ha => h a (by omega)

/-- However `x` ends, it has changed no byte of LIT outside LIT[lo .. hi-1]. -/
def WritesLit (lo hi : Nat) (x : Op α) : Prop := ∀ s, SameLit lo hi s (reached (x s))

theorem WritesLit.of_touches {lo hi : Nat} {ps : List Part} {x : Op α} (h : Touches ps x) (hl : .lit ∉ ps) :
    WritesLit lo hi x := fun s => .of_lit (h s .lit hl)
theorem WritesLit.bind {lo hi : Nat} {x : Op α} {f : α → Op β} (hx : WritesLit lo hi x) (hf : ∀ a, WritesLit lo hi (f a)) :
    WritesLit lo hi (x >>= f) := fun s => by
  have h := hx s
  rw [bind_apply]
  cases e : x s with
  | ok a t => rw [e] at h; exact h.trans (hf a t)
  | error stop t => rwa [e] at h

theorem writesLit_writeLit {lo hi a : Nat} (b : Byte) (hlo : lo ≤ a) (hhi : a < hi) : WritesLit lo hi (writeLit a b) :=
  fun s c hc => by
    unfold writeLit
    split_ifs
    · exact Memory.get?_set_ne (by omega)
    · rfl

theorem writesLit_huffSymbols (r : RSel) {lo hi : Nat} : ∀ count dst, lo ≤ dst → dst + count ≤ hi →
    WritesLit lo hi (huffSymbols r count dst)
  | 0, _, _, _ => .of_touches (ps := []) (.pure _) (by simp)
  | count + 1, dst, hlo, hhi => .bind (.of_touches (touches_huffSym r) (by simp)) fun b =>
      .bind (writesLit_writeLit b hlo (by omega)) fun _ => writesLit_huffSymbols r count (dst + 1) (by omega) (by omega)

theorem writesLit_hufStream (r : BitVec 3) (a0 a1 : Word) : WritesLit (arg a1) (arg a1 + arg a0) (do
    let r ← selectReader r
    ensure (arg a1 + arg a0 ≤ Config.litCap) .argRange
    needHuffman
    needReader r
    huffStream r (arg a0) (arg a1)) :=
  .bind (.of_touches (ps := []) (touches_select _) (by simp)) fun r =>
    .bind (.of_touches (ps := []) (.ensure _ _) (by simp)) fun _ =>
      .bind (.of_touches (ps := []) touches_needHuffman (by simp)) fun _ =>
        .bind (.of_touches (ps := []) (touches_needReader r) (by simp)) fun _ =>
          .bind (writesLit_huffSymbols r _ _ le_rfl le_rfl) fun _ =>
            .of_touches (ps := []) (.bind (touches_rpos r) fun _ => .ensure _ _) (by simp)

/-- The error of HUF_STREAM forgets no byte of LIT outside the range it was to write (R313). -/
theorem sameLit_takeError {op : BitVec 8} {c : Cause} {s1 : State} {v : Option RSel} {a n : Nat} :
    SameLit a (a + n) s (takeError op (setOf v fun r => [.rrPos r, .litRange a n]) c s s1) := by
  refine takeError_induction (p := SameLit a (a + n) s) (.of_lit rfl) (fun e he u hu => hu.trans ?_)
    (fun u d hu => hu.trans (.of_lit rfl)) fun u hu => hu.trans (.of_lit (recordError_lit _ _ _))
  cases v with
  | none => cases he
  | some r =>
    simp only [setOf, List.mem_cons, List.not_mem_nil, or_false] at he
    rcases he with rfl | rfl
    · exact .of_lit rfl
    · intro x hx
      exact (Memory.get?_forget u.lit a n x).trans (if_neg (by omega))

theorem hufStream_sameLit {r : BitVec 3} {a0 a1 : Word} (h : exec (.hufStream r a0 a1) s = .next t) :
    SameLit (arg a1) (arg a1 + arg a0) s t := by
  have writes := writesLit_hufStream r a0 a1 s
  rcases runCommand_eq_next.1 h with ⟨-, rfl⟩ | ⟨-, hok | ⟨c, s1, he, rfl⟩⟩
  · exact .of_lit rfl
  · rwa [hok] at writes
  · exact sameLit_takeError

end Sys2Proof.Machine

/-- Settles O13: each instruction's operation touches, and its write set holds, parts of `mayChange` alone; the bytes
HUF_STREAM writes or forgets are those of its range. -/
theorem writeSetFrame : Obligations.WriteSetFrame :=
  ⟨fun i _ _ h => exec_keeps i h, fun _ _ _ _ _ h => hufStream_sameLit h⟩
end

section
/-! CERTIFICATE. Reset, FRAME_RESET, SET_INLEN, the codes of STATUS, and the sections that begin with 80 00. -/

open Sys2Proof Sys2Proof.Machine

namespace Sys2Proof.Machine

variable {s t : State}

/-! ## STATUS -/

/-- The three fields of STATUS stand side by side (R23). -/
theorem packStatus_toNat (c : Cause) (op : BitVec 8) :
    (packStatus c op).toNat = (categoryCode (causeCategory c)).toNat + 2 ^ 8 * (causeCode c).toNat + 2 ^ 16 * op.toNat := by
  have hcat := (categoryCode (causeCategory c)).isLt
  have hc := (causeCode c).isLt
  have hop := op.isLt
  rw [packStatus, BitVec.toNat_ofNat]
  omega

/-- The table of R312 lists the codes the model gives. -/
theorem causeTable_codes : ∀ row ∈ causeTable,
    (categoryCode (causeCategory row.1)).toNat = row.2.1 ∧ (causeCode row.1).toNat = row.2.2 := by decide

/-! ## Reset values (R42) -/

/-- The values of R42's power-on column. -/
theorem powerOn_column (u : State) (h : u = State.reset ∨ ∃ s, u = powerOnState s) :
    u.res = 0 ∧ u.status = 0 ∧ u.inLen = 0 ∧ u.blockMax = 131072 ∧ u.fr = ⟨false, 0, 0, 0⟩ ∧
      (∀ r, u.rr.get r = ⟨false, 0, 0, 0⟩) ∧ (∀ x, (u.ft.get x).valid = false) ∧ u.dist.valid = false ∧
      (∀ x, u.st.get x = 0) ∧ u.nw = 0 ∧ u.ht.valid = false ∧ u.litLen = 0 ∧ u.nbSeq = 0 ∧ u.rep = ⟨1, 4, 8⟩ := by
  rcases h with rfl | ⟨s, rfl⟩ <;>
    exact ⟨rfl, rfl, rfl, rfl, rfl, fun r => by cases r <;> rfl, reset_ft_valid, rfl, fun x => by cases x <;> rfl, rfl, rfl,
      rfl, rfl, rfl⟩

/-- The values of R42's FRAME_RESET column. -/
theorem frameStarted_frameResetState {n : Nat} (hn : FrameArg n) (s : State) : frameStarted n s (frameResetState n s) :=
  ⟨rfl, hn.toNat, rfl, rfl, fun r => by cases r <;> rfl, frameResetState_ft_valid n s, rfl, fun x => by cases x <;> rfl,
    rfl, rfl, rfl, rfl, rfl, rfl, rfl, rfl⟩

/-! ## The count 80 00 (R252, R263, log 13) -/

/-- An error after which no FSE table was touched changes no VALID bit of a table (R313, log 7). -/
theorem takeError_ft_valid {op : BitVec 8} {ws : List Element} {c : Cause} {s1 : State} (h : s1.ft = s.ft) (x : TSel) :
    ((takeError op ws c s s1).ft.get x).valid = (s.ft.get x).valid := by
  refine takeError_induction (p := fun u => (u.ft.get x).valid = (s.ft.get x).valid) rfl (fun e _ u hu => ?_)
    (fun u d hu => hu) fun u hu => by rwa [recordError_ft]
  cases e with
  | ft y =>
    by_cases hxy : x = y
    · subst hxy
      simp only [unspecifyElement, FseBank.get_set_same, validAfterError, h]
      cases (s.ft.get x).valid <;> rfl
    · simp only [unspecifyElement, FseBank.get_set_ne hxy]
      exact hu
  | inLen | frPos | fr | dist | rr r | rrPos r | st y | w | ht | lit | litRange a n | litLen | seq | rep => exact hu

/-- The cause that ends a section whose count is 0 in the 2-byte form: the next byte is missing, or is one too many. -/
def longZeroCause (a lim : Nat) : Cause := if lim = a + 2 then .seqHeader else .seqTrailing

theorem seqFromCount_longZero (forced : Option Byte) {a lim : Nat} (h : a + 2 ≤ lim) (u : State) :
    seqFromCount ⟨2, 0⟩ forced a lim u = .error (.raise (longZeroCause a lim)) u := by
  have two : a + (⟨2, 0⟩ : SeqCount).size ≤ lim := h
  unfold seqFromCount longZeroCause
  rw [bind_of_ok (ensure_of two), if_neg (by simp)]
  by_cases hend : lim = a + 2
  · rw [if_pos hend, bind_of_error (ensure_of_not (by simp only; omega))]
  · rw [if_neg hend, bind_of_ok (ensure_of (by simp only; omega)), bind_of_error (ensure_of_not (by simp))]

/-- The one count of 0 in 2 bytes is 80 00 (R94). -/
theorem countAt_longZero {a : Nat} (h : countAt s a 0 2) : inByte s a = 0x80 ∧ inByte s (a + 1) = 0 := by
  obtain ⟨row, bs, -, hcount, henc, hbytes⟩ := h
  cases row <;> simp only [countOf, Option.some.injEq, Prod.mk.injEq, reduceCtorEq] at hcount
  case seqcnt2b x b1 =>
    obtain rfl : x = 0 := BitVec.eq_of_toNat_eq (by simp; omega)
    obtain rfl : b1 = 0 := BitVec.eq_of_toNat_eq (by simp; omega)
    cases henc
    exact ⟨hbytes 0 (by simp), hbytes 1 (by simp)⟩
  all_goals omega

theorem readBytes_two {a : Nat} (h : a + 2 ≤ Config.inCap) : readBytes a 2 s = .ok [inByte s a, inByte s (a + 1)] s := by
  have second : readBytes (a + 1) 1 s = .ok [inByte s (a + 1)] s := bind_of_ok (readIn_of_lt (by omega))
  exact (bind_of_ok (readIn_of_lt (by omega))).trans (bind_of_ok second)

theorem readSeqCount_longZero {a lim : Nat} (h : a + 2 ≤ lim) (hlim : lim ≤ Config.inCap)
    (hbytes : inByte s a = 0x80 ∧ inByte s (a + 1) = 0) : readSeqCount a lim s = .ok ⟨2, 0⟩ s := by
  obtain ⟨h0, h1⟩ := hbytes
  have two := readBytes_two (s := s) (h.trans hlim)
  rw [h0, h1] at two
  unfold readSeqCount
  rw [bind_of_ok (ensure_of (by omega)), bind_of_ok (readIn_of_lt (by omega)), h0]
  exact (bind_of_ok (ensure_of h)).trans (bind_of_ok two)

/-- `s` with NBSEQ 0, as SeqDecode leaves it before it reads (R263). -/
def seqStarted (s : State) : State := { s with seq := [], nbSeq := 0 }

/-- A sequences command whose operation raises the cause of 80 00 before it touches a table. -/
theorem longZero_outcome {body : Op Unit} {a lim : Nat} (hn : noError s = true)
    (h : body s = .error (.raise (longZeroCause a lim)) (seqStarted s)) :
    ∃ t, runCommand opcSeqDecode seqDecodeSet body s = .next t ∧
      t.status = packStatus (if lim = a + 2 then .seqHeader else .seqTrailing) 0x50 ∧
      ∀ x, (t.ft.get x).valid = (s.ft.get x).valid :=
  ⟨takeError opcSeqDecode seqDecodeSet (longZeroCause a lim) s (seqStarted s),
    (runCommand_of_noError hn).trans (congrArg (finish opcSeqDecode seqDecodeSet s) h), takeError_status hn,
    takeError_ft_valid rfl⟩

/-! The operations of SEQ_DECODE, of the row SEQCNT_2B and of MODES over such a section. -/

theorem seqDecode_longZero {a lim : Nat} (h : a + 2 ≤ lim) (hlim : lim ≤ s.inLen.toNat) (hcap : s.inLen.toNat ≤ Config.inCap)
    (hcount : countAt s a 0 2) :
    (checkRegion a lim >>= fun _ => seqDecode a lim >>= fun _ => setResNbSeq) s =
      .error (.raise (longZeroCause a lim)) (seqStarted s) := by
  have read := readSeqCount_longZero (s := seqStarted s) h (hlim.trans hcap) (countAt_longZero hcount)
  have decoded : seqDecode a lim s = .error (.raise (longZeroCause a lim)) (seqStarted s) :=
    (bind_of_ok read).trans (seqFromCount_longZero none h _)
  rw [bind_apply, checkRegion_apply, if_pos ⟨by omega, hlim⟩]
  exact bind_of_error decoded

theorem seqCount_longZero (h : 0 + 2 ≤ s.inLen.toNat) :
    (inputEnd >>= fun lim => seqStart >>= fun _ => seqFromCount ⟨2, 0⟩ none 0 lim >>= fun _ => setResNbSeq) s =
      .error (.raise (longZeroCause 0 s.inLen.toNat)) (seqStarted s) := by
  show (seqFromCount ⟨2, 0⟩ none 0 s.inLen.toNat >>= fun _ => setResNbSeq) (seqStarted s) = _
  exact bind_of_error (seqFromCount_longZero none h _)

theorem modes_longZero (m : Byte) (h : 0 + 2 ≤ s.inLen.toNat) (hcap : s.inLen.toNat ≤ Config.inCap)
    (hcount : countAt s 0 0 2) :
    (inputEnd >>= fun lim => seqStart >>= fun _ => readSeqCount 0 lim >>= fun c => seqFromCount c (some m) 0 lim >>= fun _ =>
      setResNbSeq) s = .error (.raise (longZeroCause 0 s.inLen.toNat)) (seqStarted s) := by
  have read := readSeqCount_longZero (s := seqStarted s) h hcap (countAt_longZero hcount)
  show (readSeqCount 0 s.inLen.toNat >>= fun c => seqFromCount c (some m) 0 s.inLen.toNat >>= fun _ => setResNbSeq)
    (seqStarted s) = _
  exact (bind_of_ok read).trans (bind_of_error (seqFromCount_longZero (some m) h _))

end Sys2Proof.Machine

/-- Settles O50: whichever of the two checks after the count fails first ends the section before it touches a table. -/
theorem longZeroCountNeverCompletes : Obligations.LongZeroCountNeverCompletes := by
  intro i s a lim hn hranges hi hlen
  have hcap := hranges.inLen
  rcases hi with ⟨a0, a1, rfl, rfl, rfl, hlim, hcount⟩ | ⟨rfl | ⟨⟨ll, off, ml, rfl⟩, hcount⟩, rfl, rfl⟩
  · exact longZero_outcome hn (seqDecode_longZero hlen hlim hcap hcount)
  · exact longZero_outcome hn (seqCount_longZero hlen)
  · exact longZero_outcome hn (modes_longZero _ hlen hcap hcount)

/-- Settles O17: the argument check is the only one FRAME_RESET makes, the error gate included. -/
theorem frameResetStartsAFrame : Obligations.FrameResetStartsAFrame := by
  intro a0 s
  refine ⟨fun h => ⟨_, exec_frameReset_of_range h s, frameStarted_frameResetState h s, rfl⟩, fun h => ?_⟩
  exact exec_frameReset_of_not_range (by simp only [FrameArg, Config.blockMaxLimit]; omega) s

/-- Settles O18: SET_INLEN is the one change of IN_LEN, with the marks of the readers it cuts. -/
theorem setInlenDeclaresTheInput : Obligations.SetInlenDeclaresTheInput := by
  intro a0 s hn
  refine ⟨fun h => ⟨_, exec_setInlen_of_le hn h, setInLen_toNat h s, ?_, ?_, fun r => ?_⟩, fun h =>
    (exec_setInlen_of_not_le hn (not_le.mpr h)).trans (congrArg _ (recordError_of_noError hn))⟩
  · exact touches_setInLen (arg a0) s
  · simp [frCut, arg]
  · simp [rrCut, arg]

/-- Settles O8, by the fields of STATUS and the rows of the table. -/
theorem causeCodes : Obligations.CauseCodes := by
  refine ⟨fun c => ?_, fun row hrow op => ?_⟩
  · cases c <;> decide
  · obtain ⟨hcat, hcause⟩ := causeTable_codes row hrow
    rw [packStatus_toNat, hcat, hcause]

/-- Settles O15: a power-on action is taken in every state, and leads to the values of reset. -/
theorem powerOnValues : Obligations.PowerOnValues := by
  intro s rest h
  refine ⟨powerOnState { s with port := rest }, by rw [step, h], fun u hu => powerOn_column u ?_⟩
  simp only [List.mem_cons, List.not_mem_nil, or_false] at hu
  exact hu.elim (fun h => .inr ⟨_, h⟩) .inl
end

section
/-! CERTIFICATE. The host's writes of IN, the next action of a step, and reads over disturbed bytes. -/

open Sys2Proof Sys2Proof.Machine

namespace Sys2Proof.Machine

variable {s t : State}

/-! ## How a command ends, from how its operation does -/

theorem runCommand_of_ok {op : BitVec 8} {ws : List Element} {body : Op Unit} (hn : noError s = true)
    (h : body s = .ok () t) : runCommand op ws body s = .next t :=
  (runCommand_of_noError hn).trans (congrArg (finish op ws s) h)

theorem runCommand_of_raise {op : BitVec 8} {ws : List Element} {body : Op Unit} {c : Cause} (hn : noError s = true)
    (h : body s = .error (.raise c) t) : runCommand op ws body s = .next (takeError op ws c s t) :=
  (runCommand_of_noError hn).trans (congrArg (finish op ws s) h)

/-! ## The next action (R65, R72) -/

theorem step_of_command {c : Command} {rest : List HostAction} (h : s.port = .command c :: rest) :
    step s = issue c { s with port := rest } := by rw [step, h]

/-! ## The host's write of IN (R60) -/

theorem inByte_hostWriteIn (a : Nat) (b : Byte) (s : State) (c : Nat) :
    inByte (hostWriteIn a b s) c = if c = a then b else inByte s c := by
  unfold inByte
  rw [hostWriteIn_inMem, hostWriteIn_inEra, Memory.get?_set]
  by_cases h : a = c
  · rw [if_pos h, if_pos h.symm]; rfl
  · rw [if_neg h, if_neg (Ne.symm h)]

theorem hostWriteIn_keeps (a : Nat) (b : Byte) (s : State) : Keeps (.inMem :: allMarks) s (hostWriteIn a b s) := fun p hp => by
  cases p with
  | inMem | frStale => exact absurd (by decide) hp
  | rrStale r => cases r <;> exact absurd (by decide) hp
  | _ => rfl

theorem frTouched_iff {fr : FwdReader} {a : Nat} :
    frTouched fr a = true ↔ fr.valid = true ∧ fr.base.toNat ≤ a ∧ a < fr.lim.toNat := by simp [frTouched]

theorem rrTouched_iff {rd : RevReader} {a : Nat} :
    rrTouched rd a = true ↔ rd.valid = true ∧ rd.base.toNat ≤ a ∧ a < rd.base.toNat + rd.len.toNat := by simp [rrTouched]

/-! ## Reads over any bytes, disturbed ones among them (R62) -/

/-- A forward read inside the region returns some n-bit value and moves FR (R124, R125). -/
theorem fread_some {n : Nat} (hv : s.fr.valid = true) (h : frOk s)
    (hle : s.fr.pos.toNat + n ≤ 8 * (s.fr.lim.toNat - s.fr.base.toNat)) :
    ∃ v d q, v < 2 ^ n ∧ q.toNat = s.fr.pos.toNat + n ∧
      fread n s = .ok v { s with draws := d, fr := { s.fr with pos := q } } := by
  obtain ⟨v, d, hlt, hpeek⟩ := fpeek_some (n := n) hv h
  have hlim := s.fr.lim.isLt
  exact ⟨v, d, _, hlt, toNat_ofNat_of_lt (w := 21) (by omega),
    (bind_of_ok hpeek).trans (bind_of_ok (fconsume_of_le (s := { s with draws := d }) hle))⟩

/-- A forward read past the region overruns, after its peek (R124). -/
theorem fread_overrun {n : Nat} (hv : s.fr.valid = true) (h : frOk s)
    (hlt : 8 * (s.fr.lim.toNat - s.fr.base.toNat) < s.fr.pos.toNat + n) :
    ∃ d, fread n s = .error (.raise .brFwdOverrun) { s with draws := d } := by
  obtain ⟨v, d, -, hpeek⟩ := fpeek_some (n := n) hv h
  exact ⟨d, (bind_of_ok hpeek).trans (bind_of_error (fconsume_of_overrun (s := { s with draws := d }) (not_le.mpr hlt)))⟩

/-- A reverse read returns some n-bit value and moves its reader (R121, R122). -/
theorem rread_some {r : RSel} {n : Nat} (hr : readerInRange (s.rr.get r) = true) :
    ∃ v d q, v < 2 ^ n ∧ q.toInt = max ((s.rr.get r).pos.toInt - n) (-2 ^ 31) ∧
      rread r n s = .ok v { s with draws := d, rr := s.rr.set r { s.rr.get r with pos := q } } := by
  obtain ⟨v, d, hlt, hpeek⟩ := rpeek_some (n := n) hr
  exact ⟨v, d, _, hlt, posAfter_toInt _ n, (bind_of_ok hpeek).trans (bind_of_ok (rconsume_apply r n _))⟩

/-- A reader that is ready passes the checks of its commands (R37). -/
theorem needForward_bind_of {β : Type} {g : Unit → Op β} (h : s.fr.valid = true) : (needForward >>= g) s = g () s :=
  bind_of_ok ((needForward_apply s).trans (if_pos h))

theorem selectReader_needReader_bind_of {β : Type} {r : RSel} {g : RSel → Op β} (h : (s.rr.get r).valid = true) :
    (selectReader (readerCode r) >>= fun r => needReader r >>= fun _ => g r) s = g r s :=
  (bind_of_ok (selectReader_of (readerOf_code r) s)).trans (bind_of_ok ((needReader_apply r s).trans (if_pos h)))

/-- After BR_FWD_OVERRUN of a single read STATUS alone has changed: FR.POS is where the read found it (R313). -/
theorem onlyStatus_takeError_overrun {op : BitVec 8} (hn : noError s = true) (d : Nat) :
    onlyStatus .brFwdOverrun op s (takeError op [.frPos] .brFwdOverrun s { s with draws := d }) := by
  have taken : takeError op [.frPos] .brFwdOverrun s { s with draws := d } =
      recordError .brFwdOverrun op { s with draws := d + 1 } := rfl
  rw [taken, recordError_of_noError (s := { s with draws := d + 1 }) hn]
  rfl

end Sys2Proof.Machine

/-- Settles O7: a step is the issue of the next command, which decodes it and runs it. -/
theorem stepRunsDecodedCommand : Obligations.StepRunsDecodedCommand := by
  refine ⟨fun s h => by rw [step, h], fun s c rest i h hd => ?_, fun s c rest r h hd => ?_⟩
  · exact (step_of_command h).trans (issue_of_ok hd _)
  · exact (step_of_command h).trans (issue_of_error hd _)

/-- Settles O14: the write is read back at its address, and the marks are the old ones with the readers over it. -/
theorem hostWriteChangesOneByte : Obligations.HostWriteChangesOneByte := by
  intro s a b rest h
  refine ⟨hostWriteIn a.toNat b { s with port := rest }, by rw [step, h], rfl, inByte_hostWriteIn _ b _, fun p hp => ?_, ?_,
    fun r => ?_⟩
  · have kept := hostWriteIn_keeps a.toNat b { s with port := rest } p (fun hp' => hp (.tail _ hp'))
    cases p with
    | port => exact absurd (by decide) hp
    | _ => exact kept
  · rw [hostWriteIn_frStale, Bool.or_eq_true, frTouched_iff]
  · rw [hostWriteIn_rrStale, markReverse_get, Bool.or_eq_true, rrTouched_iff]

/-- Settles O27: a peek over disturbed bytes answers the draw of a free value, and consuming does not look at the mark. -/
theorem disturbedReadersReturnSomeValue : Obligations.DisturbedReadersReturnSomeValue := by
  intro r n s hn
  refine ⟨fun hv hfr _ => ⟨?_, fun hle => ?_, fun hlt => ?_⟩, fun hv hrr _ => ⟨?_, ?_⟩⟩
  · obtain ⟨v, d, hlt, hpeek⟩ := fpeek_some (n := n.toNat) hv hfr
    exact ⟨v, d, hlt, runCommand_of_ok hn ((needForward_bind_of hv).trans (bind_of_ok hpeek))⟩
  · obtain ⟨v, d, q, hlt, hq, hread⟩ := fread_some hv hfr hle
    exact ⟨v, d, q, hlt, hq, runCommand_of_ok hn ((needForward_bind_of hv).trans (bind_of_ok hread))⟩
  · obtain ⟨d, hread⟩ := fread_overrun hv hfr hlt
    exact ⟨_, runCommand_of_raise hn ((needForward_bind_of hv).trans (bind_of_error hread)),
      onlyStatus_takeError_overrun hn d⟩
  · obtain ⟨v, d, hlt, hpeek⟩ := rpeek_some (n := n.toNat) (hrr hv).2.1
    exact ⟨v, d, hlt, runCommand_of_ok hn ((selectReader_needReader_bind_of hv).trans (bind_of_ok hpeek))⟩
  · obtain ⟨v, d, q, hlt, hq, hread⟩ := rread_some (n := n.toNat) (hrr hv).2.1
    exact ⟨v, d, q, hlt, hq, runCommand_of_ok hn ((selectReader_needReader_bind_of hv).trans (bind_of_ok hread))⟩
end

section
/-! SUPPORT. What an operation's success depends on: run from two states that agree in the parts it reads, it ends with the
same value and in states that agree in those parts and in what it has written. -/

namespace Sys2Proof.Machine

variable {α β : Type} {s t u : State} {p : Part} {ps qs rs ts : List Part}

/-! ## States that agree -/

/-- Part `p` is the same in both states; of a reader's mark: it is clear in both, so that the reader draws no free value
(R62, log 10). -/
def alike (p : Part) (s t : State) : Prop :=
  match p with
  | .frStale => s.frStale = false ∧ t.frStale = false
  | .rrStale r => s.rrStale.get r = false ∧ t.rrStale.get r = false
  | p => samePart p s t

/-- The states agree in the parts `ps`, and draw the same free values. -/
structure Alike (ps : List Part) (s t : State) : Prop where
  draws : t.draws = s.draws
  parts : ∀ p ∈ ps, alike p s t

theorem samePart.symm (h : samePart p s t) : samePart p t s := by cases p <;> exact Eq.symm h

theorem alike.symm (h : alike p s t) : alike p t s := by
  cases p with
  | frStale | rrStale r => exact ⟨h.2, h.1⟩
  | _ => exact Eq.symm h

/-- What two operations have both left alone is as alike as it was. -/
theorem alike.of_same {s' t' : State} (h : alike p s s') (k : samePart p s t) (k' : samePart p s' t') : alike p t t' := by
  cases p with
  | frStale | rrStale r => exact ⟨Eq.trans k h.1, Eq.trans k' h.2⟩
  | _ => exact Eq.trans k' (Eq.trans h (Eq.symm k))

theorem alike_iff_samePart (hp : p ∉ allMarks) : alike p s t ↔ samePart p s t := by
  cases p with
  | frStale => exact absurd (by decide) hp
  | rrStale r => cases r <;> exact absurd (by decide) hp
  | _ => exact Iff.rfl

theorem Alike.symm (h : Alike ps s t) : Alike ps t s := ⟨h.draws.symm, fun p hp => (h.parts p hp).symm⟩
theorem Alike.mono (h : Alike ps s t) (sub : qs ⊆ ps) : Alike qs s t := ⟨h.draws, fun p hp => h.parts p (sub hp)⟩

theorem Alike.of_keeps (k : Keeps ts s t) (hd : t.draws = s.draws) (h : ∀ p ∈ ps, p ∉ ts ++ allMarks) : Alike ps s t := by
  refine ⟨hd, fun p hp => ?_⟩
  obtain ⟨hts, hm⟩ := not_or.mp (mt List.mem_append.mpr (h p hp))
  exact (alike_iff_samePart hm).mpr (k p hts)

/-! ## Operations whose success is determined -/

/-- Where `x` succeeds, its value and the parts `qs` it leaves are determined by the parts `ps` it began with, and it draws
no free value. -/
def Determined (ps : List Part) (x : Op α) (qs : List Part) : Prop :=
  ∀ s s' a t, Alike ps s s' → x s = .ok a t → ∃ t', x s' = .ok a t' ∧ Alike qs t t' ∧ t.draws = s.draws

theorem Determined.bind {x : Op α} {f : α → Op β} (hx : Determined ps x qs) (hf : ∀ a, Determined qs (f a) rs) :
    Determined ps (x >>= f) rs := fun s s' b u h e => by
  obtain ⟨a, t, hxs, hft⟩ := bind_eq_ok.mp e
  obtain ⟨t', hxs', ht, hdx⟩ := hx s s' a t h hxs
  obtain ⟨u', hft', hu, hdf⟩ := hf a t t' b u ht hft
  exact ⟨u', (bind_of_ok hxs').trans hft', hu, hdf.trans hdx⟩

theorem Determined.weaken {x : Op α} (h : Determined ps x qs) (sub : rs ⊆ qs) : Determined ps x rs :=
  fun s s' a t hs e => by
    obtain ⟨t', e', ht, hd⟩ := h s s' a t hs e
    exact ⟨t', e', ht.mono sub, hd⟩

/-- An operation that leaves the state alone, and answers the same in states that agree. -/
theorem Determined.of_value {x : Op α}
    (h : ∀ s s' a t, Alike ps s s' → x s = .ok a t → t = s ∧ x s' = .ok a s') : Determined ps x ps :=
  fun s s' a t hs e => by
    obtain ⟨rfl, e'⟩ := h s s' a t hs e
    exact ⟨s', e', hs, rfl⟩

theorem Determined.pure (a : α) : Determined ps (pure a) ps := .of_value fun _ _ _ _ _ e => by cases e; exact ⟨rfl, rfl⟩
theorem Determined.raise (c : Cause) : Determined ps (raise c : Op α) qs := fun _ _ _ _ _ e => by cases e
theorem Determined.look {f : State → α} (h : ∀ s t, Alike ps s t → f t = f s) : Determined ps (look f) ps :=
  .of_value fun s s' a t hs e => by cases e; exact ⟨rfl, by rw [look_apply, h s s' hs]⟩
theorem Determined.ensure (q : Prop) [Decidable q] (c : Cause) : Determined ps (ensure q c) ps :=
  .of_value fun s s' a t _ e => by
    obtain ⟨hq, rfl⟩ := ensure_eq_ok.mp e
    exact ⟨rfl, ensure_of hq⟩
theorem Determined.ite {c : Prop} [Decidable c] {x y : Op α} (hx : Determined ps x qs) (hy : Determined ps y qs) :
    Determined ps (if c then x else y) qs := by split_ifs <;> assumption

/-- An operation that determines the parts it touches determines these and all that was determined before. -/
theorem Determined.of_touches {x : Op α} (hx : Touches ts x) (hd : .draws ∉ ts)
    (h : ∀ s s' a t, Alike ps s s' → x s = .ok a t → ∃ t', x s' = .ok a t' ∧ ∀ p ∈ ts, alike p t t') :
    Determined ps x (ts ++ ps) := fun s s' a t hs e => by
  obtain ⟨t', e', ht⟩ := h s s' a t hs e
  have k := hx.ok e
  have k' := hx.ok e'
  refine ⟨t', e', ⟨Eq.trans (k' .draws hd) (hs.draws.trans (Eq.symm (k .draws hd))), fun p hp => ?_⟩, k .draws hd⟩
  by_cases hpt : p ∈ ts
  · exact ht p hpt
  · exact (hs.parts p ((List.mem_append.mp hp).resolve_left hpt)).of_same (k p hpt) (k' p hpt)

theorem Determined.change {f : State → State} (hx : Touches ts (Machine.change f)) (hd : .draws ∉ ts)
    (h : ∀ s t, Alike ps s t → ∀ p ∈ ts, alike p (f s) (f t)) : Determined ps (Machine.change f) (ts ++ ps) :=
  .of_touches hx hd fun s s' a t hs e => by cases e; exact ⟨f s', rfl, h s s' hs⟩

/-- Where the parts it needs carry no mark, `x` draws no free value. -/
theorem Determined.draws {x : Op α} {a : α} (h : Determined ps x qs) (hm : ∀ p ∈ ps, p ∉ allMarks) (e : x s = .ok a t) :
    t.draws = s.draws := by
  obtain ⟨-, -, -, hd⟩ := h s s a t (.of_keeps (ts := []) (.refl _ s) rfl (by simpa using hm)) e
  exact hd

/-- Two operations of which neither touches what the other reads may change places. -/
theorem Determined.swap {x : Op α} {y : Op β} {a : α} {b : β} {ps' qs' tx ty : List Part} (hx : Determined ps x ps')
    (hy : Determined qs y qs') (kx : Touches tx x) (ky : Touches ty y) (hps : ∀ p ∈ ps, p ∉ ty ++ allMarks)
    (hqs : ∀ p ∈ qs, p ∉ tx ++ allMarks) (ex : x s = .ok a t) (ey : y t = .ok b u) :
    ∃ t' u', y s = .ok b t' ∧ x t' = .ok a u' ∧ Alike qs' u t' ∧ Alike ps' t u' := by
  have unmarked {ps ts : List Part} (h : ∀ p ∈ ps, p ∉ ts ++ allMarks) : ∀ p ∈ ps, p ∉ allMarks :=
    fun p hp hm => h p hp (List.mem_append_right _ hm)
  have dx := hx.draws (unmarked hps) ex
  have dy := hy.draws (unmarked hqs) ey
  obtain ⟨t', ey', ht', -⟩ := hy t s b u (Alike.of_keeps (kx.ok ex) dx hqs).symm ey
  obtain ⟨u', ex', hu', -⟩ := hx s t' a t (.of_keeps (ky.ok ey') (ht'.draws.trans (dy.trans dx)) hps) ex
  exact ⟨t', u', ey', ex', ht', hu'⟩

end Sys2Proof.Machine
end

section
/-! SUPPORT. What each operation of the two section decoders depends on: the parts it reads before it writes them. -/

namespace Sys2Proof.Machine

variable {s t : State} {ps : List Part}

/-! ## Reading agreeing states -/

/-- IN (R60). -/
abbrev inParts : List Part := [.inMem, .inEra]
/-- What a read of FR looks at (R123). -/
abbrev forwardParts : List Part := [.inMem, .inEra, .fr, .frStale]
/-- What a read of RR[r] looks at (R121). -/
abbrev reverseParts (r : RSel) : List Part := [.inMem, .inEra, .rr r, .rrStale r]

theorem Alike.inByte (h : Alike ps s t) (sub : inParts ⊆ ps) (a : Nat) : inByte t a = inByte s a := by
  have mem : t.inMem = s.inMem := h.parts .inMem (sub (by simp))
  have era : t.inEra = s.inEra := h.parts .inEra (sub (by simp))
  rw [Machine.inByte, mem, era, Machine.inByte]

theorem Alike.fr (h : Alike ps s t) (hp : .fr ∈ ps) : t.fr = s.fr := h.parts .fr hp
theorem Alike.rr {r : RSel} (h : Alike ps s t) (hp : .rr r ∈ ps) : t.rr.get r = s.rr.get r := h.parts (.rr r) hp
theorem Alike.ft {x : TSel} (h : Alike ps s t) (hp : .ft x ∈ ps) : t.ft.get x = s.ft.get x := h.parts (.ft x) hp

theorem Alike.forwardBits (h : Alike ps s t) (sub : inParts ⊆ ps) (hfr : .fr ∈ ps) (n k : Nat) :
    forwardBits t k n = forwardBits s k n := by
  induction n generalizing k with
  | zero => rfl
  | succ n ih => rw [Machine.forwardBits, Machine.forwardBits, ih, forwardBit, forwardBit, h.fr hfr, h.inByte sub]

theorem Alike.reverseBits (h : Alike ps s t) (sub : inParts ⊆ ps) (rd : RevReader) (pos : Int) (n : Nat) :
    reverseBits t rd pos n = reverseBits s rd pos n := by
  induction n with
  | zero => rfl
  | succ n ih => rw [Machine.reverseBits, Machine.reverseBits, ih, reverseBit, reverseBit, h.inByte sub]

theorem Alike.stateEntry {x : SSel} (h : Alike ps s t) (hft : .ft (tabOf x) ∈ ps) (hst : .st x ∈ ps) :
    stateEntry t x = stateEntry s x := by
  have st : t.st.get x = s.st.get x := h.parts (.st x) hst
  rw [Machine.stateEntry, Machine.stateEntry, tableEntry, tableEntry, h.ft hft, st, h.draws]

theorem Alike.huffEntry (h : Alike ps s t) (hht : .ht ∈ ps) (v : Nat) : huffEntry t v = huffEntry s v := by
  have ht : t.ht = s.ht := h.parts .ht hht
  rw [Machine.huffEntry, Machine.huffEntry, ht, h.draws]

/-! ## Memories and registers -/

theorem determined_readIn (sub : inParts ⊆ ps) (a : Nat) : Determined ps (readIn a) ps :=
  .of_value fun s s' b t h e => by
    obtain ⟨ha, rfl, rfl⟩ := readIn_eq_ok.mp e
    exact ⟨rfl, by rw [readIn_of_lt ha, h.inByte sub]⟩

theorem determined_readBytes (sub : inParts ⊆ ps) : ∀ n a, Determined ps (readBytes a n) ps
  | 0, _ => .pure _
  | n + 1, a => .bind (determined_readIn sub a) fun _ => .bind (determined_readBytes sub n (a + 1)) fun _ => .pure _

theorem determined_memRead (sub : inParts ⊆ ps) (a n : Nat) : Determined ps (memRead a n) ps :=
  .bind (determined_readBytes sub n a) fun _ => .pure _

theorem determined_writeLit (hp : .lit ∈ ps) (a : Nat) (b : Byte) : Determined ps (writeLit a b) ps := by
  refine (Determined.of_touches (touches_writeLit a b) (by simp) fun s s' _ t h e => ?_).weaken (by simp)
  have lit : s'.lit = s.lit := h.parts .lit hp
  by_cases ha : a < Config.litCap
  · rw [writeLit_of_lt ha] at e
    cases e
    exact ⟨_, writeLit_of_lt ha, by simp [alike, samePart, lit]⟩
  · simp [writeLit, ha] at e

theorem determined_seqAppend (sub : [.seq, .nbSeq] ⊆ ps) (ll off ml : Nat) :
    Determined ps (seqAppend ll off ml) ps := by
  refine (Determined.of_touches (touches_seqAppend ll off ml) (by simp) fun s s' _ t h e => ?_).weaken (by simp)
  have seq : s'.seq = s.seq := h.parts .seq (sub (by simp))
  have nbSeq : s'.nbSeq = s.nbSeq := h.parts .nbSeq (sub (by simp))
  by_cases hn : s.nbSeq.toNat < Config.seqCap
  · rw [seqAppend_of_lt hn] at e
    cases e
    exact ⟨_, seqAppend_of_lt (nbSeq ▸ hn), by simp [alike, samePart, seq, nbSeq]⟩
  · simp [seqAppend, hn] at e

theorem determined_setRes (v : Nat) : Determined ps (setRes v) ps :=
  (Determined.change (touches_setRes v) (by simp) fun s t _ => by simp [alike, samePart]).weaken (by simp)

theorem determined_setResNbSeq (hp : .nbSeq ∈ ps) : Determined ps setResNbSeq ps :=
  (Determined.change touches_setResNbSeq (by simp) fun s t h => by
    have nbSeq : t.nbSeq = s.nbSeq := h.parts .nbSeq hp
    simp [alike, samePart, nbSeq]).weaken (by simp)

theorem determined_setTable (x : TSel) (v : FseTable) : Determined ps (setTable x v) ([.ft x] ++ ps) :=
  .change (touches_setTable x v) (by simp) fun s t _ => by simp [alike, samePart]

theorem determined_setSt (x : SSel) (v : Nat) : Determined ps (setSt x v) ([.st x] ++ ps) :=
  .change (touches_setSt x v) (by simp) fun s t _ => by simp [alike, samePart]

theorem determined_setDist (x : TSel) (al : Nat) (counts : List Int) : Determined ps (setDist x al counts) ([.dist] ++ ps) :=
  .change (touches_setDist x al counts) (by simp) fun s t _ => by simp [alike, samePart]

/-! ## The forward reader -/

theorem fpeek_of_unmarked {n : Nat} (h : s.frStale = false) :
    fpeek n s = if Config.inCap < s.fr.lim.toNat then .error (.fault .inAddress) s
      else .ok (forwardBits s s.fr.pos.toNat n) s := by
  unfold fpeek
  rw [bind_of_ok (look_apply id s)]
  simp only [id]
  rw [if_neg (show ¬(s.frStale = true ∧ n ≠ 0) by simp [h])]
  split_ifs <;> rfl

theorem determined_fpeek (sub : forwardParts ⊆ ps) (n : Nat) : Determined ps (fpeek n) ps :=
  .of_value fun s s' v t h e => by
    obtain ⟨clear, clear'⟩ := h.parts .frStale (sub (by simp))
    have fr : s'.fr = s.fr := h.fr (sub (by simp))
    rw [fpeek_of_unmarked clear] at e
    rw [fpeek_of_unmarked clear', fr, h.forwardBits (List.Subset.trans (by simp) sub) (sub (by simp))]
    split_ifs at e ⊢
    cases e
    exact ⟨rfl, rfl⟩

/-- FR moves by what FR alone says. -/
theorem determined_moveForward (hp : .fr ∈ ps) (f : FwdReader → BitVec 21) :
    Determined ps (change fun s => { s with fr := { s.fr with pos := f s.fr } }) ps :=
  (Determined.change (ts := [.fr]) (fun s p hp => by cases p <;> first | rfl | simp at hp) (by simp) fun s t h => by
    simp [alike, samePart, h.fr hp]).weaken (by simp)

theorem determined_fconsume (hp : .fr ∈ ps) (n : Nat) : Determined ps (fconsume n) ps :=
  .bind (.look fun _ _ h => h.fr hp) fun _ => .bind (.ensure _ _) fun _ =>
    determined_moveForward hp fun fr => BitVec.ofNat 21 (fr.pos.toNat + n)

theorem determined_fread (sub : forwardParts ⊆ ps) (n : Nat) : Determined ps (fread n) ps :=
  .bind (determined_fpeek sub n) fun _ => .bind (determined_fconsume (sub (by simp)) n) fun _ => .pure _

theorem determined_falign (hp : .fr ∈ ps) : Determined ps falign ps :=
  .bind (determined_moveForward hp fun fr => BitVec.ofNat 21 ((fr.pos.toNat + 7) / 8 * 8)) fun _ =>
    .look fun s t h => by rw [h.fr hp]

theorem determined_finit (base lim : Nat) : Determined ps (finit base lim) ([.fr, .frStale] ++ ps) :=
  .change (touches_finit base lim) (by simp) fun s t _ => by simp [alike, samePart]

/-! ## The reverse readers -/

theorem rpeek_of_unmarked {r : RSel} {n : Nat} (h : s.rrStale.get r = false) :
    rpeek r n s = if readerInRange (s.rr.get r) = false then .error (.fault .readerRange) s
      else .ok (reverseBits s (s.rr.get r) (s.rr.get r).pos.toInt n) s := by
  unfold rpeek
  rw [bind_of_ok (look_apply id s)]
  simp only [id]
  rw [if_neg (show ¬(s.rrStale.get r = true ∧ n ≠ 0) by simp [h])]
  split_ifs <;> rfl

theorem determined_rpeek {r : RSel} (sub : reverseParts r ⊆ ps) (n : Nat) : Determined ps (rpeek r n) ps :=
  .of_value fun s s' v t h e => by
    obtain ⟨clear, clear'⟩ := h.parts (.rrStale r) (sub (by simp))
    have rr : s'.rr.get r = s.rr.get r := h.rr (sub (by simp))
    rw [rpeek_of_unmarked clear] at e
    rw [rpeek_of_unmarked clear', rr, h.reverseBits (List.Subset.trans (by simp) sub)]
    split_ifs at e ⊢
    cases e
    exact ⟨rfl, rfl⟩

theorem determined_rconsume {r : RSel} (hp : .rr r ∈ ps) (n : Nat) : Determined ps (rconsume r n) ps :=
  (Determined.change (touches_rconsume r n) (by simp) fun s t h => by simp [alike, samePart, h.rr hp]).weaken (by simp)

theorem determined_rread {r : RSel} (sub : reverseParts r ⊆ ps) (n : Nat) : Determined ps (rread r n) ps :=
  .bind (determined_rpeek sub n) fun _ => .bind (determined_rconsume (sub (by simp)) n) fun _ => .pure _

theorem determined_rpos {r : RSel} (hp : .rr r ∈ ps) : Determined ps (rpos r) ps := .look fun s t h => by rw [h.rr hp]

theorem determined_rinit (sub : inParts ⊆ ps) (r : RSel) (base len : Nat) :
    Determined ps (rinit r base len) ([.rr r, .rrStale r] ++ ps) :=
  .bind (.ensure _ _) fun _ => .bind (determined_readIn sub _) fun _ => .bind (.ensure _ _) fun _ =>
    .change (fun s p hp => by
      cases p <;> first
        | rfl
        | exact RevBank.get_set_ne (by simpa using hp)
        | exact RevMarks.get_clear_ne (by simpa using hp)) (by simp) fun s t _ => by simp [alike, samePart]

/-! ## FSE tables and states -/

theorem determined_readZeroRun (sub : forwardParts ⊆ ps) : ∀ fuel n0, Determined ps (readZeroRun fuel n0) ps
  | 0, _ => .raise _
  | fuel + 1, _ => .bind (determined_fread sub 2) fun _ => .ite (determined_readZeroRun sub fuel _) (.pure _)

theorem determined_continueRun (sub : forwardParts ⊆ ps) (x : TSel) (prev0 : Bool) (counts : List Int) :
    Determined ps (continueRun x prev0 counts) ps :=
  .ite (.bind (.look fun s t h => by rw [h.fr (sub (by simp))]) fun _ => .bind (determined_readZeroRun sub _ _) fun _ =>
    .bind (.ensure _ _) fun _ => .pure _) (.pure _)

theorem determined_readCountField (sub : forwardParts ⊆ ps) (remaining threshold nbits : Nat) :
    Determined ps (readCountField remaining threshold nbits) ps :=
  have consume (n : Nat) : Determined ps (fconsume n) ps := determined_fconsume (sub (by simp)) n
  .bind (determined_fpeek sub _) fun _ => .ite (.bind (consume _) fun _ => .pure _)
    (.bind (determined_fpeek sub _) fun _ => .bind (consume _) fun _ => .pure _)

theorem determined_ncountLoop (sub : forwardParts ⊆ ps) (x : TSel) : ∀ fuel remaining threshold nbits counts prev0,
    Determined ps (ncountLoop x fuel remaining threshold nbits counts prev0) ps
  | 0, _, _, _, _, _ => .pure _
  | fuel + 1, _, _, _, counts, prev0 =>
    .ite (.pure _) (.bind (determined_continueRun sub x prev0 counts) fun _ =>
      .bind (determined_readCountField sub _ _ _) fun _ => determined_ncountLoop sub x fuel _ _ _ _ _)

theorem determined_readNCount (sub : forwardParts ⊆ ps) (x : TSel) : Determined ps (readNCount x) ([.dist] ++ ps) :=
  .bind (determined_fread sub 4) fun _ => .bind (.ensure _ _) fun _ => .bind (determined_ncountLoop sub x _ _ _ _ _ _) fun _ =>
    .bind (.ensure _ _) fun _ => .bind (determined_falign (sub (by simp))) fun _ =>
      .bind (determined_setDist _ _ _) fun _ => .pure _

/-- BuildTable reads DIST alone, and the count of free values for the slots it would leave empty (log 16). -/
theorem determined_buildTable (hp : .dist ∈ ps) (x : TSel) : Determined ps (buildTable x) ([.ft x] ++ ps) :=
  .of_touches (touches_buildTable x) (by simp) fun s s' _ t h e => by
    have dist : s'.dist = s.dist := h.parts .dist hp
    unfold buildTable at e ⊢
    rw [bind_of_ok (look_apply id s)] at e
    rw [bind_of_ok (look_apply id s')]
    simp only [id, dist, h.draws] at e ⊢
    cases hb : buildEntries s.dist.al.toNat (Config.freeNat s.draws .symAt) (distCounts s.dist) with
    | none => rw [hb] at e; cases e
    | some entries => rw [hb] at e; cases e; exact ⟨_, rfl, by simp [alike, samePart]⟩

theorem determined_rleTable (x : TSel) (sym : Nat) : Determined ps (rleTable x sym) ([.ft x] ++ ps) :=
  .bind (.ensure _ _) fun _ => determined_setTable _ _

theorem determined_repeatTable {x : TSel} (hp : .ft x ∈ ps) : Determined ps (repeatTable x) ps :=
  .bind (.look fun s t h => by rw [h.ft hp]) fun _ => .ensure _ _

theorem determined_initState {x : SSel} {r : RSel} (hft : .ft (tabOf x) ∈ ps) (sub : reverseParts r ⊆ ps) :
    Determined ps (initState x r) ([.st x] ++ ps) :=
  .bind (.look fun s t h => by rw [h.ft hft]) fun _ => .bind (determined_rread sub _) fun _ => determined_setSt _ _

/-- What SymOf and UpdState of `x` look at (R159). -/
abbrev stateParts (x : SSel) : List Part := [.ft (tabOf x), .st x]

theorem determined_symOf {x : SSel} (sub : stateParts x ⊆ ps) : Determined ps (symOf x) ps :=
  .look fun s t h => by rw [h.stateEntry (sub (by simp)) (sub (by simp))]

theorem determined_updState {x : SSel} {r : RSel} (sub : stateParts x ⊆ ps) (subr : reverseParts r ⊆ ps) :
    Determined ps (updState x r) ps :=
  .bind (.look fun s t h => h.stateEntry (sub (by simp)) (sub (by simp))) fun _ => .bind (determined_rread subr _) fun _ =>
    (determined_setSt x _).weaken (by simp)

end Sys2Proof.Machine
end

section
/-! CERTIFICATE. LIT_DECODE and SEQ_DECODE read nothing that the other writes, so they may run in either order (R75, R347). -/

open Sys2Proof Sys2Proof.Machine

namespace Sys2Proof.Machine

variable {s t u : State}

/-! ## Literals -/

/-- What a literals section is decoded from (R230): IN and its end, the largest block, and HT for a treeless section. LIT
is listed because its other bytes are kept. -/
def litInputs : List Part := [.inMem, .inEra, .inLen, .blockMax, .ht, .lit]

theorem determined_rawWeightsFrom {ps : List Part} (sub : inParts ⊆ ps) (a : Nat) : ∀ k i,
    Determined ps (rawWeightsFrom a k i) ps
  | 0, _ => .pure _
  | k + 1, i => .bind (determined_readIn sub _) fun _ => .bind (determined_rawWeightsFrom sub a k (i + 1)) fun _ => .pure _

/-- What the two states of R193 are read and updated from. -/
abbrev weightReads : List Part := [.ft .hw, .st .w1, .st .w2] ++ reverseParts .r5

theorem determined_weightLoop {ps : List Part} (sub : weightReads ⊆ ps) : ∀ fuel wd, Determined ps (weightLoop fuel wd) ps
  | 0, _ => .raise _
  | fuel + 1, wd =>
    have reader : reverseParts .r5 ⊆ ps := List.Subset.trans (by decide) sub
    have state1 : stateParts .w1 ⊆ ps := List.Subset.trans (by decide) sub
    have state2 : stateParts .w2 ⊆ ps := List.Subset.trans (by decide) sub
    have pos : Determined ps (rpos .r5) ps := determined_rpos (reader (by decide))
    .bind (.ensure _ _) fun _ => .bind (determined_symOf state1) fun _ =>
      .bind (determined_updState state1 reader) fun _ => .bind pos fun _ =>
        .ite (.bind (determined_symOf state2) fun _ => .pure _)
          (.bind (.ensure _ _) fun _ => .bind (determined_symOf state2) fun _ =>
            .bind (determined_updState state2 reader) fun _ => .bind pos fun _ =>
              .ite (.bind (determined_symOf state1) fun _ => .pure _) (determined_weightLoop sub fuel _))

/-- FseWeights initialises FR, DIST, FT[HW], RR[5] and its states before it reads them (R192, R193). -/
theorem determined_fseWeights (a hb lim : Nat) : Determined litInputs (fseWeights a hb lim) litInputs :=
  Determined.weaken (.bind (.ensure _ _) fun _ => .bind (determined_finit _ _) fun _ =>
    .bind (determined_readNCount (by decide) .hw) fun _ => .bind (determined_buildTable (by decide) .hw) fun _ =>
      .bind (determined_rinit (by decide) .r5 _ _) fun _ => .bind (determined_initState (by decide) (by decide)) fun _ =>
        .bind (determined_initState (by decide) (by decide)) fun _ =>
          .bind (determined_weightLoop (by decide) _ _) fun _ => .pure _) (by decide)

theorem determined_rawWeights (a hb lim : Nat) : Determined litInputs (rawWeights a hb lim) litInputs :=
  .bind (.ensure _ _) fun _ => .bind (determined_rawWeightsFrom (by decide) a _ _) fun _ => .pure _

theorem determined_huffBuild (wd : List Byte) : Determined litInputs (huffBuild wd) litInputs :=
  Determined.weaken (.bind (.ensure _ _) fun _ => .bind (.ensure _ _) fun _ => .bind (.ensure _ _) fun _ =>
    .bind (.ensure _ _) fun _ => .bind (.ensure _ _) fun _ =>
      .change (ts := [.w, .nw, .ht]) (fun s p hp => by cases p <;> first | rfl | simp at hp) (by decide) fun s t _ => by
        simp [alike, samePart]) (by decide)

theorem determined_huffTree (a lim : Nat) : Determined litInputs (huffTree a lim) litInputs :=
  .bind (.ensure _ _) fun _ => .bind (determined_readIn (by decide) a) fun _ =>
    .bind (.ite (determined_fseWeights _ _ _) (determined_rawWeights _ _ _)) fun _ =>
      .bind (determined_huffBuild _) fun _ => .pure _

theorem determined_huffSym {ps : List Part} {r : RSel} (sub : reverseParts r ⊆ ps) (hht : .ht ∈ ps) :
    Determined ps (huffSym r) ps :=
  .bind (.look fun s t h => by have ht : t.ht = s.ht := h.parts .ht hht; rw [ht]) fun _ => .bind (determined_rpeek sub _) fun _ =>
    .bind (.look fun s t h => h.huffEntry hht _) fun _ => .bind (determined_rconsume (sub (by simp)) _) fun _ =>
      .bind (determined_rpos (sub (by simp))) fun _ => .bind (.ensure _ _) fun _ => .pure _

theorem determined_huffSymbols {ps : List Part} {r : RSel} (sub : reverseParts r ⊆ ps) (hht : .ht ∈ ps) (hlit : .lit ∈ ps) :
    ∀ count dst, Determined ps (huffSymbols r count dst) ps
  | 0, _ => .pure _
  | count + 1, dst => .bind (determined_huffSym sub hht) fun _ => .bind (determined_writeLit hlit _ _) fun _ =>
      determined_huffSymbols sub hht hlit count (dst + 1)

theorem determined_litStream (r : RSel) (q len count dst : Nat) :
    Determined litInputs (litStream r q len count dst) litInputs :=
  have sub : reverseParts r ⊆ [.rr r, .rrStale r] ++ litInputs := by simp [litInputs]
  Determined.weaken (.bind (determined_rinit (by decide) r q len) fun _ =>
    .bind (determined_huffSymbols sub (by simp [litInputs]) (by simp [litInputs]) count dst) fun _ =>
      .bind (determined_rpos (sub (by simp))) fun _ => .ensure _ _) (by simp)

theorem determined_fourStreams (p last regen : Nat) : Determined litInputs (fourStreams p last regen) litInputs :=
  have read (a n : Nat) : Determined litInputs (memRead a n) litInputs := determined_memRead (by decide) a n
  .bind (.ensure _ _) fun _ => .bind (read _ _) fun _ => .bind (read _ _) fun _ => .bind (read _ _) fun _ =>
    .bind (.ensure _ _) fun _ => .bind (determined_litStream .r0 _ _ _ _) fun _ =>
      .bind (determined_litStream .r1 _ _ _ _) fun _ => .bind (determined_litStream .r2 _ _ _ _) fun _ =>
        determined_litStream .r3 _ _ _ _

theorem determined_bodyTable (h : LitHeader) (p last : Nat) : Determined litInputs (bodyTable h p last) litInputs :=
  .ite (determined_huffTree p last) (.bind (.bind (.look fun s t h => by
    have ht : t.ht = s.ht := h.parts .ht (by decide)
    rw [ht]) fun _ => .ensure _ _) fun _ => .pure _)

theorem determined_codedBody (h : LitHeader) (p last : Nat) : Determined litInputs (codedBody h p last) litInputs :=
  .bind (determined_bodyTable h p last) fun _ => .ite (determined_litStream .r0 _ _ _ _) (determined_fourStreams _ _ _)

theorem determined_copyLit : ∀ k src dst, Determined litInputs (copyLit k src dst) litInputs
  | 0, _, _ => .pure _
  | k + 1, _, _ => .bind (determined_readIn (by decide) _) fun _ => .bind (determined_writeLit (by decide) _ _) fun _ =>
      determined_copyLit k _ _

theorem determined_fillLit (b : Byte) : ∀ k dst, Determined litInputs (fillLit b k dst) litInputs
  | 0, _ => .pure _
  | k + 1, _ => .bind (determined_writeLit (by decide) _ _) fun _ => determined_fillLit b k _

theorem determined_litBody (h : LitHeader) (a lim : Nat) : Determined litInputs (litBody h a lim) litInputs := by
  unfold litBody
  cases h.type with
  | raw => exact .bind (.ensure _ _) fun _ => .bind (determined_copyLit _ _ _) fun _ => .pure _
  | rle => exact .bind (.ensure _ _) fun _ => .bind (determined_readIn (by decide) _) fun _ =>
      .bind (determined_fillLit _ _ _) fun _ => .pure _
  | compressed | treeless =>
    exact .bind (.ensure _ _) fun _ => .bind (.ensure _ _) fun _ => .bind (determined_codedBody h _ _) fun _ => .pure _

/-- LIT_LEN is the last that LitDecode writes, from the header (R230). -/
theorem determined_litSection (h : LitHeader) (a lim : Nat) :
    Determined litInputs (litSection h a lim) ([.litLen] ++ litInputs) :=
  .bind (.ensure _ _) fun _ =>
    .bind (.bind (.look fun s t h => by
      have blockMax : t.blockMax = s.blockMax := h.parts .blockMax (by decide)
      rw [blockMax]) fun _ => .ensure _ _) fun _ => .bind (determined_litBody h a lim) fun _ =>
        .bind (.change (ts := [.litLen]) (fun s p hp => by cases p <;> first | rfl | simp at hp) (by decide) fun s t _ => by
          simp [alike, samePart]) fun _ => .pure _

theorem determined_litDecode (a lim : Nat) : Determined litInputs (litDecode a lim) ([.litLen] ++ litInputs) :=
  .bind (.ensure _ _) fun _ => .bind (determined_readIn (by decide) a) fun _ => .bind (.ensure _ _) fun _ =>
    .bind (determined_readBytes (by decide) _ _) fun _ => determined_litSection _ _ _

/-! ## Sequences -/

/-- What a sequences section is decoded from (R263): IN and its end, the tables a Repeat mode names, and REP. -/
def seqInputs : List Part := [.inMem, .inEra, .inLen, .ft .ll, .ft .off, .ft .ml, .rep]

/-- These and the sequences decoded so far, none at first. -/
def seqSoFar : List Part := [.seq, .nbSeq] ++ seqInputs

/-- A table is built from IN, from nothing else, or it is the one held (R254). -/
theorem determined_seqTable {x : TSel} (hx : .ft x ∈ seqSoFar) (mode : BitVec 2) (p lim : Nat) :
    Determined seqSoFar (seqTable x mode p lim) seqSoFar := by
  unfold seqTable
  split
  · exact Determined.weaken (.bind (determined_setDist _ _ _) fun _ => .bind (determined_buildTable (by simp) x) fun _ =>
      .pure _) (by simp)
  · exact .bind (.ensure _ _) fun _ => .bind (determined_readIn (by decide) _) fun _ =>
      .bind ((determined_rleTable x _).weaken (by simp)) fun _ => .pure _
  · exact Determined.weaken (.bind (determined_finit _ _) fun _ => .bind (determined_readNCount (by decide) x) fun _ =>
      .bind (determined_buildTable (by simp) x) fun _ => .pure _) fun _ hp => by simp [hp]
  · exact .bind (determined_repeatTable hx) fun _ => .pure _

/-- What a sequence is decoded from once the states are initialised (R258 to R262). -/
def seqLoopReads : List Part := [.st .ml, .st .off, .st .ll, .rr .r4, .rrStale .r4] ++ seqSoFar

theorem determined_seqReads : Determined seqLoopReads seqReads seqLoopReads :=
  have read (n : Nat) : Determined seqLoopReads (rread .r4 n) seqLoopReads := determined_rread (by decide) n
  .bind (determined_symOf (by decide)) fun _ => .bind (determined_symOf (by decide)) fun _ =>
    .bind (determined_symOf (by decide)) fun _ => .bind (read _) fun _ => .bind (read _) fun _ => .bind (read _) fun _ => .pure _

theorem determined_seqUpdates (last : Bool) : Determined seqLoopReads (seqUpdates last) seqLoopReads :=
  .ite (.pure _) (.bind (determined_updState (by decide) (by decide)) fun _ =>
    .bind (determined_updState (by decide) (by decide)) fun _ => determined_updState (by decide) (by decide))

theorem determined_resolveOffset {ps : List Part} (hp : .rep ∈ ps) (ofv ll : Nat) :
    Determined ps (resolveOffset ofv ll) ps :=
  .bind (.look fun s t h => h.parts .rep hp) fun rep => by
    cases resolveRep rep ofv ll with
    | none => exact .raise _
    | some out =>
      exact .bind ((Determined.change (ts := [.rep]) (fun s p hp => by cases p <;> first | rfl | simp at hp) (by decide)
        fun s t _ => by simp [alike, samePart]).weaken (by simp)) fun _ => .pure _

theorem determined_seqStep (last : Bool) : Determined seqLoopReads (seqStep last) seqLoopReads :=
  .bind determined_seqReads fun _ => .bind (determined_seqUpdates last) fun _ => .bind (determined_rpos (by decide)) fun _ =>
    .bind (.ensure _ _) fun _ => .bind (determined_resolveOffset (by decide) _ _) fun _ =>
      determined_seqAppend (by decide) _ _ _

theorem determined_seqLoop : ∀ k, Determined seqLoopReads (seqLoop k) seqLoopReads
  | 0 => .pure _
  | k + 1 => .bind (determined_seqStep _) fun _ => determined_seqLoop k

theorem determined_seqFromModes (m : Byte) (count p lim : Nat) :
    Determined seqSoFar (seqFromModes m count p lim) seqSoFar :=
  Determined.weaken (.bind (.ensure _ _) fun _ => .bind (determined_seqTable (by decide) _ _ _) fun _ =>
    .bind (determined_seqTable (by decide) _ _ _) fun _ => .bind (determined_seqTable (by decide) _ _ _) fun _ =>
      .bind (determined_rinit (by decide) .r4 _ _) fun _ => .bind (determined_initState (by decide) (by decide)) fun _ =>
        .bind (determined_initState (by decide) (by decide)) fun _ =>
          .bind (determined_initState (by decide) (by decide)) fun _ => .bind (determined_seqLoop count) fun _ =>
            .bind (determined_rpos (by decide)) fun _ => .ensure _ _) (by decide)

theorem determined_seqFromCount (c : SeqCount) (a lim : Nat) :
    Determined seqSoFar (seqFromCount c none a lim) seqSoFar :=
  .bind (.ensure _ _) fun _ => .ite (.ensure _ _) (.bind (.ensure _ _) fun _ => .bind (.ensure _ _) fun _ =>
    .bind (determined_readIn (by decide) _) fun _ => determined_seqFromModes _ _ _ _)

theorem determined_readSeqCount (a lim : Nat) : Determined seqSoFar (readSeqCount a lim) seqSoFar :=
  .bind (.ensure _ _) fun _ => .bind (determined_readIn (by decide) _) fun _ => .bind (.ensure _ _) fun _ =>
    .bind (determined_readBytes (by decide) _ _) fun _ => .pure _

theorem determined_seqDecode (a lim : Nat) : Determined seqInputs (seqDecode a lim) seqSoFar :=
  .bind (.change touches_seqStart (by decide) fun s t _ => by simp [alike, samePart]) fun _ =>
    .bind (determined_readSeqCount a lim) fun _ => determined_seqFromCount _ a lim

/-! ## The two commands (R231, R264) -/

/-- The operation of LIT_DECODE. -/
def litCommand (a lim : Nat) : Op Unit := checkRegion a lim >>= fun _ => litDecode a lim >>= fun v => setRes v
/-- The operation of SEQ_DECODE. -/
def seqCommand (a lim : Nat) : Op Unit := checkRegion a lim >>= fun _ => seqDecode a lim >>= fun _ => setResNbSeq

theorem exec_litDecode (a0 a1 : Word) (s : State) :
    exec (.litDecode a0 a1) s = runCommand opcLitDecode litDecodeSet (litCommand (arg a0) (arg a1)) s := rfl
theorem exec_seqDecode (a0 a1 : Word) (s : State) :
    exec (.seqDecode a0 a1) s = runCommand opcSeqDecode seqDecodeSet (seqCommand (arg a0) (arg a1)) s := rfl

theorem touches_litCommand (a lim : Nat) : Touches litDecodeParts (litCommand a lim) :=
  .bind (touches_checkRegion _ _) fun _ => .bind (touches_litDecode _ _) fun v => (touches_setRes v).mono (by decide)
theorem touches_seqCommand (a lim : Nat) : Touches seqDecodeParts (seqCommand a lim) :=
  .bind (touches_checkRegion _ _) fun _ => .bind (touches_seqDecode _ _) fun _ => touches_setResNbSeq.mono (by decide)

theorem ends_litCommand (a lim : Nat) (s : State) : Ends (litCommand a lim) s fun _ _ => True :=
  .checkRegion_bind fun ⟨_, hlim⟩ => (ends_litDecode hlim).bind fun v _ _ _ _ => ends_setRes v
theorem ends_seqCommand (a lim : Nat) (s : State) : Ends (seqCommand a lim) s fun _ _ => True :=
  .checkRegion_bind fun ⟨_, hlim⟩ => (ends_seqDecode hlim).bind fun _ _ _ _ _ => ends_setResNbSeq

theorem determined_checkRegion {ps : List Part} (hp : .inLen ∈ ps) (a lim : Nat) : Determined ps (checkRegion a lim) ps :=
  .bind (.look fun s t h => by
    have inLen : t.inLen = s.inLen := h.parts .inLen hp
    rw [inLen]) fun _ => .ensure _ _

theorem determined_litCommand (a lim : Nat) : Determined litInputs (litCommand a lim) ([.litLen] ++ litInputs) :=
  .bind (determined_checkRegion (by decide) a lim) fun _ => .bind (determined_litDecode a lim) fun v => determined_setRes v

theorem determined_seqCommand (a lim : Nat) : Determined seqInputs (seqCommand a lim) seqSoFar :=
  .bind (determined_checkRegion (by decide) a lim) fun _ => .bind (determined_seqDecode a lim) fun _ =>
    determined_setResNbSeq (by decide)

/-- A command that leaves no error recorded began with none and completed. -/
theorem ok_of_runCommand {op : BitVec 8} {ws : List Element} {body : Op Unit} (h : runCommand op ws body s = .next t)
    (ht : noError t = true) : noError s = true ∧ body s = .ok () t := by
  rcases runCommand_eq_next.mp h with ⟨hn, rfl⟩ | ⟨hn, e | ⟨c, s1, -, rfl⟩⟩
  · rw [hn] at ht; cases ht
  · exact ⟨hn, e⟩
  · rw [noError_takeError hn] at ht; cases ht

/-- What LIT_DECODE gives to the rest of the decoder (R75). -/
def litOutputs : List Part := [.lit, .litLen, .ht]
/-- What SEQ_DECODE gives to the rest of the decoder (R75). -/
def seqOutputs : List Part := [.seq, .nbSeq, .rep, .ft .ll, .ft .off, .ft .ml]

/-- The two operations in the other order: both complete, with the same outputs. -/
theorem sections_swap {a lim b blim : Nat} {s l1 l2 : State} (hl : litCommand a lim s = .ok () l1)
    (hs : seqCommand b blim l1 = .ok () l2) :
    ∃ q1 q2, seqCommand b blim s = .ok () q1 ∧ litCommand a lim q1 = .ok () q2 ∧
      ∀ p ∈ litOutputs ++ seqOutputs, samePart p l2 q2 := by
  obtain ⟨q1, q2, hq1, hq2, seqAlike, litAlike⟩ := (determined_litCommand a lim).swap (determined_seqCommand b blim)
    (touches_litCommand a lim) (touches_seqCommand b blim) (by decide) (by decide) hl hs
  refine ⟨q1, q2, hq1, hq2, fun p hp => ?_⟩
  rcases List.mem_append.mp hp with hp | hp
  · obtain ⟨mem, out, unmarked⟩ : p ∈ [.litLen] ++ litInputs ∧ p ∉ seqDecodeParts ∧ p ∉ allMarks := by
      revert p; decide
    have kept : samePart p l1 l2 := (touches_seqCommand b blim).ok hs p out
    exact kept.symm.trans ((alike_iff_samePart unmarked).mp (litAlike.parts p mem))
  · obtain ⟨mem, out, unmarked⟩ : p ∈ seqSoFar ∧ p ∉ litDecodeParts ∧ p ∉ allMarks := by
      revert p; decide
    have kept : samePart p q1 q2 := (touches_litCommand a lim).ok hq2 p out
    exact ((alike_iff_samePart unmarked).mp (seqAlike.parts p mem)).trans kept

end Sys2Proof.Machine

/-- Settles O55: each decoder initialises its readers, DIST and states before it reads them, and reads none of the other's
outputs, so each does in either place what it does in the other. -/
theorem sectionsMayRunInEitherOrder : Obligations.SectionsMayRunInEitherOrder := by
  intro a0 a1 b0 b1 s l1 l2 hn _ _ _ hl hs hn2
  obtain ⟨hn1, seqOk⟩ := ok_of_runCommand (exec_seqDecode b0 b1 l1 ▸ hs) hn2
  obtain ⟨-, litOk⟩ := ok_of_runCommand (exec_litDecode a0 a1 s ▸ hl) hn1
  obtain ⟨q1, q2, hq1, hq2, same⟩ := sections_swap litOk seqOk
  have hnq1 : noError q1 = true := ((ends_seqCommand _ _ s).ok hq1).1.noError.trans hn
  have hnq2 : noError q2 = true := ((ends_litCommand _ _ q1).ok hq2).1.noError.trans hnq1
  refine ⟨q1, q2, runCommand_of_ok hn hq1, runCommand_of_ok hnq1 hq2, hnq2, ?_⟩
  exact ⟨same .lit (by decide), same .litLen (by decide), same .ht (by decide), same .seq (by decide),
    same .nbSeq (by decide), same .rep (by decide), same (.ft .ll) (by decide), same (.ft .off) (by decide),
    same (.ft .ml) (by decide)⟩
end

section
/-! SUPPORT. Exactly what an operation does where it is known to end: an error it raises, told by its cause alone, and
the reads of the bit readers over undisturbed bytes, told by the state they lead to. -/

open Sys2Proof Sys2Proof.Machine

namespace Sys2Proof.Machine

variable {α β : Type} {s t : State}

/-! ## Errors (R310) -/

/-- From `s`, `x` raises cause `c`. -/
def Raises (x : Op α) (s : State) (c : Cause) : Prop := ∃ t, x s = .error (.raise c) t

theorem Raises.raise {c : Cause} : Raises (Machine.raise c : Op α) s c := ⟨s, rfl⟩

theorem Raises.bind {x : Op α} {f : α → Op β} {c : Cause} (h : Raises x s c) : Raises (x >>= f) s c :=
  let ⟨t, e⟩ := h
  ⟨t, bind_of_error e⟩

/-- The second operation raises, the first having led to `t`. -/
theorem Raises.after {x : Op α} {f : α → Op β} {a : α} {c : Cause} (e : x s = .ok a t) (h : Raises (f a) t c) :
    Raises (x >>= f) s c :=
  let ⟨u, k⟩ := h
  ⟨u, (bind_of_ok e).trans k⟩

theorem Raises.of_eq {x y : Op α} {c : Cause} (e : x s = y t) (h : Raises y t c) : Raises x s c :=
  let ⟨u, k⟩ := h
  ⟨u, e.trans k⟩

theorem Raises.look {f : State → α} {g : α → Op β} {c : Cause} (h : Raises (g (f s)) s c) :
    Raises (Machine.look f >>= g) s c := .after rfl h

theorem Raises.ensure {p : Prop} [Decidable p] {c : Cause} (h : ¬p) : Raises (Machine.ensure p c) s c :=
  ⟨s, ensure_of_not h⟩

/-- A check that holds raises nothing. -/
theorem Raises.pass {p : Prop} [Decidable p] {c d : Cause} {g : Unit → Op β} (hp : p) (h : Raises (g ()) s c) :
    Raises (Machine.ensure p d >>= g) s c := .after (ensure_of hp) h

/-- A command whose operation raises `c` records it in STATUS (R310). -/
theorem Raises.status {op : BitVec 8} {ws : List Element} {body : Op Unit} {c : Cause} (h : Raises body s c)
    (hn : noError s = true) : ∃ t, runCommand op ws body s = .next t ∧ t.status = packStatus c op :=
  let ⟨_, e⟩ := h
  ⟨_, runCommand_of_raise hn e, takeError_status hn⟩

/-- An IllegalCommand changes STATUS alone (R313). -/
theorem runCommand_illegal {op : BitVec 8} {ws : List Element} {body : Op Unit} {c : Cause} (hn : noError s = true)
    (hc : causeCategory c = .illegalCommand) (h : Raises body s c) :
    runCommand op ws body s = .next { s with status := packStatus c op } := by
  obtain ⟨t, e⟩ := h
  rw [runCommand_of_raise hn e, takeError_of_illegal hc, recordError_of_noError hn]

/-- A command with an empty write set changes STATUS and the model's count of free values alone (R313). -/
theorem runCommand_onlyStatus {op : BitVec 8} {body : Op Unit} {c : Cause} (hn : noError s = true)
    (hc : causeCategory c ≠ .illegalCommand) (h : Raises body s c) :
    ∃ t, runCommand op [] body s = .next t ∧ onlyStatus c op s t := by
  obtain ⟨u, e⟩ := h
  refine ⟨_, runCommand_of_raise hn e, ?_⟩
  rw [takeError_nil hc, recordError_of_noError (s := { s with draws := u.draws + 1 }) hn]
  rfl

/-! ## Readiness (R37) -/

theorem raises_needForward {g : Unit → Op β} (h : s.fr.valid = false) : Raises (needForward >>= g) s .notReady :=
  .bind (.look (.ensure (by simp [h])))

theorem raises_selectReader_needReader {r : RSel} {g : RSel → Op β} (h : (s.rr.get r).valid = false) :
    Raises (selectReader (readerCode r) >>= fun r => needReader r >>= fun _ => g r) s .notReady :=
  .after (selectReader_of (readerOf_code r) s) (.bind (.look (.ensure (by simp [h]))))

theorem raises_checkRegion {a lim : Nat} {g : Unit → Op β} (h : ¬(a ≤ lim ∧ lim ≤ s.inLen.toNat)) :
    Raises (checkRegion a lim >>= g) s .argRange := .bind (.look (.ensure h))

theorem checkRegion_bind_of {a lim : Nat} {g : Unit → Op β} (h : a ≤ lim ∧ lim ≤ s.inLen.toNat) :
    (checkRegion a lim >>= g) s = g () s := bind_of_ok ((checkRegion_apply a lim s).trans (if_pos h))

/-! ## Reads over undisturbed bytes -/

/-- FRead returns what FPeek gives and moves FR (R125). -/
theorem fread_of_fresh {n : Nat} (hv : s.fr.valid = true) (h : frOk s) (hs : s.frStale = false)
    (hle : s.fr.pos.toNat + n ≤ 8 * (s.fr.lim.toNat - s.fr.base.toNat)) :
    fread n s = .ok (fBits s n) { s with fr := { s.fr with pos := BitVec.ofNat 21 (s.fr.pos.toNat + n) } } :=
  (bind_of_ok (fpeek_of_fresh hv h hs)).trans (bind_of_ok (fconsume_of_le hle))

/-- RRead returns what RPeek gives and moves its reader (R122). -/
theorem rread_of_fresh {r : RSel} {n : Nat} (hr : readerInRange (s.rr.get r) = true) (hs : s.rrStale.get r = false) :
    rread r n s = .ok (streamBits s (s.rr.get r).base.toNat (s.rr.get r).pos.toInt n)
      { s with rr := s.rr.set r { s.rr.get r with pos := posAfter (s.rr.get r).pos n } } :=
  (bind_of_ok (rpeek_of_fresh hr hs)).trans (bind_of_ok (rconsume_apply r n s))

/-- The reader RInit leaves over a stream of `len` bytes at IN[base] (R136). -/
def streamReader (s : State) (base len : Nat) : RevReader :=
  ⟨true, BitVec.ofNat 18 base, BitVec.ofNat 18 len,
    BitVec.ofNat 32 (8 * (len - 1) + highbit (inByte s (base + len - 1)).toNat)⟩

/-- RInit over a stream with an end mark (R136). -/
theorem rinit_of_streamAt {r : RSel} {base len : Nat} {pos : Int} (h : streamAt s base len pos)
    (hcap : base + len ≤ Config.inCap) :
    rinit r base len s =
      .ok () { s with rr := s.rr.set r (streamReader s base len), rrStale := s.rrStale.clear r } := by
  obtain ⟨hlen, hlast, -⟩ := h
  unfold rinit
  rw [bind_of_ok (ensure_of (by omega)), bind_of_ok (readIn_of_lt (by omega)), bind_of_ok (ensure_of hlast)]
  rfl

theorem raises_rinit {r : RSel} {base len : Nat} {c : Cause} (h : streamStops s base len c)
    (hcap : base + len ≤ Config.inCap) : Raises (rinit r base len) s c := by
  rcases h with ⟨rfl, rfl⟩ | ⟨hlen, hlast, rfl⟩
  · exact .bind (.ensure (by simp))
  · exact .pass (by omega) (.after (readIn_of_lt (by omega)) (.bind (.ensure (by simpa using hlast))))

/-- The fields of that reader, where the stream lies in IN: POS is the stream's useful bits (R136). -/
theorem streamReader_fields {base len : Nat} {pos : Int} (h : streamAt s base len pos) (hcap : base + len ≤ Config.inCap) :
    (streamReader s base len).base.toNat = base ∧ (streamReader s base len).len.toNat = len ∧
      (streamReader s base len).pos.toInt = pos := by
  obtain ⟨hlen, hlast, rfl⟩ := h
  have hbit := highbit_byte_lt hlast
  simp only [Config.inCap] at hcap
  refine ⟨toNat_ofNat_of_lt (w := 18) (by omega), toNat_ofNat_of_lt (w := 18) (by omega), ?_⟩
  unfold highbit at hbit
  rw [streamReader, BitVec.toInt_eq_toNat_of_lt] <;> simp only [BitVec.toNat_ofNat, highbit] <;> omega

end Sys2Proof.Machine
end

section
/-! CERTIFICATE. The commands of the bit readers (41_bitreader.md). -/

open Sys2Proof Sys2Proof.Machine

/-- Settles O19: the region check is the one check BR_FINIT makes. -/
theorem brFinitPlacesTheForwardReader : Obligations.BrFinitPlacesTheForwardReader := by
  intro a0 a1 s hn
  refine ⟨fun h => ⟨BitVec.ofNat 18 a0.toNat, BitVec.ofNat 18 a1.toNat, ?_, ?_, ?_⟩, fun h => ?_⟩
  · have := s.inLen.isLt
    exact toNat_ofNat_of_lt (by omega)
  · have := s.inLen.isLt
    exact toNat_ofNat_of_lt (by omega)
  · exact runCommand_of_ok hn (checkRegion_bind_of h)
  · exact runCommand_illegal hn rfl (raises_checkRegion h)

/-- Settles O20: a peek over undisturbed bytes is the sum of R123. -/
theorem brFpeekSumsForwardBits : Obligations.BrFpeekSumsForwardBits := by
  intro n s hn
  refine ⟨fun hv hfr hs => ?_, fun hv => runCommand_illegal hn rfl (raises_needForward hv)⟩
  exact runCommand_of_ok hn ((needForward_bind_of hv).trans (bind_of_ok (fpeek_of_fresh hv hfr hs)))

/-- Settles O21: FRead peeks, then consumes or overruns. -/
theorem brFreadConsumesForwardBits : Obligations.BrFreadConsumesForwardBits := by
  intro n s hn
  refine ⟨fun hv hfr hs hle => ?_, fun hv hfr hs hlt => ?_, fun hv => runCommand_illegal hn rfl (raises_needForward hv)⟩
  · have hlim := s.fr.lim.isLt
    exact ⟨_, toNat_ofNat_of_lt (w := 21) (by omega),
      runCommand_of_ok hn ((needForward_bind_of hv).trans (bind_of_ok (fread_of_fresh hv hfr hs hle)))⟩
  · obtain ⟨d, hread⟩ := fread_overrun hv hfr hlt
    exact ⟨_, runCommand_of_raise hn ((needForward_bind_of hv).trans (bind_of_error hread)),
      onlyStatus_takeError_overrun hn d⟩

/-- Settles O22: the region ends on a byte, so rounding POS up to one stays inside it. -/
theorem brFalignRoundsUpToAByte : Obligations.BrFalignRoundsUpToAByte := by
  intro s hn
  refine ⟨fun hv hfr => ?_, fun hv => runCommand_illegal hn rfl (raises_needForward hv)⟩
  obtain ⟨-, -, hpos, -⟩ := hfr hv
  have hlim := s.fr.lim.isLt
  have aligned : (BitVec.ofNat 21 ((s.fr.pos.toNat + 7) / 8 * 8)).toNat = (s.fr.pos.toNat + 7) / 8 * 8 :=
    toNat_ofNat_of_lt (by omega)
  exact ⟨_, aligned, by omega, runCommand_of_ok hn (needForward_bind_of hv)⟩

/-- Settles O23: BR_RINIT checks its region, then RInit the length and the end mark. -/
theorem brRinitFindsTheEndMark : Obligations.BrRinitFindsTheEndMark := by
  intro r a0 a1 s hn hcap
  have body : exec (.brRinit (readerCode r) a0 a1) s = runCommand opcBrRinit []
      (selectReader (readerCode r) >>= fun r => look (fun s => s.inLen.toNat) >>= fun n =>
        ensure (arg a0 + arg a1 ≤ n) .argRange >>= fun _ => rinit r (arg a0) (arg a1)) s := rfl
  have selected := selectReader_of (readerOf_code r) s
  rw [body]
  refine ⟨fun hlt => ?_, fun hle h0 => ?_, fun hle h1 hlast => ?_, fun pos hle hstream => ?_⟩
  · exact runCommand_illegal hn rfl (.after selected (.look (.bind (.ensure (not_le.mpr hlt)))))
  · exact runCommand_onlyStatus hn (by decide) (.after selected (.look (.pass hle
      (raises_rinit (.inl ⟨by simp [arg, h0], rfl⟩) (hle.trans hcap)))))
  · have hlen : a1.toNat ≠ 0 := fun h => h1 (BitVec.eq_of_toNat_eq h)
    exact runCommand_onlyStatus hn (by decide) (.after selected (.look (.pass hle
      (raises_rinit (.inr ⟨Nat.one_le_iff_ne_zero.mpr hlen, hlast, rfl⟩) (hle.trans hcap)))))
  · obtain ⟨hbase, hlen, hpos⟩ := streamReader_fields hstream (hle.trans hcap)
    refine ⟨_, rfl, hbase, hlen, hpos, runCommand_of_ok hn ?_⟩
    rw [bind_of_ok selected]
    exact (bind_of_ok (ensure_of hle)).trans (rinit_of_streamAt hstream (hle.trans hcap))

/-- Settles O24: a peek over undisturbed bytes is the value of R121. -/
theorem brRpeekReadsBitsDownward : Obligations.BrRpeekReadsBitsDownward := by
  intro r n s hn
  refine ⟨fun hv hrr hs => ?_, fun hv => runCommand_illegal hn rfl (raises_selectReader_needReader hv)⟩
  exact runCommand_of_ok hn
    ((selectReader_needReader_bind_of hv).trans (bind_of_ok (rpeek_of_fresh (hrr hv).2.1 hs)))

/-- Settles O25: RRead peeks, then moves POS, which saturates. -/
theorem brRreadConsumesBitsDownward : Obligations.BrRreadConsumesBitsDownward := by
  intro r n s hn
  refine ⟨fun hv hrr hs => ⟨_, posAfter_toInt _ _, ?_⟩, fun hv =>
    runCommand_illegal hn rfl (raises_selectReader_needReader hv)⟩
  exact runCommand_of_ok hn
    ((selectReader_needReader_bind_of hv).trans (bind_of_ok (rread_of_fresh (hrr hv).2.1 hs)))

/-- Settles O26: neither command looks at the bytes of the stream. -/
theorem brRconsumeMovesAndRstatReportsPos : Obligations.BrRconsumeMovesAndRstatReportsPos := by
  intro r n s hn
  refine ⟨fun hv => ⟨⟨_, posAfter_toInt _ _, ?_⟩, (s.rr.get r).pos, rfl, ?_⟩, fun hv => ⟨?_, ?_⟩⟩
  · exact runCommand_of_ok hn (selectReader_needReader_bind_of hv)
  · refine runCommand_of_ok hn ((selectReader_needReader_bind_of hv).trans ?_)
    rw [change_apply, BitVec.ofInt_toInt]
  · exact runCommand_illegal hn rfl (raises_selectReader_needReader hv)
  · exact runCommand_illegal hn rfl (raises_selectReader_needReader hv)
end

section
/-! SUPPORT. ReadNCount over the fields of a header (R93, R150): the items it reads, the distribution it stages at the
end of a header, and the cause it raises where a header stops it. -/

namespace Sys2Proof.Machine

variable {s : State} {t : TSel} {k n : Nat}

/-! ## Bits of a forward region -/

/-- FR moved to bit `k` of its region. -/
def frAt (k : Nat) (s : State) : State := { s with fr := { s.fr with pos := BitVec.ofNat 21 k } }

/-- The bits of FR's region (R26). -/
def regionBits (s : State) : Nat := 8 * (s.fr.lim.toNat - s.fr.base.toNat)

/-- FR's region lies in IN and its bytes were not disturbed: what reading it rests on (R62, R123). -/
structure ForwardReady (s : State) : Prop where
  cap : s.fr.lim.toNat ≤ Config.inCap
  fresh : s.frStale = false

theorem frAt_pos (s : State) : frAt s.fr.pos.toNat s = s := by simp [frAt]

theorem frAt_toNat (hk : k ≤ regionBits s) : (frAt k s).fr.pos.toNat = k := by
  have := s.fr.lim.isLt
  unfold regionBits at hk
  exact toNat_ofNat_of_lt (w := 21) (by omega)

theorem fieldAt_succ (s : State) (base k w : Nat) :
    fieldAt s base k (w + 1) = fieldAt s base k w + bitOf (inByte s (base + (k + w) / 8)) ((k + w) % 8) * 2 ^ w :=
  Finset.sum_range_succ _ _

theorem fieldAt_lt (s : State) (base k : Nat) : ∀ w, fieldAt s base k w < 2 ^ w
  | 0 => by simp [fieldAt]
  | w + 1 => by
    have hbit := bitOf_le_one (inByte s (base + (k + w) / 8)) ((k + w) % 8)
    have hlow := fieldAt_lt s base k w
    have : bitOf (inByte s (base + (k + w) / 8)) ((k + w) % 8) * 2 ^ w ≤ 1 * 2 ^ w := Nat.mul_le_mul_right _ hbit
    rw [fieldAt_succ, pow_succ]
    omega

/-- The low `w` bits of a field. -/
theorem fieldAt_mod (s : State) (base k w : Nat) : fieldAt s base k (w + 1) % 2 ^ w = fieldAt s base k w := by
  rw [fieldAt_succ, Nat.add_mul_mod_self_right, Nat.mod_eq_of_lt (fieldAt_lt s base k w)]

/-- Inside the region a peek is the field that stands there (R93, R123). -/
theorem peekAt_eq_fieldAt {base lim : Nat} (h : k + n ≤ 8 * (lim - base)) : peekAt s base lim k n = fieldAt s base k n := by
  refine Finset.sum_congr rfl fun i hi => ?_
  have : i < n := Finset.mem_range.mp hi
  rw [if_pos (by omega)]

theorem fpeek_frAt (h : ForwardReady s) (hk : k ≤ regionBits s) (n : Nat) :
    fpeek n (frAt k s) = .ok (peekAt s s.fr.base.toNat s.fr.lim.toNat k n) (frAt k s) := by
  have bits : forwardBits (frAt k s) k n = peekAt s s.fr.base.toNat s.fr.lim.toNat k n := forwardBits_eq_sum _ n k
  have cap : ¬Config.inCap < (frAt k s).fr.lim.toNat := not_lt.mpr h.cap
  have fresh : ¬((frAt k s).frStale ∧ n ≠ 0) := fun hs => by rw [show (frAt k s).frStale = false from h.fresh] at hs; simp at hs
  unfold fpeek
  rw [bind_apply]
  simp only [look_apply, id]
  rw [if_neg cap, if_neg fresh, frAt_toNat hk, bits]
  rfl

theorem fconsume_frAt (h : k + n ≤ regionBits s) : fconsume n (frAt k s) = .ok () (frAt (k + n) s) := by
  have pos := frAt_toNat (s := s) (k := k) (by omega)
  rw [fconsume_of_le (by rw [pos]; exact h), pos]
  rfl

theorem raises_fconsume (hk : k ≤ regionBits s) (h : regionBits s < k + n) :
    Raises (fconsume n) (frAt k s) .brFwdOverrun :=
  ⟨_, fconsume_of_overrun (by rw [frAt_toNat hk]; exact not_le.mpr h)⟩

/-- A read inside the region returns the field that stands there (R93, R125). -/
theorem fread_frAt (h : ForwardReady s) (hle : k + n ≤ regionBits s) :
    fread n (frAt k s) = .ok (fieldAt s s.fr.base.toNat k n) (frAt (k + n) s) := by
  rw [← peekAt_eq_fieldAt hle]
  exact (bind_of_ok (fpeek_frAt h (by omega) n)).trans (bind_of_ok (fconsume_frAt hle))

/-- A read past the region overruns (R124). -/
theorem raises_fread (h : ForwardReady s) (hk : k ≤ regionBits s) (hlt : regionBits s < k + n) :
    Raises (fread n) (frAt k s) .brFwdOverrun := .after (fpeek_frAt h hk n) (.bind (raises_fconsume hk hlt))

/-! ## Fields one after another -/

theorem fieldsAt_append {base last : Nat} : ∀ {fs gs : List (Nat × Nat)} {k : Nat},
    fieldsAt s base (fs ++ gs) k last ↔ ∃ m, fieldsAt s base fs k m ∧ fieldsAt s base gs m last
  | [], gs, k => by simp [fieldsAt]
  | f :: fs, gs, k => by simp only [List.cons_append, fieldsAt, fieldsAt_append, ← exists_and_left, and_assoc]

theorem fieldsAt_le {base last : Nat} : ∀ {fs : List (Nat × Nat)} {k : Nat}, fieldsAt s base fs k last → k ≤ last
  | [], _, h => h.le
  | _ :: _, _, ⟨_, h⟩ => (Nat.le_add_right _ _).trans (fieldsAt_le h)

theorem fieldsAt_replicate {base last : Nat} : ∀ {j k : Nat}, fieldsAt s base (List.replicate j (3, 2)) k last → last = k + 2 * j
  | 0, _, h => by simpa using h.symm
  | j + 1, k, ⟨_, h⟩ => by have := fieldsAt_replicate h; simp only at this; omega

/-! ## Zero runs (R150) -/

/-- The fields of 3 that begin a run. -/
theorem readZeroRun_threes (h : ForwardReady s) (fuel : Nat) : ∀ (j n0 : Nat) {k : Nat},
    fieldsAt s s.fr.base.toNat (List.replicate j (3, 2)) k (k + 2 * j) → k + 2 * j ≤ regionBits s →
      readZeroRun (j + fuel) n0 (frAt k s) = readZeroRun fuel (n0 + 3 * j) (frAt (k + 2 * j) s)
  | 0, n0, k, _, _ => by simp
  | j + 1, n0, k, ⟨hf, hfs⟩, hle => by
    have rest := readZeroRun_threes h fuel j (n0 + 3) (k := k + 2) (by convert hfs using 1; omega) (by omega)
    rw [show n0 + 3 + 3 * j = n0 + 3 * (j + 1) by ring, show k + 2 + 2 * j = k + 2 * (j + 1) by ring] at rest
    rw [show j + 1 + fuel = (j + fuel) + 1 by omega, readZeroRun, bind_of_ok (fread_frAt h (by omega)), hf, if_pos rfl, rest]

/-- The turns a zero run takes at most, the overrunning one included. -/
theorem runFuel {j : Nat} (hle : k + 2 * j ≤ regionBits s) : ∃ fuel, regionBits s + 1 = j + (fuel + 1) :=
  ⟨regionBits s - j, by omega⟩

/-- A run of `j` fields of 3 and one other field: the zeros it stands for. -/
theorem readZeroRun_ends (h : ForwardReady s) {j : Nat} (n0 : Nat)
    (hthrees : fieldsAt s s.fr.base.toNat (List.replicate j (3, 2)) k (k + 2 * j)) (hle : k + 2 * j + 2 ≤ regionBits s)
    (hlast : fieldAt s s.fr.base.toNat (k + 2 * j) 2 ≠ 3) :
    readZeroRun (regionBits s + 1) n0 (frAt k s) =
      .ok (n0 + 3 * j + fieldAt s s.fr.base.toNat (k + 2 * j) 2) (frAt (k + 2 * j + 2) s) := by
  obtain ⟨fuel, hfuel⟩ := runFuel (s := s) (k := k) (j := j) (by omega)
  rw [hfuel, readZeroRun_threes h _ j n0 hthrees (by omega), readZeroRun, bind_of_ok (fread_frAt h hle), if_neg hlast]
  rfl

/-- The zeros after a zero count (R150). -/
theorem readZeros_ends (h : ForwardReady s) {j : Nat} {counts : List Int}
    (hthrees : fieldsAt s s.fr.base.toNat (List.replicate j (3, 2)) k (k + 2 * j)) (hle : k + 2 * j + 2 ≤ regionBits s)
    (hlast : fieldAt s s.fr.base.toNat (k + 2 * j) 2 ≠ 3)
    (hmax : counts.length + 3 * j + fieldAt s s.fr.base.toNat (k + 2 * j) 2 ≤ maxSym t) :
    readZeros t counts (frAt k s) =
      .ok (counts ++ List.replicate (3 * j + fieldAt s s.fr.base.toNat (k + 2 * j) 2) 0) (frAt (k + 2 * j + 2) s) := by
  have run := readZeroRun_ends h counts.length hthrees hle hlast
  refine (bind_of_ok (look_apply _ _)).trans ((bind_of_ok run).trans ((bind_of_ok (ensure_of hmax)).trans ?_))
  rw [Nat.add_assoc, Nat.add_sub_cancel_left]
  rfl

/-- The zeros of an item, where the count before it was 0 (R150). -/
theorem continueRun_runFields (h : ForwardReady s) {z m : Nat} {counts : List Int} {prev0 : Bool}
    (hfields : fieldsAt s s.fr.base.toNat (if prev0 then runFields z else []) k m) (hle : m ≤ regionBits s)
    (hmax : counts.length + (if prev0 then List.replicate z (0 : Int) else []).length ≤ maxSym t) :
    continueRun t prev0 counts (frAt k s) = .ok (counts ++ if prev0 then List.replicate z 0 else []) (frAt m s) := by
  cases prev0 with
  | false =>
    obtain rfl : k = m := hfields
    simp [continueRun]
  | true =>
    simp only [if_true, List.length_replicate] at hfields hmax ⊢
    obtain ⟨m', hthrees, hlast, hm⟩ := fieldsAt_append.mp hfields
    obtain rfl := fieldsAt_replicate hthrees
    obtain rfl : k + 2 * (z / 3) + 2 = m := hm
    simp only at hlast
    have := Nat.mod_lt z (show 0 < 3 by omega)
    have read := readZeros_ends (t := t) (counts := counts) h hthrees hle (by omega) (by omega)
    rw [hlast, Nat.div_add_mod] at read
    exact read

/-! ## Count fields (R150) -/

/-- The width of the count field is given by the mass left. -/
theorem FieldWidth.eq {rem threshold nbits : Nat} (h : FieldWidth rem threshold nbits) :
    nbits = rem.log2 + 1 ∧ threshold = 2 ^ rem.log2 := by
  obtain ⟨hpos, hpow, hle, hlt⟩ := h
  have hlog : rem.log2 = nbits - 1 :=
    (Nat.log2_eq_iff (by have : 0 < threshold := hpow ▸ by positivity
                         omega)).mpr ⟨hpow ▸ hle, by rw [pow_succ', ← hpow]; exact hlt⟩
  rw [hlog]
  exact ⟨by omega, hpow⟩

/-- The field that encodes count `c` is read back as `c + 1` (R150). -/
theorem readCountField_countField (h : ForwardReady s) {rem threshold nbits : Nat} {c : Int}
    (hw : FieldWidth rem threshold nbits) (hc : (c + 1).toNat ≤ rem) (hle : k + (countField rem c).2 ≤ regionBits s)
    (hfield : fieldAt s s.fr.base.toNat k (countField rem c).2 = (countField rem c).1) :
    readCountField rem threshold nbits (frAt k s) = .ok (c + 1).toNat (frAt (k + (countField rem c).2) s) := by
  obtain ⟨rfl, rfl⟩ := hw.eq
  have below := hw.le
  have above := hw.lt
  have low : k + rem.log2 ≤ regionBits s →
      fpeek rem.log2 (frAt k s) = .ok (fieldAt s s.fr.base.toNat k rem.log2) (frAt k s) := fun hlow => by
    rw [fpeek_frAt h (by omega), peekAt_eq_fieldAt hlow]
  have high : k + (rem.log2 + 1) ≤ regionBits s →
      fpeek (rem.log2 + 1) (frAt k s) = .ok (fieldAt s s.fr.base.toNat k (rem.log2 + 1)) (frAt k s) := fun hhigh => by
    rw [fpeek_frAt h (by omega), peekAt_eq_fieldAt hhigh]
  have split := fieldAt_mod s s.fr.base.toNat k rem.log2
  unfold readCountField countField at *
  simp only [Nat.add_sub_cancel] at *
  generalize hT : 2 ^ rem.log2 = T at *
  generalize (c + 1).toNat = v at *
  split_ifs at * with hshort hmid <;> dsimp only at hfield hle
  · rw [bind_of_ok (low hle), if_pos (by omega), bind_of_ok (fconsume_frAt hle), hfield]
    rfl
  · rw [hfield, Nat.mod_eq_of_lt hmid] at split
    rw [bind_of_ok (low (by omega)), if_neg (by omega), bind_of_ok (high hle), bind_of_ok (fconsume_frAt hle), hfield,
      if_neg (by omega)]
    rfl
  · have : (v + (2 * T - 1 - rem)) % T = v + (2 * T - 1 - rem) - T := by
      rw [Nat.mod_eq_sub_mod (by omega), Nat.mod_eq_of_lt (by omega)]
    rw [hfield, this] at split
    rw [bind_of_ok (low (by omega)), if_neg (by omega), bind_of_ok (high hle), bind_of_ok (fconsume_frAt hle), hfield,
      if_pos (by omega), Nat.add_sub_cancel]
    rfl

/-- A count field past the region overruns, in whichever width is read (R124, R150). -/
theorem raises_readCountField (h : ForwardReady s) {rem threshold nbits : Nat} (hw : FieldWidth rem threshold nbits)
    (hk : k ≤ regionBits s) (hcut : countCut s s.fr.base.toNat s.fr.lim.toNat k rem) :
    Raises (readCountField rem threshold nbits) (frAt k s) .brFwdOverrun := by
  obtain ⟨rfl, rfl⟩ := hw.eq
  unfold countCut at hcut
  refine .after (fpeek_frAt h hk _) ?_
  rw [Nat.add_sub_cancel]
  split_ifs at hcut ⊢
  · exact .bind (raises_fconsume hk hcut)
  · exact .after (fpeek_frAt h hk _) (.bind (raises_fconsume hk hcut))

/-! ## The loop of ReadNCount (R150) -/

/-- The mass of counts (R150). -/
def countMass (counts : List Int) : Nat := (counts.map Int.natAbs).sum

@[simp] theorem countMass_nil : countMass [] = 0 := rfl
@[simp] theorem countMass_append (counts cs : List Int) : countMass (counts ++ cs) = countMass counts + countMass cs := by
  simp [countMass]
@[simp] theorem countMass_cons (c : Int) (counts : List Int) : countMass (c :: counts) = c.natAbs + countMass counts := by
  simp [countMass]

/-- Counts that do not end in a 0 have mass. -/
theorem countMass_pos {counts : List Int} (hne : counts ≠ []) (h : counts.getLast? ≠ some 0) : 1 ≤ countMass counts := by
  obtain ⟨cs, c, rfl⟩ := (List.eq_nil_or_concat' counts).resolve_left hne
  have : c ≠ 0 := fun hc => h (by simp [hc])
  simp only [countMass_append, countMass_cons, countMass_nil]
  omega

/-- Whether the loop reads a zero run next (R150). -/
def endsInZero (counts : List Int) : Bool := counts.getLast? == some 0

@[simp] theorem endsInZero_concat (counts : List Int) (c : Int) : endsInZero (counts ++ [c]) = (c == 0) := by
  simp [endsInZero]

/-- The zeros of an item, which stand before its count where the count before it was 0 (R150). -/
def itemZeros (prev0 : Bool) (x : Nat × Int) : List Int := if prev0 then List.replicate x.1 0 else []

@[simp] theorem countMass_itemZeros (prev0 : Bool) (x : Nat × Int) : countMass (itemZeros prev0 x) = 0 := by
  cases prev0 <;> simp [itemZeros, countMass]

theorem itemCounts_cons (x : Nat × Int) (items : List (Nat × Int)) (prev0 : Bool) :
    itemCounts (x :: items) prev0 = itemZeros prev0 x ++ [x.2] ++ itemCounts items (x.2 == 0) := by
  simp [itemCounts, itemZeros]

/-- After `counts`, with `rem` the mass left plus 1, the loop reads the counts `cs` and does not end before (R150). -/
structure CountsFit (t : TSel) (rem : Nat) (counts cs : List Int) : Prop where
  low : ∀ c ∈ cs, -1 ≤ c
  mass : countMass cs < rem
  more : countMass cs + 1 < rem ∨ cs.getLast? ≠ some 0
  length : counts.length + cs.length ≤ maxSym t + 1

/-- The mass left where a count is read. -/
theorem CountsFit.head {rem : Nat} {counts zs cs : List Int} {c : Int} (h : CountsFit t rem counts (zs ++ [c] ++ cs)) :
    1 < rem ∧ -1 ≤ c ∧ (c + 1).toNat ≤ rem ∧ counts.length + zs.length ≤ maxSym t := by
  obtain ⟨hlow, hmass, hmore, hlen⟩ := h
  have hc : -1 ≤ c := hlow c (by simp)
  have : 1 < rem := hmore.elim (by omega) fun hlast => by have := countMass_pos (by simp) hlast; omega
  simp only [countMass_append, countMass_cons, countMass_nil, List.length_append, List.length_singleton] at hmass hlen
  omega

/-- What is left once a count is read. -/
theorem CountsFit.tail {rem : Nat} {counts zs cs : List Int} {c : Int} (h : CountsFit t rem counts (zs ++ [c] ++ cs)) :
    CountsFit t (rem - c.natAbs) (counts ++ zs ++ [c]) cs := by
  obtain ⟨hlow, hmass, hmore, hlen⟩ := h
  simp only [countMass_append, countMass_cons, countMass_nil, List.length_append, List.length_singleton] at hmass hmore hlen
  have last : cs.getLast? = some 0 → (zs ++ [c] ++ cs).getLast? = some 0 := fun hcs => by
    rw [List.getLast?_append, hcs]; rfl
  refine ⟨fun d hd => hlow d (List.mem_append_right _ hd), by omega, hmore.imp (by omega) (mt last), ?_⟩
  simp only [List.length_append, List.length_singleton]
  omega

theorem ncountLoop_done {fuel rem threshold nbits : Nat} {counts : List Int} {prev0 : Bool}
    (h : rem ≤ 1 ∨ maxSym t < counts.length) :
    ncountLoop t (fuel + 1) rem threshold nbits counts prev0 s = .ok (rem, counts) s := by
  rw [ncountLoop, if_pos h]
  rfl

/-- One turn of the loop reads one item. -/
theorem ncountLoop_item (h : ForwardReady s) {rem threshold nbits m : Nat} {counts : List Int} {x : Nat × Int} {prev0 : Bool}
    (fuel : Nat) (hw : FieldWidth rem threshold nbits)
    (hfit : 1 < rem ∧ -1 ≤ x.2 ∧ (x.2 + 1).toNat ≤ rem ∧ counts.length + (itemZeros prev0 x).length ≤ maxSym t)
    (hzeros : fieldsAt s s.fr.base.toNat (if prev0 then runFields x.1 else []) k m)
    (hfield : fieldAt s s.fr.base.toNat m (countField rem x.2).2 = (countField rem x.2).1)
    (hle : m + (countField rem x.2).2 ≤ regionBits s) :
    ncountLoop t (fuel + 1) rem threshold nbits counts prev0 (frAt k s) =
      ncountLoop t fuel (rem - x.2.natAbs) (narrow (rem - x.2.natAbs) nbits threshold).2
        (narrow (rem - x.2.natAbs) nbits threshold).1 (counts ++ itemZeros prev0 x ++ [x.2]) (x.2 == 0)
        (frAt (m + (countField rem x.2).2) s) := by
  obtain ⟨hgo, hlow, hrem, hlen⟩ := hfit
  have zeros := continueRun_runFields (t := t) h hzeros (by omega) hlen
  have value : (((x.2 + 1).toNat : Nat) : Int) - 1 = x.2 := by omega
  rw [ncountLoop, if_neg (by omega), bind_of_ok zeros, bind_of_ok (readCountField_countField h hw hrem hle hfield)]
  simp only [value]
  rfl

/-- The loop reads the items that stand at its position. -/
theorem ncountLoop_items (h : ForwardReady s) (fuel : Nat) : ∀ (items : List (Nat × Int)) {rem threshold nbits last k : Nat}
    {counts cs : List Int} {prev0 : Bool}, FieldWidth rem threshold nbits → prev0 = endsInZero counts →
      itemCounts items prev0 = cs → CountsFit t rem counts cs →
      fieldsAt s s.fr.base.toNat (ncountFields items rem prev0) k last → last ≤ regionBits s →
      ∃ threshold' nbits', FieldWidth (rem - countMass cs) threshold' nbits' ∧
        ncountLoop t (items.length + fuel) rem threshold nbits counts prev0 (frAt k s) =
          ncountLoop t fuel (rem - countMass cs) threshold' nbits' (counts ++ cs) (endsInZero (counts ++ cs)) (frAt last s)
  | [], rem, threshold, nbits, last, k, counts, cs, prev0, hw, hprev, hcs, _, hfields, _ => by
    obtain rfl : k = last := hfields
    obtain rfl : [] = cs := hcs
    exact ⟨threshold, nbits, hw, by simp [hprev]⟩
  | x :: items, rem, threshold, nbits, last, k, counts, cs, prev0, hw, hprev, hcs, hfit, hfields, hle => by
    obtain ⟨m, hzeros, hfield, hrest⟩ := fieldsAt_append.mp hfields
    have hnext := fieldsAt_le hrest
    rw [itemCounts_cons] at hcs
    subst hcs
    have turn := ncountLoop_item h (items.length + fuel) hw hfit.head hzeros hfield (by omega)
    have width := narrow_width (rem := rem - x.2.natAbs) (by have := hfit.tail.mass; omega) nbits threshold hw.pos hw.pow
      (by have := hw.lt; omega)
    obtain ⟨threshold', nbits', hw', hloop⟩ :=
      ncountLoop_items h fuel items width (endsInZero_concat _ _).symm rfl hfit.tail hrest hle
    refine ⟨threshold', nbits', by simpa [Nat.sub_sub] using hw', ?_⟩
    rw [List.length_cons, Nat.add_right_comm, turn, hloop]
    simp [Nat.sub_sub]


/-! ## The header (R150) -/

theorem length_items_le : ∀ (items : List (Nat × Int)) (prev0 : Bool), items.length ≤ (itemCounts items prev0).length
  | [], _ => Nat.le_refl _
  | x :: items, prev0 => by
    have := length_items_le items (x.2 == 0)
    simp only [itemCounts_cons, List.length_append, List.length_cons, List.length_nil]
    omega

/-- The loop over the items of a header: at their end a turn is left, and the field's width fits the mass left. -/
theorem ncountLoop_header (h : ForwardReady s) {al last : Nat} {items : List (Nat × Int)} (hal : 1 ≤ al)
    (hfit : CountsFit t (2 ^ al + 1) [] (itemCounts items false))
    (hfields : fieldsAt s s.fr.base.toNat (ncountFields items (2 ^ al + 1) false) k last) (hle : last ≤ regionBits s) :
    ∃ fuel threshold nbits, FieldWidth (2 ^ al + 1 - countMass (itemCounts items false)) threshold nbits ∧
      ncountLoop t (maxSym t + 2) (2 ^ al + 1) (2 ^ al) (al + 1) [] false (frAt k s) =
        ncountLoop t (fuel + 1) (2 ^ al + 1 - countMass (itemCounts items false)) threshold nbits (itemCounts items false)
          (endsInZero (itemCounts items false)) (frAt last s) := by
  have width : FieldWidth (2 ^ al + 1) (2 ^ al) (al + 1) :=
    ⟨by omega, by simp, by omega, by have : 2 ≤ 2 ^ al := Nat.le_self_pow (by omega) 2; omega⟩
  have hitems := (length_items_le items false).trans (by simpa using hfit.length)
  obtain ⟨fuel, hfuel⟩ : ∃ fuel, maxSym t + 2 = items.length + (fuel + 1) := ⟨maxSym t + 1 - items.length, by omega⟩
  rw [hfuel]
  exact ⟨fuel, ncountLoop_items h (fuel + 1) items width rfl rfl hfit hfields hle⟩

theorem falign_frAt (hk : k ≤ regionBits s) :
    falign (frAt k s) = .ok (s.fr.base.toNat + (k + 7) / 8) (frAt ((k + 7) / 8 * 8) s) := by
  have hpos := frAt_toNat hk
  have haligned : (k + 7) / 8 * 8 ≤ regionBits s := by unfold regionBits at hk ⊢; omega
  have moved : falign (frAt k s) = .ok (s.fr.base.toNat + (frAt (((frAt k s).fr.pos.toNat + 7) / 8 * 8) s).fr.pos.toNat / 8)
      (frAt (((frAt k s).fr.pos.toNat + 7) / 8 * 8) s) := rfl
  rw [moved, hpos, frAt_toNat haligned, Nat.mul_div_cancel _ (by omega)]

/-- The distribution that ReadNCount stages (R29, R150). -/
def stagedDist (t : TSel) (al : Nat) (counts : List Int) : Dist :=
  ⟨true, t, BitVec.ofNat 4 al, BitVec.ofNat 9 counts.length, counts.map fun c => BitVec.ofInt 11 c⟩

/-- A distribution's counts are read to their end. -/
theorem CountsFit.of_distribution {al : Nat} {counts : List Int} (h : distribution t al counts) :
    CountsFit t (2 ^ al + 1) [] counts := by
  obtain ⟨-, -, hlen, hlow, hmass, hlast⟩ := h
  exact ⟨hlow, by unfold countMass; omega, .inr hlast, by simpa using hlen⟩

/-- ReadNCount over the header of a distribution stages it and returns the address after the header (R150). -/
theorem readNCount_of_ncountAt (h : ForwardReady s) {al last : Nat} {counts : List Int}
    (hn : ncountAt s s.fr.base.toNat s.fr.lim.toNat k t al counts last) :
    readNCount t (frAt k s) = .ok (s.fr.base.toNat + (last + 7) / 8)
      { frAt ((last + 7) / 8 * 8) s with dist := stagedDist t al counts } := by
  obtain ⟨hdist, hle, items, rfl, hlog, hfields⟩ := hn
  have hfit := CountsFit.of_distribution hdist
  obtain ⟨hal, hmax, -, -, hmass, -⟩ := hdist
  simp only at hlog hfields
  have := fieldsAt_le hfields
  obtain ⟨fuel, threshold, nbits, -, hloop⟩ := ncountLoop_header h (by omega) hfit hfields hle
  have rest : 2 ^ al + 1 - countMass (itemCounts items false) = 1 := by unfold countMass; omega
  rw [rest, ncountLoop_done (.inl le_rfl)] at hloop
  unfold readNCount
  rw [bind_of_ok (fread_frAt h (by unfold regionBits; omega)), hlog, Nat.sub_add_cancel hal, bind_of_ok (ensure_of hmax),
    bind_of_ok hloop, bind_of_ok (ensure_of rfl), bind_of_ok (falign_frAt hle)]
  rfl

/-- The zero run that ends the parse, or the count field after it that is past the region (R150). -/
theorem raises_zeroRun (h : ForwardReady s) {rem threshold nbits : Nat} {counts : List Int} {c : Cause} {β : Type}
    {g : List Int → Nat → Op β} (hw : FieldWidth rem threshold nbits)
    (hstop : runStops s s.fr.base.toNat s.fr.lim.toNat k t counts.length rem c) :
    Raises (readZeros t counts >>= fun counts => readCountField rem threshold nbits >>= g counts) (frAt k s) c := by
  obtain ⟨j, hthrees, hle, hstop⟩ := hstop
  obtain ⟨fuel, hfuel⟩ := runFuel (s := s) hle
  split_ifs at hstop with hcut hmax
  · obtain rfl := hstop
    have run : Raises (readZeroRun (regionBits s + 1) counts.length) (frAt k s) .brFwdOverrun :=
      .of_eq (hfuel ▸ readZeroRun_threes h _ j _ hthrees hle) (.bind (raises_fread h hle hcut))
    exact .bind (.look (.bind run))
  · obtain ⟨hlast, rfl⟩ := hstop
    exact .bind (.look (.after (readZeroRun_ends h _ hthrees (not_lt.mp hcut) hlast) (.bind (.ensure (by omega)))))
  · obtain ⟨hlast, hcount, rfl⟩ := hstop
    exact .after (readZeros_ends h hthrees (not_lt.mp hcut) hlast (by omega))
      (.bind (raises_readCountField h hw (not_lt.mp hcut) hcount))

/-- The turn of the loop at which the header stops it (R150). -/
theorem raises_ncountLoop (h : ForwardReady s) {fuel rem threshold nbits : Nat} {counts : List Int} {c : Cause}
    (hw : FieldWidth rem threshold nbits) (hk : k ≤ regionBits s) (hrem : 1 < rem) (hlen : counts.length ≤ maxSym t)
    (hstop : if counts.getLast? = some 0 then runStops s s.fr.base.toNat s.fr.lim.toNat k t counts.length rem c
      else countCut s s.fr.base.toNat s.fr.lim.toNat k rem ∧ c = .brFwdOverrun) :
    Raises (ncountLoop t (fuel + 1) rem threshold nbits counts (endsInZero counts)) (frAt k s) c := by
  rw [ncountLoop, if_neg (by omega)]
  split_ifs at hstop with hzero
  · rw [show endsInZero counts = true by simp [endsInZero, hzero]]
    exact raises_zeroRun h hw hstop
  · obtain ⟨hcut, rfl⟩ := hstop
    rw [show endsInZero counts = false by simp [endsInZero, hzero]]
    exact .after rfl (.bind (raises_readCountField h hw hk hcut))

/-- ReadNCount raises the cause at which the header stops it (R150). -/
theorem raises_readNCount (h : ForwardReady s) {c : Cause} (hk : k ≤ regionBits s)
    (hstop : ncountStops s s.fr.base.toNat s.fr.lim.toNat k t c) : Raises (readNCount t) (frAt k s) c := by
  unfold ncountStops at hstop
  split_ifs at hstop with hcut hmax
  · obtain rfl := hstop
    exact .bind (raises_fread h hk hcut)
  · obtain rfl := hstop
    exact .after (fread_frAt h (not_lt.mp hcut)) (.bind (.ensure (not_le.mpr hmax)))
  refine .after (fread_frAt h (not_lt.mp hcut)) (.pass (not_lt.mp hmax) ?_)
  generalize hlog : fieldAt s s.fr.base.toNat k 4 + 5 = al at hstop ⊢
  obtain ⟨items, last, hfields, hle, hlow, hleft, hlen, hstop⟩ := hstop
  generalize hcs : itemCounts items false = counts at *
  have mass : countMass counts = (counts.map Int.natAbs).sum := rfl
  have hal : 1 ≤ al := by omega
  have hfit : CountsFit t (2 ^ al + 1) [] counts := ⟨hlow, by omega, .inl (by omega), by simpa using hlen⟩
  obtain ⟨fuel, threshold, nbits, hw, hloop⟩ := ncountLoop_header h hal (hcs ▸ hfit) hfields hle
  rw [hcs] at hw hloop
  have left : 2 ^ al - (counts.map Int.natAbs).sum + 1 = 2 ^ al + 1 - countMass counts := by omega
  rw [left] at hstop
  by_cases hfull : counts.length = maxSym t + 1
  · obtain rfl : c = .fseNcountSum := by rwa [if_pos hfull] at hstop
    exact .after (hloop.trans (ncountLoop_done (.inr (by omega)))) (.bind (.ensure (by simp only; omega)))
  · rw [if_neg hfull] at hstop
    exact .bind (.of_eq hloop (raises_ncountLoop h hw hle (by omega) (by omega) hstop))

end Sys2Proof.Machine
end

section
/-! CERTIFICATE. The errors of FSE_NCOUNT (R150, R313). -/

open Sys2Proof Sys2Proof.Machine

namespace Sys2Proof.Machine

variable {α β : Type} {s u : State} {t : TSel}

/-! ## The causes ReadNCount raises -/

/-- Every error of `x` is one of ReadNCount's own (R150, R124). -/
def OnlyNcount (x : Op α) : Prop := ∀ s c t, x s = .error (.raise c) t → ncountError c = true

theorem OnlyNcount.bind {x : Op α} {f : α → Op β} (hx : OnlyNcount x) (hf : ∀ a, OnlyNcount (f a)) : OnlyNcount (x >>= f) :=
  fun s c t h => (bind_eq_error.mp h).elim (hx s c t) fun ⟨a, u, _, h⟩ => hf a u c t h
theorem OnlyNcount.pure (a : α) : OnlyNcount (pure a : Op α) := fun _ _ _ h => nomatch h
theorem OnlyNcount.raise {c : Cause} (hc : ncountError c = true) : OnlyNcount (Machine.raise c : Op α) := fun _ _ _ h => by
  cases h; exact hc
theorem OnlyNcount.stop (f : Fault) : OnlyNcount (Machine.stop f : Op α) := fun _ _ _ h => nomatch h
theorem OnlyNcount.look (f : State → α) : OnlyNcount (Machine.look f) := fun _ _ _ h => nomatch h
theorem OnlyNcount.change (f : State → State) : OnlyNcount (Machine.change f) := fun _ _ _ h => nomatch h
theorem OnlyNcount.draw (x : Config.Slot) : OnlyNcount (Machine.draw x) := fun _ _ _ h => nomatch h
theorem OnlyNcount.ensure (p : Prop) [Decidable p] {c : Cause} (hc : ncountError c = true) :
    OnlyNcount (Machine.ensure p c) := fun _ _ _ h => by
  obtain ⟨-, e, -⟩ := ensure_eq_error.mp h
  cases e; exact hc
theorem OnlyNcount.ite {p : Prop} [Decidable p] {x y : Op α} (hx : OnlyNcount x) (hy : OnlyNcount y) :
    OnlyNcount (if p then x else y) := by split_ifs <;> assumption

theorem onlyNcount_fpeek (n : Nat) : OnlyNcount (fpeek n) :=
  .bind (.look _) fun _ => .ite (.stop _) (.ite (.bind (.draw _) fun _ => .pure _) (.pure _))
theorem onlyNcount_fconsume (n : Nat) : OnlyNcount (fconsume n) :=
  .bind (.look _) fun _ => .bind (.ensure _ rfl) fun _ => .change _
theorem onlyNcount_fread (n : Nat) : OnlyNcount (fread n) :=
  .bind (onlyNcount_fpeek n) fun _ => .bind (onlyNcount_fconsume n) fun _ => .pure _
theorem onlyNcount_readZeroRun : ∀ fuel n0, OnlyNcount (readZeroRun fuel n0)
  | 0, _ => .raise rfl
  | fuel + 1, _ => .bind (onlyNcount_fread 2) fun _ => .ite (onlyNcount_readZeroRun fuel _) (.pure _)
theorem onlyNcount_continueRun (t : TSel) (prev0 : Bool) (counts : List Int) : OnlyNcount (continueRun t prev0 counts) :=
  .ite (.bind (.look _) fun _ => .bind (onlyNcount_readZeroRun _ _) fun _ => .bind (.ensure _ rfl) fun _ => .pure _) (.pure _)
theorem onlyNcount_readCountField (remaining threshold nbits : Nat) : OnlyNcount (readCountField remaining threshold nbits) :=
  .bind (onlyNcount_fpeek _) fun _ => .ite (.bind (onlyNcount_fconsume _) fun _ => .pure _)
    (.bind (onlyNcount_fpeek _) fun _ => .bind (onlyNcount_fconsume _) fun _ => .pure _)
theorem onlyNcount_ncountLoop (t : TSel) : ∀ fuel remaining threshold nbits counts prev0,
    OnlyNcount (ncountLoop t fuel remaining threshold nbits counts prev0)
  | 0, _, _, _, _, _ => .pure _
  | fuel + 1, _, _, _, _, _ => .ite (.pure _) (.bind (onlyNcount_continueRun _ _ _) fun _ =>
      .bind (onlyNcount_readCountField _ _ _) fun _ => onlyNcount_ncountLoop t fuel _ _ _ _ _)
theorem onlyNcount_readNCount (t : TSel) : OnlyNcount (readNCount t) :=
  .bind (onlyNcount_fread 4) fun _ => .bind (.ensure _ rfl) fun _ => .bind (onlyNcount_ncountLoop t _ _ _ _ _ _) fun _ =>
    .bind (.ensure _ rfl) fun _ => .bind (.bind (.change _) fun _ => .look _) fun _ => .bind (.change _) fun _ => .pure _

/-! ## DIST after an error (R313) -/

/-- ReadNCount writes DIST last, once no check is left (R150). -/
theorem readNCount_error_dist {e : Stop} (h : readNCount t s = .error e u) : u.dist = s.dist := by
  have dist : ∀ {ps : List Part} {v w : State}, Keeps ps v w → ps = [.draws, .fr] → w.dist = v.dist := fun k hp =>
    k .dist (by simp [hp])
  rcases bind_eq_error.mp h with h | ⟨f, s1, h1, h⟩
  · exact dist ((touches_fread 4).error h) rfl
  have e1 := dist ((touches_fread 4).ok h1) rfl
  rcases bind_eq_error.mp h with h | ⟨_, s2, h2, h⟩
  · exact (dist ((Touches.ensure _ _).error h) rfl).trans e1
  have e2 := (dist ((Touches.ensure _ _).ok h2) rfl).trans e1
  rcases bind_eq_error.mp h with h | ⟨out, s3, h3, h⟩
  · exact (dist ((touches_ncountLoop t _ _ _ _ _ _).error h) rfl).trans e2
  have e3 := (dist ((touches_ncountLoop t _ _ _ _ _ _).ok h3) rfl).trans e2
  rcases bind_eq_error.mp h with h | ⟨_, s4, -, h⟩
  · exact (dist ((Touches.ensure _ _).error h) rfl).trans e3
  · cases h

/-- DIST and the registers of FR but POS after an error of FSE_NCOUNT. -/
theorem takeError_ncount {op : BitVec 8} {c : Cause} {s1 : State}
    (hc : causeCategory c = .illegalCommand ∨ ncountError c = true ∧ s1.dist = s.dist) :
    (takeError op [.frPos, .dist] c s s1).dist = s.dist ∧
      (takeError op [.frPos, .dist] c s s1).fr = { s.fr with pos := (takeError op [.frPos, .dist] c s s1).fr.pos } := by
  by_cases hill : causeCategory c = .illegalCommand
  · rw [takeError_of_illegal hill, recordError_dist, recordError_fr]
    exact ⟨rfl, rfl⟩
  · obtain ⟨hcause, hdist⟩ := hc.resolve_left hill
    simp only [takeError, if_neg hill, recordError_dist, recordError_fr]
    exact ⟨(if_pos hcause).trans hdist, rfl⟩

/-- An error of FSE_NCOUNT's operation: an IllegalCommand, or one of ReadNCount's, before it writes DIST. -/
theorem fseNcount_error {t : BitVec 3} {c : Cause} {s1 : State}
    (h : (selectTable t >>= fun t => needForward >>= fun _ => readNCount t >>= fun v => setRes v) s = .error (.raise c) s1) :
    causeCategory c = .illegalCommand ∨ ncountError c = true ∧ s1.dist = s.dist := by
  cases ht : tableOf? t with
  | none =>
    rw [selectTable, ht] at h
    cases h
    exact .inl rfl
  | some x =>
    rw [bind_of_ok (selectTable_of ht s)] at h
    cases hv : s.fr.valid with
    | false =>
      obtain ⟨s2, e⟩ := raises_needForward (g := fun _ => readNCount x >>= fun v => setRes v) hv
      cases e.symm.trans h
      exact .inl rfl
    | true =>
      rw [needForward_bind_of hv] at h
      rcases bind_eq_error.mp h with h | ⟨_, _, -, h⟩
      · exact .inr ⟨onlyNcount_readNCount x _ _ _ h, readNCount_error_dist h⟩
      · cases h

theorem touches_fseNcount (t : BitVec 3) :
    Touches [.draws, .fr, .dist, .res] (selectTable t >>= fun t => needForward >>= fun _ => readNCount t >>= fun v => setRes v) :=
  .bind (touches_select _) fun x => .bind touches_needForward fun _ => .bind ((touches_readNCount x).mono (by simp)) fun v =>
    (touches_setRes v).mono (by simp)

end Sys2Proof.Machine

/-- Settles O29: ReadNCount follows the fields of the header to the check that fails, and writes DIST after its checks. -/
theorem fseNcountErrorKeepsDist : Obligations.FseNcountErrorKeepsDist := by
  refine ⟨fun t s c hn hv hfr hs hstop => ?_, fun t s u hn h herr => ?_⟩
  · obtain ⟨-, hcap, hpos, -⟩ := hfr hv
    have stopped := raises_readNCount ⟨hcap, hs⟩ hpos hstop
    rw [frAt_pos] at stopped
    exact Raises.status (.after (selectTable_of (tableOf_code t) s) (.of_eq (needForward_bind_of hv) (.bind stopped))) hn
  · rcases runCommand_eq_next.mp h with ⟨hn', -⟩ | ⟨-, hok | ⟨c, s1, e, rfl⟩⟩
    · exact nomatch hn.symm.trans hn'
    · have status : u.status = s.status := (touches_fseNcount t).ok hok .status (by simp)
      rw [noError, status] at herr
      exact nomatch hn.symm.trans herr
    · obtain ⟨hdist, hfr⟩ := takeError_ncount (op := opcFseNcount) (fseNcount_error e)
      refine ⟨hdist, hfr, fun p hp => ?_⟩
      by_cases hp' : p = .dist
      · subst hp'; exact hdist
      · exact takeError_keeps _ _ _ _ _ p (by simpa [partsOfElement, hp'] using hp)
end

section
/-! SUPPORT. Reverse streams and FSE tables read as a header, a stream and a table say (R120 to R122, R153 to R159): where
a reader stands in a stream over the bytes of an earlier state, and what each read of it and of a table gives. -/

namespace Sys2Proof.Machine

variable {s u v : State} {r : RSel} {x : SSel} {ps : List Part} {base len : Nat} {pos : Int}

/-! ## States with the same bytes -/

theorem inByte_of_keeps (h : Keeps ps u v) (hp : .inMem ∉ ps ∧ .inEra ∉ ps) : inByte v = inByte u := by
  have mem : v.inMem = u.inMem := h .inMem hp.1
  have era : v.inEra = u.inEra := h .inEra hp.2
  funext a
  rw [inByte, mem, era, inByte]

section
variable (h : inByte u = inByte s)
include h

theorem fieldAt_congr : fieldAt u = fieldAt s := by
  funext base k w
  simp only [fieldAt, h]

theorem fieldsAt_congr : fieldsAt u = fieldsAt s := by
  funext base fields
  induction fields with
  | nil => rfl
  | cons f fields ih =>
    funext k last
    simp only [fieldsAt, ih, fieldAt_congr h]

theorem ncountAt_congr : ncountAt u = ncountAt s := by
  funext base lim k t al counts last
  simp only [ncountAt, fieldsAt_congr h]

theorem ncountStops_congr : ncountStops u = ncountStops s := by
  have peek : peekAt u = peekAt s := by
    funext base lim k n
    simp only [peekAt, h]
  funext base lim k t c
  simp only [ncountStops, runStops, countCut, peek, fieldsAt_congr h, fieldAt_congr h]

theorem streamBits_congr : streamBits u = streamBits s := by
  funext base pos n
  simp only [streamBits, streamBit, h]

theorem streamAt_congr : streamAt u = streamAt s := by
  funext base len pos
  simp only [streamAt, h]

theorem streamStops_congr : streamStops u = streamStops s := by
  funext base len c
  simp only [streamStops, h]

end

/-! ## Reverse readers (R120 to R122) -/

/-- In `u` reader `r` stands at position `pos` of the stream at IN[base], over undisturbed bytes that are those of `s`. -/
structure ReaderAt (s u : State) (r : RSel) (base : Nat) (pos : Int) : Prop where
  base : (u.rr.get r).base.toNat = base
  pos : (u.rr.get r).pos.toInt = pos
  range : readerInRange (u.rr.get r) = true
  fresh : u.rrStale.get r = false
  bytes : inByte u = inByte s

theorem ReaderAt.of_keeps (h : ReaderAt s u r base pos) (k : Keeps ps u v) (hp : ∀ p ∈ reverseParts r, p ∉ ps) :
    ReaderAt s v r base pos := by
  have rd : v.rr.get r = u.rr.get r := k (.rr r) (hp _ (by simp))
  have mark : v.rrStale.get r = u.rrStale.get r := k (.rrStale r) (hp _ (by simp))
  exact ⟨rd ▸ h.base, rd ▸ h.pos, rd ▸ h.range, mark ▸ h.fresh,
    (inByte_of_keeps k ⟨hp _ (by simp), hp _ (by simp)⟩).trans h.bytes⟩

theorem rpos_at (h : ReaderAt s u r base pos) : rpos r u = .ok pos u := by rw [← h.pos]; rfl

theorem rpeek_at (h : ReaderAt s u r base pos) (n : Nat) : rpeek r n u = .ok (streamBits s base pos n) u := by
  rw [rpeek_of_fresh h.range h.fresh, h.base, h.pos, streamBits_congr h.bytes]

theorem readerInRange_iff {rd : RevReader} :
    readerInRange rd = true ↔ rd.base.toNat + rd.len.toNat ≤ Config.inCap ∧ rd.pos.toInt < 8 * rd.len.toNat := by
  simp [readerInRange]

/-- Consuming bits moves the position down (R121). -/
theorem rconsume_at (h : ReaderAt s u r base pos) {n : Nat} (hpos : -2 ^ 31 ≤ pos - n) :
    ∃ v, rconsume r n u = .ok () v ∧ ReaderAt s v r base (pos - n) ∧ Keeps [.rr r] u v := by
  have keeps := (touches_rconsume r n).ok (rconsume_apply r n u)
  have bytes := (inByte_of_keeps keeps (by simp)).trans h.bytes
  refine ⟨_, rconsume_apply r n u, ⟨by simpa using h.base, ?_, ?_, h.fresh, bytes⟩, keeps⟩
  · simp only [RevBank.get_set_same, posAfter_toInt, h.pos]
    omega
  · obtain ⟨hcap, hlt⟩ := readerInRange_iff.mp h.range
    rw [h.pos] at hlt
    simp only [RevBank.get_set_same, readerInRange_iff, posAfter_toInt, h.pos]
    omega

/-- A read returns the bits below the position (R122). -/
theorem rread_at (h : ReaderAt s u r base pos) {n : Nat} (hpos : -2 ^ 31 ≤ pos - n) :
    ∃ v, rread r n u = .ok (streamBits s base pos n) v ∧ ReaderAt s v r base (pos - n) ∧ Keeps [.rr r] u v := by
  obtain ⟨v, e, hv⟩ := rconsume_at h hpos
  exact ⟨v, (bind_of_ok (rpeek_at h n)).trans (bind_of_ok e), hv⟩

/-- RInit puts its reader at the useful bits of the stream (R136). -/
theorem rinit_at (r : RSel) (hs : streamAt s base len pos) (hb : inByte u = inByte s) (hcap : base + len ≤ Config.inCap) :
    ∃ v, rinit r base len u = .ok () v ∧ ReaderAt s v r base pos ∧ Keeps [.rr r, .rrStale r] u v := by
  have hu : streamAt u base len pos := by rwa [streamAt_congr hb]
  have e := rinit_of_streamAt (r := r) hu hcap
  have keeps := (touches_rinit r base len).ok e
  obtain ⟨hbase, hlen, hpos⟩ := streamReader_fields hu hcap
  have range : readerInRange (streamReader u base len) = true := by
    rw [readerInRange_iff, hbase, hlen, hpos]
    obtain ⟨hlen, hlast, rfl⟩ := hu
    have := highbit_byte_lt hlast
    unfold highbit at this
    exact ⟨hcap, by omega⟩
  refine ⟨_, e, ⟨?_, ?_, ?_, RevMarks.get_clear_same _ _, (inByte_of_keeps keeps (by simp)).trans hb⟩, keeps⟩
  · rwa [RevBank.get_set_same]
  · rwa [RevBank.get_set_same]
  · rwa [RevBank.get_set_same]

theorem raises_rinit_of_bytes {c : Cause} (r : RSel) (hs : streamStops s base len c) (hb : inByte u = inByte s)
    (hcap : base + len ≤ Config.inCap) : Raises (rinit r base len) u c :=
  raises_rinit (by rwa [streamStops_congr hb]) hcap

/-! ## State registers (R159) -/

/-- In `u` the table of state register `x` is `tab`, and the register holds `i`. -/
structure StateAt (u : State) (x : SSel) (tab : FseTable) (i : Nat) : Prop where
  table : u.ft.get (tabOf x) = tab
  index : (u.st.get x).toNat = i

variable {tab : FseTable} {i : Nat} {e : FseEntry}

theorem StateAt.of_keeps (h : StateAt u x tab i) (k : Keeps ps u v) (hp : .ft (tabOf x) ∉ ps ∧ .st x ∉ ps) :
    StateAt v x tab i := by
  have table : v.ft.get (tabOf x) = u.ft.get (tabOf x) := k (.ft _) hp.1
  have index : v.st.get x = u.st.get x := k (.st x) hp.2
  exact ⟨table.trans h.table, index ▸ h.index⟩

theorem StateAt.entry (h : StateAt u x tab i) (he : tab.entries[i]? = some e) : stateEntry u x = e := by
  rw [stateEntry, tableEntry, h.table, h.index, he, Option.getD_some]

theorem symOf_at (h : StateAt u x tab i) (he : tab.entries[i]? = some e) : symOf x u = .ok e.sym u := by
  rw [← h.entry he]; rfl

/-- No table has more entries than a state register can name (R28, R30). -/
theorem tableOkFor.size {t : TSel} (h : tableOkFor t tab) : 2 ^ tab.al.toNat ≤ 2 ^ 9 :=
  Nat.pow_le_pow_right (by norm_num) (h.1.trans (maxLog_le t))

theorem setSt_at {n : Nat} (htab : u.ft.get (tabOf x) = tab) (hn : n < 2 ^ 9) :
    ∃ v, setSt x n u = .ok () v ∧ StateAt v x tab n ∧ Keeps [.st x] u v :=
  ⟨_, rfl, ⟨htab, by rw [StBank.get_set_same]; exact toNat_ofNat_of_lt hn⟩, (touches_setSt x n).ok rfl⟩

/-- A state register is read from the stream (R159). -/
theorem initState_at (x : SSel) (htab : u.ft.get (tabOf x) = tab) (hok : tableOkFor (tabOf x) tab)
    (h : ReaderAt s u r base pos) (hpos : -2 ^ 31 + 9 ≤ pos) :
    ∃ v, initState x r u = .ok () v ∧ StateAt v x tab (streamBits s base pos tab.al.toNat) ∧
      ReaderAt s v r base (pos - tab.al.toNat) ∧ Keeps [.rr r, .st x] u v := by
  have hal : tab.al.toNat ≤ 9 := hok.1.trans (maxLog_le _)
  obtain ⟨v, e, hv, kv⟩ := rread_at h (n := tab.al.toNat) (by omega)
  obtain ⟨w, e', hw, kw⟩ := setSt_at (x := x) (u := v) (n := streamBits s base pos tab.al.toNat)
    (Eq.trans (kv (.ft (tabOf x)) (by simp)) htab) ((streamBits_lt s base pos _).trans_le hok.size)
  refine ⟨w, ?_, hw, hv.of_keeps kw (by simp), (kv.mono (by simp)).trans (kw.mono (by simp))⟩
  unfold initState
  rw [bind_of_ok (look_apply _ u), htab, bind_of_ok e, e']

/-- A state register moves on to an entry of its table (R159). -/
theorem updState_at (h : StateAt u x tab i) (hok : tableOkFor (tabOf x) tab) (he : tab.entries[i]? = some e)
    (hr : ReaderAt s u r base pos) (hpos : -2 ^ 31 + 15 ≤ pos) :
    ∃ v, updState x r u = .ok () v ∧ StateAt v x tab (e.base.toNat + streamBits s base pos e.nb.toNat) ∧
      ReaderAt s v r base (pos - e.nb.toNat) ∧ Keeps [.rr r, .st x] u v := by
  have hnb := e.nb.isLt
  have hbits := streamBits_lt s base pos e.nb.toNat
  have hentry := (hok.2.2 e (List.mem_of_getElem? he)).2.1
  have hsize := hok.size
  obtain ⟨v, k, hv, kv⟩ := rread_at hr (n := e.nb.toNat) (by omega)
  obtain ⟨w, k', hw, kw⟩ := setSt_at (x := x) (u := v) (n := e.base.toNat + streamBits s base pos e.nb.toNat)
    (Eq.trans (kv (.ft (tabOf x)) (by simp)) h.table) (by omega)
  refine ⟨w, ?_, hw, hv.of_keeps kw (by simp), (kv.mono (by simp)).trans (kw.mono (by simp))⟩
  unfold updState
  rw [bind_of_ok (look_apply _ u), h.entry he, bind_of_ok k, k']

/-! ## BuildTable (R153 to R155) -/

/-- Staged counts are read back as they are (R29). -/
theorem distCounts_stagedDist {t : TSel} {al : Nat} {counts : List Int} (h : ∀ c ∈ counts, -1 ≤ c ∧ c ≤ 512) :
    distCounts (stagedDist t al counts) = counts := by
  rw [distCounts, stagedDist, List.map_map]
  exact (List.map_congr_left fun c hc => toInt_ofInt_count (h c hc).1 (h c hc).2).trans (List.map_id counts)

theorem distribution.counts_le {t : TSel} {al : Nat} {counts : List Int} (h : distribution t al counts) :
    ∀ c ∈ counts, -1 ≤ c ∧ c ≤ 512 := fun c hc => by
  obtain ⟨-, hmax, -, hlow, hmass, -⟩ := h
  have hle := List.single_le_sum (fun _ _ => Nat.zero_le _) _ (List.mem_map_of_mem (f := Int.natAbs) hc)
  have small : 2 ^ al ≤ 2 ^ 9 := Nat.pow_le_pow_right (by norm_num) (hmax.trans (maxLog_le t))
  have := hlow c hc
  omega

/-- BuildTable makes the table the staged counts build. -/
theorem buildTable_at {t : TSel} {al : Nat} {counts : List Int} {entries : List FseEntry}
    (hdist : u.dist = stagedDist t al counts) (hal : al ≤ 9) (hcounts : ∀ c ∈ counts, -1 ≤ c ∧ c ≤ 512)
    (hb : builds al counts entries) :
    ∃ v, buildTable t u = .ok () v ∧ v.ft.get t = ⟨true, BitVec.ofNat 4 al, entries⟩ ∧ Keeps [.ft t] u v := by
  have al_eq : (stagedDist t al counts).al.toNat = al := toNat_ofNat_of_lt (w := 4) (by omega)
  have built : buildTable t u = setTable t ⟨true, BitVec.ofNat 4 al, entries⟩ u := by
    unfold buildTable
    rw [bind_of_ok (look_apply id u)]
    simp only [id, hdist, al_eq, distCounts_stagedDist hcounts, hb _]
    rfl
  exact ⟨_, built, FseBank.get_set_same _ _ _, (touches_setTable t _).ok rfl⟩

/-! ## Tables from a header (R150, R192, R254) -/

/-- `s` with FR placed over IN[p .. lim-1] (R127). -/
def frPlaced (p lim : Nat) (s : State) : State :=
  { s with fr := ⟨true, BitVec.ofNat 18 p, BitVec.ofNat 18 lim, 0⟩, frStale := false }

theorem finit_apply (p lim : Nat) (s : State) : finit p lim s = .ok () (frPlaced p lim s) := rfl

variable {t : TSel} {p lim al last : Nat} {counts : List Int} {entries : List FseEntry} {β : Type} {g : Nat → Op β}

theorem frPlaced_region (hp : p ≤ lim) (hlim : lim ≤ Config.inCap) (s : State) :
    (frPlaced p lim s).fr.base.toNat = p ∧ (frPlaced p lim s).fr.lim.toNat = lim ∧ ForwardReady (frPlaced p lim s) := by
  simp only [Config.inCap] at hlim
  have hbase : (frPlaced p lim s).fr.base.toNat = p := toNat_ofNat_of_lt (w := 18) (by omega)
  have hend : (frPlaced p lim s).fr.lim.toNat = lim := toNat_ofNat_of_lt (w := 18) (by omega)
  exact ⟨hbase, hend, hend.le.trans hlim, rfl⟩

/-- The header of a distribution is read and its table built; `g` goes on at the address after the header. -/
theorem headerTable_at (hb : inByte u = inByte s) (hp : p ≤ lim) (hlim : lim ≤ Config.inCap)
    (hn : ncountAt s p lim 0 t al counts last) (hbuilds : builds al counts entries) :
    ∃ v, (finit p lim >>= fun _ => readNCount t >>= fun q => buildTable t >>= fun _ => g q) u = g (p + (last + 7) / 8) v ∧
      v.ft.get t = ⟨true, BitVec.ofNat 4 al, entries⟩ ∧ Keeps [.draws, .fr, .frStale, .dist, .ft t] u v := by
  obtain ⟨hbase, hend, ready⟩ := frPlaced_region hp hlim u
  have hn' : ncountAt (frPlaced p lim u) (frPlaced p lim u).fr.base.toNat (frPlaced p lim u).fr.lim.toNat 0 t al counts last := by
    rwa [hbase, hend, ncountAt_congr (s := s) (u := frPlaced p lim u) hb]
  have read := readNCount_of_ncountAt ready hn'
  rw [hbase] at read
  obtain ⟨v, built, htab, kv⟩ := buildTable_at (t := t) (u := { frAt ((last + 7) / 8 * 8) (frPlaced p lim u) with
    dist := stagedDist t al counts }) rfl (hn.1.2.1.trans (maxLog_le t)) hn.1.counts_le hbuilds
  refine ⟨v, (bind_of_ok (finit_apply p lim u)).trans ((bind_of_ok read).trans (bind_of_ok built)), htab, ?_⟩
  exact ((touches_finit p lim).ok (finit_apply p lim u)).mono (by simp) |>.trans
    (((touches_readNCount t).ok read).mono (by simp) |>.trans (kv.mono (by simp)))

theorem raises_headerTable {c : Cause} (hb : inByte u = inByte s) (hp : p ≤ lim) (hlim : lim ≤ Config.inCap)
    (hstop : ncountStops s p lim 0 t c) :
    Raises (finit p lim >>= fun _ => readNCount t >>= fun q => buildTable t >>= fun _ => g q) u c := by
  obtain ⟨hbase, hend, ready⟩ := frPlaced_region hp hlim u
  refine .after (finit_apply p lim u) (.bind (raises_readNCount (k := 0) ready (Nat.zero_le _) ?_))
  rwa [hbase, hend, ncountStops_congr (s := s) (u := frPlaced p lim u) hb]

end Sys2Proof.Machine
end

section
/-! SUPPORT. The sequences section read as its bytes say (R250 to R263): its count, its three tables, and one sequence after
another, each to its end or to the check that fails. -/

namespace Sys2Proof.Machine

variable {s u v : State} {a lim p q n size : Nat} {m : Byte} {c : Cause}

/-! ## The bytes of a header -/

theorem readBytes_of_inBytes : ∀ {bs : List Byte} {a : Nat}, inBytes s a bs → a + bs.length ≤ Config.inCap →
    readBytes a bs.length s = .ok bs s
  | [], _, _, _ => rfl
  | b :: bs, a, h, hcap => by
    rw [List.length_cons] at hcap
    have first : inByte s a = b := h 0 (by simp)
    have rest : inBytes s (a + 1) bs := fun k hk => by
      have := h (k + 1) (by simpa using hk)
      rwa [Nat.add_assoc, Nat.add_comm 1]
    rw [List.length_cons, readBytes, bind_of_ok (readIn_of_lt (by omega)), first,
      bind_of_ok (readBytes_of_inBytes rest (by omega))]
    rfl

/-- The bytes of a SEQCNT row are those of its count (R94). -/
theorem seqCount_of_row {row : Instr} {bs : List Byte} (hwf : row.WellFormed = true) (hcount : countOf row = some (n, size))
    (henc : encode row = .element .seqcnt bs) :
    bs.length = size ∧ seqCount bs = ⟨size, n⟩ ∧ seqCountSize (bs.headD 0) = size := by
  cases row <;> simp only [countOf, Option.some.injEq, Prod.mk.injEq, reduceCtorEq] at hcount
  case seqcntZero =>
    obtain ⟨rfl, rfl⟩ := hcount
    cases henc
    decide
  case seqcnt1b x =>
    obtain ⟨rfl, rfl⟩ := hcount
    cases henc
    revert x
    decide
  case seqcnt2b x b1 =>
    obtain ⟨rfl, rfl⟩ := hcount
    cases henc
    have hx : x.toNat ≠ 127 := fun h => by
      obtain rfl : x = 127 := BitVec.eq_of_toNat_eq h
      cases hwf
    have := x.isLt
    have b0 : (BitVec.ofNat 8 (128 + x.toNat)).toNat = 128 + x.toNat := toNat_ofNat_of_lt (by omega)
    simp only [seqCount, seqCountSize, List.headD_cons, b0, if_neg (show ¬128 + x.toNat < 128 by omega),
      if_pos (show 128 + x.toNat < 255 by omega), Nat.add_sub_cancel_left]
    exact ⟨rfl, rfl, trivial⟩
  case seqcnt3b b1 b2 =>
    obtain ⟨rfl, rfl⟩ := hcount
    cases henc
    exact ⟨rfl, rfl, rfl⟩

/-- The first byte of a count tells its length (R94). -/
theorem countAt_first (h : countAt s a n size) : seqCountSize (inByte s a) = size ∧ 1 ≤ size := by
  obtain ⟨row, bs, hwf, hcount, henc, hbytes⟩ := h
  obtain ⟨hlen, -, hsize⟩ := seqCount_of_row hwf hcount henc
  cases bs with
  | nil =>
    subst hlen
    exact absurd hsize (by decide)
  | cons b bs =>
    have first : inByte s a = b := hbytes 0 (by simp)
    exact ⟨first ▸ hsize, by rw [← hlen]; simp⟩

/-- A count that lies below the limit is read (R263). -/
theorem readSeqCount_of_countAt (h : countAt s a n size) (hle : a + size ≤ lim) (hlim : lim ≤ Config.inCap) :
    readSeqCount a lim s = .ok ⟨size, n⟩ s := by
  obtain ⟨hsize, hpos⟩ := countAt_first h
  obtain ⟨row, bs, hwf, hcount, henc, hbytes⟩ := h
  obtain ⟨hlen, hseq, -⟩ := seqCount_of_row hwf hcount henc
  unfold readSeqCount
  rw [bind_of_ok (ensure_of (by omega)), bind_of_ok (readIn_of_lt (by omega)), hsize, bind_of_ok (ensure_of hle),
    ← hlen, bind_of_ok (readBytes_of_inBytes hbytes (by omega)), hlen, hseq]
  rfl

/-- A count that ends past the limit (R263). -/
theorem raises_readSeqCount (h : lim < a + countBytes (inByte s a)) (hlim : lim ≤ Config.inCap) :
    Raises (readSeqCount a lim) s .seqHeader := by
  unfold readSeqCount
  by_cases hempty : a + 1 ≤ lim
  · exact .pass hempty (.after (readIn_of_lt (by omega)) (.bind (.ensure (not_le.mpr h))))
  · exact .bind (.ensure hempty)

/-- The count, or the byte that must follow it, ends past the limit (R263). -/
theorem raises_seqFromCount (forced : Option Byte)
    (h : lim < a + size ∨ ¬(n = 0 ∧ size = 1) ∧ lim < a + size + 1) :
    Raises (seqFromCount ⟨size, n⟩ forced a lim) s .seqHeader := by
  by_cases hcut : lim < a + size
  · exact .bind (.ensure (not_le.mpr hcut))
  · obtain ⟨hcount, hmodes⟩ := h.resolve_left hcut
    refine .pass (not_lt.mp hcut) ?_
    rw [if_neg hcount]
    exact .bind (.ensure (not_le.mpr hmodes))

/-- A count of at least 1 leads on to the modes byte (R263). -/
theorem seqFromCount_of_pos (forced : Option Byte) (hn : 1 ≤ n) (h : a + size + 1 ≤ lim) :
    seqFromCount ⟨size, n⟩ forced a lim s =
      (modesByte forced (a + size) >>= fun m => seqFromModes m n (a + size + 1) lim) s := by
  have hcut : a + size ≤ lim := by omega
  have hcount : ¬(n = 0 ∧ size = 1) := by omega
  unfold seqFromCount
  rw [bind_of_ok (ensure_of hcut), if_neg hcount, bind_of_ok (ensure_of h), bind_of_ok (ensure_of (by simp only; omega))]

/-! ## Tables (R254) -/

/-- The predefined counts as DIST holds them (R152). -/
theorem predefCounts_le (t : TSel) : ∀ c ∈ predefCounts t, -1 ≤ c ∧ c ≤ 512 := by cases t <;> decide

theorem predefAl_le (t : TSel) : predefAl t ≤ 9 := by cases t <;> decide

theorem mode_cases (mode : BitVec 2) : mode = 0 ∨ mode = 1 ∨ mode = 2 ∨ mode = 3 := by revert mode; decide

section
variable {t : TSel} {mode : BitVec 2} {tab : FseTable}

theorem seqTable_predef : seqTable t 0 p lim = (loadPredef t >>= fun _ => buildTable t >>= fun _ => pure p) := rfl
theorem seqTable_rle : seqTable t 1 p lim =
    (ensure (p + 1 ≤ lim) .seqRleByte >>= fun _ => readIn p >>= fun b => rleTable t b.toNat >>= fun _ => pure (p + 1)) := rfl
theorem seqTable_header : seqTable t 2 p lim =
    (finit p lim >>= fun _ => readNCount t >>= fun q => buildTable t >>= fun _ => pure q) := rfl
theorem seqTable_repeat : seqTable t 3 p lim = (repeatTable t >>= fun _ => pure p) := rfl

variable (hb : inByte u = inByte s) (ht : u.ft.get t = s.ft.get t) (hp : p ≤ lim) (hlim : lim ≤ Config.inCap)
include hb ht hp hlim

/-- A description gives its table and ends inside the region. -/
theorem seqTable_at (h : describes s t mode p lim tab q) :
    ∃ v, seqTable t mode p lim u = .ok q v ∧ v.ft.get t = tab ∧ q ≤ lim := by
  rcases mode_cases mode with rfl | rfl | rfl | rfl
  · obtain ⟨rfl, entries, hbuilds, rfl⟩ := h
    obtain ⟨v, built, htab, -⟩ := buildTable_at (u := { u with dist := stagedDist t (predefAl t) (predefCounts t) }) (t := t)
      rfl (predefAl_le t) (predefCounts_le t) hbuilds
    rw [seqTable_predef]
    exact ⟨v, (bind_of_ok rfl).trans (bind_of_ok built), htab, hp⟩
  · obtain ⟨rfl, hend, hsym, rfl⟩ := h
    rw [seqTable_rle, bind_of_ok (ensure_of hend), bind_of_ok (readIn_of_lt (by omega)), hb]
    refine ⟨_, bind_of_ok (bind_of_ok (ensure_of hsym)), ?_, hend⟩
    rw [FseBank.get_set_same, BitVec.ofNat_toNat, BitVec.setWidth_eq]
  · obtain ⟨al, counts, last, entries, hn, hbuilds, rfl, rfl⟩ := h
    obtain ⟨v, e, htab, -⟩ := headerTable_at (g := fun q => pure q) hb hp hlim hn hbuilds
    have := hn.2.1
    exact ⟨v, seqTable_header ▸ e, htab, by omega⟩
  · obtain ⟨rfl, rfl, hvalid⟩ := h
    rw [seqTable_repeat]
    exact ⟨u, bind_of_ok (ensure_of (show (u.ft.get t).valid = true from ht ▸ hvalid)), ht, hp⟩

/-- A description that stops raises its cause. -/
theorem raises_seqTable (h : describeStops s t mode p lim c) : Raises (seqTable t mode p lim) u c := by
  rcases mode_cases mode with rfl | rfl | rfl | rfl
  · exact h.elim
  · rw [seqTable_rle]
    by_cases hend : lim < p + 1
    · obtain rfl : c = .seqRleByte := (if_pos hend).mp h
      exact .bind (.ensure (not_le.mpr hend))
    · obtain ⟨hsym, rfl⟩ := (if_neg hend).mp h
      exact .pass (not_lt.mp hend) (.after (readIn_of_lt (by omega)) (.bind (.bind (.ensure (by rw [hb]; exact not_le.mpr hsym)))))
  · exact seqTable_header ▸ raises_headerTable hb hp hlim h
  · obtain ⟨hvalid, rfl⟩ := h
    rw [seqTable_repeat]
    exact .bind (.look (.ensure (by rw [ht, hvalid]; simp)))

end

/-! ## Sequences (R258 to R263) -/

theorem llBits_le : ∀ {c : Nat}, c ≤ maxSym .ll → llBits c ≤ 16 := by decide
theorem mlBits_le : ∀ {c : Nat}, c ≤ maxSym .ml → mlBits c ≤ 16 := by decide

/-- In `u` the three tables of a section stand with their states `l`, `o`, `m`, and its reader at `pos` of its stream. -/
structure SeqAt (s u : State) (base : Nat) (tl tf tm : FseTable) (l o m : Nat) (pos : Int) : Prop where
  ll : StateAt u .ll tl l
  off : StateAt u .off tf o
  ml : StateAt u .ml tm m
  reader : ReaderAt s u .r4 base pos

/-- The tables of a section, each as R43 and R156 have it. -/
structure SeqTables (tl tf tm : FseTable) : Prop where
  ll : tableOkFor .ll tl
  off : tableOkFor .off tf
  ml : tableOkFor .ml tm

/-- The position after the reads of a sequence (R259). -/
def readsEnd (el eo em : FseEntry) (pos : Int) : Int := pos - eo.sym.toNat - mlBits em.sym.toNat - llBits el.sym.toNat

/-- The sequence that is read at `pos` (R258, R259). -/
def rawSequence (s : State) (base : Nat) (el eo em : FseEntry) (pos : Int) : Nat × Nat × Nat :=
  (2 ^ eo.sym.toNat + streamBits s base pos eo.sym.toNat,
    mlBase em.sym.toNat + streamBits s base (pos - eo.sym.toNat) (mlBits em.sym.toNat),
    llBase el.sym.toNat + streamBits s base (pos - eo.sym.toNat - mlBits em.sym.toNat) (llBits el.sym.toNat))

/-- The position after a sequence: after its reads, and but for the last after the updates (R260). -/
def sequenceEnd (el eo em : FseEntry) (last : Bool) (pos : Int) : Int :=
  if last then readsEnd el eo em pos else readsEnd el eo em pos - el.nb.toNat - em.nb.toNat - eo.nb.toNat

/-- What follows the reads and the updates of a sequence (R260, R262, R263). -/
def seqChecked (raw : Nat × Nat × Nat) : Op Unit :=
  rpos .r4 >>= fun pos => ensure (0 ≤ pos) .seqUnderflow >>= fun _ =>
    resolveOffset raw.1 raw.2.2 >>= fun off => seqAppend raw.2.2 off raw.2.1

section
variable {base l o m : Nat} {tl tf tm : FseTable} {el eo em : FseEntry} {pos : Int} (hok : SeqTables tl tf tm)
  (hl : tl.entries[l]? = some el) (ho : tf.entries[o]? = some eo) (hm : tm.entries[m]? = some em)
include hok hl ho hm

/-- The codes of a sequence are symbols of their alphabets, so it reads few bits (R258). -/
theorem readsEnd_bounds (pos : Int) : pos - 63 ≤ readsEnd el eo em pos := by
  have cl := llBits_le (hok.ll.2.2 el (List.mem_of_getElem? hl)).2.2
  have co := (hok.off.2.2 eo (List.mem_of_getElem? ho)).2.2
  have cm := mlBits_le (hok.ml.2.2 em (List.mem_of_getElem? hm)).2.2
  unfold readsEnd
  simp only [maxSym] at co
  omega

theorem seqReads_at (h : SeqAt s u base tl tf tm l o m pos) (hpos : -100 ≤ pos) :
    ∃ v, seqReads u = .ok (rawSequence s base el eo em pos) v ∧ SeqAt s v base tl tf tm l o m (readsEnd el eo em pos) ∧
      Keeps [.rr .r4] u v := by
  have bound := readsEnd_bounds hok hl ho hm pos
  unfold readsEnd at bound ⊢
  obtain ⟨u1, e1, r1, k1⟩ := rread_at h.reader (n := eo.sym.toNat) (by omega)
  obtain ⟨u2, e2, r2, k2⟩ := rread_at r1 (n := mlBits em.sym.toNat) (by omega)
  obtain ⟨u3, e3, r3, k3⟩ := rread_at r2 (n := llBits el.sym.toNat) (by omega)
  have keeps := (k1.trans k2).trans k3
  refine ⟨u3, ?_, ⟨h.ll.of_keeps keeps (by simp), h.off.of_keeps keeps (by simp), h.ml.of_keeps keeps (by simp), r3⟩, keeps⟩
  unfold seqReads
  rw [bind_of_ok (symOf_at h.ll hl), bind_of_ok (symOf_at h.off ho), bind_of_ok (symOf_at h.ml hm), bind_of_ok e1, bind_of_ok e2,
    bind_of_ok e3]
  rfl

theorem seqUpdates_at (h : SeqAt s u base tl tf tm l o m pos) (hpos : -200 ≤ pos) :
    ∃ v, seqUpdates false u = .ok () v ∧
      SeqAt s v base tl tf tm (el.base.toNat + streamBits s base pos el.nb.toNat)
        (eo.base.toNat + streamBits s base (pos - el.nb.toNat - em.nb.toNat) eo.nb.toNat)
        (em.base.toNat + streamBits s base (pos - el.nb.toNat) em.nb.toNat)
        (pos - el.nb.toNat - em.nb.toNat - eo.nb.toNat) ∧
      Keeps [.rr .r4, .st .ll, .st .ml, .st .off] u v := by
  have nl := el.nb.isLt
  have nm := em.nb.isLt
  obtain ⟨u1, e1, l1, r1, k1⟩ := updState_at h.ll hok.ll hl h.reader (by omega)
  obtain ⟨u2, e2, m2, r2, k2⟩ := updState_at (h.ml.of_keeps k1 (by decide)) hok.ml hm r1 (by omega)
  obtain ⟨u3, e3, o3, r3, k3⟩ := updState_at ((h.off.of_keeps k1 (by decide)).of_keeps k2 (by decide)) hok.off ho r2 (by omega)
  refine ⟨u3, ?_, ⟨(l1.of_keeps k2 (by decide)).of_keeps k3 (by decide), o3, m2.of_keeps k3 (by decide), r3⟩, ?_⟩
  · exact (bind_of_ok e1).trans ((bind_of_ok e2).trans e3)
  · exact (k1.mono (by decide)).trans ((k2.mono (by decide)).trans (k3.mono (by decide)))

/-- The reads and the updates of a sequence: where they lead, with the checks still to come (R259 to R263). -/
theorem seqStep_at (last : Bool) (h : SeqAt s u base tl tf tm l o m pos) (hpos : -100 ≤ pos) :
    ∃ v, seqStep last u = seqChecked (rawSequence s base el eo em pos) v ∧
      ReaderAt s v .r4 base (sequenceEnd el eo em last pos) ∧
      (last = false → SeqAt s v base tl tf tm
        (el.base.toNat + streamBits s base (readsEnd el eo em pos) el.nb.toNat)
        (eo.base.toNat + streamBits s base (readsEnd el eo em pos - el.nb.toNat - em.nb.toNat) eo.nb.toNat)
        (em.base.toNat + streamBits s base (readsEnd el eo em pos - el.nb.toNat) em.nb.toNat)
        (sequenceEnd el eo em last pos)) ∧
      Keeps [.rr .r4, .st .ll, .st .ml, .st .off] u v := by
  have bound := readsEnd_bounds hok hl ho hm pos
  obtain ⟨u1, reads, h1, k1⟩ := seqReads_at hok hl ho hm h hpos
  have k1 := k1.mono (qs := [.rr .r4, .st .ll, .st .ml, .st .off]) (by decide)
  cases last with
  | true => exact ⟨u1, bind_of_ok reads, h1.reader, nofun, k1⟩
  | false =>
    obtain ⟨v, updates, h2, k2⟩ := seqUpdates_at hok hl ho hm h1 (by omega)
    exact ⟨v, (bind_of_ok reads).trans (bind_of_ok updates), h2.reader, fun _ => h2, k1.trans k2⟩

end

/-! ## Checks of a sequence (R260 to R263) -/

section
variable {base : Nat} {pos : Int} {raw : Nat × Nat × Nat}

theorem raises_seqUnderflow (h : ReaderAt s v .r4 base pos) (hneg : pos < 0) : Raises (seqChecked raw) v .seqUnderflow :=
  .after (rpos_at h) (.bind (.ensure (not_le.mpr hneg)))

theorem raises_seqRepZero (h : ReaderAt s v .r4 base pos) (hpos : 0 ≤ pos) (hres : resolveRep v.rep raw.1 raw.2.2 = none) :
    Raises (seqChecked raw) v .seqRepZero := by
  refine .after (rpos_at h) (.pass hpos (.bind (.look ?_)))
  rw [hres]
  exact .raise

/-- A sequence that passes its checks is appended, its offset resolved. -/
theorem seqChecked_at {out : Nat × RepCache} (h : ReaderAt s v .r4 base pos) (hpos : 0 ≤ pos)
    (hres : resolveRep v.rep raw.1 raw.2.2 = some out) (hroom : v.nbSeq.toNat < Config.seqCap) :
    ∃ w, seqChecked raw v = .ok () w ∧ w.rep = out.2 ∧ w.nbSeq.toNat = v.nbSeq.toNat + 1 ∧
      Keeps [.rep, .seq, .nbSeq] v w := by
  have resolved : resolveOffset raw.1 raw.2.2 v = .ok out.1 { v with rep := out.2 } := by
    unfold resolveOffset
    rw [bind_of_ok (look_apply _ v), hres]
    rfl
  have appended := seqAppend_of_lt (s := { v with rep := out.2 }) (ll := raw.2.2) (off := out.1) (ml := raw.2.1) hroom
  simp only [Config.seqCap] at hroom
  have checked : seqChecked raw v = .ok () _ :=
    (bind_of_ok (rpos_at h)).trans ((bind_of_ok (ensure_of hpos)).trans ((bind_of_ok resolved).trans appended))
  exact ⟨_, checked, rfl, toNat_ofNat_of_lt (w := 17) (n := v.nbSeq.toNat + 1) (by omega),
    (((touches_resolveOffset _ _).ok resolved).mono (by simp)).trans (((touches_seqAppend _ _ _).ok appended).mono (by simp))⟩

/-- What follows the last sequence (R261). -/
def seqEnded : Op Unit := rpos .r4 >>= fun pos => ensure (pos = 0) .seqNotConsumed

theorem raises_seqEnded (h : ReaderAt s v .r4 base pos) (hstop : pos ≠ 0 ∧ c = .seqNotConsumed) : Raises seqEnded v c := by
  obtain ⟨hpos, rfl⟩ := hstop
  exact .after (rpos_at h) (.ensure hpos)

end

/-- The sequences end in the cause at which one of them, or the end of the stream, stops them. -/
theorem raises_sequences {base : Nat} {tl tf tm : FseTable} (hok : SeqTables tl tf tm) : ∀ (n : Nat) {u : State} {rep : RepCache}
    {l o m : Nat} {pos : Int}, SeqAt s u base tl tf tm l o m pos → u.rep = rep → u.nbSeq.toNat + n ≤ Config.seqCap →
      -100 ≤ pos → sequencesStop s base tl tf tm n rep l o m pos c → Raises (seqLoop n >>= fun _ => seqEnded) u c
  | 0, _, _, _, _, _, _, h, _, _, _, hstop => raises_seqEnded h.reader hstop
  | n + 1, u, rep, l, o, m, pos, h, hrep, hroom, hpos, hstop => by
    obtain ⟨el, eo, em, hl, ho, hm, hstop⟩ := hstop
    obtain ⟨v, step, reader, next, kv⟩ := seqStep_at hok hl ho hm (n == 0) h hpos
    have rep_v : v.rep = rep := Eq.trans (kv .rep (by decide)) hrep
    have nb_v : v.nbSeq = u.nbSeq := kv .nbSeq (by decide)
    have at_end : (if n = 0 then readsEnd el eo em pos else readsEnd el eo em pos - el.nb.toNat - em.nb.toNat - eo.nb.toNat) =
        sequenceEnd el eo em (n == 0) pos := by cases n <;> rfl
    change if (if n = 0 then readsEnd el eo em pos else readsEnd el eo em pos - el.nb.toNat - em.nb.toNat - eo.nb.toNat) < 0
      then _ else _ at hstop
    by_cases hneg : sequenceEnd el eo em (n == 0) pos < 0
    · rw [at_end, if_pos hneg] at hstop
      subst hstop
      exact .bind (.bind (.of_eq step (raises_seqUnderflow reader hneg)))
    rw [at_end, if_neg hneg] at hstop
    split at hstop
    next hres =>
      subst hstop
      exact .bind (.bind (.of_eq step (raises_seqRepZero reader (not_lt.mp hneg) (rep_v ▸ hres))))
    next out hres =>
      obtain ⟨w, checked, rep_w, nb_w, kw⟩ := seqChecked_at reader (not_lt.mp hneg) (raw := rawSequence s base el eo em pos)
        (rep_v ▸ hres) (by rw [nb_v]; omega)
      have turn : (seqLoop (n + 1) >>= fun _ => seqEnded) u = (seqLoop n >>= fun _ => seqEnded) w := by
        rw [bind_apply, bind_apply, seqLoop, bind_of_ok (step.trans checked)]
      refine .of_eq turn ?_
      cases n with
      | zero => exact raises_seqEnded (reader.of_keeps kw (by simp)) hstop
      | succ n =>
        obtain ⟨hll, hoff, hml, hreader⟩ := next rfl
        refine raises_sequences hok (n + 1) ⟨hll.of_keeps kw (by decide), hoff.of_keeps kw (by decide),
          hml.of_keeps kw (by decide), hreader.of_keeps kw (by decide)⟩ rep_w (by rw [nb_w, nb_v]; omega) (by omega) hstop

/-! ## The section after its modes byte (R254 to R263) -/

/-- What follows the three tables (R259 to R261). -/
def seqStream (count p lim : Nat) : Op Unit :=
  rinit .r4 p (lim - p) >>= fun _ => initState .ll .r4 >>= fun _ => initState .off .r4 >>= fun _ => initState .ml .r4 >>= fun _ =>
    seqLoop count >>= fun _ => seqEnded

section
variable (hb : inByte u = inByte s) (hlim : lim ≤ Config.inCap)
include hb hlim

/-- The stream of a section stops at its end mark or in its sequences. -/
theorem raises_seqStream {tl tf tm : FseTable} (hok : SeqTables tl tf tm) (hp : p ≤ lim) (hl : u.ft.get .ll = tl)
    (ho : u.ft.get .off = tf) (hm : u.ft.get .ml = tm) (hroom : u.nbSeq.toNat + n ≤ Config.seqCap)
    (hstop : streamStops s p (lim - p) c ∨ ∃ pos, streamAt s p (lim - p) pos ∧
      sequencesStop s p tl tf tm n u.rep (streamBits s p pos tl.al.toNat) (streamBits s p (pos - tl.al.toNat) tf.al.toNat)
        (streamBits s p (pos - tl.al.toNat - tf.al.toNat) tm.al.toNat) (pos - tl.al.toNat - tf.al.toNat - tm.al.toNat) c) :
    Raises (seqStream n p lim) u c := by
  rcases hstop with hstop | ⟨pos, hstream, hstop⟩
  · exact .bind (raises_rinit_of_bytes .r4 hstop hb (by omega))
  have hpos : 0 ≤ pos := by obtain ⟨hlen, -, rfl⟩ := hstream; omega
  have al := hok.ll.1; have af := hok.off.1; have am := hok.ml.1
  simp only [maxLog] at al af am
  obtain ⟨u0, e0, r0, k0⟩ := rinit_at .r4 hstream hb (by omega)
  obtain ⟨u1, e1, h1, r1, k1⟩ := initState_at .ll (Eq.trans (k0 (.ft .ll) (by decide)) hl) hok.ll r0 (by omega)
  obtain ⟨u2, e2, h2, r2, k2⟩ := initState_at .off
    (Eq.trans (k1 (.ft .off) (by decide)) (Eq.trans (k0 (.ft .off) (by decide)) ho)) hok.off r1 (by omega)
  obtain ⟨u3, e3, h3, r3, k3⟩ := initState_at .ml (Eq.trans (k2 (.ft .ml) (by decide))
    (Eq.trans (k1 (.ft .ml) (by decide)) (Eq.trans (k0 (.ft .ml) (by decide)) hm))) hok.ml r2 (by omega)
  have keeps : Keeps [.rr .r4, .rrStale .r4, .st .ll, .st .off, .st .ml] u u3 :=
    ((k0.mono (by decide)).trans (k1.mono (by decide))).trans ((k2.mono (by decide)).trans (k3.mono (by decide)))
  have nb : u3.nbSeq = u.nbSeq := keeps .nbSeq (by decide)
  exact .after e0 (.after e1 (.after e2 (.after e3 (raises_sequences hok n
    ⟨(h1.of_keeps k2 (by decide)).of_keeps k3 (by decide), h2.of_keeps k3 (by decide), h3, r3⟩ (keeps .rep (by decide))
    (by rwa [nb]) (by omega) hstop))))

/-- The section after its modes byte ends in its first failing check (R263). -/
theorem raises_seqFromModes (hft : u.ft = s.ft) (hrep : u.rep = s.rep) (hp : p ≤ lim)
    (hroom : u.nbSeq.toNat + n ≤ Config.seqCap) (hm : modeReserved m = 0) (hstop : seqStops s m p lim n c) :
    Raises (seqFromModes m n p lim) u c := by
  refine .pass hm ?_
  have ft : ∀ t, u.ft.get t = s.ft.get t := fun t => by rw [hft]
  rcases hstop with hstop | ⟨tl, p1, hll, hstop⟩
  · exact .bind (raises_seqTable hb (ft .ll) hp hlim hstop)
  obtain ⟨u1, e1, htl, hp1⟩ := seqTable_at hb (ft .ll) hp hlim hll
  have k1 := (touches_seqTable .ll _ _ _).ok e1
  have b1 := (inByte_of_keeps k1 (by simp)).trans hb
  have ft1 : u1.ft.get .off = s.ft.get .off := Eq.trans (k1 (.ft .off) (by decide)) (ft .off)
  refine .after e1 ?_
  rcases hstop with hstop | ⟨tf, p2, hoff, hstop⟩
  · exact .bind (raises_seqTable b1 ft1 hp1 hlim hstop)
  obtain ⟨u2, e2, htf, hp2⟩ := seqTable_at b1 ft1 hp1 hlim hoff
  have k2 := (touches_seqTable .off _ _ _).ok e2
  have b2 := (inByte_of_keeps k2 (by simp)).trans b1
  have ft2 : u2.ft.get .ml = s.ft.get .ml :=
    Eq.trans (k2 (.ft .ml) (by decide)) (Eq.trans (k1 (.ft .ml) (by decide)) (ft .ml))
  refine .after e2 ?_
  rcases hstop with hstop | ⟨tm, p3, hml, hokl, hokf, hokm, hstop⟩
  · exact .bind (raises_seqTable b2 ft2 hp2 hlim hstop)
  obtain ⟨u3, e3, htm, hp3⟩ := seqTable_at b2 ft2 hp2 hlim hml
  have k3 := (touches_seqTable .ml _ _ _).ok e3
  have keeps : Keeps [.draws, .fr, .frStale, .dist, .ft .ll, .ft .off, .ft .ml] u u3 :=
    (k1.mono (by decide)).trans ((k2.mono (by decide)).trans (k3.mono (by decide)))
  have nb : u3.nbSeq = u.nbSeq := keeps .nbSeq (by decide)
  have rep : u3.rep = s.rep := Eq.trans (keeps .rep (by decide)) hrep
  refine .after e3 (raises_seqStream (s := s) ((inByte_of_keeps k3 (by simp)).trans b2) hlim ⟨hokl, hokf, hokm⟩ hp3
    (Eq.trans (k3 (.ft .ll) (by decide)) (Eq.trans (k2 (.ft .ll) (by decide)) htl)) (Eq.trans (k3 (.ft .off) (by decide)) htf)
    htm (by rwa [nb]) ?_)
  rwa [rep]

end

end Sys2Proof.Machine
end

section
/-! CERTIFICATE. The errors of a sequences section, in the order of R263. -/

open Sys2Proof Sys2Proof.Machine

namespace Sys2Proof.Machine

variable {s : State} {i : Instr} {n p lim : Nat} {m : Byte} {c : Cause}

/-- A count is at most 98047 (R250). -/
theorem countOf_le {row : Instr} {n size : Nat} (h : countOf row = some (n, size)) : n ≤ Config.seqCap := by
  cases row <;> simp only [countOf, Option.some.injEq, Prod.mk.injEq, reduceCtorEq] at h <;> obtain ⟨rfl, -⟩ := h <;>
    simp only [Config.seqCap] <;> omega

/-- A SEQCNT row runs the section from its count on (R263, log 14). -/
theorem exec_seqcnt {size : Nat} (hwf : i.WellFormed = true) (hcount : countOf i = some (n, size)) :
    exec i s = runSeqCount ⟨size, n⟩ s := by
  have row : ∃ bs, encode i = .element .seqcnt bs ∧ exec i s = runSeqCount (seqCount bs) s := by
    cases i <;> simp only [countOf, reduceCtorEq] at hcount
    all_goals exact ⟨_, rfl, rfl⟩
  obtain ⟨bs, henc, e⟩ := row
  rw [e, (seqCount_of_row hwf hcount henc).2.1]

/-! ## The three ways to a section's count: SEQ_DECODE, a SEQCNT row, MODES -/

theorem seqDecode_status {a0 a1 : Word} (hn : noError s = true) (hregion : a0.toNat ≤ a1.toNat ∧ a1.toNat ≤ s.inLen.toNat)
    (h : Raises (readSeqCount a0.toNat a1.toNat >>= fun c => seqFromCount c none a0.toNat a1.toNat) (seqStarted s) c) :
    ∃ t, exec (.seqDecode a0 a1) s = .next t ∧ t.status = packStatus c 0x50 :=
  Raises.status (.of_eq (checkRegion_bind_of hregion) (.bind (.after rfl h))) hn

theorem seqcnt_status {size : Nat} (hn : noError s = true) (hwf : i.WellFormed = true) (hcount : countOf i = some (n, size))
    (h : Raises (seqFromCount ⟨size, n⟩ none 0 s.inLen.toNat) (seqStarted s) c) :
    ∃ t, exec i s = .next t ∧ t.status = packStatus c 0x50 := by
  rw [exec_seqcnt hwf hcount]
  exact Raises.status (.look (.after rfl (.bind h))) hn

theorem modes_status {ll off ml : BitVec 2} (hn : noError s = true)
    (h : Raises (readSeqCount 0 s.inLen.toNat >>= fun c => seqFromCount c (some (packModes ll off ml)) 0 s.inLen.toNat)
      (seqStarted s) c) : ∃ t, exec (.modes ll off ml) s = .next t ∧ t.status = packStatus c 0x50 := by
  refine Raises.status (.look (.after rfl ?_)) hn
  obtain ⟨t, e⟩ := h
  rcases bind_eq_error.mp e with e | ⟨count, u, e, e'⟩
  · exact .bind ⟨t, e⟩
  · exact .after e (.bind ⟨t, e'⟩)

/-- A header that is cut raises SEQ_HEADER (R263). -/
theorem seqHeaderCut_status (hn : noError s = true) (hcap : s.inLen.toNat ≤ Config.inCap) (h : seqHeaderCut i s) :
    ∃ t, exec i s = .next t ∧ t.status = packStatus .seqHeader 0x50 := by
  have cut : ∀ {a lim : Nat} (forced : Option Byte), lim ≤ Config.inCap → headerCut s a lim →
      Raises (readSeqCount a lim >>= fun c => seqFromCount c forced a lim) (seqStarted s) .seqHeader := by
    intro a lim forced hlim h
    by_cases hsize : lim < a + countBytes (inByte s a)
    · exact .bind (raises_readSeqCount (s := seqStarted s) hsize hlim)
    · obtain ⟨n, size, hcount, hlong, hcut⟩ := h.resolve_left hsize
      have : countBytes (inByte s a) = size := (countAt_first hcount).1
      exact .after (readSeqCount_of_countAt (s := seqStarted s) hcount (by omega) hlim)
        (raises_seqFromCount forced (.inr ⟨hlong, hcut⟩))
  cases i with
  | seqDecode a0 a1 =>
    obtain ⟨hle, hlim, h⟩ := h
    exact seqDecode_status hn ⟨hle, hlim⟩ (cut none (hlim.trans hcap) h)
  | modes ll off ml => exact modes_status hn (cut _ hcap h)
  | _ =>
    obtain ⟨hwf, n, size, hcount, h⟩ := h
    exact seqcnt_status hn hwf hcount (raises_seqFromCount none (by simpa using h))

/-- The section that a region holds raises what its part after the modes byte raises. -/
theorem seqRegion_status (hn : noError s = true) (hcap : s.inLen.toNat ≤ Config.inCap) (h : seqRegion i s n m p lim)
    (hstop : Raises (seqFromModes m n p lim) (seqStarted s) c) :
    ∃ t, exec i s = .next t ∧ t.status = packStatus c 0x50 := by
  obtain ⟨hpos, hp, h⟩ := h
  have row : ∀ {size : Nat}, size + 1 ≤ s.inLen.toNat →
      Raises (seqFromModes (inByte s size) n (size + 1) s.inLen.toNat) (seqStarted s) c →
      Raises (seqFromCount ⟨size, n⟩ none 0 s.inLen.toNat) (seqStarted s) c := fun hsize hstop =>
    .of_eq (seqFromCount_of_pos none hpos (by omega)) (.after (readIn_of_lt (by omega)) (by rw [Nat.zero_add]; exact hstop))
  cases i with
  | seqDecode a0 a1 =>
    obtain ⟨size, hcount, rfl, rfl, rfl, hlim⟩ := h
    refine seqDecode_status hn ⟨by omega, hlim⟩ (.after
      (readSeqCount_of_countAt (s := seqStarted s) hcount (by omega) (hlim.trans hcap)) ?_)
    exact .of_eq (seqFromCount_of_pos none hpos hp) (.after (readIn_of_lt (by omega)) hstop)
  | modes ll off ml =>
    obtain ⟨size, hcount, rfl, rfl, rfl⟩ := h
    refine modes_status hn (.after (readSeqCount_of_countAt (s := seqStarted s) hcount (by omega) hcap) ?_)
    exact .of_eq (seqFromCount_of_pos (some _) hpos (by omega)) (.after rfl (by rwa [Nat.zero_add]))
  | _ =>
    obtain ⟨size, hwf, hcount, rfl, rfl, rfl⟩ := h
    exact seqcnt_status hn hwf hcount (row hp hstop)

/-- A section lies in the declared input and has no more sequences than SEQ holds (R250, R264). -/
theorem seqRegion_bounds (h : seqRegion i s n m p lim) : n ≤ Config.seqCap ∧ lim ≤ s.inLen.toNat := by
  obtain ⟨-, -, h⟩ := h
  cases i with
  | seqDecode a0 a1 =>
    obtain ⟨size, ⟨_, _, -, hcount, -⟩, -, -, -, hlim⟩ := h
    exact ⟨countOf_le hcount, hlim⟩
  | modes ll off ml =>
    obtain ⟨size, ⟨_, _, -, hcount, -⟩, -, -, hlim⟩ := h
    exact ⟨countOf_le hcount, hlim.le⟩
  | _ =>
    obtain ⟨size, -, hcount, -, -, hlim⟩ := h
    exact ⟨countOf_le hcount, hlim.le⟩

end Sys2Proof.Machine

/-- Settles O49: each check of R263 is met only where those before it hold, and the sequences are followed one by one. -/
theorem sequencesErrorsInOrder : Obligations.SequencesErrorsInOrder := by
  refine ⟨fun i s hn hranges h => seqHeaderCut_status hn hranges.inLen h, fun i s n p lim m hn hranges h => ⟨fun hm => ?_,
    fun c hm hstop => ?_⟩, fun a0 a1 s hn => ⟨fun h hlim => ?_, fun h => ?_⟩⟩
  · exact seqRegion_status hn hranges.inLen h (.bind (.ensure hm))
  · obtain ⟨hcount, hlim⟩ := seqRegion_bounds h
    exact seqRegion_status hn hranges.inLen h (raises_seqFromModes (s := s) rfl (hlim.trans hranges.inLen) rfl rfl h.2.1
      (by simpa [seqStarted] using hcount) hm hstop)
  · subst h
    exact seqDecode_status hn ⟨le_rfl, hlim⟩ (.bind (.bind (.ensure (by omega))))
  · exact runCommand_illegal hn rfl (raises_checkRegion h)
end

section
/-! SUPPORT. Tree descriptions and Huffman streams read as their bytes say (R190 to R200), each to its end or to the check
that fails. -/

namespace Sys2Proof.Machine

variable {s u v : State} {a hb lim size base : Nat} {wd : List Byte} {c : Cause} {pos last : Int}

/-! ## Raw weights (R191) -/

theorem rawWeight_toNat (i : Nat) (b : Byte) :
    (rawWeight i b).toNat = if i % 2 = 0 then b.toNat / 16 else b.toNat % 16 := by
  have nibbles : ∀ b : Byte, (b >>> 4).toNat = b.toNat / 16 ∧ (b &&& 15).toNat = b.toNat % 16 := by decide
  unfold rawWeight
  split_ifs
  · exact (nibbles b).1
  · exact (nibbles b).2

theorem rawWeightsFrom_at : ∀ {wd : List Byte} {i : Nat},
    (∀ j (h : j < wd.length), wd[j] = rawWeight (i + j) (inByte u (a + 1 + (i + j) / 2))) →
      a + 1 + (i + wd.length + 1) / 2 ≤ Config.inCap → rawWeightsFrom a wd.length i u = .ok wd u
  | [], _, _, _ => rfl
  | x :: wd, i, h, hcap => by
    rw [List.length_cons] at hcap
    have first : x = rawWeight i (inByte u (a + 1 + i / 2)) := h 0 (by simp)
    have rest := rawWeightsFrom_at (wd := wd) (i := i + 1) (fun j hj => by
      have := h (j + 1) (by simpa using hj)
      simpa only [List.getElem_cons_succ, show i + 1 + j = i + (j + 1) by omega] using this) (by omega)
    rw [List.length_cons, rawWeightsFrom, bind_of_ok (readIn_of_lt (by omega)), bind_of_ok rest, ← first]
    rfl

theorem rawWeights_at (hb' : inByte u = inByte s) (hlim : lim ≤ Config.inCap) (h : rawTreeAt s hb a lim wd size) :
    rawWeights a hb lim u = .ok (wd, a + size) u := by
  obtain ⟨-, -, hlen, hsize, hle, hwd⟩ := h
  have read := rawWeightsFrom_at (u := u) (a := a) (wd := wd) (i := 0) (fun j hj => BitVec.eq_of_toNat_eq (by
    rw [hwd j hj, rawWeight_toNat, hb', Nat.zero_add])) (by omega)
  have last : a + 1 + (wd.length + 1) / 2 = a + size := by omega
  unfold rawWeights
  rw [← hlen, last, bind_of_ok (ensure_of hle), bind_of_ok read]
  rfl

/-! ## FSE-coded weights (R192, R193) -/

/-- In `u` the weight table stands with its states `i` in W1 and `j` in W2, and the reader at `pos` of the weight stream. -/
structure WeightsAt (s u : State) (base : Nat) (tab : FseTable) (i j : Nat) (pos : Int) : Prop where
  w1 : StateAt u .w1 tab i
  w2 : StateAt u .w2 tab j
  reader : ReaderAt s u .r5 base pos

section
variable {tab : FseTable} {i j : Nat} {e : FseEntry} (hok : tableOkFor .hw tab) (h : WeightsAt s u base tab i j pos)
  (hpos : -100 ≤ pos)
include hok h hpos

/-- W1 emits its symbol and moves on (R193). -/
theorem emitW1_at (he : tab.entries[i]? = some e) :
    symOf .w1 u = .ok e.sym u ∧ ∃ v, updState .w1 .r5 u = .ok () v ∧
      WeightsAt s v base tab (e.base.toNat + streamBits s base pos e.nb.toNat) j (pos - e.nb.toNat) := by
  obtain ⟨v, k, h1, hr, kv⟩ := updState_at h.w1 hok he h.reader (by omega)
  exact ⟨symOf_at h.w1 he, v, k, h1, h.w2.of_keeps kv (by decide), hr⟩

/-- W2 emits its symbol and moves on (R193). -/
theorem emitW2_at (he : tab.entries[j]? = some e) :
    symOf .w2 u = .ok e.sym u ∧ ∃ v, updState .w2 .r5 u = .ok () v ∧
      WeightsAt s v base tab i (e.base.toNat + streamBits s base pos e.nb.toNat) (pos - e.nb.toNat) := by
  obtain ⟨v, k, h2, hr, kv⟩ := updState_at h.w2 hok he h.reader (by omega)
  exact ⟨symOf_at h.w2 he, v, k, h.w1.of_keeps kv (by decide), h2, hr⟩

end

/-- The last two weights come from the two states (R193). -/
theorem two_le_of_spellsWeights {entries : List FseEntry} : ∀ {wd : List Byte} {i j : Nat} {pos : Int},
    spellsWeights s base entries wd i j pos → 2 ≤ wd.length
  | [], _, _, _, h => h.elim
  | x :: wd, _, _, _, ⟨e, _, _, h⟩ => by
    split_ifs at h
    · obtain ⟨f, -, rfl⟩ := h
      simp
    · have := two_le_of_spellsWeights h
      simp only [List.length_cons]
      omega

/-- The loop reads the weights that the stream spells. -/
theorem weightLoop_at {tab : FseTable} (hok : tableOkFor .hw tab) : ∀ (fuel : Nat) (out : List Byte) {wd : List Byte} {u : State}
    {i j : Nat} {pos : Int}, WeightsAt s u base tab i j pos → -100 ≤ pos → out.length + wd.length ≤ 255 →
      wd.length ≤ 2 * fuel → spellsWeights s base tab.entries wd i j pos → ∃ v, weightLoop fuel out u = .ok (out ++ wd) v
  | _, _, [], _, _, _, _, _, _, _, _, hspell => hspell.elim
  | 0, _, x :: wd, _, _, _, _, _, _, _, hfuel, _ => by simp at hfuel
  | fuel + 1, out, x :: wd, u, i, j, pos, h, hpos, hlen, hfuel, ⟨e, he, hx, hspell⟩ => by
    subst hx
    simp only [List.length_cons] at hlen hfuel
    obtain ⟨sym1, u1, upd1, h1⟩ := emitW1_at hok h hpos he
    unfold weightLoop
    by_cases hend : pos < e.nb.toNat
    · obtain ⟨f, hf, rfl⟩ := (if_pos hend).mp hspell
      simp only [List.length_singleton] at hlen
      rw [bind_of_ok (ensure_of (by omega)), bind_of_ok sym1, bind_of_ok upd1, bind_of_ok (rpos_at h1.reader),
        if_pos (by omega), bind_of_ok (symOf_at h1.w2 hf)]
      exact ⟨_, rfl⟩
    replace hspell := (if_neg hend).mp hspell
    cases wd with
    | nil => exact hspell.elim
    | cons y wd =>
      have hmore := two_le_of_spellsWeights hspell
      obtain ⟨f, hf, hy, hspell⟩ := hspell
      subst hy
      simp only [List.length_cons] at hlen hfuel hmore
      obtain ⟨sym2, u2, upd2, h2⟩ := emitW2_at hok h1 (by omega) hf
      rw [bind_of_ok (ensure_of (by omega)), bind_of_ok sym1, bind_of_ok upd1, bind_of_ok (rpos_at h1.reader),
        if_neg (by omega), bind_of_ok (ensure_of (by omega)), bind_of_ok sym2, bind_of_ok upd2, bind_of_ok (rpos_at h2.reader)]
      by_cases hend2 : pos - e.nb.toNat < f.nb.toNat
      · obtain ⟨g, hg, rfl⟩ := (if_pos hend2).mp hspell
        rw [if_pos (by omega), bind_of_ok (symOf_at h2.w1 hg)]
        exact ⟨_, rfl⟩
      · rw [if_neg (by omega)]
        obtain ⟨v, k⟩ := weightLoop_at hok fuel (out ++ [e.sym, f.sym]) h2 (by omega)
          (by simp only [List.length_append, List.length_cons, List.length_nil]; omega) (by omega) ((if_neg hend2).mp hspell)
        exact ⟨v, by simpa using k⟩

/-- The loop stops at the 255th weight of a stream that is not used up (R193). -/
theorem raises_weightLoop {tab : FseTable} (hok : tableOkFor .hw tab) : ∀ (n fuel : Nat) {out : List Byte} {u : State} {i j : Nat}
    {pos : Int}, WeightsAt s u base tab i j pos → -100 ≤ pos → out.length + 2 * n = 254 →
      weightsGoOn s base tab.entries (2 * n) i j pos → Raises (weightLoop fuel out) u .hufTooManyWeights
  | _, 0, _, _, _, _, _, _, _, _, _ => .raise
  | 0, fuel + 1, _, _, _, _, _, _, _, hlen, _ => .bind (.ensure (by omega))
  | n + 1, fuel + 1, out, u, i, j, pos, h, hpos, hlen, ⟨e, he, hnb, f, hf, hnb2, hgo⟩ => by
    obtain ⟨sym1, u1, upd1, h1⟩ := emitW1_at hok h hpos he
    obtain ⟨sym2, u2, upd2, h2⟩ := emitW2_at hok h1 (by omega) hf
    refine .pass (by omega) (.after sym1 (.after upd1 (.after (rpos_at h1.reader) ?_)))
    rw [if_neg (by omega)]
    refine .pass (by omega) (.after sym2 (.after upd2 (.after (rpos_at h2.reader) ?_)))
    rw [if_neg (by omega)]
    exact raises_weightLoop hok n fuel h2 (by omega) (by simp; omega) hgo

/-- What follows the weight table (R193). -/
def weightStream (last ws : Nat) : Op (List Byte × Nat) :=
  rinit .r5 ws (last - ws) >>= fun _ => initState .w1 .r5 >>= fun _ => initState .w2 .r5 >>= fun _ =>
    weightLoop 128 [] >>= fun wd => pure (wd, last)

theorem fseWeights_eq (a hb lim : Nat) : fseWeights a hb lim = (ensure (a + 1 + hb ≤ lim) .hufTreeOverrun >>= fun _ =>
    finit (a + 1) (a + 1 + hb) >>= fun _ => readNCount .hw >>= fun ws => buildTable .hw >>= fun _ =>
      weightStream (a + 1 + hb) ws) := rfl

section
variable (hb' : inByte u = inByte s) (hlim : lim ≤ Config.inCap)
include hb' hlim

/-- The weight table of a description is read and built; the stream follows it. -/
theorem weightTable_at {al ws : Nat} {entries : List FseEntry} (h : weightTableAt s hb a lim al entries ws) :
    ∃ v, fseWeights a hb lim u = weightStream (a + 1 + hb) ws v ∧ v.ft.get .hw = ⟨true, BitVec.ofNat 4 al, entries⟩ ∧
      inByte v = inByte s ∧ ws ≤ a + 1 + hb ∧ al ≤ 6 := by
  obtain ⟨-, hle, counts, last, hn, hbuilds, -, rfl⟩ := h
  obtain ⟨v, e, htab, kv⟩ := headerTable_at (g := weightStream (a + 1 + hb)) hb' (by omega) (by omega) hn hbuilds
  refine ⟨v, ?_, htab, (inByte_of_keeps kv (by decide)).trans hb', ?_, hn.1.2.1⟩
  · rw [fseWeights_eq, bind_of_ok (ensure_of hle), e]
  · have := hn.2.1
    omega

/-- The two states are read at the head of the weight stream (R193). -/
theorem weightStates_at {al ws hi : Nat} {entries : List FseEntry} (htab : u.ft.get .hw = ⟨true, BitVec.ofNat 4 al, entries⟩)
    (hal : al ≤ 6) (hok : tableOkFor .hw ⟨true, BitVec.ofNat 4 al, entries⟩) (hws : ws ≤ hi) (hhi : hi ≤ lim)
    (hstream : streamAt s ws (hi - ws) pos) :
    ∃ v, weightStream hi ws u = (weightLoop 128 [] >>= fun wd => pure (wd, hi)) v ∧ -100 ≤ pos - 2 * al ∧
      WeightsAt s v ws ⟨true, BitVec.ofNat 4 al, entries⟩ (streamBits s ws pos al) (streamBits s ws (pos - al) al)
        (pos - 2 * al) := by
  have hpos : 0 ≤ pos := by obtain ⟨hlen, -, rfl⟩ := hstream; omega
  have al_eq : (BitVec.ofNat 4 al).toNat = al := toNat_ofNat_of_lt (by omega)
  obtain ⟨u0, e0, r0, k0⟩ := rinit_at .r5 hstream hb' (by omega)
  obtain ⟨u1, e1, h1, r1, k1⟩ := initState_at .w1 (Eq.trans (k0 (.ft .hw) (by decide)) htab) hok r0 (by omega)
  simp only [al_eq] at h1 r1
  obtain ⟨u2, e2, h2, r2, k2⟩ := initState_at .w2
    (Eq.trans (k1 (.ft .hw) (by decide)) (Eq.trans (k0 (.ft .hw) (by decide)) htab)) hok r1 (by omega)
  simp only [al_eq] at h2 r2
  refine ⟨u2, (bind_of_ok e0).trans ((bind_of_ok e1).trans (bind_of_ok e2)), by omega, h1.of_keeps k2 (by decide), h2, ?_⟩
  rwa [show pos - 2 * (al : Int) = pos - al - al by ring]

/-- The FSE-coded weights of a description (R192, R193). -/
theorem fseWeights_at (h : fseTreeAt s hb a lim wd size) : ∃ v, fseWeights a hb lim u = .ok (wd, a + size) v := by
  obtain ⟨rfl, hlen, al, entries, ws, pos, htable, hstream, hspell⟩ := h
  obtain ⟨u1, e1, htab, b1, hws, hal⟩ := weightTable_at hb' hlim htable
  obtain ⟨-, hle, -, -, -, -, hok, -⟩ := htable
  obtain ⟨u2, e2, hpos, h2⟩ := weightStates_at b1 hlim htab hal hok hws hle hstream
  obtain ⟨v, e3⟩ := weightLoop_at hok 128 [] h2 hpos (by simpa using hlen) (by omega) hspell
  exact ⟨v, by rw [e1, e2, bind_of_ok e3, Nat.add_assoc]; rfl⟩

/-- A description whose header, stream or number of weights stops it (R192, R193). -/
theorem raises_fseWeights (hle : a + 1 + hb ≤ lim) (h : ncountStops s (a + 1) (a + 1 + hb) 0 .hw c ∨
    ∃ al entries ws, weightTableAt s hb a lim al entries ws ∧ (streamStops s ws (a + 1 + hb - ws) c ∨
      ∃ pos, streamAt s ws (a + 1 + hb - ws) pos ∧ c = .hufTooManyWeights ∧
        weightsGoOn s ws entries 254 (streamBits s ws pos al) (streamBits s ws (pos - al) al) (pos - 2 * al))) :
    Raises (fseWeights a hb lim) u c := by
  rcases h with h | ⟨al, entries, ws, htable, h⟩
  · exact .pass hle (raises_headerTable (g := weightStream (a + 1 + hb)) hb' (by omega) (by omega) h)
  obtain ⟨u1, e1, htab, b1, hws, hal⟩ := weightTable_at hb' hlim htable
  obtain ⟨-, -, -, -, -, -, hok, -⟩ := htable
  refine .of_eq e1 ?_
  rcases h with h | ⟨pos, hstream, rfl, hgo⟩
  · exact .bind (raises_rinit_of_bytes .r5 h b1 (by omega))
  · obtain ⟨u2, e2, hpos, h2⟩ := weightStates_at b1 hlim htab hal hok hws hle hstream
    exact .of_eq e2 (.bind (raises_weightLoop hok 127 128 h2 hpos rfl hgo))

/-- The weights of a description, in either form (R190). -/
theorem readWeights_at (h : treeAt s hb a lim wd size) : ∃ v, readWeights hb a lim u = .ok (wd, a + size) v := by
  unfold readWeights
  rcases h with h | h
  · rw [if_neg (not_lt.mpr h.1)]
    exact ⟨u, rawWeights_at hb' hlim h⟩
  · obtain ⟨-, -, _, _, _, _, htable, -⟩ := id h
    rw [if_pos htable.1]
    exact fseWeights_at hb' hlim h

end

end Sys2Proof.Machine
end

section
/-! SUPPORT. HuffBuild and HuffTree as their checks say (R190 to R197), and literal streams in the code of a table (R199,
R200). -/

namespace Sys2Proof.Machine

variable {s u v : State} {a hb lim size base : Nat} {wd : List Byte} {c : Cause} {pos last : Int}

/-! ## HuffBuild (R194 to R197) -/

/-- The mass that the synthesized weight completes is `2^k` (R195). -/
theorem ispow2_iff {x n : Nat} : ispow2 (2 ^ n - x) = true ↔ ∃ k, x + 2 ^ k = 2 ^ n := by
  simp only [ispow2, highbit, Bool.and_eq_true, bne_iff_ne, beq_iff_eq]
  constructor
  · rintro ⟨h0, hk⟩
    have := Nat.pos_of_ne_zero h0
    exact ⟨(2 ^ n - x).log2, by omega⟩
  · rintro ⟨k, hk⟩
    rw [Nat.sub_eq_of_eq_add' hk.symm, Nat.log2_two_pow]
    exact ⟨by positivity, rfl⟩

/-- The weight that is synthesized for a missing mass of `2^k` (R195). -/
theorem synthesized_eq {x n k : Nat} (h : x + 2 ^ k = 2 ^ n) : highbit (2 ^ n - x) = k := by
  rw [highbit, Nat.sub_eq_of_eq_add' h.symm, Nat.log2_two_pow]

theorem filterMap_range_unique {β : Type} {f : Nat → Option β} {b : β} {k : Nat} (hk : f k = some b)
    (hne : ∀ j, j ≠ k → f j = none) : ∀ {n : Nat}, k < n → (List.range n).filterMap f = [b]
  | 0, h => absurd h (Nat.not_lt_zero k)
  | n + 1, h => by
    rw [List.range_succ, List.filterMap_append]
    by_cases e : k = n
    · subst e
      have none : (List.range k).filterMap f = [] :=
        List.filterMap_eq_nil_iff.mpr fun j hj => hne j (List.mem_range.mp hj).ne
      simp [none, hk]
    · rw [filterMap_range_unique hk hne (show k < n by omega)]
      simp [hne n (Ne.symm e)]

/-- HuffBuild from its named quantities: the mass, the code length, the missing mass (R194 to R197). -/
theorem huffBuild_eq (wd : List Byte) : huffBuild wd =
    (ensure (∀ x ∈ wd, x.toNat ≤ 11) .hufWeightRange >>= fun _ => ensure (massOf wd ≠ 0) .hufNoWeights >>= fun _ =>
      ensure ((massOf wd).log2 + 1 ≤ 11) .hufMaxlen >>= fun _ =>
        ensure (ispow2 (2 ^ ((massOf wd).log2 + 1) - massOf wd) = true) .hufNotSaturable >>= fun _ =>
          ensure (2 ≤ (wd ++ [BitVec.ofNat 8 (highbit (2 ^ ((massOf wd).log2 + 1) - massOf wd) + 1)]).countP
            fun x => x.toNat = 1) .hufRank1 >>= fun _ =>
              change fun s => { s with
                w := wd ++ [BitVec.ofNat 8 (highbit (2 ^ ((massOf wd).log2 + 1) - massOf wd) + 1)]
                nw := BitVec.ofNat 9 (wd ++ [BitVec.ofNat 8 (highbit (2 ^ ((massOf wd).log2 + 1) - massOf wd) + 1)]).length
                ht := codeTable ((massOf wd).log2 + 1)
                  (wd ++ [BitVec.ofNat 8 (highbit (2 ^ ((massOf wd).log2 + 1) - massOf wd) + 1)]) }) := rfl

/-- Weights that fail a check end HuffBuild in the first (R194 to R196). -/
theorem raises_huffBuild (h : weightsError wd = some c) : Raises (huffBuild wd) u c := by
  rw [huffBuild_eq]
  unfold weightsError at h
  split_ifs at h with hrange hmass hmax hsat hrank <;> cases h
  · exact .bind (.ensure (by simpa using hrange))
  all_goals refine .pass (by simpa using hrange) ?_
  · exact .bind (.ensure (not_not.mpr hmass))
  all_goals refine .pass hmass ?_
  · exact .bind (.ensure (not_le.mpr hmax))
  all_goals refine .pass (not_lt.mp hmax) ?_
  · obtain ⟨k, hk12, hk⟩ := hsat
    have unique : ∀ j, j ≠ k → ¬massOf wd + 2 ^ j = 2 ^ ((massOf wd).log2 + 1) := fun j hj h =>
      hj (Nat.pow_right_injective (le_refl 2) (show 2 ^ j = 2 ^ k by omega))
    have synthesized : ((List.range 12).filterMap fun k =>
        if massOf wd + 2 ^ k = 2 ^ ((massOf wd).log2 + 1) then some (BitVec.ofNat 8 (k + 1)) else none) =
          [BitVec.ofNat 8 (k + 1)] :=
      filterMap_range_unique (if_pos hk) (fun j hj => if_neg (unique j hj)) (List.mem_range.mp hk12)
    rw [synthesized] at hrank
    exact .pass (ispow2_iff.mpr ⟨k, hk⟩) (.bind (.ensure (by rw [synthesized_eq hk]; exact not_le.mpr hrank)))
  · refine .bind (.ensure fun hpow => hsat ?_)
    obtain ⟨k, hk⟩ := ispow2_iff.mp hpow
    have : k < (massOf wd).log2 + 1 := (Nat.pow_lt_pow_iff_right (a := 2) (by norm_num)).mp (by omega)
    exact ⟨k, List.mem_range.mpr (by omega), hk⟩

/-- Weights that pass the checks build the code of the complete weights (R197). -/
theorem huffBuild_at {maxLen : Nat} {x : Byte} (h : weightsOk wd maxLen x) :
    ∃ v, huffBuild wd u = .ok () v ∧ v.ht = codeTable maxLen (wd ++ [x]) := by
  obtain ⟨hrange, hmass, rfl, hmax, hx, hsat, hrank⟩ := h
  rw [mass, if_neg (by omega)] at hsat
  have last : BitVec.ofNat 8 (highbit (2 ^ ((massOf wd).log2 + 1) - massOf wd) + 1) = x := by
    rw [synthesized_eq hsat, Nat.sub_add_cancel hx, BitVec.ofNat_toNat, BitVec.setWidth_eq]
  rw [huffBuild_eq, last, bind_of_ok (ensure_of hrange), bind_of_ok (ensure_of hmass), bind_of_ok (ensure_of hmax),
    bind_of_ok (ensure_of (ispow2_iff.mpr ⟨_, hsat⟩)), bind_of_ok (ensure_of hrank)]
  exact ⟨_, rfl, rfl⟩

/-! ## HuffTree (R190) -/

theorem treeAt_bounds (h : treeAt s hb a lim wd size) : 1 ≤ size ∧ a + size ≤ lim := by
  rcases h with ⟨-, -, -, hsize, hle, -⟩ | ⟨hsize, -, _, _, _, _, ⟨-, hle, -⟩, -⟩ <;> omega

section
variable (hb' : inByte u = inByte s) (hlim : lim ≤ Config.inCap)
include hb' hlim

/-- A description that stops raises its cause, in its weights or in HuffBuild. -/
theorem raises_huffTreeFrom (h : treeStops s hb a lim c) : Raises (huffTreeFrom hb a lim) u c := by
  have built : ∀ {wd size}, treeAt s hb a lim wd size → weightsError wd = some c → Raises (huffTreeFrom hb a lim) u c :=
    fun htree herr => by
      obtain ⟨v, e⟩ := readWeights_at hb' hlim htree
      exact .after e (.bind (raises_huffBuild herr))
  rcases h with ⟨hcut, rfl⟩ | ⟨wd, size, htree, herr⟩ | ⟨hfse, hle, h⟩
  · refine .bind ?_
    unfold treeSize at hcut
    unfold readWeights
    split_ifs at hcut ⊢
    · exact fseWeights_eq a hb lim ▸ .bind (.ensure (by omega))
    · exact .bind (.ensure (by omega))
  · exact built (.inl htree) herr
  have weights : Raises (fseWeights a hb lim) u c → Raises (huffTreeFrom hb a lim) u c := fun h =>
    .bind (by unfold readWeights; rwa [if_pos hfse])
  rcases h with h | ⟨al, entries, ws, htable, h | ⟨pos, hstream, ⟨hgo, rfl⟩ | ⟨wd, hlen, herr, hspell⟩⟩⟩
  · exact weights (raises_fseWeights hb' hlim hle (.inl h))
  · exact weights (raises_fseWeights hb' hlim hle (.inr ⟨al, entries, ws, htable, .inl h⟩))
  · exact weights (raises_fseWeights hb' hlim hle (.inr ⟨al, entries, ws, htable, .inr ⟨pos, hstream, rfl, hgo⟩⟩))
  · exact built (.inr ⟨rfl, hlen, al, entries, ws, pos, htable, hstream, hspell⟩) herr

/-- A description whose weights pass the checks builds their code. -/
theorem huffTreeFrom_at {maxLen : Nat} {x : Byte} (htree : treeAt s hb a lim wd size) (hok : weightsOk wd maxLen x) :
    ∃ v, huffTreeFrom hb a lim u = .ok size v ∧ v.ht = codeTable maxLen (wd ++ [x]) := by
  obtain ⟨v, e⟩ := readWeights_at hb' hlim htree
  obtain ⟨w, e', hw⟩ := huffBuild_at (u := v) hok
  refine ⟨w, ?_, hw⟩
  unfold huffTreeFrom
  rw [bind_of_ok e, bind_of_ok e', Nat.add_sub_cancel_left]
  rfl

theorem raises_huffTree (h : treeStops s (inByte s a).toNat a lim c) : Raises (huffTree a lim) u c := by
  by_cases hempty : a + 1 ≤ lim
  · exact .pass hempty (.after (readIn_of_lt (by omega)) (hb' ▸ raises_huffTreeFrom hb' hlim h))
  · have : c = .hufTreeOverrun := by
      rcases h with ⟨-, rfl⟩ | ⟨wd, size, htree, -⟩ | ⟨-, hle, -⟩
      · rfl
      · have := treeAt_bounds (.inl htree)
        omega
      · omega
    exact this ▸ .bind (.ensure hempty)

theorem huffTree_at {maxLen : Nat} {x : Byte} (htree : treeAt s (inByte s a).toNat a lim wd size) (hok : weightsOk wd maxLen x) :
    ∃ v, huffTree a lim u = .ok size v ∧ v.ht = codeTable maxLen (wd ++ [x]) := by
  have := treeAt_bounds htree
  obtain ⟨v, e, hv⟩ := huffTreeFrom_at hb' hlim htree hok
  refine ⟨v, ?_, hv⟩
  unfold huffTree
  rw [bind_of_ok (ensure_of (by omega)), bind_of_ok (readIn_of_lt (by omega)), hb', e]

end

/-! ## Streams (R199, R200, R226) -/

section
variable {r : RSel} {ht : HufTable}

/-- One symbol: it is emitted where its code lies in the stream, and overruns where the code is cut short (R199). -/
theorem huffSym_at (h : ReaderAt s u r base pos) (hht : u.ht = ht) (hpos : 0 ≤ pos) {e : HufEntry}
    (he : ht.entries[streamBits s base pos ht.maxLen.toNat]? = some e) :
    if (e.nb.toNat : Int) ≤ pos then
      ∃ v, huffSym r u = .ok e.sym v ∧ ReaderAt s v r base (pos - e.nb.toNat) ∧ Keeps [.rr r] u v
    else Raises (huffSym r) u .hufOverrun := by
  have hnb := e.nb.isLt
  have entry : huffEntry u (streamBits s base pos ht.maxLen.toNat) = e := by rw [huffEntry, hht, he, Option.getD_some]
  obtain ⟨v, k, hr, kv⟩ := rconsume_at h (n := e.nb.toNat) (by omega)
  have moved : huffSym r u = (ensure (0 ≤ pos - e.nb.toNat) .hufOverrun >>= fun _ => pure e.sym) v := by
    unfold huffSym
    rw [bind_of_ok (look_apply _ u), hht, bind_of_ok (rpeek_at h _), bind_of_ok (look_apply _ u), entry, bind_of_ok k,
      bind_of_ok (rpos_at hr)]
  split_ifs with hle
  · exact ⟨v, moved.trans (bind_of_ok (ensure_of (by omega))), hr, kv⟩
  · exact .of_eq moved (.bind (.ensure (by omega)))

theorem spells_nonneg : ∀ {bs : List Byte} {pos : Int}, 0 ≤ pos → spells s ht base bs pos last → 0 ≤ last
  | [], _, hpos, h => h ▸ hpos
  | _ :: _, _, _, ⟨_, _, _, hnb, h⟩ => spells_nonneg (by omega) h

/-- The literals that a stream spells are written one after another. -/
theorem huffSymbols_at : ∀ {bs : List Byte} {u : State} {pos : Int} {dst : Nat}, ReaderAt s u r base pos → u.ht = ht →
    0 ≤ pos → spells s ht base bs pos last → dst + bs.length ≤ Config.litCap →
      ∃ v, (∀ n, huffSymbols r (bs.length + n) dst u = huffSymbols r n (dst + bs.length) v) ∧ ReaderAt s v r base last ∧
        v.ht = ht
  | [], u, pos, dst, h, hht, _, hspell, _ => by
    obtain rfl : pos = last := hspell
    exact ⟨u, fun n => by simp, h, hht⟩
  | b :: bs, u, pos, dst, h, hht, hpos, ⟨e, he, hb, hnb, hspell⟩, hroom => by
    rw [List.length_cons] at hroom
    obtain ⟨u1, e1, h1, k1⟩ := (if_pos hnb).mp (huffSym_at h hht hpos he)
    have e2 := writeLit_of_lt (s := u1) (a := dst) (b := e.sym) (show dst < Config.litCap by omega)
    have k2 := (touches_writeLit dst e.sym).ok e2
    obtain ⟨v, e3, hv, hv'⟩ := huffSymbols_at (dst := dst + 1) (h1.of_keeps k2 (by simp))
      (show u1.ht = ht from Eq.trans (k1 .ht (by simp)) hht) (by omega) hspell (by omega)
    refine ⟨v, fun n => ?_, hv, hv'⟩
    rw [List.length_cons, show bs.length + 1 + n = bs.length + n + 1 by omega, huffSymbols, bind_of_ok e1, bind_of_ok e2, e3,
      Nat.add_assoc dst, Nat.add_comm 1]

variable {len count dst : Nat} (hb' : inByte u = inByte s) (hht : u.ht = ht) (hcap : base + len ≤ Config.inCap)
  (hroom : dst + count ≤ Config.litCap)
include hb' hht hcap hroom

/-- A stream that stops raises its cause: at its end mark, in a code cut short, or with bits left over. -/
theorem raises_litStream (h : literalStreamStops s ht base len count c) : Raises (litStream r base len count dst) u c := by
  rcases h with h | ⟨pos, bs, last, hstream, hspell, h⟩
  · exact .bind (raises_rinit_of_bytes r h hb' hcap)
  have hpos : 0 ≤ pos := by obtain ⟨hlen, -, rfl⟩ := hstream; omega
  obtain ⟨u1, e1, h1, k1⟩ := rinit_at r hstream hb' hcap
  have ht1 : u1.ht = ht := Eq.trans (k1 .ht (by simp)) hht
  refine .after e1 ?_
  rcases h with ⟨rfl, hlast, rfl⟩ | ⟨hlen, rfl, e, he, hnb⟩
  · obtain ⟨v, e2, hv, -⟩ := huffSymbols_at (dst := dst) h1 ht1 hpos hspell hroom
    exact .after (e2 0) (.after (rpos_at hv) (.ensure hlast))
  · obtain ⟨v, e2, hv, hvt⟩ := huffSymbols_at (dst := dst) h1 ht1 hpos hspell (by omega)
    obtain ⟨n, rfl⟩ : ∃ n, count = bs.length + (n + 1) := ⟨count - bs.length - 1, by omega⟩
    have cut := (if_neg (not_le.mpr hnb)).mp (huffSym_at hv hvt (spells_nonneg hpos hspell) he)
    exact .bind (.of_eq (e2 (n + 1)) (.bind cut))

/-- A stream that spells its literals is decoded, and leaves the table and IN. -/
theorem litStream_at {bs : List Byte} (hlen : bs.length = count) (h : streamSpells s ht base len bs) :
    ∃ v, litStream r base len count dst u = .ok () v ∧ inByte v = inByte s ∧ v.ht = ht := by
  obtain ⟨pos, hstream, hspell⟩ := h
  have hpos : 0 ≤ pos := by obtain ⟨hlen, -, rfl⟩ := hstream; omega
  obtain ⟨u1, e1, h1, k1⟩ := rinit_at r hstream hb' hcap
  subst hlen
  obtain ⟨v, e2, hv, hvt⟩ := huffSymbols_at (dst := dst) h1 (Eq.trans (k1 .ht (by simp)) hht) hpos hspell hroom
  exact ⟨v, (bind_of_ok e1).trans ((bind_of_ok (e2 0)).trans ((bind_of_ok (rpos_at hv)).trans (ensure_of rfl))), hv.bytes, hvt⟩

end

end Sys2Proof.Machine
end

section
/-! SUPPORT. The literals section as its bytes say (R88 to R91, R220 to R230): the header, the checks that look at no body
byte, the tree description and the streams, each to its end or to the check that fails. -/

namespace Sys2Proof.Machine

variable {s u : State} {a lim p last regen streams : Nat} {h : LitHeader} {row : Instr} {bs : List Byte} {c : Cause}

/-! ## The header (R88 to R90) -/

theorem leNat_lt : ∀ bs : List Byte, leNat bs < 256 ^ bs.length
  | [] => by simp [leNat]
  | b :: bs => by
    have := b.isLt
    have := leNat_lt bs
    rw [leNat, List.length_cons, pow_succ]
    omega

theorem size_litHeader (bs : List Byte) : (litHeader bs).size = litHeaderSize (bs.headD 0) := by
  unfold litHeader
  dsimp only
  split <;> rfl

theorem litHeaderSize_pos (b0 : Byte) : 1 ≤ litHeaderSize b0 := by
  unfold litHeaderSize
  cases litTypeOf b0 <;> dsimp only <;> split_ifs <;> omega

/-- A header is read from its own bytes alone. -/
theorem litHeader_take (bs : List Byte) : litHeader (bs.take (litHeaderSize (bs.headD 0))) = litHeader bs := by
  have first : (bs.take (litHeaderSize (bs.headD 0))).headD 0 = bs.headD 0 := by
    obtain ⟨n, hn⟩ := Nat.exists_eq_add_of_le' (litHeaderSize_pos (bs.headD 0))
    rw [hn]
    cases bs <;> rfl
  simp only [litHeader, first, List.take_take, Nat.min_self]

/-- The row of a header that was read has that header (R89, R90). -/
theorem headerOf_instrOfLitHeader (hlen : litHeaderSize (bs.headD 0) ≤ bs.length) :
    headerOf (instrOfLitHeader (litHeader bs)) = some (litHeader bs) := by
  have value := leNat_lt (bs.take (litHeaderSize (bs.headD 0)))
  rw [List.length_take_of_le hlen] at value
  unfold litHeader
  dsimp only
  generalize leNat (bs.take (litHeaderSize (bs.headD 0))) = x at value ⊢
  unfold litHeaderSize at value ⊢
  generalize litTypeOf (bs.headD 0) = type at value ⊢
  cases type <;> dsimp only at value ⊢
  case raw | rle =>
    split_ifs at value ⊢ <;> simp [instrOfLitHeader, headerOf] <;> omega
  case compressed | treeless =>
    split_ifs <;> simp [instrOfLitHeader, headerOf, sizeFieldBits] <;> omega

/-- A LITHDR row decodes to itself (R89, R90). -/
theorem decode_encode_lithdr (h1 : headerOf row = some h) : decode (encode row) = .ok row := by
  cases row <;> simp only [headerOf, reduceCtorEq] at h1
  case lithdrRaw1b n => exact Laws.RoundTrip.lithdrRaw1b n rfl
  case lithdrRaw2b n => exact Laws.RoundTrip.lithdrRaw2b n rfl
  case lithdrRaw3b n => exact Laws.RoundTrip.lithdrRaw3b n rfl
  case lithdrRle1b n => exact Laws.RoundTrip.lithdrRle1b n rfl
  case lithdrRle2b n => exact Laws.RoundTrip.lithdrRle2b n rfl
  case lithdrRle3b n => exact Laws.RoundTrip.lithdrRle3b n rfl
  case lithdrComp1s3b n c => exact Laws.RoundTrip.lithdrComp1s3b n c rfl
  case lithdrComp4s3b n c => exact Laws.RoundTrip.lithdrComp4s3b n c rfl
  case lithdrComp4s4b n c => exact Laws.RoundTrip.lithdrComp4s4b n c rfl
  case lithdrComp4s5b n c => exact Laws.RoundTrip.lithdrComp4s5b n c rfl
  case lithdrTreeless1s3b n c => exact Laws.RoundTrip.lithdrTreeless1s3b n c rfl
  case lithdrTreeless4s3b n c => exact Laws.RoundTrip.lithdrTreeless4s3b n c rfl
  case lithdrTreeless4s4b n c => exact Laws.RoundTrip.lithdrTreeless4s4b n c rfl
  case lithdrTreeless4s5b n c => exact Laws.RoundTrip.lithdrTreeless4s5b n c rfl

/-- Bytes that decode to a LITHDR row hold its header. -/
theorem litHeader_of_decode (h1 : headerOf row = some h) (hdec : decode (.element .lithdr bs) = .ok row) :
    litHeaderSize (bs.headD 0) ≤ bs.length ∧ litHeader bs = h := by
  cases bs with
  | nil => cases hdec
  | cons b bs =>
    simp only [decode, decodeElement] at hdec
    split_ifs at hdec with hshort
    obtain rfl : instrOfLitHeader (litHeader (b :: bs)) = row := Except.ok.inj hdec
    have hlen := not_lt.mp hshort
    exact ⟨hlen, Option.some.inj ((headerOf_instrOfLitHeader (bs := b :: bs) hlen).symm.trans h1)⟩

/-- Where a row's header stands in IN, its first byte gives its length, and those bytes are read as the header (R230). -/
theorem readBytes_of_headerAt (h1 : headerAt s a h) (hcap : a + h.size ≤ Config.inCap) :
    ∃ bs, readBytes a h.size s = .ok bs s ∧ litHeader bs = h := by
  obtain ⟨row, bs, hrow, henc, hbytes⟩ := h1
  obtain ⟨hlen, rfl⟩ := litHeader_of_decode hrow (henc ▸ decode_encode_lithdr hrow)
  rw [size_litHeader] at hcap ⊢
  have short := List.length_take_of_le hlen
  refine ⟨_, ?_, litHeader_take bs⟩
  have taken : inBytes s a (bs.take (litHeaderSize (bs.headD 0))) := fun k hk => by
    rw [List.getElem_take]
    exact hbytes k (by omega)
  have := readBytes_of_inBytes taken (by omega)
  rwa [short] at this

theorem headerAt_first (h1 : headerAt s a h) : litHeaderSize (inByte s a) = h.size := by
  obtain ⟨row, bs, hrow, henc, hbytes⟩ := h1
  obtain ⟨hlen, rfl⟩ := litHeader_of_decode hrow (henc ▸ decode_encode_lithdr hrow)
  rw [size_litHeader]
  cases bs with
  | nil => exact absurd hlen (by decide)
  | cons b bs => exact congrArg litHeaderSize (hbytes 0 (by simp))

theorem litHeaderBytes_eq (b0 : Byte) : litHeaderBytes b0 = litHeaderSize b0 := by
  revert b0
  decide

theorem headerOf_streams (h1 : headerOf row = some h) : h.streams = 1 ∨ h.streams = 4 := by
  cases row <;> cases h1 <;> simp

/-! ## The streams (R91, R226 to R230) -/

theorem memRead_two (hb' : inByte u = inByte s) (hcap : a + 2 ≤ Config.inCap) : memRead a 2 u = .ok (jumpSize s a) u := by
  unfold memRead
  rw [bind_of_ok (readBytes_two hcap), hb']
  rfl

section
variable {ht : HufTable} (hb' : inByte u = inByte s) (hht : u.ht = ht)
include hb' hht

/-- The streams from one on: it fails, or it is decoded and one after it fails (R229). -/
theorem raises_firstStream {r : RSel} {q len count dst : Nat} {later : List (Nat × Nat × Nat)} {g : Unit → Op Unit}
    (hcap : q + len ≤ Config.inCap) (hroom : dst + count ≤ Config.litCap)
    (hstop : firstStreamStops s ht ((q, len, count) :: later) c)
    (hlater : ∀ v, inByte v = inByte s → v.ht = ht → firstStreamStops s ht later c → Raises (g ()) v c) :
    Raises (litStream r q len count dst >>= g) u c := by
  rcases hstop with hstop | ⟨⟨bs, hlen, hspells⟩, hstop⟩
  · exact .bind (raises_litStream hb' hht hcap hroom hstop)
  · obtain ⟨v, e, hv, hvt⟩ := litStream_at hb' hht hcap hroom hlen hspells
    exact .after e (hlater v hv hvt hstop)

/-- Four streams stop in their jump table or in the first stream that fails (R227 to R230). -/
theorem raises_fourStreams (hne : streams ≠ 1) (hlast : last ≤ Config.inCap) (hmin : 6 ≤ regen) (hmax : regen ≤ Config.litCap)
    (hstop : litStreamsStop s ht streams p last regen c) : Raises (fourStreams p last regen) u c := by
  rw [litStreamsStop, if_neg hne] at hstop
  dsimp only at hstop
  by_cases hjump : p + 6 ≤ last
  swap
  · rw [if_pos (by omega)] at hstop
    exact hstop ▸ .bind (.ensure hjump)
  refine .pass hjump (.after (memRead_two hb' (by omega)) (.after (memRead_two hb' (by omega))
    (.after (memRead_two hb' (by omega)) ?_)))
  by_cases hsizes : p + 6 + jumpSize s p + jumpSize s (p + 2) + jumpSize s (p + 4) + 1 ≤ last
  swap
  · rw [if_pos (by omega)] at hstop
    exact hstop ▸ .bind (.ensure hsizes)
  rw [if_neg (by omega)] at hstop
  refine .pass hsizes (raises_firstStream hb' hht (by omega) (by omega) hstop fun v hb' hht hstop => ?_)
  refine raises_firstStream hb' hht (by omega) (by omega) hstop fun v hb' hht hstop => ?_
  refine raises_firstStream hb' hht (by omega) (by omega) hstop fun v hb' hht hstop => ?_
  have rest : last - p - 6 - jumpSize s p - jumpSize s (p + 2) - jumpSize s (p + 4) =
      last - (p + 6 + jumpSize s p + jumpSize s (p + 2) + jumpSize s (p + 4)) := by omega
  rw [rest]
  exact raises_litStream hb' hht (by omega) (by omega) (hstop.resolve_right And.right)

/-- The streams after a tree stop in the one stream, the jump table or one of the four (R226 to R230). -/
theorem raises_streams (hp : p ≤ last) (hlast : last ≤ Config.inCap) (hmin : streams = 1 ∨ 6 ≤ regen)
    (hmax : regen ≤ Config.litCap) (hstop : litStreamsStop s ht streams p last regen c) :
    Raises (if streams = 1 then litStream .r0 p (last - p) regen 0 else fourStreams p last regen) u c := by
  by_cases hone : streams = 1
  · rw [litStreamsStop, if_pos hone] at hstop
    exact if_pos hone ▸ raises_litStream hb' hht (by omega) (by omega) hstop
  · exact if_neg hone ▸ raises_fourStreams hb' hht hone hlast (hmin.resolve_left hone) hmax hstop

end

/-! ## The body (R223 to R230) -/

theorem litBody_of_raw (ht : h.type = .raw) : litBody h a lim = (ensure (a + h.size + h.regen ≤ lim) .litRawBody >>= fun _ =>
    copyLit h.regen (a + h.size) 0 >>= fun _ => pure (h.size + h.regen)) := by
  unfold litBody
  rw [ht]

theorem litBody_of_rle (ht : h.type = .rle) : litBody h a lim = (ensure (a + h.size + 1 ≤ lim) .litRleBody >>= fun _ =>
    readIn (a + h.size) >>= fun b => fillLit b h.regen 0 >>= fun _ => pure (h.size + 1)) := by
  unfold litBody
  rw [ht]

theorem litBody_of_coded (ht : h.type = .compressed ∨ h.type = .treeless) :
    litBody h a lim = (ensure (h.streams = 1 ∨ 6 ≤ h.regen) .lit4sTooSmall >>= fun _ =>
      ensure (a + h.size + h.comp ≤ lim) .litCompBody >>= fun _ =>
        codedBody h (a + h.size) (a + h.size + h.comp) >>= fun _ => pure (h.size + h.comp)) := by
  unfold litBody
  rcases ht with ht | ht <;> rw [ht]

/-- What is left of `litError` after the header and its size (R224, R225). -/
def litBodyError (h : LitHeader) (a lim : Nat) (htValid : Bool) : Option Cause :=
  match h.type with
  | .raw => if lim < a + h.size + h.regen then some .litRawBody else none
  | .rle => if lim < a + h.size + 1 then some .litRleBody else none
  | .compressed | .treeless =>
    if h.streams = 4 ∧ h.regen < 6 then some .lit4sTooSmall
    else if lim < a + h.size + h.comp then some .litCompBody
    else if h.type = .treeless ∧ htValid = false then some .litTreelessNoTable
    else none

theorem litError_eq (h : LitHeader) (a lim blockMax : Nat) (htValid : Bool) : litError h a lim blockMax htValid =
    if lim < a + h.size then some .litHeader else if blockMax < h.regen then some .litTooLarge
    else litBodyError h a lim htValid := by
  unfold litError litBodyError
  cases h.type <;> simp

theorem litBodyError_of_coded (ht : h.type = .compressed ∨ h.type = .treeless) (htValid : Bool) :
    litBodyError h a lim htValid = if h.streams = 4 ∧ h.regen < 6 then some .lit4sTooSmall
      else if lim < a + h.size + h.comp then some .litCompBody
      else if h.type = .treeless ∧ htValid = false then some .litTreelessNoTable else none := by
  unfold litBodyError
  rcases ht with ht | ht <;> rw [ht]

/-- Four streams need 6 literals (R225). -/
theorem enough_literals_iff (hstreams : h.streams = 1 ∨ h.streams = 4) :
    ¬(h.streams = 4 ∧ h.regen < 6) ↔ h.streams = 1 ∨ 6 ≤ h.regen := by omega

/-- A body stops in the first of its type's checks that fails (R224, R225). -/
theorem raises_litBody (hstreams : h.streams = 1 ∨ h.streams = 4) (herr : litBodyError h a lim s.ht.valid = some c) :
    Raises (litBody h a lim) s c := by
  have coded (ht : h.type = .compressed ∨ h.type = .treeless) : Raises (litBody h a lim) s c := by
    rw [litBodyError_of_coded ht] at herr
    rw [litBody_of_coded ht]
    split_ifs at herr with hsmall hbody hheld <;> cases herr
    · exact .bind (.ensure fun hmin => (enough_literals_iff hstreams).mpr hmin hsmall)
    · exact .pass ((enough_literals_iff hstreams).mp hsmall) (.bind (.ensure (not_le.mpr hbody)))
    · refine .pass ((enough_literals_iff hstreams).mp hsmall) (.pass (not_lt.mp hbody) (.bind (.bind ?_)))
      unfold bodyTable
      rw [hheld.1]
      exact .bind (.look (.ensure (by simp [hheld.2])))
  cases ht : h.type with
  | raw =>
    simp only [litBodyError, ht] at herr
    split_ifs at herr with hbody
    cases herr
    exact litBody_of_raw ht ▸ .bind (.ensure (not_le.mpr hbody))
  | rle =>
    simp only [litBodyError, ht] at herr
    split_ifs at herr with hbody
    cases herr
    exact litBody_of_rle ht ▸ .bind (.ensure (not_le.mpr hbody))
  | compressed => exact coded (.inl ht)
  | treeless => exact coded (.inr ht)

/-- A section stops in the first check that looks at no byte of the body (R224, R225, R230). -/
theorem raises_litSection (hstreams : h.streams = 1 ∨ h.streams = 4)
    (herr : litError h a lim s.blockMax.toNat s.ht.valid = some c) : Raises (litSection h a lim) s c := by
  rw [litError_eq] at herr
  split_ifs at herr with hsize hregen
  · cases herr
    exact .bind (.ensure (not_le.mpr hsize))
  · cases herr
    exact .pass (not_lt.mp hsize) (.bind (.look (.ensure (not_le.mpr hregen))))
  · exact .pass (not_lt.mp hsize) (.after (ensure_of (not_lt.mp hregen)) (.bind (raises_litBody hstreams herr)))

/-- What a Compressed or Treeless section meets where every check passes (R223 to R225). -/
theorem litError_eq_none (hstreams : h.streams = 1 ∨ h.streams = 4) (hcoded : h.type = .compressed ∨ h.type = .treeless)
    {blockMax : Nat} {htValid : Bool} (herr : litError h a lim blockMax htValid = none) :
    a + h.size ≤ lim ∧ h.regen ≤ blockMax ∧ (h.streams = 1 ∨ 6 ≤ h.regen) ∧ a + h.size + h.comp ≤ lim ∧
      (h.type = .treeless → htValid = true) := by
  rw [litError_eq, litBodyError_of_coded hcoded] at herr
  split_ifs at herr with hsize hregen hsmall hbody hheld
  exact ⟨not_lt.mp hsize, not_lt.mp hregen, (enough_literals_iff hstreams).mp hsmall, not_lt.mp hbody, fun ht => by simpa [ht] using hheld⟩

/-- The body after its size checks stops in its tree description or in its streams (R223, R226 to R230). -/
theorem raises_codedBody (hcap : a + h.size + h.comp ≤ Config.inCap) (hmin : h.streams = 1 ∨ 6 ≤ h.regen)
    (hmax : h.regen ≤ Config.litCap) (hvalid : h.type = .treeless → s.ht.valid = true) (hstop : litBodyStops s h a c) :
    Raises (codedBody h (a + h.size) (a + h.size + h.comp)) s c := by
  rcases hstop with ⟨ht, hstop | ⟨wd, size, maxLen, last, htree, hok, hstop⟩⟩ | ⟨ht, hstop⟩
  · have table : bodyTable h (a + h.size) (a + h.size + h.comp) = huffTree (a + h.size) (a + h.size + h.comp) := if_pos ht
    exact .bind (table ▸ raises_huffTree rfl hcap hstop)
  · have table : bodyTable h (a + h.size) (a + h.size + h.comp) = huffTree (a + h.size) (a + h.size + h.comp) := if_pos ht
    obtain ⟨v, e, hv⟩ := huffTree_at rfl hcap htree hok
    have bytes := inByte_of_keeps ((touches_huffTree _ _).ok e) (by decide)
    exact .after (table ▸ e) (raises_streams bytes hv (treeAt_bounds htree).2 hcap hmin hmax hstop)
  · have held : bodyTable h (a + h.size) (a + h.size + h.comp) s = .ok 0 s := by
      unfold bodyTable
      rw [if_neg (by rw [ht]; decide)]
      exact bind_of_ok (ensure_of (hvalid ht))
    exact .after held (raises_streams rfl rfl (Nat.le_add_right _ _) hcap hmin hmax hstop)

/-- A section whose size checks pass stops in its body (R230). -/
theorem raises_litSection_body (hranges : RangesOk s) (hlim : lim ≤ Config.inCap)
    (hstreams : h.streams = 1 ∨ h.streams = 4) (herr : litError h a lim s.blockMax.toNat s.ht.valid = none)
    (hstop : litBodyStops s h a c) : Raises (litSection h a lim) s c := by
  have hcoded : h.type = .compressed ∨ h.type = .treeless := hstop.imp And.left And.left
  obtain ⟨hsize, hregen, hmin, hbody, hvalid⟩ := litError_eq_none hstreams hcoded herr
  refine .pass hsize (.after (ensure_of hregen) (.bind ?_))
  rw [litBody_of_coded hcoded]
  exact .pass hmin (.pass hbody (.bind (raises_codedBody (hbody.trans hlim) hmin
    (hregen.trans (hranges.blockMax.2.trans (by decide))) hvalid hstop)))

/-- LitDecode stops where the section stops whose header it reads, or at that header where the limit cuts it (R230). -/
theorem raises_litDecode (hhead : headerAt s a h) (hempty : a + 1 ≤ lim) (hlim : lim ≤ Config.inCap)
    (hstop : Raises (litSection h a lim) s c) : Raises (litDecode a lim) s c := by
  refine .pass hempty (.after (readIn_of_lt (by omega)) ?_)
  rw [headerAt_first hhead]
  by_cases hsize : a + h.size ≤ lim
  · obtain ⟨bs, e, rfl⟩ := readBytes_of_headerAt hhead (hsize.trans hlim)
    exact .pass hsize (.after e hstop)
  · have : c = .litHeader := by
      obtain ⟨t, e⟩ := hstop
      unfold litSection at e
      rw [bind_of_error (ensure_of_not hsize)] at e
      cases e
      rfl
    exact this ▸ .bind (.ensure hsize)

end Sys2Proof.Machine
end

section
/-! CERTIFICATE. The errors of a literals section, in the order of R230. -/

open Sys2Proof Sys2Proof.Machine

namespace Sys2Proof.Machine

variable {s : State} {i : Instr} {h : LitHeader} {a lim : Nat} {c : Cause}

theorem litDecode_status {a0 a1 : Word} (hn : noError s = true) (hregion : a0.toNat ≤ a1.toNat ∧ a1.toNat ≤ s.inLen.toNat)
    (hstop : Raises (litDecode a0.toNat a1.toNat) s c) :
    ∃ t, exec (.litDecode a0 a1) s = .next t ∧ t.status = packStatus c 0x40 :=
  Raises.status (.of_eq (checkRegion_bind_of hregion) (.bind hstop)) hn

/-- A LITHDR row runs the section from its header on (R230, log 14). -/
theorem exec_lithdr (hrow : headerOf i = some h) : exec i s = runLitHeader h s := by
  cases i <;> cases hrow <;> rfl

/-- The section that a region holds raises what its part after the header raises. -/
theorem litRegion_status (hn : noError s = true) (hcap : s.inLen.toNat ≤ Config.inCap) (hregion : litRegion i s h a lim)
    (hstop : Raises (litSection h a lim) s c) : ∃ t, exec i s = .next t ∧ t.status = packStatus c 0x40 := by
  cases i with
  | litDecode a0 a1 =>
    obtain ⟨rfl, rfl, hle, hlim, hempty, hhead⟩ := hregion
    exact litDecode_status hn ⟨hle, hlim⟩ (raises_litDecode hhead hempty (hlim.trans hcap) hstop)
  | _ =>
    obtain ⟨hrow, rfl, rfl⟩ := hregion
    exact exec_lithdr hrow ▸ Raises.status (.look (.bind hstop)) hn

/-- A region lies in the declared input, and its header is a row's. -/
theorem litRegion_bounds (hregion : litRegion i s h a lim) : lim ≤ s.inLen.toNat ∧ (h.streams = 1 ∨ h.streams = 4) := by
  cases i with
  | litDecode a0 a1 =>
    obtain ⟨-, -, -, hlim, -, _, _, hrow, -⟩ := hregion
    exact ⟨hlim, headerOf_streams hrow⟩
  | _ =>
    obtain ⟨hrow, -, hlim⟩ := hregion
    exact ⟨hlim.le, headerOf_streams hrow⟩

end Sys2Proof.Machine

/-- Settles O46: each check of R230 is met only where those before it hold, and the streams are followed one by one. -/
theorem literalsErrorsInOrder : Obligations.LiteralsErrorsInOrder := by
  refine ⟨fun i s h a lim c hn hranges hregion hstop => ?_, fun a0 a1 s hn => ⟨fun h hlim => ?_, fun hlt hlim hcap hcut => ?_,
    fun h => runCommand_illegal hn rfl (raises_checkRegion h)⟩⟩
  · obtain ⟨hlim, hstreams⟩ := litRegion_bounds hregion
    refine litRegion_status hn hranges.inLen hregion ?_
    rcases hstop with herr | ⟨herr, hstop⟩
    · exact raises_litSection hstreams herr
    · exact raises_litSection_body hranges (hlim.trans hranges.inLen) hstreams herr hstop
  · subst h
    exact litDecode_status hn ⟨le_rfl, hlim⟩ (.bind (.ensure (by omega)))
  · refine litDecode_status hn ⟨hlt.le, hlim⟩ (.pass hlt (.after (readIn_of_lt (hlt.trans_le (hlim.trans hcap))) ?_))
    rw [litHeaderBytes_eq] at hcut
    exact .bind (.ensure (not_le.mpr hcut))
end

section
/-! SUPPORT. How the checks of the FSE commands that work on a state register pass, and what the state functions do after
them (R37, R159, R165 to R167). -/

open Sys2Proof Sys2Proof.Machine

namespace Sys2Proof.Machine

variable {β : Type} {s t : State} {x : SSel} {r : RSel}

/-! ## The order of the checks: reader, state, table, readiness, range -/

theorem selectReader_selectState_bind (g : RSel → SSel → Op β) :
    (selectReader (readerCode r) >>= fun r => selectState (stateCode x) >>= fun x => g r x) s = g r x s :=
  (bind_of_ok (selectReader_of (readerOf_code r) s)).trans (bind_of_ok (selectState_of (stateOf_code x) s))

theorem needTable_bind_of {g : Unit → Op β} (h : (s.ft.get (tabOf x)).valid = true) : (needTable x >>= g) s = g () s :=
  bind_of_ok ((needTable_apply x s).trans (if_pos h))

theorem needReader_bind_of {g : Unit → Op β} (h : (s.rr.get r).valid = true) : (needReader r >>= g) s = g () s :=
  bind_of_ok ((needReader_apply r s).trans (if_pos h))

theorem needInTable_bind_of {g : Unit → Op β} (h : StateIn s x) : (needInTable x >>= g) s = g () s :=
  bind_of_ok ((needInTable_apply x s).trans (if_pos (decide_eq_true (show _ < _ from h))))

theorem raises_needInTable {g : Unit → Op β} (h : 2 ^ (s.ft.get (tabOf x)).al.toNat ≤ (s.st.get x).toNat) :
    Raises (needInTable x >>= g) s .notReady := .bind (.look (.ensure (by simpa using h)))

/-- A table that is not valid is not ready, whatever the check after it says where it is (R37). -/
theorem raises_needTable {g : Unit → Op β} (h : (s.ft.get (tabOf x)).valid = true → Raises (g ()) s .notReady) :
    Raises (needTable x >>= g) s .notReady := by
  by_cases hv : (s.ft.get (tabOf x)).valid = true
  · exact .of_eq (needTable_bind_of hv) (h hv)
  · exact .bind (.look (.ensure hv))

/-- A reader that is not valid is not ready, whatever the check after it says where it is (R37). -/
theorem raises_needReader {g : Unit → Op β} (h : (s.rr.get r).valid = true → Raises (g ()) s .notReady) :
    Raises (needReader r >>= g) s .notReady := by
  by_cases hv : (s.rr.get r).valid = true
  · exact .of_eq (needReader_bind_of hv) (h hv)
  · exact .bind (.look (.ensure hv))

/-! ## The state functions over undisturbed bytes (R159) -/

/-- InitState reads AL bits into the state register. -/
theorem initState_of_fresh (hr : readerInRange (s.rr.get r) = true) (hs : s.rrStale.get r = false) :
    initState x r s = .ok () { s with
      st := s.st.set x (BitVec.ofNat 9
        (streamBits s (s.rr.get r).base.toNat (s.rr.get r).pos.toInt (s.ft.get (tabOf x)).al.toNat))
      rr := s.rr.set r { s.rr.get r with pos := posAfter (s.rr.get r).pos (s.ft.get (tabOf x)).al.toNat } } :=
  bind_of_ok (rread_of_fresh hr hs)

/-- UpdState reads the NB bits of its entry and adds them to BASE. -/
theorem updState_of_fresh {e : FseEntry} (he : (s.ft.get (tabOf x)).entries[(s.st.get x).toNat]? = some e)
    (hr : readerInRange (s.rr.get r) = true) (hs : s.rrStale.get r = false) :
    updState x r s = .ok () { s with
      st := s.st.set x (BitVec.ofNat 9
        (e.base.toNat + streamBits s (s.rr.get r).base.toNat (s.rr.get r).pos.toInt e.nb.toNat))
      rr := s.rr.set r { s.rr.get r with pos := posAfter (s.rr.get r).pos e.nb.toNat } } := by
  unfold updState
  rw [bind_of_ok (look_apply _ s), StateAt.entry ⟨rfl, rfl⟩ he]
  exact bind_of_ok (rread_of_fresh hr hs)

/-- An entry that the state register names lies in its table. -/
theorem stateIn_of_entry {e : FseEntry} (h : tableOkFor (tabOf x) (s.ft.get (tabOf x)))
    (he : (s.ft.get (tabOf x)).entries[(s.st.get x).toNat]? = some e) : StateIn s x := by
  obtain ⟨hlt, -⟩ := List.getElem?_eq_some_iff.mp he
  rwa [h.2.1] at hlt

end Sys2Proof.Machine
end

section
/-! CERTIFICATE. The commands of FSE that place a distribution or a whole table, or work on a state register (42_fse.md). -/

open Sys2Proof Sys2Proof.Machine

/-- Settles O30: LoadPredef writes DIST alone; the selectors above ML stop at a check. -/
theorem fsePredefLoadsTheRow : Obligations.FsePredefLoadsTheRow := by
  intro s hn
  have raised : ∀ t : BitVec 3, 2 < t.toNat → tableOf? t = none ∨ tableOf? t = some .hw := by decide
  refine ⟨runCommand_of_ok hn rfl, runCommand_of_ok hn rfl, runCommand_of_ok hn rfl, fun t ht => ?_⟩
  refine runCommand_illegal hn rfl ?_
  rcases raised t ht with h | h
  · exact .bind ⟨s, by rw [selectTable, h]; rfl⟩
  · exact .after (selectTable_of h s) (.bind (.ensure (by decide)))

/-- Settles O33: each of the two commands makes one check, and FSE_RLE writes its table after it. -/
theorem fseRleAndRepeat : Obligations.FseRleAndRepeat := by
  intro t a0 s hn
  have selected := selectTable_of (tableOf_code t) s
  refine ⟨fun h => ?_, fun h => ?_, fun h => ?_, fun h => ?_⟩
  · exact runCommand_of_ok hn ((bind_of_ok selected).trans (bind_of_ok (ensure_of h)))
  · exact ⟨_, runCommand_of_raise hn ((bind_of_ok selected).trans (bind_of_error (ensure_of_not (not_le.mpr h)))),
      takeError_status hn, takeError_ft_valid rfl t⟩
  · exact runCommand_of_ok hn ((bind_of_ok selected).trans (ensure_of h))
  · exact runCommand_onlyStatus hn (by decide) (.after selected (.look (.ensure (by simp [h]))))

/-- Settles O34: AL bits of the stream name an entry of the table. -/
theorem fseInitstReadsAState : Obligations.FseInitstReadsAState := by
  intro x r s hn
  refine ⟨fun hv hok hrv hrr hs => ?_, fun h => ?_⟩
  · have hlt := streamBits_lt s (s.rr.get r).base.toNat (s.rr.get r).pos.toInt (s.ft.get (tabOf x)).al.toNat
    have hst := toNat_ofNat_of_lt (w := 9) (hlt.trans_le hok.size)
    refine ⟨_, _, hst, by rwa [hst], posAfter_toInt _ _, runCommand_of_ok hn ?_⟩
    rw [selectReader_selectState_bind, needTable_bind_of hv, needReader_bind_of hrv]
    exact initState_of_fresh (hrr hrv).2.1 hs
  · refine runCommand_illegal hn rfl (.of_eq (selectReader_selectState_bind _) (raises_needTable fun hv => ?_))
    exact raises_needReader fun hrv => absurd h (by simp [hv, hrv])

/-- Settles O35: the state names an entry of the table, and SymOf changes nothing. -/
theorem fseSymReportsTheSymbol : Obligations.FseSymReportsTheSymbol := by
  intro x s hn
  have selected := selectState_of (stateOf_code x) s
  refine ⟨fun e hv hin he => ?_, fun h => ?_⟩
  · refine runCommand_of_ok hn ((bind_of_ok selected).trans ?_)
    rw [needTable_bind_of hv, needInTable_bind_of hin, bind_of_ok (symOf_at ⟨rfl, rfl⟩ he), setRes_apply,
      BitVec.ofNat_toNat]
  · refine runCommand_illegal hn rfl (.after selected (raises_needTable fun hv => raises_needInTable ?_))
    exact h.resolve_left (by simp [hv])

/-- Settles O36: the NB bits of an entry lead from its BASE to an entry of the same table (R43). -/
theorem fseUpdstAdvancesTheState : Obligations.FseUpdstAdvancesTheState := by
  intro x r s hn
  refine ⟨fun e hv hok hrv hrr hs he => ?_, fun h => ?_⟩
  · have hlt := streamBits_lt s (s.rr.get r).base.toNat (s.rr.get r).pos.toInt e.nb.toNat
    have hentry := (hok.2.2 e (List.mem_of_getElem? he)).2.1
    have hst := toNat_ofNat_of_lt (w := 9) (n := e.base.toNat + streamBits s (s.rr.get r).base.toNat
      (s.rr.get r).pos.toInt e.nb.toNat) (by have := hok.size; omega)
    refine ⟨_, _, hst, by omega, posAfter_toInt _ _, runCommand_of_ok hn ?_⟩
    rw [selectReader_selectState_bind, needTable_bind_of hv, needReader_bind_of hrv,
      needInTable_bind_of (stateIn_of_entry hok he)]
    exact updState_of_fresh he (hrr hrv).2.1 hs
  · refine runCommand_illegal hn rfl (.of_eq (selectReader_selectState_bind _) (raises_needTable fun hv => ?_))
    exact raises_needReader fun hrv => raises_needInTable (by simpa [hv, hrv] using h)
end

section
/-! CERTIFICATE. The errors of a tree description, in the order of R190 to R196. -/

open Sys2Proof Sys2Proof.Machine

namespace Sys2Proof.Machine

variable {α β : Type} {s t : State} {hb a lim : Nat} {c : Cause}

/-! ## HT is written after the last check (R197) -/

/-- An error of `x` leaves HT as `x` found it. -/
def ErrorKeepsHt (x : Op α) : Prop := ∀ s e t, x s = .error e t → t.ht = s.ht

theorem ErrorKeepsHt.bind {x : Op α} {f : α → Op β} {ps : List Part} (h : Touches ps x) (hp : .ht ∉ ps)
    (hf : ∀ a, ErrorKeepsHt (f a)) : ErrorKeepsHt (x >>= f) := fun s e t k => by
  rcases bind_eq_error.mp k with k | ⟨a, u, k, k'⟩
  · exact h.error k .ht hp
  · exact (hf a u e t k').trans (h.ok k .ht hp)

theorem ErrorKeepsHt.ensure_bind {p : Prop} [Decidable p] {f : Unit → Op β} (hf : ErrorKeepsHt (f ())) :
    ErrorKeepsHt (Machine.ensure p c >>= f) := .bind (ps := []) (.ensure p c) (by simp) fun _ => hf

theorem errorKeepsHt_huffBuild (wd : List Byte) : ErrorKeepsHt (huffBuild wd) :=
  huffBuild_eq wd ▸ .ensure_bind (.ensure_bind (.ensure_bind (.ensure_bind (.ensure_bind fun _ _ _ h => nomatch h))))

/-- After HuffBuild no check is left. -/
theorem errorKeepsHt_huffTreeFrom (hb a lim : Nat) : ErrorKeepsHt (huffTreeFrom hb a lim) :=
  .bind (touches_readWeights hb a lim) (by decide) fun out s e t h => by
    rcases bind_eq_error.mp h with h | ⟨_, _, _, h⟩
    · exact errorKeepsHt_huffBuild out.1 s e t h
    · cases h

theorem errorKeepsHt_huffTree (a lim : Nat) : ErrorKeepsHt (huffTree a lim) :=
  .ensure_bind (.bind (ps := []) (touches_readIn a) (by simp) fun _ => errorKeepsHt_huffTreeFrom _ a lim)

/-! ## HT.VALID (R313) -/

/-- HT.VALID after an error of an operation that had not written HT. -/
theorem takeError_ht_valid {op : BitVec 8} {ws : List Element} {c : Cause} (h : t.ht = s.ht) :
    (takeError op ws c s t).ht.valid = s.ht.valid :=
  takeError_induction (p := fun u => u.ht.valid = s.ht.valid) rfl
    (fun e _ u hu => by
      cases e with
      | ht =>
        simp only [unspecifyElement, validAfterError, h]
        cases s.ht.valid <;> rfl
      | _ => exact hu)
    (fun _ _ hu => hu) fun u hu => by rw [recordError_ht, hu]

/-- A command whose operation raises `c` before it writes HT keeps HT.VALID (R313). -/
theorem runCommand_keeps_ht_valid {op : BitVec 8} {ws : List Element} {body : Op Unit} (hn : noError s = true)
    (hstop : Raises body s c) (hkeep : ErrorKeepsHt body) :
    ∃ t, runCommand op ws body s = .next t ∧ t.status = packStatus c op ∧ t.ht.valid = s.ht.valid :=
  let ⟨_, e⟩ := hstop
  ⟨_, runCommand_of_raise hn e, takeError_status hn, takeError_ht_valid (hkeep _ _ _ e)⟩

/-! ## The three ways to a description: HUF_TREE and the two HUFHDR rows -/

/-- RES is written where no error is left. -/
theorem ErrorKeepsHt.setRes {x : Op Nat} (h : ErrorKeepsHt x) : ErrorKeepsHt (x >>= fun v => Machine.setRes v) :=
  fun s e t k => by
    rcases bind_eq_error.mp k with k | ⟨_, _, _, k⟩
    · exact h s e t k
    · cases k

/-- A description in an empty region is past its limit (R190). -/
theorem treeStops_of_empty (h : treeStops s hb a lim c) (hempty : ¬a + 1 ≤ lim) : c = .hufTreeOverrun := by
  rcases h with ⟨-, rfl⟩ | ⟨wd, size, htree, -⟩ | ⟨-, hle, -⟩
  · rfl
  · have := treeAt_bounds (.inl htree)
    omega
  · omega

/-- A HUFHDR row over the whole input stops where the description does (log 14). -/
theorem runHufHeader_stops (hn : noError s = true) (hcap : s.inLen.toNat ≤ Config.inCap)
    (hstop : treeStops s hb 0 s.inLen.toNat c) :
    ∃ t, runHufHeader hb s = .next t ∧ t.status = packStatus c opcHufTree ∧ t.ht.valid = s.ht.valid := by
  refine runCommand_keeps_ht_valid hn (.look ?_) (.bind (ps := []) (.look _) (by simp) fun lim =>
    .ensure_bind (errorKeepsHt_huffTreeFrom hb 0 lim).setRes)
  by_cases hempty : 0 + 1 ≤ s.inLen.toNat
  · exact .pass hempty (.bind (raises_huffTreeFrom rfl hcap hstop))
  · exact treeStops_of_empty hstop hempty ▸ .bind (.ensure hempty)

end Sys2Proof.Machine

/-- Settles O39: the description is followed to the check that fails, and HuffBuild writes HT after its checks. -/
theorem hufTreeErrorsInOrder : Obligations.HufTreeErrorsInOrder := by
  refine ⟨fun i s hb a lim c hn hcap hregion hstop => ?_, fun a0 a1 s hn h =>
    runCommand_illegal hn rfl (raises_checkRegion h)⟩
  cases i with
  | hufTree a0 a1 =>
    obtain ⟨rfl, rfl, rfl, hle, hlim⟩ := hregion
    exact runCommand_keeps_ht_valid hn
      (.of_eq (checkRegion_bind_of ⟨hle, hlim⟩) (.bind (raises_huffTree rfl (hlim.trans hcap) hstop)))
      (.bind (ps := []) (touches_checkRegion _ _) (by simp) fun _ => (errorKeepsHt_huffTree _ _).setRes)
  | hufhdrFse x =>
    obtain ⟨rfl, rfl, rfl⟩ := hregion
    exact runHufHeader_stops hn hcap hstop
  | hufhdrRaw x =>
    obtain ⟨rfl, rfl, rfl⟩ := hregion
    exact runHufHeader_stops hn hcap hstop
  | _ => exact hregion.elim
end

section
/-! SUPPORT. Where BuildTable puts the symbols (R153, R154): the slots as a list of positions, each with its symbol, and the
entries as what their slots and the slots below say (R155). -/

namespace Sys2Proof.Machine

/-! ## Slots written one after another -/

/-- Each position of a list gets the symbol that stands beside it. -/
def placeAll : (ps xs : List Nat) → (slots : List (Option Nat)) → List (Option Nat)
  | p :: ps, x :: xs, slots => placeAll ps xs (slots.set p (some x))
  | _, _, slots => slots

@[simp] theorem placeAll_nil (xs : List Nat) (slots : List (Option Nat)) : placeAll [] xs slots = slots := rfl
@[simp] theorem placeAll_cons (p x : Nat) (ps xs : List Nat) (slots : List (Option Nat)) :
    placeAll (p :: ps) (x :: xs) slots = placeAll ps xs (slots.set p (some x)) := rfl

theorem placeAll_append : ∀ {ps xs : List Nat} (qs ys : List Nat) (slots : List (Option Nat)), ps.length = xs.length →
    placeAll (ps ++ qs) (xs ++ ys) slots = placeAll qs ys (placeAll ps xs slots)
  | [], [], _, _, _, _ => rfl
  | p :: ps, x :: xs, qs, ys, _, h => placeAll_append (ps := ps) (xs := xs) qs ys _ (by simpa using h)

theorem placeAll_of_notMem {p : Nat} : ∀ {ps xs : List Nat} {slots : List (Option Nat)}, p ∉ ps →
    (placeAll ps xs slots)[p]? = slots[p]?
  | [], _, _, _ => rfl
  | _ :: _, [], _, _ => rfl
  | q :: ps, x :: xs, slots, h => by
    rw [List.mem_cons, not_or] at h
    rw [placeAll_cons, placeAll_of_notMem h.2, List.getElem?_set_ne (Ne.symm h.1)]

theorem length_placeAll : ∀ (ps xs : List Nat) (slots : List (Option Nat)), (placeAll ps xs slots).length = slots.length
  | [], _, _ => rfl
  | _ :: _, [], _ => rfl
  | p :: ps, x :: xs, slots => by rw [placeAll_cons, length_placeAll, List.length_set]

/-- Distinct positions hold the symbols they got. -/
theorem map_placeAll : ∀ {ps xs : List Nat} {slots : List (Option Nat)}, ps.Nodup → ps.length = xs.length →
    (∀ p ∈ ps, p < slots.length) → ps.map (fun p => (placeAll ps xs slots)[p]?) = xs.map fun x => some (some x)
  | [], [], _, _, _, _ => rfl
  | p :: ps, x :: xs, slots, hnodup, hlen, hlt => by
    rw [List.nodup_cons] at hnodup
    have first : (placeAll ps xs (slots.set p (some x)))[p]? = some (some x) := by
      rw [placeAll_of_notMem hnodup.1, List.getElem?_set_self (hlt p (by simp))]
    have rest := map_placeAll (slots := slots.set p (some x)) hnodup.2 (by simpa using hlen)
      fun q hq => by rw [List.length_set]; exact hlt q (by simp [hq])
    simp only [placeAll_cons, List.map_cons, first, rest]

/-- Where the positions are all the slots, the slots hold the symbols in some order. -/
theorem placeAll_perm {ps xs : List Nat} {slots : List (Option Nat)} (hps : ps.Perm (List.range slots.length))
    (hlen : ps.length = xs.length) : (placeAll ps xs slots).Perm (xs.map some) := by
  have all : (List.range slots.length).map (fun p => (placeAll ps xs slots)[p]?) = (placeAll ps xs slots).map some := by
    refine List.ext_getElem (by simp [length_placeAll]) fun i h1 h2 => ?_
    rw [List.length_map] at h2
    simp [h2]
  have held := map_placeAll (slots := slots) (hps.nodup_iff.mpr List.nodup_range) hlen
    fun p hp => List.mem_range.mp (hps.mem_iff.mp hp)
  refine (List.map_perm_map_iff (Option.some_injective _)).mp ?_
  rw [← all, List.map_map]
  exact ((hps.map _).symm.trans (.of_eq held))

/-! ## Step 1: the symbols of count -1 (R153) -/

/-- The highest `n` of the slots below `free`, downward. -/
def topSlots (free n : Nat) : List Nat := (List.range n).map fun j => free - 1 - j

theorem topSlots_succ (free n : Nat) : topSlots free (n + 1) = (free - 1) :: topSlots (free - 1) n := by
  rw [topSlots, List.range_succ_eq_map, List.map_cons, List.map_map]
  refine congrArg _ (List.map_congr_left fun j _ => ?_)
  simp only [Function.comp_apply]
  omega

@[simp] theorem length_topSlots (free n : Nat) : (topSlots free n).length = n := by simp [topSlots]

theorem lowSymbols_cons (c : Int) (counts : List Int) :
    lowSymbols (c :: counts) = (if c = -1 then [0] else []) ++ (lowSymbols counts).map Nat.succ := by
  rw [lowSymbols, List.length_cons, List.range_succ_eq_map, List.filter_cons, List.filter_map]
  simp only [List.getD_cons_zero, decide_eq_true_eq]
  split_ifs <;> rfl

theorem length_lowSymbols (counts : List Int) : (lowSymbols counts).length = counts.count (-1) := by
  induction counts with
  | nil => rfl
  | cons c counts ih =>
    rw [lowSymbols_cons, List.length_append, List.length_map, ih, List.count_cons]
    by_cases hc : c = -1
    · simp [hc]; omega
    · simp [hc]

theorem placeLow_eq : ∀ (counts : List Int) (sym : Nat) (slots : List (Option Nat)) (free : Nat),
    placeLow counts sym slots free =
      (placeAll (topSlots free (counts.count (-1))) ((lowSymbols counts).map (sym + ·)) slots, free - counts.count (-1))
  | [], _, _, _ => rfl
  | c :: counts, sym, slots, free => by
    have shift : ((lowSymbols counts).map Nat.succ).map (sym + ·) = (lowSymbols counts).map (sym + 1 + ·) := by
      rw [List.map_map]
      exact List.map_congr_left fun x _ => by simp only [Function.comp_apply]; omega
    rw [lowSymbols_cons, List.map_append, shift, placeLow]
    split_ifs with hc
    · subst hc
      rw [placeLow_eq counts, List.count_cons_self, topSlots_succ]
      simp only [List.map_cons, List.map_nil, List.singleton_append, placeAll_cons, Nat.add_zero]
      congr 1
      omega
    · rw [placeLow_eq counts, List.count_cons_of_ne hc]
      rfl

/-! ## Step 2: the spread (R154) -/

theorem spreadSymbols_cons (c : Int) (counts : List Int) :
    spreadSymbols (c :: counts) = List.replicate c.toNat 0 ++ (spreadSymbols counts).map Nat.succ := by
  rw [spreadSymbols, List.length_cons, List.range_succ_eq_map, List.flatMap_cons, List.flatMap_map, spreadSymbols,
    List.map_flatMap]
  simp

theorem length_spreadSymbols (counts : List Int) : (spreadSymbols counts).length = (counts.map Int.toNat).sum := by
  induction counts with
  | nil => rfl
  | cons c counts ih => simp [spreadSymbols_cons, ih]

theorem spreadSymbol_eq (size free sym : Nat) : ∀ (k : Nat) (slots : List (Option Nat)) (pos : Nat),
    spreadSymbol size free sym k slots pos =
      (placeAll (List.iterate (spreadNext size free size) pos k) (List.replicate k sym) slots,
        (spreadNext size free size)^[k] pos)
  | 0, _, _ => rfl
  | k + 1, slots, pos => by
    rw [spreadSymbol, spreadSymbol_eq size free sym k, List.replicate_succ]
    rfl

/-- The spread walks the slots from `pos`, one for each symbol. -/
theorem spreadAll_eq (size free : Nat) : ∀ (counts : List Int) (sym : Nat) (slots : List (Option Nat)) (pos : Nat),
    spreadAll size free counts sym slots pos =
      (placeAll (List.iterate (spreadNext size free size) pos (counts.map Int.toNat).sum)
          ((spreadSymbols counts).map (sym + ·)) slots,
        (spreadNext size free size)^[(counts.map Int.toNat).sum] pos)
  | [], _, _, _ => rfl
  | c :: counts, sym, slots, pos => by
    have shift : ((spreadSymbols counts).map Nat.succ).map (sym + ·) = (spreadSymbols counts).map (sym + 1 + ·) := by
      rw [List.map_map]
      exact List.map_congr_left fun x _ => by simp only [Function.comp_apply]; omega
    rw [spreadAll, spreadSymbol_eq, spreadAll_eq size free counts, spreadSymbols_cons, List.map_append, shift,
      List.map_replicate, List.map_cons, List.sum_cons, List.iterate_add, placeAll_append _ _ _ (by simp),
      Nat.add_comm c.toNat, Function.iterate_add_apply]
    rfl

theorem spreadPositions_eq (size low : Nat) :
    spreadPositions size low = ((List.range size).map (spreadPos size)).filter fun p => p < size - low := rfl

/-- The positions of the spread from the `m`th on, those not below `free` skipped. -/
def positionsFrom (size free m : Nat) : List Nat :=
  ((List.range' m (size - m)).map (spreadPos size)).filter fun p => p < free

theorem positionsFrom_zero (size low : Nat) : positionsFrom size (size - low) 0 = spreadPositions size low := by
  rw [positionsFrom, Nat.sub_zero, ← List.range_eq_range', spreadPositions_eq]

theorem positionsFrom_size (size free : Nat) : positionsFrom size free size = [] := by simp [positionsFrom]

/-- Positions that are skipped do not count. -/
theorem positionsFrom_skip {size free m m' : Nat} (h1 : m ≤ m') (h2 : m' ≤ size)
    (hskip : ∀ k, m ≤ k → k < m' → ¬spreadPos size k < free) : positionsFrom size free m = positionsFrom size free m' := by
  have split : List.range' m (size - m) = List.range' m (m' - m) ++ List.range' m' (size - m') := by
    rw [show size - m = (m' - m) + (size - m') by omega, ← List.range'_append_1, show m + (m' - m) = m' by omega]
  have skipped : ((List.range' m (m' - m)).map (spreadPos size)).filter (fun p => p < free) = [] := by
    rw [List.filter_eq_nil_iff]
    intro p hp
    obtain ⟨k, hk, rfl⟩ := List.mem_map.mp hp
    rw [List.mem_range'_1] at hk
    simpa using hskip k hk.1 (by omega)
  rw [positionsFrom, split, List.map_append, List.filter_append, skipped, List.nil_append, positionsFrom]

theorem positionsFrom_cons {size free m : Nat} (hm : m < size) (hfree : spreadPos size m < free) :
    positionsFrom size free m = spreadPos size m :: positionsFrom size free (m + 1) := by
  rw [positionsFrom, show size - m = (size - (m + 1)) + 1 by omega, List.range'_succ, List.map_cons, List.filter_cons,
    if_pos (by simpa using hfree)]
  rfl

/-- A walk from the `m`th position visits the positions from there on, and ends at position 0 (R154). -/
theorem iterate_spreadNext {size free : Nat} (hfree : 0 < free) : ∀ (d m : Nat), m + d = size → spreadPos size m < free →
    List.iterate (spreadNext size free size) (spreadPos size m) (positionsFrom size free m).length = positionsFrom size free m ∧
      (spreadNext size free size)^[(positionsFrom size free m).length] (spreadPos size m) = 0 := by
  intro d
  induction d using Nat.strong_induction_on with
  | _ d ih =>
    intro m hm hlow
    obtain rfl | hlt := Nat.eq_zero_or_pos d
    · obtain rfl : m = size := hm
      simp [positionsFrom_size]
    · obtain ⟨m', h1, h2, hnext, hlow', hskip⟩ :=
        spreadNext_spec (size := size) (free := free) (last := size) (by simpa using hfree) size m (by omega) (by omega)
      have rest := ih (size - m') (by omega) m' (by omega) hlow'
      rw [positionsFrom_cons (by omega) hlow, positionsFrom_skip (m' := m') (by omega) h2 fun k hk => hskip k (by omega),
        List.length_cons, List.iterate, Function.iterate_succ_apply, hnext, rest.1]
      exact ⟨rfl, rest.2⟩

/-! ## The slots of a table (R153, R154) -/

theorem mem_topSlots {size n p : Nat} (h : n ≤ size) : p ∈ topSlots size n ↔ size - n ≤ p ∧ p < size := by
  simp only [topSlots, List.mem_map, List.mem_range]
  exact ⟨by rintro ⟨j, hj, rfl⟩; omega, fun hp => ⟨size - 1 - p, by omega, by omega⟩⟩

theorem nodup_topSlots {size n : Nat} (h : n ≤ size) : (topSlots size n).Nodup :=
  List.nodup_range.map_on fun i hi j hj e => by
    rw [List.mem_range] at hi hj
    omega

theorem mem_spreadPositions {al low p : Nat} (hal : 5 ≤ al) : p ∈ spreadPositions (2 ^ al) low ↔ p < 2 ^ al - low := by
  have round : p ∈ (List.range (2 ^ al)).map (spreadPos (2 ^ al)) ↔ p < 2 ^ al := by
    rw [← Finset.mem_range, ← image_spreadPos hal]
    simp
  rw [spreadPositions_eq, List.mem_filter, round, decide_eq_true_eq]
  omega

theorem nodup_spreadPositions {al : Nat} (hal : 5 ≤ al) (low : Nat) : (spreadPositions (2 ^ al) low).Nodup :=
  (List.nodup_range.map_on fun i hi j hj e => spreadPos_injOn hal (by simpa using hi) (by simpa using hj) e).filter _

/-- The positions BuildTable writes, in its order. -/
def slotOrder (al : Nat) (counts : List Int) : List Nat :=
  topSlots (2 ^ al) (lowSymbols counts).length ++ spreadPositions (2 ^ al) (lowSymbols counts).length

/-- The symbols it writes there. -/
def slotSymbols (counts : List Int) : List Nat := lowSymbols counts ++ spreadSymbols counts

section
variable {al : Nat} {counts : List Int} (hal : 5 ≤ al) (hc : ∀ c ∈ counts, -1 ≤ c)
  (hsum : (counts.map Int.natAbs).sum = 2 ^ al)

include hal in
/-- Each slot is written once. -/
theorem slotOrder_perm (hlow : (lowSymbols counts).length ≤ 2 ^ al) : (slotOrder al counts).Perm (List.range (2 ^ al)) := by
  have apart : (topSlots (2 ^ al) (lowSymbols counts).length).Disjoint (spreadPositions (2 ^ al) (lowSymbols counts).length) :=
    fun p hp hp' => by
      rw [mem_topSlots hlow] at hp
      rw [mem_spreadPositions hal] at hp'
      omega
  refine (List.perm_ext_iff_of_nodup (List.nodup_append'.mpr
    ⟨nodup_topSlots hlow, nodup_spreadPositions hal _, apart⟩) List.nodup_range).mpr fun p => ?_
  rw [List.mem_append, mem_topSlots hlow, mem_spreadPositions hal, List.mem_range]
  omega

include hc hsum in
theorem length_slotSymbols : (slotSymbols counts).length = 2 ^ al := by
  rw [slotSymbols, List.length_append, length_lowSymbols, length_spreadSymbols, ← sum_natAbs_eq hc, hsum]

include hal hc hsum in
/-- The slots of a table hold their symbols in the order of R153 and R154, and the spread ends at position 0. -/
theorem spreadSlots_eq : spreadSlots al counts =
    (placeAll (slotOrder al counts) (slotSymbols counts) (List.replicate (2 ^ al) none), true) := by
  have mass := sum_natAbs_eq hc
  have nlow := length_lowSymbols counts
  have order := (slotOrder_perm hal (counts := counts) (by omega)).length_eq
  rw [slotOrder, List.length_append, length_topSlots, List.length_range, ← positionsFrom_zero] at order
  have walk : List.iterate (spreadNext (2 ^ al) (2 ^ al - counts.count (-1)) (2 ^ al)) 0 (counts.map Int.toNat).sum =
        positionsFrom (2 ^ al) (2 ^ al - counts.count (-1)) 0 ∧
      (spreadNext (2 ^ al) (2 ^ al - counts.count (-1)) (2 ^ al))^[(counts.map Int.toNat).sum] 0 = 0 := by
    rw [nlow] at order
    obtain hnone | hfree := Nat.eq_zero_or_pos (2 ^ al - counts.count (-1))
    · rw [show (counts.map Int.toNat).sum = 0 by omega,
        List.eq_nil_of_length_eq_zero (l := positionsFrom (2 ^ al) (2 ^ al - counts.count (-1)) 0) (by omega)]
      exact ⟨rfl, rfl⟩
    · have walked := iterate_spreadNext (size := 2 ^ al) hfree (2 ^ al) 0 (by omega) (by simpa using hfree)
      rw [spreadPos_zero, show (positionsFrom (2 ^ al) (2 ^ al - counts.count (-1)) 0).length = (counts.map Int.toNat).sum
        by omega] at walked
      exact walked
  unfold spreadSlots
  simp only [placeLow_eq, spreadAll_eq, walk.1, walk.2, Nat.zero_add, List.map_id']
  rw [slotOrder, slotSymbols, placeAll_append _ _ _ (by simp), nlow, ← positionsFrom_zero]
  rfl

end

end Sys2Proof.Machine
end

section
/-! SUPPORT. The entries BuildTable writes (R155, R156): each slot's symbol, and the counter its NB and BASE come from. -/

namespace Sys2Proof.Machine

/-! ## How often a symbol is placed -/

theorem count_lowSymbols : ∀ (counts : List Int) (x : Nat),
    (lowSymbols counts).count x = if counts.getD x 0 = -1 then 1 else 0
  | [], _ => rfl
  | c :: counts, 0 => by
    have later : ((lowSymbols counts).map Nat.succ).count 0 = 0 := List.count_eq_zero.mpr (by simp)
    rw [lowSymbols_cons, List.count_append, later, List.getD_cons_zero]
    split_ifs <;> rfl
  | c :: counts, x + 1 => by
    have later := List.count_map_of_injective (lowSymbols counts) Nat.succ Nat.succ_injective x
    have first : (if c = -1 then [0] else []).count (x + 1) = 0 := by split_ifs <;> simp
    rw [lowSymbols_cons, List.count_append, first, later, count_lowSymbols counts x, List.getD_cons_succ, Nat.zero_add]

theorem count_spreadSymbols : ∀ (counts : List Int) (x : Nat), (spreadSymbols counts).count x = (counts.getD x 0).toNat
  | [], _ => rfl
  | c :: counts, 0 => by
    have later : ((spreadSymbols counts).map Nat.succ).count 0 = 0 := List.count_eq_zero.mpr (by simp)
    rw [spreadSymbols_cons, List.count_append, later, List.count_replicate_self, List.getD_cons_zero, Nat.add_zero]
  | c :: counts, x + 1 => by
    have later := List.count_map_of_injective (spreadSymbols counts) Nat.succ Nat.succ_injective x
    have first : (List.replicate c.toNat 0).count (x + 1) = 0 := List.count_eq_zero.mpr (by simp)
    rw [spreadSymbols_cons, List.count_append, first, later, count_spreadSymbols counts x, List.getD_cons_succ, Nat.zero_add]

/-- A symbol is placed as often as R156 says. -/
theorem count_slotSymbols {counts : List Int} (hc : ∀ c ∈ counts, -1 ≤ c) (x : Nat) :
    (slotSymbols counts).count x = occupancy counts x := by
  have hx : -1 ≤ counts.getD x 0 := by
    rw [List.getD_eq_getElem?_getD]
    cases h : counts[x]? with
    | none => decide
    | some c => exact hc c (List.mem_of_getElem? h)
  rw [slotSymbols, List.count_append, count_lowSymbols, count_spreadSymbols, occupancy]
  split_ifs <;> omega

/-- A symbol that is placed has a count (R156). -/
theorem getD_ne_zero_of_mem_slotSymbols {counts : List Int} (hc : ∀ c ∈ counts, -1 ≤ c) {x : Nat}
    (h : x ∈ slotSymbols counts) : counts.getD x 0 ≠ 0 := fun h0 => by
  have placed := List.count_pos_iff.mpr h
  rw [count_slotSymbols hc, occupancy, if_pos h0] at placed
  exact absurd placed (lt_irrefl 0)

theorem lt_length_of_getD_ne_zero {counts : List Int} {x : Nat} (h : counts.getD x 0 ≠ 0) : x < counts.length := by
  by_contra hge
  exact h (by rw [List.getD_eq_default _ _ (not_lt.mp hge)])

/-! ## Step 3 (R155) -/

/-- The entry of a slot of symbol `sym` whose counter stands at `x`. -/
def entryOf (al sym x : Nat) : FseEntry :=
  ⟨BitVec.ofNat 8 sym, BitVec.ofNat 4 (al - highbit x), BitVec.ofNat 9 (x * 2 ^ (al - highbit x) - 2 ^ al)⟩

/-- The value of a 9-bit BASE is not cut off. -/
theorem entryOf_fields {al sym x : Nat} (hal : al ≤ 9) (hx : x < 2 ^ (al + 1)) :
    (entryOf al sym x).nb.toNat = al - x.log2 ∧ (entryOf al sym x).base.toNat = x * 2 ^ (al - x.log2) - 2 ^ al := by
  have hlog : x.log2 ≤ al := by
    by_cases h0 : x = 0
    · subst h0; exact Nat.zero_le _
    · exact Nat.lt_succ_iff.mp ((Nat.log2_lt h0).mpr hx)
  have top : x * 2 ^ (al - x.log2) < 2 ^ (al + 1) := by
    calc x * 2 ^ (al - x.log2) < 2 ^ (x.log2 + 1) * 2 ^ (al - x.log2) :=
          Nat.mul_lt_mul_of_pos_right Nat.lt_log2_self (by positivity)
      _ = 2 ^ (al + 1) := by rw [← pow_add, show x.log2 + 1 + (al - x.log2) = al + 1 by omega]
  have small : 2 ^ al ≤ 2 ^ 9 := Nat.pow_le_pow_right (by norm_num) hal
  rw [pow_succ] at top
  unfold entryOf highbit
  exact ⟨toNat_ofNat_of_lt (w := 4) (by omega), toNat_ofNat_of_lt (w := 9) (by omega)⟩

theorem fillEntries_cons (al unset y : Nat) (ys next : List Nat) :
    fillEntries al unset ((y :: ys).map some) next =
      entryOf al y (next.getD y 0) :: fillEntries al unset (ys.map some) (next.set y (next.getD y 0 + 1)) := rfl

theorem map_sym_fillEntries (al unset : Nat) : ∀ (ys next : List Nat),
    (fillEntries al unset (ys.map some) next).map FseEntry.sym = ys.map (BitVec.ofNat 8)
  | [], _ => rfl
  | y :: ys, next => by rw [fillEntries_cons, List.map_cons, List.map_cons, map_sym_fillEntries al unset ys]; rfl

/-- A counter stands at its start and the slots of its symbol before. -/
theorem getElem?_fillEntries (al unset : Nat) : ∀ (ys next : List Nat) (u y : Nat), ys[u]? = some y → y < next.length →
    (fillEntries al unset (ys.map some) next)[u]? = some (entryOf al y (next.getD y 0 + (ys.take u).count y))
  | [], _, _, _, h, _ => by simp at h
  | z :: ys, next, 0, y, h, _ => by
    obtain rfl : z = y := by simpa using h
    rw [fillEntries_cons]
    simp
  | z :: ys, next, u + 1, y, h, hy => by
    have rest := getElem?_fillEntries al unset ys (next.set z (next.getD z 0 + 1)) u y (by simpa using h) (by simpa using hy)
    have moved : (next.set z (next.getD z 0 + 1)).getD y 0 = next.getD y 0 + if z = y then 1 else 0 := by
      split_ifs with e
      · subst e
        rw [List.getD_eq_getElem?_getD, List.getElem?_set_self hy, Option.getD_some]
      · rw [List.getD_eq_getElem?_getD, List.getElem?_set_ne e, ← List.getD_eq_getElem?_getD, Nat.add_zero]
    rw [fillEntries_cons, List.getElem?_cons_succ, rest, moved, List.take_succ_cons, List.count_cons]
    simp only [beq_iff_eq]
    congr 2
    omega

/-! ## The table of a distribution -/

/-- The entries `e` of the table of a distribution, `ys` being the symbols of its slots: where each symbol stands, and what
its entry holds. -/
structure Built (al : Nat) (counts : List Int) (e : List FseEntry) (ys : List Nat) : Prop where
  sym : e.map FseEntry.sym = ys.map (BitVec.ofNat 8)
  perm : ys.Perm (slotSymbols counts)
  order : (slotOrder al counts).map (fun p => ys[p]?) = (slotSymbols counts).map some
  slot : ∀ u y, ys[u]? = some y → e[u]? = some (entryOf al y ((nextCounters counts).getD y 0 + (ys.take u).count y))

section
variable {al : Nat} {counts : List Int} (hal : 5 ≤ al) (hc : ∀ c ∈ counts, -1 ≤ c)
  (hsum : (counts.map Int.natAbs).sum = 2 ^ al)
include hal hc hsum

/-- Every slot has a symbol, and each stands where BuildTable put it. -/
theorem exists_slots : ∃ ys : List Nat, spreadSlots al counts = (ys.map some, true) ∧ ys.Perm (slotSymbols counts) ∧
    (slotOrder al counts).map (fun p => ys[p]?) = (slotSymbols counts).map some := by
  have low : (lowSymbols counts).length ≤ 2 ^ al := by
    have := length_slotSymbols hc hsum
    rw [slotSymbols, List.length_append] at this
    omega
  have order := slotOrder_perm hal low
  have order_length : (slotOrder al counts).length = (slotSymbols counts).length := by
    rw [order.length_eq, List.length_range, length_slotSymbols hc hsum]
  have slots_eq := spreadSlots_eq hal hc hsum
  generalize hslots : placeAll (slotOrder al counts) (slotSymbols counts) (List.replicate (2 ^ al) none) = slots at slots_eq
  have perm : slots.Perm ((slotSymbols counts).map some) := hslots ▸ placeAll_perm (by simpa using order) order_length
  have held : (slotOrder al counts).map (fun p => slots[p]?) = (slotSymbols counts).map fun x => some (some x) :=
    hslots ▸ map_placeAll (order.nodup_iff.mpr List.nodup_range) order_length fun p hp => by
      simpa using order.mem_iff.mp hp
  obtain ⟨ys, rfl⟩ : slots ∈ Set.range (List.map some) := by
    rw [Set.range_list_map]
    intro o ho
    obtain ⟨x, -, rfl⟩ := List.mem_map.mp (perm.mem_iff.mp ho)
    exact ⟨x, rfl⟩
  refine ⟨ys, slots_eq, (List.map_perm_map_iff (Option.some_injective _)).mp perm, ?_⟩
  refine List.map_injective_iff.mpr (Option.map_injective (Option.some_injective Nat)) ?_
  simpa only [List.map_map, Function.comp_def, List.getElem?_map, Option.map_some] using held

theorem exists_built (unset : Nat) : ∃ e ys, buildEntries al unset counts = some e ∧ Built al counts e ys := by
  obtain ⟨ys, slots_eq, perm, order⟩ := exists_slots hal hc hsum
  refine ⟨_, ys, by rw [buildEntries, slots_eq]; rfl, map_sym_fillEntries al unset ys _, perm, order, fun u y hy => ?_⟩
  refine getElem?_fillEntries al unset ys _ u y hy ?_
  rw [nextCounters, List.length_map]
  exact lt_length_of_getD_ne_zero (getD_ne_zero_of_mem_slotSymbols hc (perm.mem_iff.mp (List.mem_of_getElem? hy)))

end

end Sys2Proof.Machine
end

section
/-! CERTIFICATE. The table of FSE_BUILD (R153 to R156, R162). -/

open Sys2Proof Sys2Proof.Machine

namespace Sys2Proof.Machine

variable {s : State} {t : TSel} {al : Nat} {counts : List Int} {e : List FseEntry} {ys : List Nat}

/-! ## Symbols of entries -/

/-- Entries are counted by the symbols of their slots. -/
theorem countP_sym (h : e.map FseEntry.sym = ys.map (BitVec.ofNat 8)) (hlt : ∀ y ∈ ys, y < 256) (x : Byte) :
    e.countP (fun a => a.sym = x) = ys.count x.toNat := by
  have same : ∀ y ∈ ys, ((BitVec.ofNat 8 y == x) = true ↔ (y == x.toNat) = true) := fun y hy => by
    have hy' : (BitVec.ofNat 8 y).toNat = y := toNat_ofNat_of_lt (hlt y hy)
    rw [beq_iff_eq, beq_iff_eq, ← BitVec.toNat_inj, hy']
  calc e.countP (fun a => a.sym = x) = (e.map FseEntry.sym).countP (· == x) := by
        rw [List.countP_map]
        exact List.countP_congr fun a _ => by simp
    _ = ys.countP (· == x.toNat) := by rw [h, List.countP_map]; exact List.countP_congr same

theorem Built.sym_at (h : Built al counts e ys) (p : Nat) :
    (e[p]?).map FseEntry.sym = (ys[p]?).map (BitVec.ofNat 8) := by
  rw [← List.getElem?_map, h.sym, List.getElem?_map]

/-- The low symbols stand in the top slots, the others where the spread passes. -/
theorem Built.order_split (h : Built al counts e ys) :
    (topSlots (2 ^ al) (lowSymbols counts).length).map (fun p => ys[p]?) = (lowSymbols counts).map some ∧
      (spreadPositions (2 ^ al) (lowSymbols counts).length).map (fun p => ys[p]?) = (spreadSymbols counts).map some := by
  have order := h.order
  rw [slotOrder, slotSymbols, List.map_append, List.map_append] at order
  exact List.append_inj order (by simp)

theorem Built.low (h : Built al counts e ys) {j x : Nat} (hj : (lowSymbols counts)[j]? = some x) :
    ys[2 ^ al - 1 - j]? = some x := by
  obtain ⟨hlt, hx⟩ := List.getElem?_eq_some_iff.mp hj
  have at_j := congrArg (·[j]?) h.order_split.1
  simpa [topSlots, hx, hlt] using at_j

section
variable (h : Built al counts e ys) (hc : ∀ c ∈ counts, -1 ≤ c)
include h hc

theorem Built.getD_ne_zero {u y : Nat} (hy : ys[u]? = some y) : counts.getD y 0 ≠ 0 :=
  getD_ne_zero_of_mem_slotSymbols hc (h.perm.mem_iff.mp (List.mem_of_getElem? hy))

variable (hlen : counts.length ≤ 256)
include hlen

theorem Built.lt_256 : ∀ y ∈ ys, y < 256 := fun y hy => by
  obtain ⟨u, hu⟩ := List.getElem?_of_mem hy
  exact (lt_length_of_getD_ne_zero (h.getD_ne_zero hc hu)).trans_le hlen

/-- A symbol occupies as many entries as R156 says. -/
theorem Built.occupancy (x : Byte) : e.countP (fun a => a.sym = x) = Machine.occupancy counts x.toNat := by
  rw [countP_sym h.sym (h.lt_256 hc hlen), h.perm.count_eq, count_slotSymbols hc]

/-- The counter of a slot is the start of its symbol's counter and the slots of that symbol below (R153, R155). -/
theorem Built.slotCounter {u y : Nat} (hy : ys[u]? = some y) :
    slotCounter counts e u (BitVec.ofNat 8 y) = (nextCounters counts).getD y 0 + (ys.take u).count y := by
  have hy' : (BitVec.ofNat 8 y).toNat = y := toNat_ofNat_of_lt (h.lt_256 hc hlen y (List.mem_of_getElem? hy))
  have below : (e.take u).map FseEntry.sym = (ys.take u).map (BitVec.ofNat 8) := by rw [List.map_take, h.sym, List.map_take]
  have start : (nextCounters counts).getD y 0 = (max (counts.getD y 0) 1).toNat := by
    have hne := h.getD_ne_zero hc hy
    obtain ⟨c, hcy⟩ : ∃ c, counts[y]? = some c := ⟨_, List.getElem?_eq_getElem (lt_length_of_getD_ne_zero hne)⟩
    have hlow := hc c (List.mem_of_getElem? hcy)
    rw [List.getD_eq_getElem?_getD, hcy] at hne
    simp only [nextCounters, List.getD_eq_getElem?_getD, List.getElem?_map, hcy, Option.map_some, Option.getD_some] at hne ⊢
    split_ifs <;> omega
  rw [Machine.slotCounter, countP_sym below (fun z hz => h.lt_256 hc hlen z (List.mem_of_mem_take hz)), hy', start]

/-- The entry of a slot (R155). -/
theorem Built.entry (hal : al ≤ 9) (hsum : (counts.map Int.natAbs).sum = 2 ^ al) {u : Nat} {a : FseEntry} (ha : e[u]? = some a) :
    a.nb.toNat = al - (Machine.slotCounter counts e u a.sym).log2 ∧
      a.base.toNat = Machine.slotCounter counts e u a.sym * 2 ^ a.nb.toNat - 2 ^ al := by
  have hsym := h.sym_at u
  obtain ⟨y, hy⟩ : ∃ y, ys[u]? = some y := by
    cases hy : ys[u]? with
    | none => simp [ha, hy] at hsym
    | some y => exact ⟨y, rfl⟩
  have counter := h.slotCounter hc hlen hy
  have start := nextCounters_le counts y
  have below : (ys.take u).count y ≤ u := List.count_le_length.trans (List.length_take_le _ _)
  obtain ⟨hu, -⟩ := List.getElem?_eq_some_iff.mp hy
  rw [h.perm.length_eq, length_slotSymbols hc hsum] at hu
  obtain rfl : entryOf al y ((nextCounters counts).getD y 0 + (ys.take u).count y) = a :=
    Option.some.inj ((h.slot u y hy).symm.trans ha)
  rw [show (entryOf al y _).sym = BitVec.ofNat 8 y from rfl, counter]
  obtain ⟨hnb, hbase⟩ := entryOf_fields (sym := y) hal (x := (nextCounters counts).getD y 0 + (ys.take u).count y)
    (by rw [pow_succ]; omega)
  exact ⟨hnb, by rw [hbase, hnb]⟩

end

/-! ## The command (R162) -/

/-- FSE_BUILD over an accepted distribution writes its table alone. -/
theorem exec_fseBuild (hn : noError s = true) (hv : s.dist.valid = true) (htag : s.dist.tag = t) (hd : distOk s.dist) :
    ∃ e ys, exec (.fseBuild (tableCode t)) s = .next { s with ft := s.ft.set t ⟨true, s.dist.al, e⟩ } ∧
      Built s.dist.al.toNat (distCounts s.dist) e ys ∧ tableOkFor t ⟨true, s.dist.al, e⟩ := by
  obtain ⟨hal, -, -, -, -, hc, hsum⟩ := id hd
  obtain ⟨e, ys, hbuild, hbuilt⟩ := exists_built hal hc hsum (Config.freeNat s.draws .symAt)
  have built : buildTable t s = setTable t ⟨true, s.dist.al, e⟩ s := by
    unfold buildTable
    rw [bind_of_ok (look_apply id s)]
    simp only [id, hbuild]
  refine ⟨e, ys, runCommand_of_ok hn ?_, hbuilt, htag ▸ tableOkFor_of_buildEntries hd hbuild⟩
  exact (bind_of_ok (selectTable_of (tableOf_code t) s)).trans ((bind_of_ok (look_apply _ s)).trans
    ((bind_of_ok (ensure_of ⟨hv, htag⟩)).trans built))

/-- The alphabet of an accepted distribution fits a byte, its accuracy log the 9 bits of BASE (R28, R151). -/
theorem distOk_bounds {d : Dist} (hd : distOk d) : d.al.toNat ≤ 9 ∧ (distCounts d).length ≤ 256 := by
  obtain ⟨-, hlog, -, hlen, -⟩ := hd
  have := maxLog_le d.tag
  have := maxSym_le d.tag
  have : (distCounts d).length = d.counts.length := by simp [distCounts]
  omega

end Sys2Proof.Machine

/-- Settles O31: the slots are the symbols of the distribution in another order. -/
theorem fseBuildOccupancy : Obligations.FseBuildOccupancy := by
  intro t s hn
  refine ⟨fun hv htag hd => ?_, fun h => ?_⟩
  · obtain ⟨e, ys, hexec, built, -, hlen, hentries⟩ := exec_fseBuild hn hv htag hd
    obtain ⟨-, -, -, -, -, hc, -⟩ := id hd
    refine ⟨e, hexec, hlen, built.occupancy hc (distOk_bounds hd).2, fun a ha => ?_⟩
    obtain ⟨hnb, hbase, -⟩ := hentries a ha
    exact ⟨hnb, Nat.sub_le_sub_right hbase 1⟩
  · refine runCommand_illegal hn rfl (.after (selectTable_of (tableOf_code t) s) (.look (.bind (.ensure ?_))))
    rintro ⟨hv, htag⟩
    exact h.elim (by simp [hv]) fun hne => hne htag

/-- Settles O32: the spread visits each slot once and skips those of the low symbols; a slot's counter has moved on once for
each lower slot of its symbol. -/
theorem fseBuildPlacement : Obligations.FseBuildPlacement := by
  intro t s hn hv htag hd
  obtain ⟨e, ys, hexec, built, -⟩ := exec_fseBuild hn hv htag hd
  obtain ⟨hal, hlen⟩ := distOk_bounds hd
  obtain ⟨-, -, -, -, -, hc, hsum⟩ := id hd
  refine ⟨e, hexec, fun j x hj => ?_, ?_, fun u a ha => built.entry hc hlen hal hsum ha⟩
  · rw [built.sym_at, built.low hj, Option.map_some]
  · have spread := congrArg (List.map (Option.map (BitVec.ofNat 8))) built.order_split.2
    simp only [List.map_map, Function.comp_def, Option.map_some] at spread
    simp only [built.sym_at]
    exact spread
end

section
/-! SUPPORT. The canonical code (R197, R198): where the entries of a symbol stand among those of all symbols, and that each
block is aligned and the blocks fill the table. -/

namespace Sys2Proof.Machine

variable {all : List Byte} {maxLen w x : Nat}

/-! ## Masses of some of the weights -/

/-- The mass of the weights that meet `p` (R194). -/
def massIf (p : Nat → Prop) [DecidablePred p] (wd : List Byte) : Nat := (wd.map fun y => if p y.toNat then mass y else 0).sum

theorem sum_range_getD (f : Byte → Nat) (wd : List Byte) :
    ∑ y ∈ Finset.range wd.length, f (wd.getD y 0) = (wd.map f).sum := by
  rw [Finset.sum_range, ← Fin.sum_univ_fun_getElem]
  exact Finset.sum_congr rfl fun i _ => by rw [List.getD_eq_getElem _ _ i.isLt]

/-- The first entry of a symbol comes after those of lower weight, and of equal weight and lower symbol (R198). -/
theorem firstEntry_eq (hx : x < all.length) : firstEntry all x =
    massIf (· < (all.getD x 0).toNat) all + massIf (· = (all.getD x 0).toNat) (all.take x) := by
  generalize hw : (all.getD x 0).toNat = w
  have split : ∀ y, (if (all.getD y 0).toNat < w ∨ (all.getD y 0).toNat = w ∧ y < x then mass (all.getD y 0) else 0) =
      (if (all.getD y 0).toNat < w then mass (all.getD y 0) else 0) +
        if y < x then (if (all.getD y 0).toNat = w then mass (all.getD y 0) else 0) else 0 := fun y => by
    split_ifs <;> omega
  have before : ∀ y ∈ Finset.range x, (if (all.getD y 0).toNat = w then mass (all.getD y 0) else 0) =
      if ((all.take x).getD y 0).toNat = w then mass ((all.take x).getD y 0) else 0 := fun y hy => by
    simp [List.getD_eq_getElem?_getD, Finset.mem_range.mp hy]
  have taken := sum_range_getD (fun y => if y.toNat = w then mass y else 0) (all.take x)
  rw [List.length_take_of_le hx.le] at taken
  have low : (Finset.range all.length).filter (· < x) = Finset.range x := by
    ext y
    simp only [Finset.mem_filter, Finset.mem_range]
    omega
  unfold firstEntry massIf
  simp only [hw, split, Finset.sum_add_distrib]
  rw [sum_range_getD (fun y => if y.toNat < w then mass y else 0), ← Finset.sum_filter (· < x), low,
    Finset.sum_congr rfl before, taken]

/-- The mass of weights of at least `w` comes in blocks of 2^(w-1). -/
theorem dvd_massIf {p : Nat → Prop} [DecidablePred p] (h : ∀ n, p n → w ≤ n) (wd : List Byte) :
    2 ^ (w - 1) ∣ massIf p wd := by
  refine List.dvd_sum fun m hm => ?_
  obtain ⟨y, -, rfl⟩ := List.mem_map.mp hm
  unfold mass
  split_ifs with hy
  · exact dvd_zero _
  · exact pow_dvd_pow 2 (Nat.sub_le_sub_right (h _ hy) 1)
  · exact dvd_zero _

/-- The mass of two kinds of weights that have none in common. -/
theorem massIf_add {p q r : Nat → Prop} [DecidablePred p] [DecidablePred q] [DecidablePred r]
    (hpq : ∀ n, p n → ¬q n) (hr : ∀ n, r n ↔ p n ∨ q n) (wd : List Byte) : massIf p wd + massIf q wd = massIf r wd := by
  unfold massIf
  rw [← List.sum_map_add]
  refine congrArg List.sum (List.map_congr_left fun y _ => ?_)
  by_cases hp : p y.toNat
  · simp [hr, hp, hpq _ hp]
  · simp [hr, hp]

theorem massOf_eq_massIf (wd : List Byte) : massOf wd = massIf (fun _ => True) wd := by simp [massOf, massIf]

theorem massIf_lt_one (wd : List Byte) : massIf (· < 1) wd = 0 :=
  List.sum_eq_zero fun m hm => by
    obtain ⟨y, -, rfl⟩ := List.mem_map.mp hm
    unfold mass
    split_ifs <;> omega

/-- A block is aligned, since the blocks at or above it and the whole table are multiples of its size (R198). -/
theorem dvd_firstEntry (hx : x < all.length) (hle : (all.getD x 0).toNat ≤ maxLen) (hsum : massOf all = 2 ^ maxLen) :
    2 ^ ((all.getD x 0).toNat - 1) ∣ firstEntry all x := by
  rw [firstEntry_eq hx]
  generalize (all.getD x 0).toNat = w at hle
  have whole : 2 ^ (w - 1) ∣ massIf (· < w) all + massIf (w ≤ ·) all := by
    rw [massIf_add (fun _ h => not_le.mpr h) (fun n => iff_of_true trivial (lt_or_ge n w)), ← massOf_eq_massIf, hsum]
    exact pow_dvd_pow 2 (by omega)
  exact dvd_add ((Nat.dvd_add_left (dvd_massIf (fun _ h => h) all)).mp whole) (dvd_massIf (fun _ h => h.ge) _)

/-! ## The place of a block -/

theorem entriesOfWeight_append (maxlen w : Nat) : ∀ (pre post : List Byte) (sym : Nat),
    entriesOfWeight maxlen w (pre ++ post) sym =
      entriesOfWeight maxlen w pre sym ++ entriesOfWeight maxlen w post (sym + pre.length)
  | [], _, _ => rfl
  | y :: pre, post, sym => by
    rw [List.cons_append, entriesOfWeight, entriesOfWeight, entriesOfWeight_append maxlen w pre post, List.append_assoc,
      List.length_cons, Nat.add_assoc, Nat.add_comm 1]

/-- The entries of weight `w` are the mass of that weight. -/
theorem length_entriesOfWeight_eq_massIf (maxlen : Nat) (hw : w ≠ 0) (wd : List Byte) (sym : Nat) :
    (entriesOfWeight maxlen w wd sym).length = massIf (· = w) wd := by
  rw [length_entriesOfWeight]
  refine congrArg List.sum (List.map_congr_left fun y _ => ?_)
  unfold mass
  split_ifs with h h0
  · omega
  · rw [h]
  · rfl

/-- The weights below `w` have their entries before those of weight `w`. -/
theorem length_entriesBelow (maxlen : Nat) (wd : List Byte) : ∀ n,
    ((List.range n).flatMap fun k => entriesOfWeight maxlen (k + 1) wd 0).length = massIf (· < n + 1) wd
  | 0 => (massIf_lt_one wd).symm
  | n + 1 => by
    rw [List.range_succ, List.flatMap_append, List.length_append, length_entriesBelow maxlen wd n, List.flatMap_singleton,
      length_entriesOfWeight_eq_massIf maxlen (Nat.succ_ne_zero n)]
    exact massIf_add (fun _ h => h.ne) (fun k => by omega) wd

/-- The entries of weight `n + 1` stand after those of the weights below it. -/
theorem huffEntries_weight {n : Nat} (hn : n < maxLen) (all : List Byte) : huffEntries maxLen all =
    ((List.range n).flatMap fun k => entriesOfWeight maxLen (k + 1) all 0) ++ (entriesOfWeight maxLen (n + 1) all 0 ++
      ((List.range (maxLen - n - 1)).map (n + 1 + ·)).flatMap fun k => entriesOfWeight maxLen (k + 1) all 0) := by
  have parts : List.range maxLen = List.range n ++ n :: (List.range (maxLen - n - 1)).map (n + 1 + ·) := by
    conv_lhs => rw [show maxLen = n + 1 + (maxLen - n - 1) by omega, List.range_add, List.range_succ, List.append_assoc]
    rfl
  rw [huffEntries, parts, List.flatMap_append, List.flatMap_cons]

/-- The entries of symbol `x` stand after those of the symbols of its weight below it. -/
theorem entriesOfWeight_symbol (maxlen : Nat) (hx : x < all.length) (hw : (all.getD x 0).toNat = w) :
    entriesOfWeight maxlen w all 0 = entriesOfWeight maxlen w (all.take x) 0 ++
      (List.replicate (2 ^ (w - 1)) ⟨BitVec.ofNat 8 x, BitVec.ofNat 4 (maxlen + 1 - w)⟩ ++
        entriesOfWeight maxlen w (all.drop (x + 1)) (x + 1)) := by
  have parts : all = all.take x ++ all.getD x 0 :: all.drop (x + 1) := by
    rw [List.getD_eq_getElem _ _ hx, List.getElem_cons_drop, List.take_append_drop]
  conv_lhs => rw [parts, entriesOfWeight_append, entriesOfWeight, if_pos hw, Nat.zero_add, List.length_take_of_le hx.le]

/-- The table around the block of symbol `x`: the entries before it, as many as `firstEntry` says, the block, and the rest. -/
theorem huffEntries_split (hx : x < all.length) (h0 : (all.getD x 0).toNat ≠ 0) (hle : (all.getD x 0).toNat ≤ maxLen) :
    ∃ before after, before.length = firstEntry all x ∧ huffEntries maxLen all = before ++
      (List.replicate (2 ^ ((all.getD x 0).toNat - 1)) ⟨BitVec.ofNat 8 x, BitVec.ofNat 4 (maxLen + 1 - (all.getD x 0).toNat)⟩
        ++ after) := by
  rw [firstEntry_eq hx]
  generalize hw : (all.getD x 0).toNat = w at *
  obtain ⟨n, rfl⟩ := Nat.exists_eq_succ_of_ne_zero h0
  have table := huffEntries_weight hle all
  rw [entriesOfWeight_symbol maxLen hx hw, List.append_assoc, List.append_assoc, ← List.append_assoc] at table
  refine ⟨_, _, ?_, table⟩
  rw [List.length_append, length_entriesBelow, length_entriesOfWeight_eq_massIf _ h0]

/-- Weights of the whole mass 2^maxLen, none above maxLen, have the canonical code (R197, R198). -/
theorem canonicalCode_huffEntries (hle : ∀ y ∈ all, y.toNat ≤ maxLen) (hsum : massOf all = 2 ^ maxLen) :
    canonicalCode maxLen all (huffEntries maxLen all) := by
  refine ⟨(length_huffEntries hle).trans hsum, fun x hx h0 => ?_⟩
  have hlex : (all.getD x 0).toNat ≤ maxLen := by
    rw [List.getD_eq_getElem _ _ hx]
    exact hle _ (List.getElem_mem hx)
  refine ⟨Nat.mod_eq_zero_of_dvd (dvd_firstEntry hx hlex hsum), fun k hk => ?_⟩
  obtain ⟨before, after, hlen, split⟩ := huffEntries_split hx h0 hlex
  rw [split, ← hlen, List.getElem?_append_right (Nat.le_add_right _ _), Nat.add_sub_cancel_left,
    List.getElem?_append_left (by rwa [List.length_replicate]), List.getElem?_replicate, if_pos hk]

/-- The weights that HuffBuild completes have the canonical code. -/
theorem canonicalCode_of_weightsOk {wd : List Byte} {last : Byte} (h : weightsOk wd maxLen last) :
    canonicalCode maxLen (wd ++ [last]) (huffEntries maxLen (wd ++ [last])) := by
  obtain ⟨-, hmass, hmax, -, hlast, hsum, -⟩ := h
  refine canonicalCode_huffEntries (fun y hy => ?_) (by simpa [massOf] using hsum)
  rcases List.mem_append.mp hy with hy | hy
  · exact hmax ▸ weight_le_of_mem hy
  · rw [mass, if_neg (by omega)] at hsum
    have := (Nat.pow_lt_pow_iff_right (a := 2) (by norm_num)).mp (show 2 ^ (last.toNat - 1) < 2 ^ maxLen by omega)
    rw [List.mem_singleton.mp hy]
    omega

end Sys2Proof.Machine
end

section
/-! SUPPORT. HUF_TREE and the two HUFHDR rows, told by the exact state they lead to (R190 to R197, R201): the state in which
the weights were read, with W, NW and HT those of the completed weights. -/

open Sys2Proof Sys2Proof.Machine

namespace Sys2Proof.Machine

variable {i : Instr} {s t : State} {hb a lim size v maxLen : Nat} {wd : List Byte} {last : Byte}

/-! ## HuffBuild (R197) -/

/-- `s` with the completed weights and their code published. -/
def codePublished (maxLen : Nat) (wd : List Byte) (last : Byte) (s : State) : State :=
  { s with w := wd ++ [last], nw := BitVec.ofNat 9 (wd.length + 1), ht := codeTable maxLen (wd ++ [last]) }

/-- Weights that pass the checks are completed by the weight of the missing mass, and nothing else changes. -/
theorem huffBuild_of_weightsOk (h : weightsOk wd maxLen last) (s : State) :
    huffBuild wd s = .ok () (codePublished maxLen wd last s) := by
  obtain ⟨hrange, hmass, rfl, hmax, hlast, hsum, hrank⟩ := h
  rw [mass, if_neg (by omega)] at hsum
  have synthesized : BitVec.ofNat 8 (highbit (2 ^ ((massOf wd).log2 + 1) - massOf wd) + 1) = last := by
    rw [synthesized_eq hsum, Nat.sub_add_cancel hlast, BitVec.ofNat_toNat, BitVec.setWidth_eq]
  rw [huffBuild_eq, synthesized, bind_of_ok (ensure_of hrange), bind_of_ok (ensure_of hmass), bind_of_ok (ensure_of hmax),
    bind_of_ok (ensure_of (ispow2_iff.mpr ⟨_, hsum⟩)), bind_of_ok (ensure_of hrank), List.length_append]
  rfl

/-- HuffTree reads the weights of its description, then publishes their code. -/
theorem huffTreeFrom_of_weights (e : readWeights hb a lim s = .ok (wd, a + size) t) (hok : weightsOk wd maxLen last) :
    huffTreeFrom hb a lim s = .ok size (codePublished maxLen wd last t) := by
  unfold huffTreeFrom
  rw [bind_of_ok e, bind_of_ok (huffBuild_of_weightsOk hok t), Nat.add_sub_cancel_left]
  rfl

/-! ## FSE-coded weights (R192) -/

/-- The registers that FseWeights fills are valid once it has completed. -/
theorem ends_fseWeights_valid (hlim : lim ≤ s.inLen.toNat) : Ends (fseWeights a hb lim) s fun _ t =>
    t.fr.valid = true ∧ t.dist.valid = true ∧ (t.ft.get .hw).valid = true ∧ (t.rr.get .r5).valid = true := by
  refine .ensure_bind fun hlast => (ends_finit (by omega) (by omega)).bind fun _ t1 _ c1 ⟨hfr, hbase, hend, hpos⟩ => ?_
  refine (ends_readNCount .hw hfr).bind fun ws t2 _ c2 ⟨⟨hdist, htag⟩, hws⟩ => ?_
  have hws := hws (by omega) hpos
  refine (ends_buildTable hdist htag).bind fun _ t3 _ c3 hft => ?_
  have hin : t3.inLen = s.inLen := Changes.inLen ((c1.trans c2).trans c3)
  refine (ends_rinit .r5 (by rw [hin]; omega)).bind fun _ t4 _ c4 hr => ?_
  refine (ends_initState .w1 hr).bind fun _ t5 _ c5 _ => ?_
  have hr := c5.keepsValid.rr _ hr
  refine (ends_initState .w2 hr).bind fun _ t6 _ c6 _ => ?_
  have hr := c6.keepsValid.rr _ hr
  refine (ends_weightLoop 128 [] hr).bind fun _ t7 _ c7 _ => .pure ?_
  have kept : KeepsValid t3 t7 := Changes.keepsValid (((c4.trans c5).trans c6).trans c7)
  exact ⟨kept.fr (c3.keepsValid.fr (c2.keepsValid.fr hfr)), kept.dist (c3.keepsValid.dist hdist), kept.ft _ hft,
    c7.keepsValid.rr _ hr⟩

/-! ## The three ways to a description: HUF_TREE and the two HUFHDR rows -/

theorem lim_le_of_treeRegion (h : treeRegion i s hb a lim) : lim ≤ s.inLen.toNat := by
  cases i with
  | hufTree a0 a1 =>
    obtain ⟨-, -, -, -, hlim⟩ := h
    exact hlim
  | hufhdrFse x | hufhdrRaw x =>
    obtain ⟨-, -, rfl⟩ := h
    exact le_rfl
  | _ => exact h.elim

/-- A HUFHDR row over an input that is not empty is HuffTree from its header byte (log 14). -/
theorem runHufHeader_of_ok (hn : noError s = true) (hne : 1 ≤ s.inLen.toNat)
    (e : huffTreeFrom hb 0 s.inLen.toNat s = .ok v t) : runHufHeader hb s = .next { t with res := BitVec.ofNat 32 v } :=
  runCommand_of_ok hn ((bind_of_ok (look_apply _ s)).trans ((bind_of_ok (ensure_of hne)).trans (bind_of_ok e)))

/-- The instruction that parses a description reports what HuffTree returns (R201). -/
theorem exec_of_huffTreeFrom (hn : noError s = true) (hcap : s.inLen.toNat ≤ 131072) (h : treeRegion i s hb a lim)
    (hne : a + 1 ≤ lim) (e : huffTreeFrom hb a lim s = .ok v t) : exec i s = .next { t with res := BitVec.ofNat 32 v } := by
  cases i with
  | hufTree a0 a1 =>
    obtain ⟨rfl, rfl, rfl, hle, hlim⟩ := h
    have tree : huffTree (arg a0) (arg a1) s = .ok v t :=
      (bind_of_ok (ensure_of hne)).trans ((bind_of_ok (readIn_of_lt (hne.trans (hlim.trans hcap)))).trans e)
    exact runCommand_of_ok hn ((checkRegion_bind_of ⟨hle, hlim⟩).trans (bind_of_ok tree))
  | hufhdrFse x | hufhdrRaw x =>
    obtain ⟨rfl, rfl, rfl⟩ := h
    exact runHufHeader_of_ok hn hne e
  | _ => exact h.elim

/-- A description whose weights are read and pass their checks is parsed to its end (R190 to R197). -/
theorem exec_of_readWeights (hn : noError s = true) (hcap : s.inLen.toNat ≤ 131072) (h : treeRegion i s hb a lim)
    (htree : treeAt s hb a lim wd size) (hok : weightsOk wd maxLen last) (e : readWeights hb a lim s = .ok (wd, a + size) t) :
    exec i s = .next { codePublished maxLen wd last t with res := BitVec.ofNat 32 size } :=
  exec_of_huffTreeFrom hn hcap h (by have := treeAt_bounds htree; omega) (huffTreeFrom_of_weights e hok)

end Sys2Proof.Machine
end

section
/-! CERTIFICATE. Tree descriptions that build a code (R190 to R198, R201). -/

open Sys2Proof Sys2Proof.Machine

/-- Settles O37: raw weights are read without a change of state, and the code of the completed weights is canonical since
their mass is that of the whole table. -/
theorem hufTreeRawBuildsTheCode : Obligations.HufTreeRawBuildsTheCode := by
  intro i s hb a lim size maxLen wd last hn hcap hregion hraw hok
  have hlim := (lim_le_of_treeRegion hregion).trans hcap
  have read : readWeights hb a lim s = .ok (wd, a + size) s :=
    (congrFun (if_neg (not_lt.mpr hraw.1)) s).trans (rawWeights_at rfl hlim hraw)
  exact ⟨canonicalCode_of_weightsOk hok, exec_of_readWeights hn hcap hregion (.inl hraw) hok read⟩

/-- Settles O38: the weights are followed through header, table and stream; the registers they were read with are valid, and
HuffBuild leaves those alone. -/
theorem hufTreeFseBuildsTheCode : Obligations.HufTreeFseBuildsTheCode := by
  intro i s hb a lim size maxLen wd last hn hcap hregion hfse hok
  have hin := lim_le_of_treeRegion hregion
  obtain ⟨t, read⟩ := readWeights_at rfl (hin.trans hcap) (.inr hfse)
  obtain ⟨-, -, _, _, _, _, ⟨hhb, -⟩, -⟩ := id hfse
  have weights : readWeights hb a lim = fseWeights a hb lim := if_pos hhb
  obtain ⟨changes, valid⟩ := (ends_fseWeights_valid hin).ok (weights ▸ read)
  exact ⟨_, exec_of_readWeights hn hcap hregion (.inr hfse) hok read, changes.noError.trans hn, rfl, rfl, rfl, rfl, valid⟩
end

section
/-! SUPPORT. Literals of a Huffman stream, told by the exact state they lead to: the bytes in LIT, the reader moved, and
nothing else changed (R199, R200). -/

open Sys2Proof Sys2Proof.Machine

namespace Sys2Proof.Machine

variable {β : Type} {s u : State} {r : RSel} {e : HufEntry} {base : Nat} {pos last : Int}

/-! ## A reader moved -/

/-- `s` with reader `r` at position `p`. -/
def readerMoved (r : RSel) (p : BitVec 32) (s : State) : State :=
  { s with rr := s.rr.set r { s.rr.get r with pos := p } }

theorem rconsume_eq (r : RSel) (n : Nat) (s : State) :
    rconsume r n s = .ok () (readerMoved r (posAfter (s.rr.get r).pos n) s) := rfl

theorem rpos_readerMoved (r : RSel) (p : BitVec 32) (s : State) :
    rpos r (readerMoved r p s) = .ok p.toInt (readerMoved r p s) := by simp [rpos, readerMoved]

theorem readerAt_self (hr : readerInRange (s.rr.get r) = true) (hs : s.rrStale.get r = false) :
    ReaderAt s s r (s.rr.get r).base.toNat (s.rr.get r).pos.toInt := ⟨rfl, rfl, hr, hs, rfl⟩

/-- Bits of the stream consumed leave the reader in the stream (R121). -/
theorem readerAt_readerMoved (h : ReaderAt s u r base pos) {n : Nat} (hle : (n : Int) ≤ pos) :
    ReaderAt s (readerMoved r (posAfter (u.rr.get r).pos n) u) r base (pos - n) := by
  obtain ⟨v, e, hv, -⟩ := rconsume_at h (n := n) (by omega)
  cases e
  exact hv

/-! ## One literal (R199) -/

/-- HuffSym peeks an entry and consumes its code; that the stream held the code is checked last. -/
theorem huffSym_eq (h : ReaderAt s u r base pos)
    (he : u.ht.entries[streamBits s base pos u.ht.maxLen.toNat]? = some e) :
    huffSym r u = (ensure (0 ≤ (posAfter (u.rr.get r).pos e.nb.toNat).toInt) .hufOverrun >>= fun _ => pure e.sym)
      (readerMoved r (posAfter (u.rr.get r).pos e.nb.toNat) u) := by
  have entry : huffEntry u (streamBits s base pos u.ht.maxLen.toNat) = e := by rw [huffEntry, he, Option.getD_some]
  unfold huffSym
  rw [bind_of_ok (look_apply _ u), bind_of_ok (rpeek_at h _), bind_of_ok (look_apply _ u), entry,
    bind_of_ok (rconsume_eq r _ u), bind_of_ok (rpos_readerMoved r _ u)]

/-- A code that lies in the stream is consumed. -/
theorem huffSym_of_le (h : ReaderAt s u r base pos)
    (he : u.ht.entries[streamBits s base pos u.ht.maxLen.toNat]? = some e) (hle : (e.nb.toNat : Int) ≤ pos) :
    huffSym r u = .ok e.sym (readerMoved r (posAfter (u.rr.get r).pos e.nb.toNat) u) :=
  (huffSym_eq h he).trans (bind_of_ok (ensure_of (by rw [posAfter_toInt, h.pos]; omega)))

/-- A code that is cut short overruns. -/
theorem raises_huffSym (h : ReaderAt s u r base pos)
    (he : u.ht.entries[streamBits s base pos u.ht.maxLen.toNat]? = some e) (hlt : pos < e.nb.toNat) :
    Raises (huffSym r) u .hufOverrun :=
  .of_eq (huffSym_eq h he) (.bind (.ensure (by rw [posAfter_toInt, h.pos]; omega)))

/-! ## Literals one after another (R200) -/

/-- The bytes `bs` written from address `a` on. -/
def Memory.setFrom (m : Memory) (a : Nat) : List Byte → Memory
  | [] => m
  | b :: bs => (m.set a b).setFrom (a + 1) bs

theorem Memory.get?_setFrom_of_outside : ∀ (bs : List Byte) {m : Memory} {a c : Nat}, c < a ∨ a + bs.length ≤ c →
    (m.setFrom a bs).get? c = m.get? c
  | [], _, _, _, _ => rfl
  | b :: bs, m, a, c, h => by
    rw [List.length_cons] at h
    rw [Memory.setFrom, Memory.get?_setFrom_of_outside bs (by omega), Memory.get?_set_ne (by omega)]

theorem Memory.get?_setFrom : ∀ (bs : List Byte) {m : Memory} {a k : Nat} (h : k < bs.length),
    (m.setFrom a bs).get? (a + k) = some bs[k]
  | b :: bs, m, a, 0, _ => by
    rw [Memory.setFrom, Memory.get?_setFrom_of_outside bs (by omega), Nat.add_zero, Memory.get?_set_same,
      List.getElem_cons_zero]
  | b :: bs, m, a, k + 1, h => by
    rw [List.length_cons] at h
    rw [Memory.setFrom, ← Nat.add_assoc, Nat.add_right_comm, Memory.get?_setFrom bs (by omega), List.getElem_cons_succ]

/-- `s` with the literals `bs` at LIT[dst ..] and reader `r` at position `last`. -/
def literalsRead (r : RSel) (dst : Nat) (bs : List Byte) (last : Int) (s : State) : State :=
  readerMoved r (BitVec.ofInt 32 last) { s with lit := s.lit.setFrom dst bs }

theorem litHolds_literalsRead (r : RSel) (dst : Nat) (bs : List Byte) (last : Int) (s : State) :
    litHolds s (literalsRead r dst bs last s) dst bs :=
  ⟨fun _ h => Memory.get?_setFrom bs h, fun _ h => Memory.get?_setFrom_of_outside bs h⟩

theorem keeps_literalsRead (r : RSel) (dst : Nat) (bs : List Byte) (last : Int) (s : State) :
    Keeps [.lit, .rr r] s (literalsRead r dst bs last s) := fun p hp => by
  cases p with
  | rr q => exact RevBank.get_set_ne (by simpa using hp)
  | lit => simp at hp
  | _ => rfl

theorem literalsRead_nil (dst : Nat) (hpos : (s.rr.get r).pos.toInt = pos) : literalsRead r dst [] pos s = s := by
  rw [literalsRead, ← hpos, BitVec.ofInt_toInt]
  exact congrArg (fun bank => { s with rr := bank }) (RevBank.set_get s.rr r)

theorem literalsRead_cons (r : RSel) (dst : Nat) (b : Byte) (bs : List Byte) (last : Int) (p : BitVec 32) (s : State) :
    literalsRead r (dst + 1) bs last { readerMoved r p s with lit := s.lit.set dst b } =
      literalsRead r dst (b :: bs) last s := by
  simp [literalsRead, readerMoved, Memory.setFrom]

/-- The literals that a stream spells are written one after another. -/
theorem huffSymbols_of_spells {ht : HufTable} : ∀ {bs : List Byte} {u : State} {pos : Int} {dst : Nat},
    ReaderAt s u r base pos → u.ht = ht → spells s ht base bs pos last → dst + bs.length ≤ Config.litCap →
      (∀ n, huffSymbols r (bs.length + n) dst u = huffSymbols r n (dst + bs.length) (literalsRead r dst bs last u)) ∧
        ReaderAt s (literalsRead r dst bs last u) r base last
  | [], u, pos, dst, h, _, hspell, _ => by
    obtain rfl : pos = last := hspell
    rw [literalsRead_nil dst h.pos]
    exact ⟨fun n => by rw [List.length_nil, Nat.zero_add, Nat.add_zero], h⟩
  | b :: bs, u, pos, dst, h, rfl, ⟨e, he, hb, hnb, hspell⟩, hroom => by
    subst hb
    rw [List.length_cons] at hroom
    have moved := readerAt_readerMoved h hnb
    have written := writeLit_of_lt (s := readerMoved r (posAfter (u.rr.get r).pos e.nb.toNat) u) (b := e.sym)
      (show dst < Config.litCap by omega)
    obtain ⟨rest, hlast⟩ := huffSymbols_of_spells (dst := dst + 1)
      (moved.of_keeps ((touches_writeLit dst e.sym).ok written) (by simp)) rfl hspell (by omega)
    have step := literalsRead_cons r dst e.sym bs last (posAfter (u.rr.get r).pos e.nb.toNat) u
    refine ⟨fun n => ?_, step ▸ hlast⟩
    rw [List.length_cons, Nat.add_right_comm, huffSymbols, bind_of_ok (huffSym_of_le h he hnb), bind_of_ok written,
      rest, ← step, Nat.add_right_comm dst 1, Nat.add_assoc]
    rfl

/-- A stream that spells its literals is decoded up to the check of its end. -/
theorem huffStream_of_spells {bs : List Byte} {dst : Nat} (h : ReaderAt s u r base pos)
    (hspell : spells s u.ht base bs pos last) (hroom : dst + bs.length ≤ Config.litCap) :
    huffStream r bs.length dst u = ensure (last = 0) .hufNotConsumed (literalsRead r dst bs last u) := by
  obtain ⟨read, hlast⟩ := huffSymbols_of_spells h rfl hspell hroom
  exact (bind_of_ok (read 0)).trans (bind_of_ok (rpos_at hlast))

/-- A stream whose next code is cut short overruns. -/
theorem raises_huffStream {bs : List Byte} {count dst : Nat} (h : ReaderAt s u r base pos)
    (hspell : spells s u.ht base bs pos last) (hroom : dst + count ≤ Config.litCap) (hlen : bs.length < count)
    (he : u.ht.entries[streamBits s base last u.ht.maxLen.toNat]? = some e) (hlt : last < e.nb.toNat) :
    Raises (huffStream r count dst) u .hufOverrun := by
  obtain ⟨n, rfl⟩ : ∃ n, count = bs.length + (n + 1) := ⟨count - bs.length - 1, by omega⟩
  obtain ⟨read, hlast⟩ := huffSymbols_of_spells (dst := dst) h rfl hspell (by omega)
  exact .bind (.of_eq (read (n + 1)) (.bind (raises_huffSym hlast he hlt)))

/-! ## Readiness (R37) -/

theorem runCommand_congr {op : BitVec 8} {ws : List Element} {x y : Op Unit} (h : x s = y s) :
    runCommand op ws x s = runCommand op ws y s := by
  unfold runCommand
  rw [h]

theorem needHuffman_needReader_bind_of {g : Unit → Op β} (hht : s.ht.valid = true) (hv : (s.rr.get r).valid = true) :
    (needHuffman >>= fun _ => needReader r >>= g) s = g () s :=
  (bind_of_ok ((needHuffman_apply s).trans (if_pos hht))).trans (needReader_bind_of hv)

theorem raises_needHuffman_needReader {g : Unit → Op β} (h : s.ht.valid = false ∨ (s.rr.get r).valid = false) :
    Raises (needHuffman >>= fun _ => needReader r >>= g) s .notReady := by
  by_cases hht : s.ht.valid = true
  · exact .of_eq (bind_of_ok ((needHuffman_apply s).trans (if_pos hht)))
      (raises_needReader fun hv => absurd h (by simp [hht, hv]))
  · exact .bind (.look (.ensure hht))

/-- HUF_STREAM after its checks: a region inside LIT, HT and the reader valid (R203). -/
theorem exec_hufStream_of_ready {a0 a1 : Word} (hroom : a1.toNat + a0.toNat ≤ 131072) (hht : s.ht.valid = true)
    (hv : (s.rr.get r).valid = true) : exec (.hufStream (readerCode r) a0 a1) s =
      runCommand opcHufStream (setOf (readerOf? (readerCode r)) fun r => [.rrPos r, .litRange a1.toNat a0.toNat])
        (huffStream r a0.toNat a1.toNat) s :=
  runCommand_congr ((bind_of_ok (selectReader_of (readerOf_code r) s)).trans
    ((bind_of_ok (ensure_of hroom)).trans (needHuffman_needReader_bind_of hht hv)))

end Sys2Proof.Machine
end

section
/-! CERTIFICATE. HUF_SYM and HUF_STREAM (R199, R200, R202, R203). -/

open Sys2Proof Sys2Proof.Machine

/-- Settles O40: HuffSym consumes the code it peeked, and the check on POS comes last. -/
theorem hufSymDecodesOneLiteral : Obligations.HufSymDecodesOneLiteral := by
  intro r s e hn
  have selected := selectReader_of (readerOf_code r) s
  refine ⟨fun hht hv hrr hs he => ?_, fun h => ?_⟩
  · have h := readerAt_self (hrr hv).2.1 hs
    refine ⟨fun hle => ⟨posAfter (s.rr.get r).pos e.nb.toNat, ?_, runCommand_of_ok hn ?_⟩, fun hlt => ?_⟩
    · rw [posAfter_toInt]
      omega
    · rw [bind_of_ok selected, needHuffman_needReader_bind_of hht hv, bind_of_ok (huffSym_of_le h he hle), setRes_apply,
        BitVec.ofNat_toNat]
      rfl
    · exact Raises.status (.after selected (.of_eq (needHuffman_needReader_bind_of hht hv)
        (.bind (raises_huffSym h he hlt)))) hn
  · exact runCommand_illegal hn rfl (.after selected (raises_needHuffman_needReader h))

/-- Settles O41: the literals are written one after another up to the end of the stream or to a code that is cut short; an
error forgets no byte of LIT outside the range. -/
theorem hufStreamWritesItsLiterals : Obligations.HufStreamWritesItsLiterals := by
  intro r a0 a1 s bs last hn
  have selected := selectReader_of (readerOf_code r) s
  refine ⟨fun hroom hht hv hrr hs hlen hspell => ?_, fun e hroom hht hv hrr hs hlen hspell he hlt => ?_, fun h => ?_,
    fun hroom h => ?_⟩
  · have ready := exec_hufStream_of_ready hroom hht hv
    have read := huffStream_of_spells (readerAt_self (hrr hv).2.1 hs) hspell (hlen.symm ▸ hroom)
    rw [hlen] at read
    by_cases hend : last = 0
    · subst hend
      have done := ready.trans (runCommand_of_ok hn (read.trans (ensure_of rfl)))
      exact ⟨_, done, fun _ => ⟨litHolds_literalsRead .., rfl, keeps_literalsRead r _ _ _ _⟩, fun h => absurd rfl h,
        hufStream_sameLit done⟩
    · obtain ⟨t, done, hstatus⟩ := Raises.status (.of_eq read (.ensure hend)) hn
      exact ⟨t, ready.trans done, fun h => absurd h hend, fun _ => hstatus, hufStream_sameLit (ready.trans done)⟩
  · have ready := exec_hufStream_of_ready hroom hht hv
    obtain ⟨t, done, hstatus⟩ :=
      (raises_huffStream (readerAt_self (hrr hv).2.1 hs) hspell hroom hlen he hlt).status hn
    exact ⟨t, ready.trans done, hstatus, hufStream_sameLit (ready.trans done)⟩
  · exact runCommand_illegal hn rfl (.after selected (.bind (.ensure (not_le.mpr h))))
  · exact runCommand_illegal hn rfl (.after selected (.pass hroom (raises_needHuffman_needReader h)))
end

section
/-! SUPPORT. A literals section that meets no failing check, told by the exact state it leads to: Raw and RLE literals in LIT
(R221, R222), and the course from the section to the end of the command that decodes it (R230, R231). -/

open Sys2Proof Sys2Proof.Machine

namespace Sys2Proof.Machine

variable {i : Instr} {s t u : State} {h : LitHeader} {a lim v blockMax : Nat} {bs : List Byte} {htValid : Bool}

/-! ## Bytes written to LIT -/

/-- `s` with the bytes `bs` at LIT[dst ..]. -/
def litWritten (dst : Nat) (bs : List Byte) (s : State) : State := { s with lit := s.lit.setFrom dst bs }

/-- Bytes of IN are copied in order (R221). -/
theorem copyLit_of_inBytes : ∀ {bs : List Byte} {src dst : Nat} {u : State}, inBytes u src bs →
    src + bs.length ≤ Config.inCap → dst + bs.length ≤ Config.litCap →
      copyLit bs.length src dst u = .ok () (litWritten dst bs u)
  | [], _, _, _, _, _, _ => rfl
  | b :: bs, src, dst, u, h, hcap, hroom => by
    rw [List.length_cons] at hcap hroom
    have first : inByte u src = b := h 0 (by simp)
    have rest : inBytes (litWritten dst [b] u) (src + 1) bs := fun k hk => by
      rw [Nat.add_assoc, Nat.add_comm 1]
      exact h (k + 1) (by simpa using hk)
    rw [List.length_cons, copyLit, bind_of_ok (readIn_of_lt (by omega)), first, bind_of_ok (writeLit_of_lt (by omega))]
    exact copyLit_of_inBytes rest (by omega) (by omega)

/-- One byte is written again and again (R222). -/
theorem fillLit_of_room (b : Byte) : ∀ {k dst : Nat} {u : State}, dst + k ≤ Config.litCap →
    fillLit b k dst u = .ok () (litWritten dst (List.replicate k b) u)
  | 0, _, _, _ => rfl
  | k + 1, dst, u, hroom => by
    rw [fillLit, bind_of_ok (writeLit_of_lt (by omega))]
    exact fillLit_of_room b (by omega)

/-! ## Sections that pass their checks (R223 to R225) -/

/-- A section whose checks pass has its header below the limit, a size that BLOCK_MAX allows, and a body that passes too. -/
theorem litError_none (herr : litError h a lim blockMax htValid = none) :
    a + h.size ≤ lim ∧ h.regen ≤ blockMax ∧ litBodyError h a lim htValid = none := by
  rw [litError_eq] at herr
  split_ifs at herr with hsize hregen
  exact ⟨not_lt.mp hsize, not_lt.mp hregen, herr⟩

/-- The section ends at or below the limit (R224, R225). -/
theorem litSize_le_of_litError (herr : litError h a lim blockMax htValid = none) : a + litSize h ≤ lim := by
  obtain ⟨-, -, hbody⟩ := litError_none herr
  cases ht : h.type with
  | raw | rle | compressed | treeless =>
    simp only [litBodyError, litSize, ht] at hbody ⊢
    split_ifs at hbody
    omega

/-! ## The body of a Raw or an RLE section (R221, R222) -/

section
variable (herr : litError h a lim blockMax htValid = none) (hlim : lim ≤ Config.inCap) (hroom : h.regen ≤ Config.litCap)
include herr hlim hroom

/-- A Raw body is copied. -/
theorem litBody_of_rawBytes (ht : h.type = .raw) (hlen : bs.length = h.regen) (hbytes : inBytes s (a + h.size) bs) :
    litBody h a lim s = .ok (litSize h) (litWritten 0 bs s) := by
  have hsize : litSize h = h.size + h.regen := by rw [litSize, ht]
  have hend := litSize_le_of_litError herr
  have copied := copyLit_of_inBytes (dst := 0) hbytes (by omega) (by omega)
  rw [hlen] at copied
  rw [litBody_of_raw ht, bind_of_ok (ensure_of (by omega)), bind_of_ok copied, hsize]
  rfl

/-- The byte of an RLE body is repeated. -/
theorem litBody_of_rleByte (ht : h.type = .rle) :
    litBody h a lim s = .ok (litSize h) (litWritten 0 (List.replicate h.regen (inByte s (a + h.size))) s) := by
  have hsize : litSize h = h.size + 1 := by rw [litSize, ht]
  have hend := litSize_le_of_litError herr
  rw [litBody_of_rle ht, bind_of_ok (ensure_of (by omega)), bind_of_ok (readIn_of_lt (by omega)),
    bind_of_ok (fillLit_of_room _ (by omega)), hsize]
  rfl

end

/-! ## From the body to the end of the command (R230, R231) -/

/-- `s` with the length of its literals in LIT_LEN. -/
def litLenSet (h : LitHeader) (s : State) : State := { s with litLen := BitVec.ofNat 18 h.regen }

theorem litSection_of_litBody (herr : litError h a lim s.blockMax.toNat s.ht.valid = none)
    (e : litBody h a lim s = .ok v t) : litSection h a lim s = .ok v (litLenSet h t) := by
  obtain ⟨hsize, hregen, -⟩ := litError_none herr
  exact (bind_of_ok (ensure_of hsize)).trans ((bind_of_ok (ensure_of hregen)).trans (bind_of_ok e))

/-- The header that stands in IN is the one LitDecode reads. -/
theorem litDecode_of_litSection (hhead : headerAt s a h) (hsize : a + h.size ≤ lim) (hlim : lim ≤ Config.inCap)
    (e : litSection h a lim s = .ok v t) : litDecode a lim s = .ok v t := by
  have hfirst := headerAt_first hhead
  have hpos := litHeaderSize_pos (inByte s a)
  obtain ⟨bytes, read, rfl⟩ := readBytes_of_headerAt hhead (hsize.trans hlim)
  unfold litDecode
  rw [bind_of_ok (ensure_of (by omega)), bind_of_ok (readIn_of_lt (by omega)), hfirst, bind_of_ok (ensure_of hsize),
    bind_of_ok read, e]

/-- The instruction that decodes a section reports the section's size (R231). -/
theorem exec_of_litSection (hn : noError s = true) (hcap : s.inLen.toNat ≤ Config.inCap) (hregion : litRegion i s h a lim)
    (hsize : a + h.size ≤ lim) (e : litSection h a lim s = .ok v t) :
    exec i s = .next { t with res := BitVec.ofNat 32 v } := by
  cases i with
  | litDecode a0 a1 =>
    obtain ⟨rfl, rfl, hle, hlim, -, hhead⟩ := hregion
    have decoded := litDecode_of_litSection hhead hsize (hlim.trans hcap) e
    exact runCommand_of_ok hn ((checkRegion_bind_of ⟨hle, hlim⟩).trans (bind_of_ok decoded))
  | _ =>
    obtain ⟨hrow, rfl, rfl⟩ := hregion
    exact (exec_lithdr hrow).trans (runCommand_of_ok hn (bind_of_ok e))

/-- BLOCK_MAX bounds a section's literals, so they fit LIT (R25, R63). -/
theorem regen_le_litCap (hranges : RangesOk s) (herr : litError h a lim s.blockMax.toNat htValid = none) :
    h.regen ≤ Config.litCap :=
  (litError_none herr).2.1.trans (hranges.blockMax.2.trans (by decide))

/-- A section whose body writes LIT alone is decoded by a command that changes LIT, LIT_LEN and RES alone. -/
theorem exec_of_litWritten (hn : noError s = true) (hranges : RangesOk s) (hregion : litRegion i s h a lim)
    (herr : litError h a lim s.blockMax.toNat s.ht.valid = none)
    (e : litBody h a lim s = .ok (litSize h) (litWritten 0 bs s)) :
    ∃ t, exec i s = .next t ∧ litHolds s t 0 bs ∧ t.litLen.toNat = h.regen ∧ t.res.toNat = litSize h ∧
      ∀ p, p ∉ [Part.lit, .litLen, .res] → samePart p s t := by
  have hlim := (litRegion_bounds hregion).1.trans hranges.inLen
  have hroom := regen_le_litCap hranges herr
  have hend := litSize_le_of_litError herr
  simp only [Config.inCap] at hlim
  simp only [Config.litCap] at hroom
  refine ⟨_, exec_of_litSection hn hranges.inLen hregion (litError_none herr).1 (litSection_of_litBody herr e),
    ⟨fun _ hk => Memory.get?_setFrom bs hk, fun _ hk => Memory.get?_setFrom_of_outside bs hk⟩,
    toNat_ofNat_of_lt (w := 18) (by omega), toNat_ofNat_of_lt (w := 32) (by omega), fun p hp => ?_⟩
  cases p with
  | lit | litLen | res => simp at hp
  | _ => rfl

end Sys2Proof.Machine
end

section
/-! CERTIFICATE. Raw and RLE literals (R221, R222, R230, R231). -/

open Sys2Proof Sys2Proof.Machine

/-- Settles O42: the body's bytes are copied one after another into LIT, and nothing else is written but LIT_LEN and RES. -/
theorem rawLiteralsAreCopied : Obligations.RawLiteralsAreCopied := by
  intro i s h a lim bs hn hranges hregion ht herr hlen hbytes
  have hlim := (litRegion_bounds hregion).1.trans hranges.inLen
  exact exec_of_litWritten hn hranges hregion herr
    (litBody_of_rawBytes herr hlim (regen_le_litCap hranges herr) ht hlen hbytes)

/-- Settles O43: the byte after the header is written again and again, not at all where the size is 0. -/
theorem rleLiteralsRepeatOneByte : Obligations.RleLiteralsRepeatOneByte := by
  intro i s h a lim hn hranges hregion ht herr
  have hlim := (litRegion_bounds hregion).1.trans hranges.inLen
  exact exec_of_litWritten hn hranges hregion herr
    (litBody_of_rleByte herr hlim (regen_le_litCap hranges herr) ht)
end

section
/-! SUPPORT. SeqDecode neither reads nor writes RES: begun with another RES it does the same, errors included, and leaves that
RES (R263). So the bytes that LIT_DECODE reported may stand in RES or not (R293). -/

open Sys2Proof Sys2Proof.Machine

namespace Sys2Proof.Machine

variable {α β : Type}

/-! ## RES put aside -/

/-- `s` with `v` in RES. -/
def withRes (v : Word) (s : State) : State := { s with res := v }

/-- The same end in another state. -/
def mapState (f : State → State) : EStateM.Result Stop State α → EStateM.Result Stop State α
  | .ok a t => .ok a (f t)
  | .error e t => .error e (f t)

/-- Whatever RES holds, `x` ends in the same way, and RES still holds it. -/
def IgnoresRes (x : Op α) : Prop := ∀ v s, x (withRes v s) = mapState (withRes v) (x s)

theorem IgnoresRes.bind {x : Op α} {f : α → Op β} (hx : IgnoresRes x) (hf : ∀ a, IgnoresRes (f a)) : IgnoresRes (x >>= f) :=
  fun v s => by
    rw [bind_apply, bind_apply, hx v s]
    cases x s with
    | ok a t => exact hf a v t
    | error e t => rfl

theorem IgnoresRes.pure (a : α) : IgnoresRes (pure a : Op α) := fun _ _ => rfl
theorem IgnoresRes.raise (c : Cause) : IgnoresRes (Machine.raise c : Op α) := fun _ _ => rfl
theorem IgnoresRes.look {f : State → α} (h : ∀ v s, f (withRes v s) = f s := by intros; rfl) : IgnoresRes (Machine.look f) :=
  fun v s => congrArg (EStateM.Result.ok · (withRes v s)) (h v s)
theorem IgnoresRes.change {f : State → State} (h : ∀ v s, f (withRes v s) = withRes v (f s) := by intros; rfl) :
    IgnoresRes (Machine.change f) := fun v s => congrArg (EStateM.Result.ok ()) (h v s)
theorem IgnoresRes.ensure (p : Prop) [Decidable p] (c : Cause) : IgnoresRes (Machine.ensure p c) := fun v s => by
  rw [ensure_apply, ensure_apply]; split_ifs <;> rfl
theorem IgnoresRes.ite {p : Prop} [Decidable p] {x y : Op α} (hx : IgnoresRes x) (hy : IgnoresRes y) :
    IgnoresRes (if p then x else y) := by split_ifs <;> assumption

theorem IgnoresRes.raises {x : Op α} {s : State} {w : Word} {c : Cause} (hx : IgnoresRes x) (h : Raises x (withRes w s) c) :
    Raises x s c := by
  obtain ⟨t, e⟩ := h
  rw [hx w s] at e
  cases k : x s with
  | ok a t' => rw [k] at e; cases e
  | error stop t' => rw [k] at e; cases e; exact ⟨t', k⟩

theorem IgnoresRes.ok {x : Op α} {s t : State} {w : Word} {a : α} (hx : IgnoresRes x) (h : x (withRes w s) = .ok a t) :
    ∃ t', x s = .ok a t' ∧ t = withRes w t' := by
  rw [hx w s] at h
  cases k : x s with
  | ok a t' => rw [k] at h; cases h; exact ⟨t', rfl, rfl⟩
  | error stop t' => rw [k] at h; cases h

/-! ## Memories and registers -/

theorem ignoresRes_readIn (a : Nat) : IgnoresRes (readIn a) := fun v s => by unfold readIn; split_ifs <;> rfl
theorem ignoresRes_readBytes : ∀ n a, IgnoresRes (readBytes a n)
  | 0, _ => .pure _
  | n + 1, a => .bind (ignoresRes_readIn a) fun _ => .bind (ignoresRes_readBytes n (a + 1)) fun _ => .pure _
theorem ignoresRes_seqAppend (ll off ml : Nat) : IgnoresRes (seqAppend ll off ml) := fun v s => by
  have nbSeq : (withRes v s).nbSeq = s.nbSeq := rfl
  unfold seqAppend
  rw [nbSeq]
  split_ifs <;> rfl

/-! ## The bit readers -/

theorem ignoresRes_fpeek (n : Nat) : IgnoresRes (fpeek n) := fun v s => by
  have bits : forwardBits (withRes v s) s.fr.pos.toNat n = forwardBits s s.fr.pos.toNat n :=
    (forwardBits_eq_sum _ _ _).trans (forwardBits_eq_sum s _ _).symm
  have fr : (withRes v s).fr = s.fr := rfl
  have mark : (withRes v s).frStale = s.frStale := rfl
  unfold fpeek
  rw [bind_of_ok (look_apply id _), bind_of_ok (look_apply id _)]
  simp only [id, fr, mark, bits]
  split_ifs <;> rfl

theorem ignoresRes_fconsume (n : Nat) : IgnoresRes (fconsume n) := .bind .look fun _ => .bind (.ensure _ _) fun _ => .change
theorem ignoresRes_fread (n : Nat) : IgnoresRes (fread n) :=
  .bind (ignoresRes_fpeek n) fun _ => .bind (ignoresRes_fconsume n) fun _ => .pure _
theorem ignoresRes_falign : IgnoresRes falign := .bind .change fun _ => .look
theorem ignoresRes_finit (base lim : Nat) : IgnoresRes (finit base lim) := .change

theorem ignoresRes_rpeek (r : RSel) (n : Nat) : IgnoresRes (rpeek r n) := fun v s => by
  have bits : reverseBits (withRes v s) (s.rr.get r) (s.rr.get r).pos.toInt n =
      reverseBits s (s.rr.get r) (s.rr.get r).pos.toInt n :=
    (reverseBits_eq_streamBits _ _ _ _).trans (reverseBits_eq_streamBits s _ _ _).symm
  have rr : (withRes v s).rr = s.rr := rfl
  have mark : (withRes v s).rrStale = s.rrStale := rfl
  unfold rpeek
  rw [bind_of_ok (look_apply id _), bind_of_ok (look_apply id _)]
  simp only [id, rr, mark, bits]
  split_ifs <;> rfl

theorem ignoresRes_rread (r : RSel) (n : Nat) : IgnoresRes (rread r n) :=
  .bind (ignoresRes_rpeek r n) fun _ => .bind .change fun _ => .pure _
theorem ignoresRes_rpos (r : RSel) : IgnoresRes (rpos r) := .look
theorem ignoresRes_rinit (r : RSel) (base len : Nat) : IgnoresRes (rinit r base len) :=
  .bind (.ensure _ _) fun _ => .bind (ignoresRes_readIn _) fun _ => .bind (.ensure _ _) fun _ => .change

/-! ## FSE tables and states -/

theorem ignoresRes_readZeroRun : ∀ fuel n0, IgnoresRes (readZeroRun fuel n0)
  | 0, _ => .raise _
  | fuel + 1, _ => .bind (ignoresRes_fread 2) fun _ => .ite (ignoresRes_readZeroRun fuel _) (.pure _)
theorem ignoresRes_continueRun (t : TSel) (prev0 : Bool) (counts : List Int) : IgnoresRes (continueRun t prev0 counts) :=
  .ite (.bind .look fun _ => .bind (ignoresRes_readZeroRun _ _) fun _ => .bind (.ensure _ _) fun _ => .pure _) (.pure _)
theorem ignoresRes_readCountField (remaining threshold nbits : Nat) :
    IgnoresRes (readCountField remaining threshold nbits) :=
  .bind (ignoresRes_fpeek _) fun _ => .ite (.bind (ignoresRes_fconsume _) fun _ => .pure _)
    (.bind (ignoresRes_fpeek _) fun _ => .bind (ignoresRes_fconsume _) fun _ => .pure _)
theorem ignoresRes_ncountLoop (t : TSel) : ∀ fuel remaining threshold nbits counts prev0,
    IgnoresRes (ncountLoop t fuel remaining threshold nbits counts prev0)
  | 0, _, _, _, _, _ => .pure _
  | fuel + 1, _, _, _, _, _ => .ite (.pure _) (.bind (ignoresRes_continueRun t _ _) fun _ =>
      .bind (ignoresRes_readCountField _ _ _) fun _ => ignoresRes_ncountLoop t fuel _ _ _ _ _)
theorem ignoresRes_readNCount (t : TSel) : IgnoresRes (readNCount t) :=
  .bind (ignoresRes_fread 4) fun _ => .bind (.ensure _ _) fun _ => .bind (ignoresRes_ncountLoop t _ _ _ _ _ _) fun _ =>
    .bind (.ensure _ _) fun _ => .bind ignoresRes_falign fun _ => .bind .change fun _ => .pure _

theorem ignoresRes_buildTable (t : TSel) : IgnoresRes (buildTable t) := fun v s => by
  have dist : (withRes v s).dist = s.dist := rfl
  have draws : (withRes v s).draws = s.draws := rfl
  unfold buildTable
  rw [bind_of_ok (look_apply id _), bind_of_ok (look_apply id _)]
  simp only [id, dist, draws]
  cases buildEntries s.dist.al.toNat (Config.freeNat s.draws .symAt) (distCounts s.dist) <;> rfl

theorem ignoresRes_seqTable (t : TSel) (mode : BitVec 2) (p lim : Nat) : IgnoresRes (seqTable t mode p lim) := by
  rcases mode_cases mode with rfl | rfl | rfl | rfl
  · exact seqTable_predef ▸ .bind .change fun _ => .bind (ignoresRes_buildTable t) fun _ => .pure _
  · exact seqTable_rle ▸ .bind (.ensure _ _) fun _ => .bind (ignoresRes_readIn p) fun _ =>
      .bind (.bind (.ensure _ _) fun _ => .change) fun _ => .pure _
  · exact seqTable_header ▸ .bind (ignoresRes_finit p lim) fun _ => .bind (ignoresRes_readNCount t) fun _ =>
      .bind (ignoresRes_buildTable t) fun _ => .pure _
  · exact seqTable_repeat ▸ .bind (.bind .look fun _ => .ensure _ _) fun _ => .pure _

theorem ignoresRes_initState (x : SSel) (r : RSel) : IgnoresRes (initState x r) :=
  .bind .look fun _ => .bind (ignoresRes_rread r _) fun _ => .change
theorem ignoresRes_symOf (x : SSel) : IgnoresRes (symOf x) := .look
theorem ignoresRes_updState (x : SSel) (r : RSel) : IgnoresRes (updState x r) :=
  .bind .look fun _ => .bind (ignoresRes_rread r _) fun _ => .change

/-! ## Sequences (R259 to R263) -/

theorem ignoresRes_resolveOffset (ofv ll : Nat) : IgnoresRes (resolveOffset ofv ll) := .bind .look fun rep => by
  cases resolveRep rep ofv ll with
  | none => exact .raise _
  | some out => exact .bind .change fun _ => .pure _

theorem ignoresRes_seqReads : IgnoresRes seqReads :=
  .bind (ignoresRes_symOf _) fun _ => .bind (ignoresRes_symOf _) fun _ => .bind (ignoresRes_symOf _) fun _ =>
    .bind (ignoresRes_rread _ _) fun _ => .bind (ignoresRes_rread _ _) fun _ => .bind (ignoresRes_rread _ _) fun _ => .pure _
theorem ignoresRes_seqUpdates (last : Bool) : IgnoresRes (seqUpdates last) :=
  .ite (.pure _) (.bind (ignoresRes_updState _ _) fun _ => .bind (ignoresRes_updState _ _) fun _ => ignoresRes_updState _ _)
theorem ignoresRes_seqStep (last : Bool) : IgnoresRes (seqStep last) :=
  .bind ignoresRes_seqReads fun _ => .bind (ignoresRes_seqUpdates last) fun _ => .bind (ignoresRes_rpos _) fun _ =>
    .bind (.ensure _ _) fun _ => .bind (ignoresRes_resolveOffset _ _) fun _ => ignoresRes_seqAppend _ _ _
theorem ignoresRes_seqLoop : ∀ k, IgnoresRes (seqLoop k)
  | 0 => .pure _
  | k + 1 => .bind (ignoresRes_seqStep _) fun _ => ignoresRes_seqLoop k

theorem ignoresRes_seqFromModes (m : Byte) (count p lim : Nat) : IgnoresRes (seqFromModes m count p lim) :=
  .bind (.ensure _ _) fun _ => .bind (ignoresRes_seqTable _ _ _ _) fun _ => .bind (ignoresRes_seqTable _ _ _ _) fun _ =>
    .bind (ignoresRes_seqTable _ _ _ _) fun _ => .bind (ignoresRes_rinit _ _ _) fun _ =>
      .bind (ignoresRes_initState _ _) fun _ => .bind (ignoresRes_initState _ _) fun _ =>
        .bind (ignoresRes_initState _ _) fun _ => .bind (ignoresRes_seqLoop count) fun _ =>
          .bind (ignoresRes_rpos _) fun _ => .ensure _ _

theorem ignoresRes_seqFromCount (c : SeqCount) (a lim : Nat) : IgnoresRes (seqFromCount c none a lim) :=
  .bind (.ensure _ _) fun _ => .ite (.ensure _ _) (.bind (.ensure _ _) fun _ => .bind (.ensure _ _) fun _ =>
    .bind (ignoresRes_readIn _) fun _ => ignoresRes_seqFromModes _ _ _ _)

theorem ignoresRes_readSeqCount (a lim : Nat) : IgnoresRes (readSeqCount a lim) :=
  .bind (.ensure _ _) fun _ => .bind (ignoresRes_readIn _) fun _ => .bind (.ensure _ _) fun _ =>
    .bind (ignoresRes_readBytes _ _) fun _ => .pure _

theorem ignoresRes_seqDecode (a lim : Nat) : IgnoresRes (seqDecode a lim) :=
  .bind .change fun _ => .bind (ignoresRes_readSeqCount a lim) fun _ => ignoresRes_seqFromCount _ a lim

/-- What RES held before is gone once the number of sequences is reported. -/
theorem seqDecode_of_withRes {a lim : Nat} {s t : State} {w : Word}
    (h : (seqDecode a lim >>= fun _ => setResNbSeq) (withRes w s) = .ok () t) :
    (seqDecode a lim >>= fun _ => setResNbSeq) s = .ok () t := by
  obtain ⟨_, u, decoded, reported⟩ := bind_eq_ok.mp h
  obtain ⟨u', decoded', rfl⟩ := (ignoresRes_seqDecode a lim).ok decoded
  exact (bind_of_ok decoded').trans reported

end Sys2Proof.Machine
end

section
/-! CERTIFICATE. DECODE_BLOCK is SET_INLEN, LIT_DECODE and SEQ_DECODE in turn (R293, R294). -/

open Sys2Proof Sys2Proof.Machine

namespace Sys2Proof.Machine

variable {α β : Type} {a0 : Word} {s t u : State} {a lim v n : Nat} {c : Cause}

/-! ## Errors told by STATUS -/

/-- A STATUS tells its cause, so the same cause has the same STATUS under another OP (R23, R310). -/
theorem packStatus_of_eq {d : Cause} {op : BitVec 8} (h : packStatus d op = packStatus c op) (op' : BitVec 8) :
    packStatus d op' = packStatus c op' := by
  have fields := congrArg BitVec.toNat h
  simp only [packStatus_toNat] at fields
  exact BitVec.eq_of_toNat_eq (by simp only [packStatus_toNat]; omega)

/-- A command that leaves an error in STATUS raised a cause with that STATUS: had it completed, STATUS would hold none. -/
theorem raises_of_status {op : BitVec 8} {ws : List Element} {body : Op Unit} {Q : Unit → State → Prop}
    (hn : noError s = true) (ends : Ends body s Q) (h : runCommand op ws body s = .next t) (ht : t.status = packStatus c op) :
    ∃ d, Raises body s d ∧ ∀ op', packStatus d op' = packStatus c op' := by
  rcases runCommand_eq_next.mp h with ⟨hbad, -⟩ | ⟨-, e | ⟨d, s1, e, rfl⟩⟩
  · rw [hn] at hbad
    cases hbad
  · have kept := (ends.ok e).1.noError.trans hn
    rw [noError_of_packStatus ht] at kept
    cases kept
  · exact ⟨d, ⟨s1, e⟩, packStatus_of_eq ((takeError_status hn).symm.trans ht)⟩

/-- What follows a check of the region that passes. -/
theorem raises_of_checkRegion_bind {g : Unit → Op α} (h : a ≤ lim ∧ lim ≤ s.inLen.toNat)
    (hr : Raises (checkRegion a lim >>= g) s c) : Raises (g ()) s c := .of_eq (checkRegion_bind_of h).symm hr

/-- An operation followed by one that raises nothing raises itself what both raise. -/
theorem Raises.of_bind_change {x : Op α} {f : α → State → State} (h : Raises (x >>= fun a => change (f a)) s c) :
    Raises x s c := by
  obtain ⟨t, e⟩ := h
  rcases bind_eq_error.mp e with e | ⟨_, _, -, e⟩
  · exact ⟨t, e⟩
  · cases e

/-! ## The size that LitDecode returns -/

/-- Every value that `x` returns meets `P`. -/
def Returns (P : α → Prop) (x : Op α) : Prop := ∀ s v t, x s = .ok v t → P v

theorem Returns.pure {P : α → Prop} {v : α} (h : P v) : Returns P (pure v : Op α) := fun _ _ _ e => by cases e; exact h
theorem Returns.bind {P : β → Prop} {x : Op α} {f : α → Op β} (h : ∀ v, Returns P (f v)) : Returns P (x >>= f) :=
  fun _ w t e => by
    obtain ⟨v, u, -, e⟩ := bind_eq_ok.mp e
    exact h v u w t e
theorem Returns.ensure_bind {P : β → Prop} {p : Prop} [Decidable p] {f : Unit → Op β} (h : p → Returns P (f ())) :
    Returns P (Machine.ensure p c >>= f) := fun _ w t e => by
  obtain ⟨_, u, check, e⟩ := bind_eq_ok.mp e
  exact h (ensure_eq_ok.mp check).1 u w t e

theorem returns_litBody (h : LitHeader) (a lim : Nat) : Returns (fun v => a + v ≤ lim) (litBody h a lim) := by
  have coded (ht : h.type = .compressed ∨ h.type = .treeless) : Returns (fun v => a + v ≤ lim) (litBody h a lim) :=
    litBody_of_coded ht ▸ .bind fun _ => .ensure_bind fun hend => .bind fun _ => .pure (by omega)
  cases ht : h.type with
  | raw => exact litBody_of_raw ht ▸ .ensure_bind fun hend => .bind fun _ => .pure (by omega)
  | rle => exact litBody_of_rle ht ▸ .ensure_bind fun hend => .bind fun _ => .bind fun _ => .pure (by omega)
  | compressed => exact coded (.inl ht)
  | treeless => exact coded (.inr ht)

/-- The section that LitDecode decodes ends at or below the limit (R230). -/
theorem returns_litDecode (a lim : Nat) : Returns (fun v => a + v ≤ lim) (litDecode a lim) :=
  .bind fun _ => .bind fun _ => .bind fun _ => .bind fun _ => .bind fun _ => .bind fun _ => fun _ _ _ e => by
    obtain ⟨v, u, body, e⟩ := bind_eq_ok.mp e
    cases e
    exact returns_litBody _ a lim _ _ _ body

/-! ## The operation of DECODE_BLOCK (R293) -/

/-- The two sections of a block of `n` bytes, once its checks have passed and IN_LEN is set. -/
def blockSections (n : Nat) : Op Unit := litDecode 0 n >>= fun used => seqDecode used n >>= fun _ => setResNbSeq

theorem exec_decodeBlock (a0 : Word) (s : State) : exec (.decodeBlock a0) s =
    runCommand opcDecodeBlock decodeBlockSet (ensure (a0.toNat ≤ 131072) .argRange >>= fun _ =>
      look (fun s => s.blockMax.toNat) >>= fun m => ensure (a0.toNat ≤ m) .blkTooLarge >>= fun _ =>
        change (setInLen a0.toNat) >>= fun _ => blockSections a0.toNat) s := rfl

section
variable (hcap : a0.toNat ≤ 131072) (hmax : a0.toNat ≤ s.blockMax.toNat)
include hcap hmax

/-- A block that passes DECODE_BLOCK's own checks runs its two sections over the input it declares. -/
theorem exec_decodeBlock_of_le : exec (.decodeBlock a0) s =
    runCommand opcDecodeBlock decodeBlockSet (change (setInLen a0.toNat) >>= fun _ => blockSections a0.toNat) s :=
  (exec_decodeBlock a0 s).trans (runCommand_congr ((bind_of_ok (ensure_of hcap)).trans
    ((bind_of_ok (look_apply _ s)).trans (bind_of_ok (ensure_of hmax)))))

theorem decodeBlock_status (hn : noError s = true) (h : Raises (blockSections a0.toNat) (setInLen a0.toNat s) c) :
    ∃ t, exec (.decodeBlock a0) s = .next t ∧ t.status = packStatus c 0x03 := by
  rw [exec_decodeBlock_of_le hcap hmax]
  exact Raises.status (.after rfl h) hn

theorem decodeBlock_of_ok (hn : noError s = true) (h : blockSections a0.toNat (setInLen a0.toNat s) = .ok () t) :
    exec (.decodeBlock a0) s = .next t := by
  rw [exec_decodeBlock_of_le hcap hmax]
  exact runCommand_of_ok hn h

end

end Sys2Proof.Machine

/-- Settles O52: the checks of SET_INLEN and of the two regions hold in a block, and SEQ_DECODE's section begins at the size
that LIT_DECODE has reported in RES, which SeqDecode itself ignores. -/
theorem blockEqualsItsSections : Obligations.BlockEqualsItsSections := by
  intro a0 s hn
  refine ⟨fun h => runCommand_illegal hn rfl (.bind (.ensure (not_le.mpr h))), fun hcap hmax =>
    Raises.status (.pass hcap (.look (.bind (.ensure (not_le.mpr hmax))))) hn, fun hcap hmax s1 t1 hs1 ht1 => ?_⟩
  obtain rfl : setInLen a0.toNat s = s1 := Host.Outcome.next.inj ((exec_setInlen_of_le hn hcap).symm.trans hs1)
  have hin : a0.toNat ≤ (setInLen a0.toNat s).inLen.toNat := (toNat_ofNat_of_lt (w := 18) (by omega)).ge
  have hn0 : noError (setInLen a0.toNat s) = true := hn
  have region : arg 0 ≤ arg a0 ∧ arg a0 ≤ (setInLen a0.toNat s).inLen.toNat := ⟨Nat.zero_le _, hin⟩
  rw [exec_litDecode] at ht1
  refine ⟨fun c hc => ?_, fun hn1 t2 ht2 => ?_⟩
  · obtain ⟨d, hraise, hd⟩ := raises_of_status hn0 (ends_litCommand _ _ _) ht1 hc
    exact hd 0x03 ▸ decodeBlock_status hcap hmax hn (.bind (raises_of_checkRegion_bind region hraise).of_bind_change)
  obtain ⟨-, e⟩ := ok_of_runCommand ht1 hn1
  obtain ⟨used, u, lits, e⟩ := bind_eq_ok.mp ((checkRegion_bind_of region).symm.trans e)
  cases e
  have hused : used ≤ a0.toNat := Nat.zero_add used ▸ returns_litDecode 0 _ _ _ _ lits
  have start : arg (BitVec.ofNat 32 used) = used := toNat_ofNat_of_lt (w := 32) (by omega)
  have hu : u.inLen = (setInLen a0.toNat s).inLen := (touches_litDecode _ _).ok lits .inLen (by decide)
  have region2 : used ≤ arg a0 ∧ arg a0 ≤ (withRes (BitVec.ofNat 32 used) u).inLen.toNat := ⟨hused, hu ▸ hin⟩
  rw [exec_seqDecode] at ht2
  refine ⟨fun c hc => ?_, fun hn2 => ?_⟩
  · obtain ⟨d, hraise, hd⟩ := raises_of_status hn1 (ends_seqCommand _ _ _) ht2 hc
    rw [start] at hraise
    have hseq := (ignoresRes_seqDecode _ _).raises (raises_of_checkRegion_bind region2 hraise).of_bind_change
    exact hd 0x03 ▸ decodeBlock_status hcap hmax hn (.after lits (.bind hseq))
  · obtain ⟨-, e⟩ := ok_of_runCommand ht2 hn2
    rw [start] at e
    have hseq := seqDecode_of_withRes ((checkRegion_bind_of region2).symm.trans e)
    exact decodeBlock_of_ok hcap hmax hn ((bind_of_ok lits).trans hseq)
end

section
/-! SUPPORT. The literals of a Compressed or Treeless section, told by what they leave in LIT (R223, R226 to R228), and the
section of any type that holds given literals (R220, R230). -/

open Sys2Proof Sys2Proof.Machine

namespace Sys2Proof.Machine

variable {s u : State} {h : LitHeader} {ht : HufTable} {r : RSel} {a lim p last base len dst streams : Nat} {bs : List Byte}

/-! ## Streams (R200, R226 to R228) -/

theorem Memory.setFrom_append : ∀ (bs cs : List Byte) (m : Memory) (a : Nat),
    (m.setFrom a bs).setFrom (a + bs.length) cs = m.setFrom a (bs ++ cs)
  | [], _, _, _ => rfl
  | b :: bs, cs, m, a => by
    rw [List.length_cons, Nat.add_comm bs.length, ← Nat.add_assoc]
    exact Memory.setFrom_append bs cs (m.set a b) (a + 1)

/-- What the four streams of a section may change besides LIT. -/
def streamReaders : List Part := readerParts .r0 ++ readerParts .r1 ++ readerParts .r2 ++ readerParts .r3

/-- In `v` the literals `bs` stand from LIT[dst] on; besides, only the readers of literal streams have moved since `u`. -/
structure StreamsRead (u v : State) (dst : Nat) (bs : List Byte) : Prop where
  lit : v.lit = u.lit.setFrom dst bs
  keeps : Keeps (.lit :: streamReaders) u v

theorem StreamsRead.append {v w : State} {cs : List Byte} {next : Nat} (h : StreamsRead u v dst bs)
    (k : StreamsRead v w next cs) (hnext : next = dst + bs.length) : StreamsRead u w dst (bs ++ cs) :=
  ⟨k.lit.trans (by rw [h.lit, hnext, Memory.setFrom_append]), h.keeps.trans k.keeps⟩

/-- The parts of four streams make up the literals (R227). -/
theorem quarters_append (bs : List Byte) (n : Nat) :
    bs.take n ++ (bs.drop n).take n ++ (bs.drop (2 * n)).take n ++ bs.drop (3 * n) = bs := by
  rw [← List.take_add, ← Nat.two_mul, ← List.take_add, ← Nat.succ_mul, List.take_append_drop]

section
variable (hb : inByte u = inByte s) (hht : u.ht = ht)
include hb hht

theorem StreamsRead.sees {v : State} (h : StreamsRead u v dst bs) : inByte v = inByte s ∧ v.ht = ht :=
  ⟨(inByte_of_keeps h.keeps (by decide)).trans hb, Eq.trans (h.keeps .ht (by decide)) hht⟩

/-- A stream that spells literals leaves them in LIT. -/
theorem litStream_of_spells {count : Nat} (hr : readerParts r ⊆ streamReaders) (hcap : base + len ≤ Config.inCap)
    (hlen : bs.length = count) (hroom : dst + count ≤ Config.litCap) (h : streamSpells s ht base len bs) :
    ∃ v, litStream r base len count dst u = .ok () v ∧ StreamsRead u v dst bs := by
  subst hlen
  obtain ⟨pos, hstream, hspell⟩ := h
  obtain ⟨u1, e1, h1, k1⟩ := rinit_at r hstream hb hcap
  have ht1 : u1.ht = ht := Eq.trans (k1 .ht (by simp)) hht
  have read := huffStream_of_spells (dst := dst) h1 (ht1.symm ▸ hspell) hroom
  have lit1 : u1.lit = u.lit := k1 .lit (by simp)
  have keeps := keeps_literalsRead r dst bs 0 u1
  refine ⟨_, (bind_of_ok e1).trans (read.trans (ensure_of rfl)), congrArg (Memory.setFrom · dst bs) lit1, ?_⟩
  exact (k1.mono (List.subset_cons_of_subset _ hr)).trans
    (keeps.mono (List.cons_subset_cons _ (List.Subset.trans (by simp [readerParts]) hr)))

/-- Four streams that spell their parts of the literals leave them in LIT one after another (R227, R228). -/
theorem fourStreams_of_spells (hne : streams ≠ 1) (hlast : last ≤ Config.inCap) (hmin : 6 ≤ bs.length)
    (hroom : bs.length ≤ Config.litCap) (h : litStreams s ht streams p last bs) :
    ∃ v, fourStreams p last bs.length u = .ok () v ∧ StreamsRead u v 0 bs := by
  rw [litStreams, if_neg hne] at h
  obtain ⟨hsizes, h1, h2, h3, h4⟩ := h
  set n := (bs.length + 3) / 4 with hn
  have len1 : (bs.take n).length = n := List.length_take_of_le (by omega)
  have len2 : ((bs.drop n).take n).length = n := List.length_take_of_le (by rw [List.length_drop]; omega)
  have len3 : ((bs.drop (2 * n)).take n).length = n := List.length_take_of_le (by rw [List.length_drop]; omega)
  obtain ⟨u1, e1, k1⟩ := litStream_of_spells (r := .r0) (dst := 0) hb hht (by decide) (by omega) len1 (by omega) h1
  obtain ⟨b1, t1⟩ := k1.sees hb hht
  obtain ⟨u2, e2, k2⟩ := litStream_of_spells (r := .r1) (dst := n) b1 t1 (by decide) (by omega) len2 (by omega) h2
  obtain ⟨b2, t2⟩ := k2.sees b1 t1
  obtain ⟨u3, e3, k3⟩ := litStream_of_spells (r := .r2) (dst := 2 * n) b2 t2 (by decide) (by omega) len3 (by omega) h3
  obtain ⟨b3, t3⟩ := k3.sees b2 t2
  obtain ⟨u4, e4, k4⟩ := litStream_of_spells (r := .r3) (dst := 3 * n) b3 t3 (by decide) (by omega) (List.length_drop ..)
    (by omega) h4
  have rest : last - p - 6 - jumpSize s p - jumpSize s (p + 2) - jumpSize s (p + 4) =
      last - (p + 6 + jumpSize s p + jumpSize s (p + 2) + jumpSize s (p + 4)) := by omega
  have read := ((k1.append k2 (by omega)).append k3 (by simp only [List.length_append]; omega)).append k4
    (by simp only [List.length_append]; omega)
  rw [quarters_append] at read
  refine ⟨u4, ?_, read⟩
  unfold fourStreams
  rw [bind_of_ok (ensure_of (by omega)), bind_of_ok (memRead_two hb (by omega)), bind_of_ok (memRead_two hb (by omega)),
    bind_of_ok (memRead_two hb (by omega)), bind_of_ok (ensure_of hsizes), rest]
  exact (bind_of_ok e1).trans ((bind_of_ok e2).trans ((bind_of_ok e3).trans e4))

/-- The streams after a tree: one, or four after a jump table (R226, R227). -/
theorem streams_of_spells (hp : p ≤ last) (hlast : last ≤ Config.inCap) (hmin : streams = 1 ∨ 6 ≤ bs.length)
    (hroom : bs.length ≤ Config.litCap) (h : litStreams s ht streams p last bs) :
    ∃ v, (if streams = 1 then litStream .r0 p (last - p) bs.length 0 else fourStreams p last bs.length) u = .ok () v ∧
      StreamsRead u v 0 bs := by
  by_cases hone : streams = 1
  · rw [litStreams, if_pos hone] at h
    rw [if_pos hone]
    exact litStream_of_spells hb hht (by decide) (by omega) rfl (by omega) h
  · rw [if_neg hone]
    exact fourStreams_of_spells hb hht hone hlast (hmin.resolve_left hone) hroom h

end

/-! ## The body and the section (R220, R223, R230) -/

section
variable (hb : inByte u = inByte s) (hht : u.ht = s.ht) (hroom : h.regen ≤ Config.litCap)
include hb hht hroom

/-- The table of a coded section is built or held, and its streams leave their literals in LIT (R223). -/
theorem codedBody_of_content (hcoded : h.type = .compressed ∨ h.type = .treeless) (hcap : a + h.size + h.comp ≤ Config.inCap)
    (hmin : h.streams = 1 ∨ 6 ≤ h.regen) (hvalid : h.type = .treeless → s.ht.valid = true)
    (hcontent : litContent s h a bs ht) :
    ∃ v, codedBody h (a + h.size) (a + h.size + h.comp) u = .ok () v ∧ v.lit = u.lit.setFrom 0 bs ∧ v.ht = ht := by
  obtain ⟨hlen, hcontent⟩ := hcontent
  rw [← hlen] at hroom hmin
  unfold codedBody
  rw [← hlen]
  rcases hcoded with htype | htype <;> rw [htype] at hcontent
  · obtain ⟨wd, size, maxLen, x, htree, hok, rfl, hstreams⟩ := hcontent
    obtain ⟨u1, e1, ht1⟩ := huffTree_at hb hcap htree hok
    have k1 := (touches_huffTree _ _).ok e1
    have b1 := (inByte_of_keeps k1 (by decide)).trans hb
    have table : bodyTable h (a + h.size) (a + h.size + h.comp) u = .ok size u1 := (congrFun (if_pos htype) u).trans e1
    obtain ⟨v, e2, k2⟩ := streams_of_spells b1 ht1 (treeAt_bounds htree).2 hcap hmin hroom hstreams
    have lit1 : u1.lit = u.lit := k1 .lit (by decide)
    exact ⟨v, (bind_of_ok table).trans e2, lit1 ▸ k2.lit, (k2.sees b1 ht1).2⟩
  · obtain ⟨rfl, hstreams⟩ := hcontent
    have held : bodyTable h (a + h.size) (a + h.size + h.comp) u = .ok 0 u := by
      unfold bodyTable
      rw [if_neg (by rw [htype]; decide)]
      exact bind_of_ok (ensure_of (show u.ht.valid = true by rw [hht]; exact hvalid htype))
    obtain ⟨v, e, k⟩ := streams_of_spells hb hht (Nat.le_add_right _ _) hcap hmin hroom hstreams
    exact ⟨v, (bind_of_ok held).trans e, k.lit, (k.sees hb hht).2⟩

/-- A body of any type leaves the section's literals in LIT (R220). -/
theorem litBody_of_content {blockMax : Nat} (hstreams : h.streams = 1 ∨ h.streams = 4) (hlim : lim ≤ Config.inCap)
    (herr : litError h a lim blockMax s.ht.valid = none) (hcontent : litContent s h a bs ht) :
    ∃ v, litBody h a lim u = .ok (litSize h) v ∧ v.lit = u.lit.setFrom 0 bs := by
  have coded (hcoded : h.type = .compressed ∨ h.type = .treeless) :
      ∃ v, litBody h a lim u = .ok (litSize h) v ∧ v.lit = u.lit.setFrom 0 bs := by
    obtain ⟨-, -, hmin, hbody, hvalid⟩ := litError_eq_none hstreams hcoded herr
    obtain ⟨v, e, hlit, -⟩ := codedBody_of_content hb hht hroom hcoded (hbody.trans hlim) hmin hvalid hcontent
    have hsize : litSize h = h.size + h.comp := by rcases hcoded with ht | ht <;> rw [litSize, ht]
    refine ⟨v, ?_, hlit⟩
    rw [litBody_of_coded hcoded, bind_of_ok (ensure_of hmin), bind_of_ok (ensure_of hbody), bind_of_ok e, hsize]
    rfl
  cases htype : h.type with
  | raw =>
    obtain ⟨hlen, hbytes⟩ := hcontent
    rw [htype] at hbytes
    have hbytes : inBytes u (a + h.size) bs := by rwa [inBytes, hb]
    exact ⟨_, litBody_of_rawBytes herr hlim hroom htype hlen hbytes, rfl⟩
  | rle =>
    obtain ⟨hlen, hbytes⟩ := hcontent
    rw [htype] at hbytes
    obtain ⟨b, hb', rfl⟩ := hbytes
    have e := litBody_of_rleByte (s := u) herr hlim hroom htype
    rw [hb, hb'] at e
    exact ⟨_, e, rfl⟩
  | compressed => exact coded (.inl htype)
  | treeless => exact coded (.inr htype)

end

end Sys2Proof.Machine
end

section
/-! SUPPORT. A sequences section read to its end (R252, R258 to R263): one sequence after another as its stream spells them,
resolved into SEQ, after its three tables and its count. -/

open Sys2Proof Sys2Proof.Machine

namespace Sys2Proof.Machine

variable {s u v : State} {a lim p n size base : Nat} {m : Byte} {tl tf tm : FseTable} {raw : List (Nat × Nat × Nat)}
  {entries : List SeqEntry} {rep : RepCache} {pos last : Int}

/-! ## Sequences (R258 to R262) -/

/-- In `v` the sequences `entries`, `n` of them, follow those of SEQ in `u`, and REP is `rep`. -/
structure SequencesRead (u v : State) (n : Nat) (entries : List SeqEntry) (rep : RepCache) : Prop where
  seq : v.seq = u.seq ++ entries
  nbSeq : v.nbSeq.toNat = u.nbSeq.toNat + n
  rep : v.rep = rep

/-- The entry of SEQ for a sequence and its resolved offset (R64). -/
def entryFor (x : Nat × Nat × Nat) (off : Nat) : SeqEntry :=
  ⟨BitVec.ofNat 32 x.2.2, BitVec.ofNat 32 off, BitVec.ofNat 32 x.2.1⟩

theorem SequencesRead.cons {w : State} {x : Nat × Nat × Nat} {off : Nat} {rep' : RepCache}
    (h : SequencesRead u v 1 [entryFor x off] rep') (k : SequencesRead v w n entries rep) :
    SequencesRead u w (n + 1) (entryFor x off :: entries) rep :=
  ⟨by rw [k.seq, h.seq, List.append_assoc, List.singleton_append], by rw [k.nbSeq, h.nbSeq]; omega, k.rep⟩

/-- A sequence that passes its checks is appended to SEQ, its offset resolved (R262, R263). -/
theorem seqChecked_of_resolves {x : Nat × Nat × Nat} {off : Nat} (h : ReaderAt s v .r4 base pos) (hpos : 0 ≤ pos)
    (hres : resolveRep v.rep x.1 x.2.2 = some (off, rep)) (hroom : v.nbSeq.toNat < Config.seqCap) :
    ∃ w, seqChecked x v = .ok () w ∧ SequencesRead v w 1 [entryFor x off] rep ∧ Keeps [.rep, .seq, .nbSeq] v w := by
  have resolved : resolveOffset x.1 x.2.2 v = .ok off { v with rep := rep } := by
    unfold resolveOffset
    rw [bind_of_ok (look_apply _ v), hres]
    rfl
  have appended := seqAppend_of_lt (s := { v with rep := rep }) (ll := x.2.2) (off := off) (ml := x.2.1) hroom
  simp only [Config.seqCap] at hroom
  refine ⟨_, (bind_of_ok (rpos_at h)).trans ((bind_of_ok (ensure_of hpos)).trans ((bind_of_ok resolved).trans appended)),
    ⟨rfl, toNat_ofNat_of_lt (w := 17) (n := v.nbSeq.toNat + 1) (by omega), rfl⟩, ?_⟩
  exact (((touches_resolveOffset _ _).ok resolved).mono (by simp)).trans (((touches_seqAppend _ _ _).ok appended).mono (by simp))

/-- What the sequences of a section may change. -/
def sequenceParts : List Part := [.rr .r4, .st .ll, .st .ml, .st .off, .rep, .seq, .nbSeq]

/-- The sequences that a stream spells are decoded one after another. -/
theorem seqLoop_of_spells (hok : SeqTables tl tf tm) : ∀ {raw : List (Nat × Nat × Nat)} {entries : List SeqEntry} {u : State}
    {l o m : Nat} {pos : Int}, SeqAt s u base tl tf tm l o m pos → -100 ≤ pos →
      u.nbSeq.toNat + raw.length ≤ Config.seqCap → spellsSequences s base tl tf tm raw l o m pos last →
        resolves u.rep raw entries rep → ∃ v, seqLoop raw.length u = .ok () v ∧ ReaderAt s v .r4 base last ∧
          SequencesRead u v raw.length entries rep ∧ Keeps sequenceParts u v
  | [], _, u, _, _, _, _, h, _, _, hspell, hres => by
    obtain rfl : _ = last := hspell
    obtain ⟨rfl, rfl⟩ := hres
    exact ⟨u, rfl, h.reader, ⟨(List.append_nil _).symm, rfl, rfl⟩, .refl _ u⟩
  | x :: raw, _, u, l, o, m, pos, h, hpos, hroom, ⟨el, eo, em, hl, ho, hm, hx, hspell⟩,
      ⟨off, rep', rest, hres, hseq, hrest⟩ => by
    subst hseq
    rw [List.length_cons] at hroom ⊢
    obtain ⟨v, step, reader, next, kv⟩ := seqStep_at hok hl ho hm (raw.length == 0) h hpos
    obtain rfl : x = rawSequence s base el eo em pos := hx
    have rep_v : v.rep = u.rep := kv .rep (by decide)
    have nb_v : v.nbSeq = u.nbSeq := kv .nbSeq (by decide)
    have seq_v : v.seq = u.seq := kv .seq (by decide)
    have hend : 0 ≤ sequenceEnd el eo em (raw.length == 0) pos := by
      cases raw with
      | nil => exact hspell.1
      | cons y raw => exact hspell.1
    obtain ⟨w, checked, read, kw⟩ := seqChecked_of_resolves reader hend (rep_v ▸ hres) (by rw [nb_v]; omega)
    have read : SequencesRead u w 1 _ _ := ⟨by rw [read.seq, seq_v], by rw [read.nbSeq, nb_v], read.rep⟩
    have turn : seqStep (raw.length == 0) u = .ok () w := step.trans checked
    have keeps : Keeps sequenceParts u w := (kv.mono (by decide)).trans (kw.mono (by decide))
    have done : ∃ t, seqLoop raw.length w = .ok () t ∧ ReaderAt s t .r4 base last ∧ SequencesRead w t raw.length rest rep ∧
        Keeps sequenceParts w t := by
      cases raw with
      | nil =>
        obtain ⟨rfl, rfl⟩ := hrest
        obtain rfl : readsEnd el eo em pos = last := hspell.2
        exact ⟨w, rfl, reader.of_keeps kw (by simp), ⟨(List.append_nil _).symm, rfl, read.rep⟩, .refl _ w⟩
      | cons y raw =>
        obtain ⟨hll, hoff, hml, hreader⟩ := next rfl
        exact seqLoop_of_spells hok ⟨hll.of_keeps kw (by decide), hoff.of_keeps kw (by decide), hml.of_keeps kw (by decide),
          hreader.of_keeps kw (by decide)⟩ (by omega) (by rw [read.nbSeq]; omega) hspell.2 (read.rep ▸ hrest)
    obtain ⟨t, loop, reader_t, read_t, kt⟩ := done
    exact ⟨t, (bind_of_ok turn).trans loop, reader_t, read.cons read_t, keeps.trans kt⟩

/-! ## The section after its modes byte (R254 to R261) -/

section
variable (hb : inByte u = inByte s) (hlim : lim ≤ Config.inCap)
include hb hlim

/-- The three states are read at the head of the stream (R259). -/
theorem seqStream_states (hok : SeqTables tl tf tm) (hp : p ≤ lim) (hl : u.ft.get .ll = tl) (ho : u.ft.get .off = tf)
    (hm : u.ft.get .ml = tm) (hstream : streamAt s p (lim - p) pos) :
    ∃ v, seqStream n p lim u = (seqLoop n >>= fun _ => seqEnded) v ∧
      SeqAt s v p tl tf tm (streamBits s p pos tl.al.toNat) (streamBits s p (pos - tl.al.toNat) tf.al.toNat)
        (streamBits s p (pos - tl.al.toNat - tf.al.toNat) tm.al.toNat) (pos - tl.al.toNat - tf.al.toNat - tm.al.toNat) ∧
      -100 ≤ pos - tl.al.toNat - tf.al.toNat - tm.al.toNat ∧
      Keeps [.rr .r4, .rrStale .r4, .st .ll, .st .off, .st .ml] u v := by
  have hpos : 0 ≤ pos := by obtain ⟨hlen, -, rfl⟩ := hstream; omega
  obtain ⟨al, -⟩ := hok.ll
  obtain ⟨af, -⟩ := hok.off
  obtain ⟨am, -⟩ := hok.ml
  simp only [maxLog] at al af am
  obtain ⟨u0, e0, r0, k0⟩ := rinit_at .r4 hstream hb (by omega)
  have ft (t : TSel) : u0.ft.get t = u.ft.get t := k0 (.ft t) (by simp)
  obtain ⟨u1, e1, h1, r1, k1⟩ := initState_at .ll ((ft .ll).trans hl) hok.ll r0 (by omega)
  have ft (t : TSel) : u1.ft.get t = u.ft.get t := Eq.trans (k1 (.ft t) (by simp)) (ft t)
  obtain ⟨u2, e2, h2, r2, k2⟩ := initState_at .off ((ft .off).trans ho) hok.off r1 (by omega)
  have ft (t : TSel) : u2.ft.get t = u.ft.get t := Eq.trans (k2 (.ft t) (by simp)) (ft t)
  obtain ⟨u3, e3, h3, r3, k3⟩ := initState_at .ml ((ft .ml).trans hm) hok.ml r2 (by omega)
  exact ⟨u3, (bind_of_ok e0).trans ((bind_of_ok e1).trans ((bind_of_ok e2).trans (bind_of_ok e3))),
    ⟨(h1.of_keeps k2 (by decide)).of_keeps k3 (by decide), h2.of_keeps k3 (by decide), h3, r3⟩, by omega,
    ((k0.mono (by decide)).trans (k1.mono (by decide))).trans ((k2.mono (by decide)).trans (k3.mono (by decide)))⟩

/-- A section's tables and stream give its sequences (R254 to R261). -/
theorem seqFromModes_of_content (hft : ∀ t, t ≠ .hw → u.ft.get t = s.ft.get t) (hp : p ≤ lim)
    (hroom : u.nbSeq.toNat + raw.length ≤ Config.seqCap) (hcontent : seqContent s m p lim tl tf tm raw)
    (hres : resolves u.rep raw entries rep) :
    ∃ v, seqFromModes m raw.length p lim u = .ok () v ∧ SequencesRead u v raw.length entries rep ∧
      v.ft.get .ll = tl ∧ v.ft.get .off = tf ∧ v.ft.get .ml = tm := by
  obtain ⟨hm, okl, okf, okm, p1, p2, p3, pos, hll, hoff, hml, -, hstream, hspell⟩ := hcontent
  obtain ⟨u1, e1, htl, hp1⟩ := seqTable_at hb (hft .ll (by decide)) hp hlim hll
  have k1 := (touches_seqTable .ll _ _ _).ok e1
  have b1 := (inByte_of_keeps k1 (by decide)).trans hb
  have ft1 : u1.ft.get .off = s.ft.get .off := Eq.trans (k1 (.ft .off) (by decide)) (hft .off (by decide))
  obtain ⟨u2, e2, htf, hp2⟩ := seqTable_at b1 ft1 hp1 hlim hoff
  have k2 := (touches_seqTable .off _ _ _).ok e2
  have b2 := (inByte_of_keeps k2 (by decide)).trans b1
  have ft2 : u2.ft.get .ml = s.ft.get .ml :=
    Eq.trans (k2 (.ft .ml) (by decide)) (Eq.trans (k1 (.ft .ml) (by decide)) (hft .ml (by decide)))
  obtain ⟨u3, e3, htm, hp3⟩ := seqTable_at b2 ft2 hp2 hlim hml
  have k3 := (touches_seqTable .ml _ _ _).ok e3
  have htl3 : u3.ft.get .ll = tl := Eq.trans (k3 (.ft .ll) (by decide)) (Eq.trans (k2 (.ft .ll) (by decide)) htl)
  have htf3 : u3.ft.get .off = tf := Eq.trans (k3 (.ft .off) (by decide)) htf
  obtain ⟨u4, e4, at4, hpos, k4⟩ := seqStream_states (n := raw.length) ((inByte_of_keeps k3 (by decide)).trans b2) hlim
    ⟨okl, okf, okm⟩ hp3 htl3 htf3 htm hstream
  have keeps : Keeps [.draws, .fr, .frStale, .dist, .ft .ll, .ft .off, .ft .ml, .rr .r4, .rrStale .r4, .st .ll, .st .off,
      .st .ml] u u4 :=
    ((k1.mono (by decide)).trans (k2.mono (by decide))).trans ((k3.mono (by decide)).trans (k4.mono (by decide)))
  have rep4 : u4.rep = u.rep := keeps .rep (by decide)
  have nb4 : u4.nbSeq = u.nbSeq := keeps .nbSeq (by decide)
  have seq4 : u4.seq = u.seq := keeps .seq (by decide)
  obtain ⟨v, loop, reader, read, kv⟩ := seqLoop_of_spells ⟨okl, okf, okm⟩ at4 hpos (by rwa [nb4]) hspell (rep4 ▸ hres)
  have stream : seqStream raw.length p3 lim u3 = .ok () v :=
    e4.trans ((bind_of_ok loop).trans ((bind_of_ok (rpos_at reader)).trans (ensure_of rfl)))
  have ft (t : TSel) : v.ft.get t = u3.ft.get t := Eq.trans (kv (.ft t) (by simp [sequenceParts])) (k4 (.ft t) (by simp))
  exact ⟨v, (bind_of_ok (ensure_of hm)).trans ((bind_of_ok e1).trans ((bind_of_ok e2).trans ((bind_of_ok e3).trans stream))),
    ⟨by rw [read.seq, seq4], by rw [read.nbSeq, nb4], read.rep⟩, (ft .ll).trans htl3, (ft .off).trans htf3,
      (ft .ml).trans htm⟩

/-! ## SeqDecode (R252, R263) -/

/-- A count that stands in IN is read, whatever else the state holds. -/
theorem readSeqCount_of_inByte (hcount : countAt s a n size) (hle : a + size ≤ lim) :
    readSeqCount a lim u = .ok ⟨size, n⟩ u := by
  obtain ⟨row, bs, hwf, hrow, henc, hbytes⟩ := hcount
  exact readSeqCount_of_countAt ⟨row, bs, hwf, hrow, henc, by rwa [inBytes, hb]⟩ hle hlim

/-- The single byte 00 is a section without sequences (R252). -/
theorem seqDecode_of_zero (hzero : inByte s a = 0) (hend : lim = a + 1) : seqDecode a lim u = .ok () (seqStarted u) := by
  have hcount : countAt s a 0 1 := ⟨.seqcntZero, [0], rfl, rfl, rfl, fun k hk => by
    obtain rfl : k = 0 := by simpa using hk
    exact hzero⟩
  have read := readSeqCount_of_inByte (u := seqStarted u) hb hlim hcount hend.ge
  subst hend
  exact (bind_of_ok rfl).trans ((bind_of_ok read).trans ((bind_of_ok (ensure_of le_rfl)).trans (ensure_of rfl)))

/-- A section of at least one sequence yields its sequences and its tables (R263). -/
theorem seqDecode_of_content (hft : ∀ t, t ≠ .hw → u.ft.get t = s.ft.get t) (hn : 1 ≤ raw.length)
    (hcount : countAt s a raw.length size) (hle : a + size + 1 ≤ lim)
    (hcontent : seqContent s (inByte s (a + size)) (a + size + 1) lim tl tf tm raw) (hres : resolves u.rep raw entries rep) :
    ∃ v, seqDecode a lim u = .ok () v ∧ SequencesRead (seqStarted u) v raw.length entries rep ∧
      v.ft.get .ll = tl ∧ v.ft.get .off = tf ∧ v.ft.get .ml = tm := by
  have hroom : raw.length ≤ Config.seqCap := by
    obtain ⟨row, bs, -, hrow, -⟩ := hcount
    exact countOf_le hrow
  have read := readSeqCount_of_inByte (u := seqStarted u) hb hlim hcount (by omega)
  have modes : modesByte none (a + size) (seqStarted u) = .ok (inByte s (a + size)) (seqStarted u) :=
    hb ▸ readIn_of_lt (s := seqStarted u) (by omega)
  obtain ⟨v, e, hv⟩ := seqFromModes_of_content (u := seqStarted u) hb hlim hft hle
    (by simpa [seqStarted] using hroom) hcontent hres
  refine ⟨v, ?_, hv⟩
  have counted := (seqFromCount_of_pos (s := seqStarted u) none hn hle).trans ((bind_of_ok modes).trans e)
  exact (bind_of_ok rfl).trans ((bind_of_ok read).trans counted)

end

end Sys2Proof.Machine
end

section
/-! CERTIFICATE. DECODE_BLOCK on a body that holds a literals section and a sequences section (R220, R263, R293, R295). -/

open Sys2Proof Sys2Proof.Machine

namespace Sys2Proof.Machine

variable {s u : State} {h : LitHeader} {a lim : Nat} {bs : List Byte} {ht : HufTable} {raw : List (Nat × Nat × Nat)}
  {entries : List SeqEntry} {rep : RepCache}

/-- A section that holds literals leaves them in LIT and their number in LIT_LEN (R220, R230). -/
theorem litDecode_of_content (hranges : RangesOk s) (hb : inByte u = inByte s) (hht : u.ht = s.ht)
    (hmax : u.blockMax = s.blockMax) (hlim : lim ≤ Config.inCap) (hhead : headerAt s a h)
    (herr : litError h a lim s.blockMax.toNat s.ht.valid = none) (hcontent : litContent s h a bs ht) :
    ∃ v, litDecode a lim u = .ok (litSize h) v ∧ litHolds u v 0 bs ∧ v.litLen.toNat = h.regen := by
  have hroom := regen_le_litCap hranges herr
  obtain ⟨row, bytes, hrow, henc, hbytes⟩ := hhead
  obtain ⟨w, body, hlit⟩ := litBody_of_content hb hht hroom (headerOf_streams hrow) hlim herr hcontent
  have hread : headerAt u a h := ⟨row, bytes, hrow, henc, by rwa [inBytes, hb]⟩
  have decoded := litDecode_of_litSection hread (litError_none herr).1 hlim
    (litSection_of_litBody (by rwa [hmax, hht]) body)
  simp only [Config.litCap] at hroom
  refine ⟨_, decoded, ⟨fun k hk => ?_, fun c hc => ?_⟩, toNat_ofNat_of_lt (w := 18) (by omega)⟩
  · exact (congrArg (Memory.get? · (0 + k)) hlit).trans (Memory.get?_setFrom bs hk)
  · exact (congrArg (Memory.get? · c) hlit).trans (Memory.get?_setFrom_of_outside bs hc)

/-- The section after the literals: the byte 00, or sequences (R252, R263). -/
theorem seqDecode_of_body (hb : inByte u = inByte s) (hft : ∀ t, t ≠ .hw → u.ft.get t = s.ft.get t)
    (hlim : lim ≤ Config.inCap)
    (hbody : inByte s a = 0 ∧ lim = a + 1 ∧ raw = [] ∨ ∃ size tl tf tm,
      1 ≤ raw.length ∧ countAt s a raw.length size ∧ a + size + 1 ≤ lim ∧
        seqContent s (inByte s (a + size)) (a + size + 1) lim tl tf tm raw)
    (hres : resolves u.rep raw entries rep) :
    ∃ v, seqDecode a lim u = .ok () v ∧ SequencesRead (seqStarted u) v raw.length entries rep := by
  rcases hbody with ⟨hzero, hend, rfl⟩ | ⟨size, tl, tf, tm, hn, hcount, hle, hcontent⟩
  · obtain ⟨rfl, rfl⟩ := hres
    exact ⟨_, seqDecode_of_zero hb hlim hzero hend, rfl, rfl, rfl⟩
  · obtain ⟨v, e, read, -⟩ := seqDecode_of_content hb hlim hft hn hcount hle hcontent hres
    exact ⟨v, e, read⟩

end Sys2Proof.Machine

/-- Settles O53: LitDecode leaves the bytes of the body, REP and the three sequence tables alone, so SeqDecode finds its
section as the body gives it, and it leaves the literals alone. -/
theorem blockDecodesBothSections : Obligations.BlockDecodesBothSections := by
  intro a0 s h bs ht raw entries rep hn hranges hpos hmax hhead herr hcontent hbody hres
  have hcap : a0.toNat ≤ 131072 := hmax.trans hranges.blockMax.2
  have hin : (setInLen a0.toNat s).inLen.toNat = a0.toNat := toNat_ofNat_of_lt (w := 18) (by omega)
  obtain ⟨u, lits, hlit, hlen⟩ := litDecode_of_content (u := setInLen a0.toNat s) hranges rfl rfl rfl hcap hhead herr hcontent
  have ku := (touches_litDecode _ _).ok lits
  have ft (t : TSel) (ht : t ≠ .hw) : u.ft.get t = s.ft.get t := ku (.ft t) (by
    cases t with
    | hw => exact absurd rfl ht
    | ll | off | ml => decide)
  have rep_u : u.rep = s.rep := ku .rep (by decide)
  have hin_u : u.inLen = (setInLen a0.toNat s).inLen := ku .inLen (by decide)
  have hb : inByte u = inByte (setInLen a0.toNat s) := inByte_of_keeps ku (by decide)
  obtain ⟨v, seqs, read⟩ := seqDecode_of_body (s := s) hb ft hcap hbody (rep_u ▸ hres)
  have kv := (touches_seqDecode _ _).ok seqs
  have lit_v : v.lit = u.lit := kv .lit (by decide)
  have litLen_v : v.litLen = u.litLen := kv .litLen (by decide)
  have hin_v : v.inLen = u.inLen := kv .inLen (by decide)
  have hn_u : noError u = true := ((ends_litDecode hin.ge).ok lits).1.noError.trans hn
  have hn_v : noError v = true := ((ends_seqDecode (hin_u ▸ hin.ge)).ok seqs).1.noError.trans hn_u
  have nb_v : v.nbSeq.toNat = raw.length := read.nbSeq.trans (Nat.zero_add _)
  have res : (BitVec.ofNat 32 v.nbSeq.toNat).toNat = v.nbSeq.toNat := toNat_ofNat_of_lt (by omega)
  refine ⟨{ v with res := BitVec.ofNat 32 v.nbSeq.toNat },
    decodeBlock_of_ok hcap hmax hn ((bind_of_ok lits).trans (bind_of_ok seqs)), hn_v, ?_, ?_, ?_, ?_, nb_v,
    res.trans nb_v, read.rep⟩
  · exact (congrArg BitVec.toNat (hin_v.trans hin_u)).trans hin
  · exact lit_v ▸ hlit
  · exact (congrArg BitVec.toNat litLen_v).trans hlen
  · exact read.seq
end

section
/-! SUPPORT. A section that is the single count byte 00 (R252), and ResolveOffset by the slot of the cache it takes
(R262). -/

open Sys2Proof Sys2Proof.Machine

namespace Sys2Proof.Machine

variable {s : State} {a lim : Nat}

/-! ## The count 00 (R252) -/

/-- The byte 00 is the one-byte count of 0 (R94). -/
theorem countAt_of_zero (h : inByte s a = 0) : countAt s a 0 1 :=
  ⟨.seqcntZero, [0], rfl, rfl, rfl, fun k hk => by
    obtain rfl : k = 0 := by simpa using hk
    exact h⟩

theorem seqFromCount_zero (forced : Option Byte) (h : lim = a + 1) : seqFromCount ⟨1, 0⟩ forced a lim s = .ok () s := by
  subst h
  exact (bind_of_ok (ensure_of le_rfl)).trans (ensure_of rfl)

theorem raises_seqFromCount_zero (forced : Option Byte) (h : a + 1 < lim) :
    Raises (seqFromCount ⟨1, 0⟩ forced a lim) s .seqTrailing :=
  .pass h.le (.ensure h.ne)

/-- `s` as a section without sequences leaves it: NBSEQ and RES are 0 (R252, R264). -/
def noSequences (s : State) : State := { seqStarted s with res := 0 }

theorem setResNbSeq_seqStarted (s : State) : setResNbSeq (seqStarted s) = .ok () (noSequences s) := rfl

theorem noSequences_keeps (s : State) : Keeps [.res, .seq, .nbSeq] s (noSequences s) :=
  ((touches_seqStart.ok (rfl : seqStart s = .ok () (seqStarted s))).mono (by decide)).trans
    ((touches_setResNbSeq.ok (setResNbSeq_seqStarted s)).mono (by decide))

/-! ## Slots of the offset cache (R262) -/

theorem arg_ne_zero {a : Word} (h : a ≠ 0) : arg a ≠ 0 := fun h0 => h (BitVec.eq_of_toNat_eq h0)

/-- A0 of 1 to 3 is looked up in the cache, at slot `k`: A0 itself where A1 is 0, else one less (R262). Slot 3 stands for
REP[0] - 1. -/
structure TakesSlot (a0 a1 : Word) (k : Nat) : Prop where
  pos : a0 ≠ 0
  le : arg a0 ≤ 3
  slot : (if arg a1 = 0 then arg a0 else arg a0 - 1) = k

variable {a0 a1 : Word}

theorem TakesSlot.of_zero (pos : a0 ≠ 0) (le : arg a0 ≤ 3) (h : a1 = 0) : TakesSlot a0 a1 (arg a0) :=
  ⟨pos, le, if_pos (congrArg BitVec.toNat h)⟩

theorem TakesSlot.of_ne_zero (pos : a0 ≠ 0) (le : arg a0 ≤ 3) (h : a1 ≠ 0) : TakesSlot a0 a1 (arg a0 - 1) :=
  ⟨pos, le, if_neg (arg_ne_zero h)⟩

theorem resolveRep_of_slot0 (h : TakesSlot a0 a1 0) (rep : RepCache) :
    resolveRep rep (arg a0) (arg a1) = some (rep.rep0.toNat, rep) := by
  rw [resolveRep, if_neg h.le.not_gt, h.slot]
  rfl

theorem resolveRep_of_slot1 (h : TakesSlot a0 a1 1) (rep : RepCache) :
    resolveRep rep (arg a0) (arg a1) = some (rep.rep1.toNat, ⟨rep.rep1, rep.rep0, rep.rep2⟩) := by
  rw [resolveRep, if_neg h.le.not_gt, h.slot]
  rfl

theorem resolveRep_of_slot2 (h : TakesSlot a0 a1 2) (rep : RepCache) :
    resolveRep rep (arg a0) (arg a1) = some (rep.rep2.toNat, ⟨rep.rep2, rep.rep0, rep.rep1⟩) := by
  rw [resolveRep, if_neg h.le.not_gt, h.slot]
  rfl

theorem resolveRep_of_slot3 (h : TakesSlot a0 a1 3) (rep : RepCache) :
    resolveRep rep (arg a0) (arg a1) = if rep.rep0.toNat - 1 = 0 then none else
      some (rep.rep0.toNat - 1, ⟨BitVec.ofNat 32 (rep.rep0.toNat - 1), rep.rep0, rep.rep1⟩) := by
  rw [resolveRep, if_neg h.le.not_gt, h.slot]
  rfl

/-! ## SEQ_RESOLVE (R265) -/

section
variable {rep : RepCache} (hn : noError s = true) (hrep : s.rep = rep)
include hn hrep

/-- Where ResolveOffset gives an offset, SEQ_RESOLVE leaves it both in RES and at the head of the cache (R262, R265). -/
theorem exec_seqResolve_of_some {out : Nat × RepCache} (h0 : a0 ≠ 0) (h : resolveRep rep (arg a0) (arg a1) = some out) :
    exec (.seqResolve a0 a1) s = .next { s with res := out.2.rep0, rep := out.2 } := by
  have resolved : resolveOffset (arg a0) (arg a1) s = .ok out.1 { s with rep := out.2 } := by
    unfold resolveOffset
    rw [bind_of_ok (look_apply _ s), hrep, h]
    rfl
  rw [← resolveRep_fst h]
  exact runCommand_of_ok hn ((bind_of_ok (ensure_of (arg_ne_zero h0))).trans (bind_of_ok resolved))

theorem exec_seqResolve_of_none (h0 : a0 ≠ 0) (h : resolveRep rep (arg a0) (arg a1) = none) :
    ∃ t, exec (.seqResolve a0 a1) s = .next t ∧ onlyStatus .seqRepZero 0x51 s t := by
  refine runCommand_onlyStatus hn (by decide) (.pass (arg_ne_zero h0) (.bind (.look ?_)))
  rw [hrep, h]
  exact .raise

end

end Sys2Proof.Machine
end

section
/-! CERTIFICATE. A sequences section without sequences (R252, R263, R264), and SEQ_RESOLVE (R262, R265). -/

open Sys2Proof Sys2Proof.Machine

/-- Settles O47: after the count 00 the one check left is that the section ends, before any table is read. -/
theorem zeroSequenceCountEndsTheSection : Obligations.ZeroSequenceCountEndsTheSection := by
  intro i s a lim hn hranges hi
  have hcap := hranges.inLen
  refine ⟨fun hend => ⟨noSequences s, ?_, rfl, rfl, rfl, noSequences_keeps s⟩, fun hlong => ?_⟩
  · rcases hi with ⟨a0, a1, rfl, rfl, rfl, hlim, hzero⟩ | ⟨rfl, rfl, rfl⟩
    · exact runCommand_of_ok hn ((checkRegion_bind_of ⟨show a0.toNat ≤ a1.toNat by omega, hlim⟩).trans
        (bind_of_ok (seqDecode_of_zero rfl (hlim.trans hcap) hzero hend)))
    · rw [exec_seqcnt rfl rfl]
      exact runCommand_of_ok hn (bind_of_ok (s := seqStarted s) (seqFromCount_zero none hend))
  · rcases hi with ⟨a0, a1, rfl, rfl, rfl, hlim, hzero⟩ | ⟨rfl, rfl, rfl⟩
    · exact seqDecode_status hn ⟨by omega, hlim⟩ (.after
        (readSeqCount_of_countAt (s := seqStarted s) (countAt_of_zero hzero) hlong.le (hlim.trans hcap))
        (raises_seqFromCount_zero none hlong))
    · exact seqcnt_status hn rfl rfl (raises_seqFromCount_zero none hlong)

/-- Settles O51: A0 and whether A1 is 0 name the slot of the cache; slot 3 is one less than REP[0], which is not 0. -/
theorem seqResolveSubstitutesRepeatOffsets : Obligations.SeqResolveSubstitutesRepeatOffsets := by
  intro a0 a1 s x y z hn hrep hx
  refine ⟨fun h => ?_, fun h => ?_, fun ⟨h0, h1⟩ => ?_, fun h => ?_, fun h => ?_, fun ⟨h0, h1, h⟩ => ?_,
    fun ⟨h0, h1, h⟩ => ?_⟩
  · exact runCommand_illegal hn rfl (.bind (.ensure (by simp [h, arg])))
  · have new : BitVec.ofNat 32 (arg a0 - 3) = a0 - 3 := by
      unfold arg
      bv_omega
    rw [exec_seqResolve_of_some hn hrep (by rintro rfl; simp at h) (if_pos h), new]
  · subst h0
    have slot : TakesSlot 1 a1 0 := .of_ne_zero (by decide) (by decide) h1
    have kept : { s with res := x, rep := ⟨x, y, z⟩ } = { s with res := x } := by rw [← hrep]
    exact (exec_seqResolve_of_some hn hrep slot.pos (resolveRep_of_slot0 slot _)).trans (congrArg _ kept)
  · have slot : TakesSlot a0 a1 1 := by
      rcases h with ⟨rfl, h1⟩ | ⟨rfl, h1⟩
      · exact .of_ne_zero (by decide) (by decide) h1
      · exact .of_zero (by decide) (by decide) h1
    exact exec_seqResolve_of_some hn hrep slot.pos (resolveRep_of_slot1 slot _)
  · have slot : TakesSlot a0 a1 2 := by
      rcases h with ⟨rfl, h1⟩ | ⟨rfl, h1⟩
      · exact .of_ne_zero (by decide) (by decide) h1
      · exact .of_zero (by decide) (by decide) h1
    exact exec_seqResolve_of_some hn hrep slot.pos (resolveRep_of_slot2 slot _)
  · subst h0
    have less : BitVec.ofNat 32 (x.toNat - 1) = x - 1 := by bv_omega
    have slot : TakesSlot 3 a1 3 := .of_zero (by decide) (by decide) h1
    have last := (resolveRep_of_slot3 slot ⟨x, y, z⟩).trans (if_neg (by simp only; bv_omega))
    rw [exec_seqResolve_of_some hn hrep slot.pos last, less]
  · subst h0 h
    have slot : TakesSlot 3 a1 3 := .of_zero (by decide) (by decide) h1
    exact exec_seqResolve_of_none hn hrep slot.pos ((resolveRep_of_slot3 slot ⟨1, y, z⟩).trans (if_pos rfl))
end

section
/-! CERTIFICATE. NOP, and the other words whose OP is 00 (R84, R290). -/

open Sys2Proof Sys2Proof.Machine

namespace Sys2Proof.Machine

variable {c : Command} {s : State}

/-- The five fields are all the bits of a word (R80). -/
theorem word_eq_zero_iff {w : Word} :
    w = 0 ↔ fieldOp w = 0 ∧ fieldR w = 0 ∧ fieldT w = 0 ∧ fieldN w = 0 ∧ fieldReserved w = 0 := by
  constructor
  · rintro rfl
    decide
  · simp only [fieldOp, fieldR, fieldT, fieldN, fieldReserved, ← BitVec.toNat_inj, BitVec.extractLsb'_toNat,
      Nat.shiftRight_eq_div_pow, BitVec.toNat_ofNat, BitVec.ofNat_eq_ofNat]
    omega

/-- A row that uses no field accepts, of the words with OP 00, the word 0 alone (R84). -/
theorem fieldsOk_of_opNop {op : BitVec 8} {make : BitVec 3 → BitVec 3 → BitVec 5 → Word → Word → Instr} {w : Word}
    (h : fieldOp w = 0) : fieldsOk ⟨op, false, false, false, make⟩ w = true ↔ w = 0 := by
  simp only [fieldsOk, word_eq_zero_iff, h, Bool.false_or, Bool.and_eq_true, beq_iff_eq]
  tauto

theorem decodeCommand_of_opNop (h : fieldOp c.word = 0) :
    decodeCommand c = if c.word = 0 then .ok .nop else .error .badField := by
  have row : commandRows.find? (fun row => row.op == fieldOp c.word) = commandRows.head? := by rw [h]; rfl
  unfold decodeCommand
  rw [row]
  exact if_congr (fieldsOk_of_opNop h) rfl rfl

/-- A word rejected for its fields records the error and does nothing else (R84, R311, R313). -/
theorem rejectCommand_badField (op : BitVec 8) (s : State) :
    rejectCommand op .badField s = .next (recordError .badField op s) := by
  cases hn : noError s with
  | false => exact (runCommand_of_error hn).trans (congrArg _ (recordError_of_error hn).symm)
  | true => exact (runCommand_illegal hn rfl .raise).trans (congrArg _ (recordError_of_noError hn).symm)

/-- NOP passes the error gate, so no premise about STATUS is needed (R290). -/
theorem exec_nop (s : State) : exec .nop s = .next s := rfl

end Sys2Proof.Machine

/-- Settles O16: the word 0 is the one word with OP 00 that decodes, and BAD_FIELD is recorded for the others. -/
theorem nopChangesNothing : Obligations.NopChangesNothing := by
  refine ⟨exec_nop, fun c s hop => ?_⟩
  have decoded := decodeCommand_of_opNop hop
  by_cases hw : c.word = 0
  · rw [if_neg fun h => h.1 hw, issue_of_ok (decoded.trans (if_pos hw)), exec_nop]
  · rw [issue_of_error (decoded.trans (if_neg hw)), hop, rejectCommand_badField, recordError]
    simp only [ne_eq, hw, not_false_eq_true, true_and]
end

section
/-! CERTIFICATE. The error gate, and what STATUS records of a command's error (60_exceptions.md: R310, R311, R313). -/

open Sys2Proof Sys2Proof.Machine

namespace Sys2Proof.Machine

variable {α β : Type} {i : Instr} {c : Command} {s t : State}

/-! ## Operations that leave STATUS alone: it is written by `takeError` and FRAME_RESET only (R310, R311) -/

/-- Where `x` completes, STATUS is as before. -/
def LeavesStatus (x : Op α) : Prop := ∀ s a t, x s = .ok a t → t.status = s.status

theorem LeavesStatus.bind {x : Op α} {f : α → Op β} (hx : LeavesStatus x) (hf : ∀ a, LeavesStatus (f a)) :
    LeavesStatus (x >>= f) := fun s b t e => by
  obtain ⟨a, u, e, e'⟩ := bind_eq_ok.mp e
  exact (hf a u b t e').trans (hx s a u e)
theorem LeavesStatus.of_touches {ps : List Part} {x : Op α} (h : Touches ps x) (hp : .status ∉ ps := by simp) :
    LeavesStatus x := fun _ _ _ e => h.ok e .status hp
theorem LeavesStatus.of_ends {x : Op α} {Q : State → α → State → Prop} (h : ∀ s, Ends x s (Q s)) : LeavesStatus x :=
  fun s _ _ e => ((h s).ok e).1.frame.2.1
theorem LeavesStatus.look (f : State → α) : LeavesStatus (look f) := .of_touches (ps := []) (.look f)
theorem LeavesStatus.ensure (p : Prop) [Decidable p] (c : Cause) : LeavesStatus (ensure p c) :=
  .of_touches (ps := []) (.ensure p c)
theorem LeavesStatus.select (v : Option α) : LeavesStatus (select v) := .of_touches (ps := []) (touches_select v)
theorem LeavesStatus.change {f : State → State} (h : ∀ s, (f s).status = s.status) : LeavesStatus (change f) :=
  fun s _ _ e => by cases e; exact h s
/-- The common shape of a readiness check. -/
theorem LeavesStatus.check (f : State → α) (p : α → Prop) [∀ a, Decidable (p a)] (c : Cause) :
    LeavesStatus (Machine.look f >>= fun a => Machine.ensure (p a) c) := .bind (.look f) fun _ => .ensure _ c
theorem LeavesStatus.setRes {x : Op α} (h : LeavesStatus x) (f : α → Nat) :
    LeavesStatus (x >>= fun v => Machine.setRes (f v)) := .bind h fun v => .of_touches (touches_setRes _)

/-! The sections of a block: what they read is bounded by IN_LEN, so how they end is known by `Ends` (R230, R263). -/

theorem leavesStatus_hufTree (a lim : Nat) :
    LeavesStatus (checkRegion a lim >>= fun _ => huffTree a lim >>= fun v => setRes v) :=
  .of_ends fun _ => .checkRegion_bind fun ⟨_, hlim⟩ => (ends_huffTree hlim).bind fun v _ _ _ _ => ends_setRes v

theorem leavesStatus_litHeader (h : LitHeader) :
    LeavesStatus (inputEnd >>= fun lim => litSection h 0 lim >>= fun v => setRes v) :=
  .of_ends fun _ => .look_bind ((ends_litSection h le_rfl).bind fun v _ _ _ _ => ends_setRes v)

theorem leavesStatus_hufHeader {hb : Nat} (h : hb < 256) : LeavesStatus (inputEnd >>= fun lim =>
    ensure (1 ≤ lim) .hufTreeOverrun >>= fun _ => huffTreeFrom hb 0 lim >>= fun v => setRes v) :=
  .of_ends fun _ => .look_bind (.ensure_bind fun _ => (ends_huffTreeFrom h le_rfl).bind fun v _ _ _ _ => ends_setRes v)

/-- SeqStart leaves IN_LEN and empties SEQ, which then has room for any count (R263). -/
theorem ends_seqFromCount_started {count : SeqCount} (forced : Option Byte) (hc : Changes s t) (hn : t.nbSeq.toNat = 0)
    (hcount : count.count ≤ Config.seqCap) :
    Ends (seqFromCount count forced 0 s.inLen.toNat >>= fun _ => setResNbSeq) t fun _ _ => True :=
  (ends_seqFromCount forced (le_of_eq (congrArg _ hc.inLen.symm)) (by omega)).bind fun _ _ _ _ _ => ends_setResNbSeq

theorem leavesStatus_seqCount (bytes : List Byte) : LeavesStatus (inputEnd >>= fun lim => seqStart >>= fun _ =>
    seqFromCount (seqCount bytes) none 0 lim >>= fun _ => setResNbSeq) :=
  .of_ends fun _ => .look_bind (ends_seqStart.bind fun _ _ _ hc hn =>
    ends_seqFromCount_started none hc hn (seqCount_le bytes))

theorem leavesStatus_modes (m : Byte) : LeavesStatus (inputEnd >>= fun lim => seqStart >>= fun _ =>
    readSeqCount 0 lim >>= fun c => seqFromCount c (some m) 0 lim >>= fun _ => setResNbSeq) :=
  .of_ends fun _ => .look_bind (ends_seqStart.bind fun _ _ _ hc hn =>
    (ends_readSeqCount (le_of_eq (congrArg _ hc.inLen.symm))).bind fun _ _ _ _ ⟨hcount, hu⟩ =>
      hu ▸ ends_seqFromCount_started _ hc hn hcount)

/-- DECODE_BLOCK reads its sections once it has declared the block (R293). -/
theorem leavesStatus_decodeBlock (n : Nat) : LeavesStatus (ensure (n ≤ Config.inCap) .argRange >>= fun _ =>
    look (fun s => s.blockMax.toNat) >>= fun m => ensure (n ≤ m) .blkTooLarge >>= fun _ =>
      change (setInLen n) >>= fun _ => blockSections n) := fun s _ t e => by
  obtain ⟨_, u, hcap, e⟩ := bind_eq_ok.mp e
  obtain ⟨hcap, hu⟩ := ensure_eq_ok.mp hcap
  rw [hu, bind_of_ok (look_apply _ s)] at e
  obtain ⟨_, v, hmax, e⟩ := bind_eq_ok.mp e
  obtain ⟨-, hv⟩ := ensure_eq_ok.mp hmax
  rw [hv, bind_of_ok (change_apply _ s)] at e
  exact ((ends_sections (setInLen_toNat hcap s).ge).ok e).1.frame.2.1

/-! ## Every instruction runs under the OP that STATUS is to record -/

/-- `i` runs, under its own OP, an operation that leaves STATUS alone. -/
def RunsOwnOp (i : Instr) : Prop :=
  ∃ ws body, (∀ s, exec i s = runCommand (opOf i) ws body s) ∧ LeavesStatus body

/-- NOP passes the gate, but there is nothing it would do behind it (R290). -/
theorem runsOwnOp_nop : RunsOwnOp .nop := by
  refine ⟨[], pure (), fun s => ?_, .of_touches (ps := []) (.pure ())⟩
  cases hn : noError s with
  | false => exact (runCommand_of_error (op := opcNop) hn).symm
  | true => exact (runCommand_of_noError (op := opcNop) (ws := []) (body := pure ()) hn).symm

theorem exec_runsOwnOp : ∀ i : Instr, (∀ a0, i ≠ .frameReset a0) → RunsOwnOp i
  | .nop, _ => runsOwnOp_nop
  | .frameReset a0, h => absurd rfl (h a0)
  | .setInlen _, _ => ⟨_, _, fun _ => rfl, .bind (.ensure _ _) fun _ => .change (setInLen_status _)⟩
  | .decodeBlock a0, _ => ⟨_, _, fun _ => rfl, leavesStatus_decodeBlock (arg a0)⟩
  | .brFinit _ _, _ => ⟨_, _, fun _ => rfl, .bind (.check _ _ _) fun _ => .of_touches (touches_finit _ _)⟩
  | .brFpeek _, _ => ⟨_, _, fun _ => rfl, .bind (.check _ _ _) fun _ => .setRes (.of_touches (touches_fpeek _)) _⟩
  | .brFread _, _ => ⟨_, _, fun _ => rfl, .bind (.check _ _ _) fun _ => .setRes (.of_touches (touches_fread _)) _⟩
  | .brFalign, _ => ⟨_, _, fun _ => rfl, .bind (.check _ _ _) fun _ => .setRes (.of_touches touches_falign) _⟩
  | .brRinit _ _ _, _ => ⟨_, _, fun _ => rfl, .bind (.select _) fun _ => .bind (.look _) fun _ =>
      .bind (.ensure _ _) fun _ => .of_touches (touches_rinit _ _ _)⟩
  | .brRpeek _ _, _ => ⟨_, _, fun _ => rfl, .bind (.select _) fun _ => .bind (.check _ _ _) fun _ =>
      .setRes (.of_touches (touches_rpeek _ _)) _⟩
  | .brRread _ _, _ => ⟨_, _, fun _ => rfl, .bind (.select _) fun _ => .bind (.check _ _ _) fun _ =>
      .setRes (.of_touches (touches_rread _ _)) _⟩
  | .brRconsume _ _, _ => ⟨_, _, fun _ => rfl, .bind (.select _) fun _ => .bind (.check _ _ _) fun _ =>
      .of_touches (touches_rconsume _ _)⟩
  | .brRstat _, _ => ⟨_, _, fun _ => rfl, .bind (.select _) fun _ => .bind (.check _ _ _) fun _ =>
      .change fun _ => rfl⟩
  | .fseNcount _, _ => ⟨_, _, fun _ => rfl, .bind (.select _) fun _ => .bind (.check _ _ _) fun _ =>
      .setRes (.of_touches (touches_readNCount _)) _⟩
  | .fsePredef _, _ => ⟨_, _, fun _ => rfl, .bind (.select _) fun _ => .bind (.ensure _ _) fun _ =>
      .of_touches (touches_setDist _ _ _)⟩
  | .fseBuild _, _ => ⟨_, _, fun _ => rfl, .bind (.select _) fun _ => .bind (.look _) fun _ =>
      .bind (.ensure _ _) fun _ => .of_touches (touches_buildTable _)⟩
  | .fseRle _ _, _ => ⟨_, _, fun _ => rfl, .bind (.select _) fun _ => .of_touches (touches_rleTable _ _)⟩
  | .fseRepeat _, _ => ⟨_, _, fun _ => rfl, .bind (.select _) fun _ => .of_touches (ps := []) (touches_repeatTable _)⟩
  | .fseInitst _ _, _ => ⟨_, _, fun _ => rfl, .bind (.select _) fun _ => .bind (.select _) fun _ =>
      .bind (.check _ _ _) fun _ => .bind (.check _ _ _) fun _ => .of_touches (touches_initState _ _)⟩
  | .fseSym _, _ => ⟨_, _, fun _ => rfl, .bind (.select _) fun _ => .bind (.check _ _ _) fun _ =>
      .bind (.check _ _ _) fun _ => .setRes (.look _) _⟩
  | .fseUpdst _ _, _ => ⟨_, _, fun _ => rfl, .bind (.select _) fun _ => .bind (.select _) fun _ =>
      .bind (.check _ _ _) fun _ => .bind (.check _ _ _) fun _ => .bind (.check _ _ _) fun _ =>
        .of_touches (touches_updState _ _)⟩
  | .hufTree _ _, _ => ⟨_, _, fun _ => rfl, leavesStatus_hufTree _ _⟩
  | .hufSym _, _ => ⟨_, _, fun _ => rfl, .bind (.select _) fun _ => .bind (.check _ _ _) fun _ =>
      .bind (.check _ _ _) fun _ => .setRes (.of_touches (touches_huffSym _)) _⟩
  | .hufStream _ _ _, _ => ⟨_, _, fun _ => rfl, .bind (.select _) fun _ => .bind (.ensure _ _) fun _ =>
      .bind (.check _ _ _) fun _ => .bind (.check _ _ _) fun _ => .of_touches (touches_huffStream _ _ _)⟩
  | .litDecode _ _, _ => ⟨_, _, exec_litDecode _ _, .of_ends (ends_litCommand _ _)⟩
  | .seqDecode _ _, _ => ⟨_, _, exec_seqDecode _ _, .of_ends (ends_seqCommand _ _)⟩
  | .seqResolve _ _, _ => ⟨_, _, fun _ => rfl, .bind (.ensure _ _) fun _ =>
      .setRes (.of_touches (touches_resolveOffset _ _)) _⟩
  | .lithdrRaw1b _, _ | .lithdrRaw2b _, _ | .lithdrRaw3b _, _ | .lithdrRle1b _, _ | .lithdrRle2b _, _
  | .lithdrRle3b _, _ | .lithdrComp1s3b _ _, _ | .lithdrComp4s3b _ _, _ | .lithdrComp4s4b _ _, _
  | .lithdrComp4s5b _ _, _ | .lithdrTreeless1s3b _ _, _ | .lithdrTreeless4s3b _ _, _ | .lithdrTreeless4s4b _ _, _
  | .lithdrTreeless4s5b _ _, _ => ⟨_, _, fun _ => rfl, leavesStatus_litHeader _⟩
  | .hufhdrFse x, _ => ⟨_, _, fun _ => rfl, leavesStatus_hufHeader (hb := x.toNat) (by have := x.isLt; omega)⟩
  | .hufhdrRaw x, _ => ⟨_, _, fun _ => rfl, leavesStatus_hufHeader (hb := 128 + x.toNat) (by have := x.isLt; omega)⟩
  | .seqcntZero, _ | .seqcnt1b _, _ | .seqcnt2b _ _, _ | .seqcnt3b _ _, _ =>
    ⟨_, _, fun _ => rfl, leavesStatus_seqCount _⟩
  | .modes _ _ _, _ => ⟨_, _, fun _ => rfl, leavesStatus_modes _⟩

/-! ## How an instruction leaves STATUS -/

/-- An instruction that ends leaves STATUS, starts a frame, or has taken one error under its own OP (R310). -/
theorem exec_outcome (hn : noError s = true) (h : exec i s = .next t) :
    (t.status = s.status ∨ ∃ a0, i = .frameReset a0 ∧ t.status = 0) ∨ ∃ ws c s1, t = takeError (opOf i) ws c s s1 := by
  by_cases hi : ∃ a0, i = .frameReset a0
  · obtain ⟨a0, rfl⟩ := hi
    by_cases hr : FrameArg a0.toNat
    · rw [exec_frameReset_of_range hr] at h
      cases h
      exact .inl (.inr ⟨a0, rfl, rfl⟩)
    · rw [exec_frameReset_of_not_range hr, ← takeError_of_illegal (ws := []) (s1 := s) rfl] at h
      cases h
      exact .inr ⟨_, _, _, rfl⟩
  · obtain ⟨ws, body, e, leaves⟩ := exec_runsOwnOp i (not_exists.mp hi)
    rcases runCommand_eq_next.mp (e s ▸ h) with ⟨hbad, -⟩ | ⟨-, hok | ⟨c, s1, -, rfl⟩⟩
    · rw [hn] at hbad
      cases hbad
    · exact .inl (.inl (leaves s () t hok))
    · exact .inr ⟨ws, c, s1, rfl⟩

/-- In the first two outcomes no error is recorded. -/
theorem noError_of_status (hn : noError s = true) (h : t.status = s.status ∨ ∃ a0, i = .frameReset a0 ∧ t.status = 0) :
    noError t = true := by
  rcases h with h | ⟨-, -, h⟩
  · rwa [noError, h]
  · rw [noError, h]; rfl

theorem categoryCode_injective : Function.Injective categoryCode := by
  intro a b
  cases a <;> cases b <;> decide

/-- STATUS tells the category of the error (R23). -/
theorem causeCategory_of_packStatus_eq {c d : Cause} {op op' : BitVec 8} (h : packStatus c op = packStatus d op') :
    causeCategory c = causeCategory d :=
  categoryCode_injective (by rw [← statusCat_packStatus c op, h, statusCat_packStatus])

/-! ## The error gate (R311) -/

/-- The five fields are all the bits of a word (R80). -/
theorem packWord_fields {w : Word} (h : fieldReserved w = 0) :
    packWord (fieldOp w) (fieldR w) (fieldT w) (fieldN w) = w := by
  have hw := w.isLt
  simp only [packWord, fieldOp, fieldR, fieldT, fieldN, fieldReserved, ← BitVec.toNat_inj, BitVec.extractLsb'_toNat,
    Nat.shiftRight_eq_div_pow, BitVec.toNat_ofNat, BitVec.ofNat_eq_ofNat] at h ⊢
  omega

/-- FRAME_RESET's row is the one that gives a FRAME_RESET (R82). -/
theorem row_of_make_frameReset : ∀ row ∈ commandRows, ∀ {r t n a0 a1 x}, row.make r t n a0 a1 = .frameReset x →
    row = ⟨opcFrameReset, false, false, false, fun _ _ _ a0 _ => .frameReset a0⟩ := by
  simp [commandRows, commandRowsLow, commandRowsHigh]

/-- The word 1 is FRAME_RESET (R82). -/
theorem decodeCommand_of_word_one (h : c.word = 1) : decodeCommand c = .ok (.frameReset c.a0) := by
  obtain ⟨w, a0, a1⟩ := c
  obtain rfl : w = packWord opcFrameReset 0 0 0 := h
  exact Laws.decode_packWord (show Laws.findRow opcFrameReset = some _ from rfl) 0 0 0 a0 a1 rfl rfl rfl

/-- Only the word 1 is FRAME_RESET: its row uses no field (R82, R84). -/
theorem word_one_of_decodeCommand {a0 : Word} (h : decodeCommand c = .ok (.frameReset a0)) : c.word = 1 := by
  unfold decodeCommand at h
  split at h
  case h_1 => cases h
  case h_2 row hrow =>
    split_ifs at h with fields
    have op : row.op = fieldOp c.word := by simpa using List.find?_some hrow
    obtain rfl := row_of_make_frameReset row (List.mem_of_find?_eq_some hrow) (Except.ok.inj h)
    simp only [fieldsOk, Bool.false_or, Bool.and_eq_true, beq_iff_eq] at fields
    obtain ⟨⟨⟨reserved, r⟩, t⟩, n⟩ := fields
    rw [← packWord_fields reserved, ← op, r, t, n]
    rfl

/-- While an error is recorded, only FRAME_RESET is not ignored (R85, R311). -/
theorem issue_of_gateShut (hn : noError s = false) (h : ∀ a0, decodeCommand c ≠ .ok (.frameReset a0)) :
    issue c s = .next s := by
  cases e : decodeCommand c with
  | error r => rw [issue_of_error e]; cases r <;> exact runCommand_of_error hn
  | ok i =>
    obtain ⟨ws, body, run, -⟩ := exec_runsOwnOp i fun a0 hi => h a0 (hi ▸ e)
    rw [issue_of_ok e, run, runCommand_of_error hn]

end Sys2Proof.Machine

/-- Settles O9: a FRAME_RESET alone passes the gate, and one out of range has an error to record where one is recorded. -/
theorem errorGateIgnoresCommands : Obligations.ErrorGateIgnoresCommands := by
  intro c s hn
  refine ⟨fun h => ?_, fun ⟨hw, hlo, hhi⟩ => ?_⟩
  · by_cases hw : c.word = 1
    · rw [issue_of_ok (decodeCommand_of_word_one hw), exec_frameReset_of_not_range, recordError_of_error hn]
      rintro ⟨hlo, hhi : c.a0.toNat ≤ 131072⟩
      rcases h with h | h | h
      · exact h hw
      · rw [h] at hlo
        cases hlo
      · omega
    · exact issue_of_gateShut hn fun a0 e => hw (word_one_of_decodeCommand e)
  · have range : FrameArg c.a0.toNat := ⟨hlo, hhi⟩
    exact ⟨_, (issue_of_ok (decodeCommand_of_word_one hw) s).trans (exec_frameReset_of_range range s),
      frameStarted_frameResetState range s⟩

/-- Settles O10: an operation writes no STATUS itself, and taking an error leaves RES, BLOCK_MAX and IN. -/
theorem statusRecordsTheFirstError : Obligations.StatusRecordsTheFirstError := by
  intro i s t hn h
  rcases exec_outcome hn h with h | ⟨ws, c, s1, rfl⟩
  · exact ⟨h.imp_right .inl, fun ht => by rw [noError_of_status hn h] at ht; cases ht⟩
  · obtain ⟨res, blockMax, inMem, inEra, -⟩ := takeError_kept (op := opOf i) (ws := ws) (c := c) (s0 := s) (s1 := s1)
    exact ⟨.inr (.inr ⟨c, takeError_status hn⟩), fun _ => ⟨res, blockMax, inMem, inEra⟩⟩

/-- Settles O11: STATUS tells the category, and taking an IllegalCommand records the error and does nothing else. -/
theorem illegalCommandChangesOnlyStatus : Obligations.IllegalCommandChangesOnlyStatus := by
  intro i s t c hn h ht hc
  rcases exec_outcome hn h with h | ⟨ws, d, s1, rfl⟩
  · have noErr := noError_of_status hn h
    rw [noError_of_packStatus ht] at noErr
    cases noErr
  · have hd := causeCategory_of_packStatus_eq ((takeError_status hn).symm.trans ht)
    rw [takeError_of_illegal (hd.trans hc), recordError_of_noError hn]
end

section
/-! CERTIFICATE. The decoder and the encoder agree (30_encoding.md: R80 to R84, R88 to R94). -/

open Sys2Proof Sys2Proof.Machine

namespace Sys2Proof.Machine

variable {c : Command} {i : Instr} {f : Format} {bs : List Byte}

/-! ## Every instruction decodes from its code -/

theorem decode_encode : ∀ i : Instr, Laws.RoundTrip.Statement i
  | .nop => Laws.RoundTrip.nop
  | .frameReset a0 => Laws.RoundTrip.frameReset a0
  | .setInlen a0 => Laws.RoundTrip.setInlen a0
  | .decodeBlock a0 => Laws.RoundTrip.decodeBlock a0
  | .brFinit a0 a1 => Laws.RoundTrip.brFinit a0 a1
  | .brFpeek n => Laws.RoundTrip.brFpeek n
  | .brFread n => Laws.RoundTrip.brFread n
  | .brFalign => Laws.RoundTrip.brFalign
  | .brRinit r a0 a1 => Laws.RoundTrip.brRinit r a0 a1
  | .brRpeek r n => Laws.RoundTrip.brRpeek r n
  | .brRread r n => Laws.RoundTrip.brRread r n
  | .brRconsume r n => Laws.RoundTrip.brRconsume r n
  | .brRstat r => Laws.RoundTrip.brRstat r
  | .fseNcount t => Laws.RoundTrip.fseNcount t
  | .fsePredef t => Laws.RoundTrip.fsePredef t
  | .fseBuild t => Laws.RoundTrip.fseBuild t
  | .fseRle t a0 => Laws.RoundTrip.fseRle t a0
  | .fseRepeat t => Laws.RoundTrip.fseRepeat t
  | .fseInitst x r => Laws.RoundTrip.fseInitst x r
  | .fseSym x => Laws.RoundTrip.fseSym x
  | .fseUpdst x r => Laws.RoundTrip.fseUpdst x r
  | .hufTree a0 a1 => Laws.RoundTrip.hufTree a0 a1
  | .hufSym r => Laws.RoundTrip.hufSym r
  | .hufStream r a0 a1 => Laws.RoundTrip.hufStream r a0 a1
  | .litDecode a0 a1 => Laws.RoundTrip.litDecode a0 a1
  | .seqDecode a0 a1 => Laws.RoundTrip.seqDecode a0 a1
  | .seqResolve a0 a1 => Laws.RoundTrip.seqResolve a0 a1
  | .lithdrRaw1b size => Laws.RoundTrip.lithdrRaw1b size
  | .lithdrRaw2b size => Laws.RoundTrip.lithdrRaw2b size
  | .lithdrRaw3b size => Laws.RoundTrip.lithdrRaw3b size
  | .lithdrRle1b size => Laws.RoundTrip.lithdrRle1b size
  | .lithdrRle2b size => Laws.RoundTrip.lithdrRle2b size
  | .lithdrRle3b size => Laws.RoundTrip.lithdrRle3b size
  | .lithdrComp1s3b regen comp => Laws.RoundTrip.lithdrComp1s3b regen comp
  | .lithdrComp4s3b regen comp => Laws.RoundTrip.lithdrComp4s3b regen comp
  | .lithdrComp4s4b regen comp => Laws.RoundTrip.lithdrComp4s4b regen comp
  | .lithdrComp4s5b regen comp => Laws.RoundTrip.lithdrComp4s5b regen comp
  | .lithdrTreeless1s3b regen comp => Laws.RoundTrip.lithdrTreeless1s3b regen comp
  | .lithdrTreeless4s3b regen comp => Laws.RoundTrip.lithdrTreeless4s3b regen comp
  | .lithdrTreeless4s4b regen comp => Laws.RoundTrip.lithdrTreeless4s4b regen comp
  | .lithdrTreeless4s5b regen comp => Laws.RoundTrip.lithdrTreeless4s5b regen comp
  | .hufhdrFse x => Laws.RoundTrip.hufhdrFse x
  | .hufhdrRaw x => Laws.RoundTrip.hufhdrRaw x
  | .seqcntZero => Laws.RoundTrip.seqcntZero
  | .seqcnt1b x => Laws.RoundTrip.seqcnt1b x
  | .seqcnt2b x b1 => Laws.RoundTrip.seqcnt2b x b1
  | .seqcnt3b b1 b2 => Laws.RoundTrip.seqcnt3b b1 b2
  | .modes ll off ml => Laws.RoundTrip.modes ll off ml

/-! ## A command that decodes (R82, R84) -/

/-- The fields of a word that a row accepts: those the row does not use, and the reserved bits, are 0 (R84). -/
theorem fieldsOk_iff {row : CommandRow} {w : Word} : fieldsOk row w = true ↔
    fieldReserved w = 0 ∧ (row.usesR = false → fieldR w = 0) ∧ (row.usesT = false → fieldT w = 0) ∧
      (row.usesN = false → fieldN w = 0) := by
  simp only [fieldsOk, Bool.and_eq_true, Bool.or_eq_true, beq_iff_eq, and_assoc, ← Bool.not_eq_true, imp_iff_not_or, not_not]

/-- A command that decodes has the OP of a row of R82 that accepts its fields, and is the row's instruction. -/
theorem decodeCommand_eq_ok (h : decodeCommand c = .ok i) : ∃ row ∈ commandRows, row.op = fieldOp c.word ∧
    fieldsOk row c.word = true ∧ i = row.make (fieldR c.word) (fieldT c.word) (fieldN c.word) c.a0 c.a1 := by
  unfold decodeCommand at h
  split at h
  case h_1 => cases h
  case h_2 row hrow =>
    split_ifs at h with fields
    exact ⟨row, List.mem_of_find?_eq_some hrow, by simpa using List.find?_some hrow, fields, (Except.ok.inj h).symm⟩

/-- The encoder gives a row's instruction the row's OP and the fields it uses, 0 in the others (R82). -/
theorem encode_make (r t : BitVec 3) (n : BitVec 5) (a0 a1 : Word) : ∀ row ∈ commandRows, ∃ b0 b1,
    encode (row.make r t n a0 a1) = .command ⟨packWord row.op (if row.usesR then r else 0) (if row.usesT then t else 0)
      (if row.usesN then n else 0), b0, b1⟩ := by
  simp [commandRows, commandRowsLow, commandRowsHigh, encode, commandOf]

/-- The word of a command that decodes is the encoder's. -/
theorem encode_of_decodeCommand (h : decodeCommand c = .ok i) : ∃ b0 b1, encode i = .command ⟨c.word, b0, b1⟩ := by
  obtain ⟨row, hrow, hop, fields, rfl⟩ := decodeCommand_eq_ok h
  obtain ⟨reserved, r, t, n⟩ := fieldsOk_iff.mp fields
  have used {k : Nat} {uses : Bool} {field : BitVec k} (h : uses = false → field = 0) : (if uses then field else 0) = field := by
    cases uses <;> simp_all
  have encoded := encode_make (fieldR c.word) (fieldT c.word) (fieldN c.word) c.a0 c.a1 row hrow
  rwa [used r, used t, used n, hop, packWord_fields reserved] at encoded

/-! ## An element that decodes (R88 to R94) -/

theorem leBytes_leNat : ∀ bs : List Byte, leBytes bs.length (leNat bs) = bs
  | [] => rfl
  | b :: bs => by
    have := b.isLt
    have low : BitVec.ofNat 8 (b.toNat + 256 * leNat bs) = b := BitVec.eq_of_toNat_eq (by rw [BitVec.toNat_ofNat]; omega)
    have high : (b.toNat + 256 * leNat bs) / 256 = leNat bs := by omega
    rw [List.length_cons, leNat, leBytes, low, high, leBytes_leNat bs]

/-- The number of a Literals_Block_Type (R88). -/
def typeNumber : LitType → Nat
  | .raw => 0
  | .rle => 1
  | .compressed => 2
  | .treeless => 3

/-- The type stands in bits 1:0 of the first byte (R88). -/
theorem typeNumber_litTypeOf (b : Byte) : typeNumber (litTypeOf b) = b.toNat % 4 := by
  revert b
  decide

/-- The header of a row that was read is encoded as its own bytes (R89, R90). -/
theorem encode_instrOfLitHeader (hlen : litHeaderSize (bs.headD 0) ≤ bs.length) :
    encode (instrOfLitHeader (litHeader bs)) = .element .lithdr (bs.take (litHeaderSize (bs.headD 0))) := by
  have value := leNat_lt (bs.take (litHeaderSize (bs.headD 0)))
  have bytes := leBytes_leNat (bs.take (litHeaderSize (bs.headD 0)))
  have first : leNat (bs.take (litHeaderSize (bs.headD 0))) % 256 = (bs.headD 0).toNat := by
    cases bs with
    | nil => exact absurd hlen (by decide)
    | cons b bs =>
      obtain ⟨n, hn⟩ := Nat.exists_eq_add_of_le' (litHeaderSize_pos b)
      have := b.isLt
      simp only [List.headD_cons, hn, List.take_succ_cons, leNat]
      omega
  rw [List.length_take_of_le hlen] at value bytes
  rw [← bytes]
  unfold litHeader
  dsimp only
  generalize leNat (bs.take (litHeaderSize (bs.headD 0))) = x at value first ⊢
  generalize bs.headD 0 = b at value first ⊢
  have type := typeNumber_litTypeOf b
  rw [← first] at type
  unfold litHeaderSize sizeFormat at value ⊢
  rw [← first] at value ⊢
  generalize litTypeOf b = ty at value type ⊢
  cases ty <;> simp only [typeNumber] at value type ⊢
  -- in each of the 14 rows the type, the size format and the size fields make up the value again
  case raw | rle =>
    split_ifs at value ⊢ <;> simp [instrOfLitHeader, encode, simpleHeader] at * <;> congr 1 <;> omega
  case compressed | treeless =>
    split_ifs at value ⊢ <;> simp [instrOfLitHeader, encode, streamHeader, sizeFieldBits] at * <;> congr 1 <;> omega

/-- Of a Huffman tree's header byte nothing is lost (R92). -/
theorem encode_hufhdr (b : Byte) :
    encode (if b.toNat < 128 then .hufhdrFse (b.extractLsb' 0 7) else .hufhdrRaw (b.extractLsb' 0 7)) = .element .hufhdr [b] := by
  revert b
  decide

/-- Nor of a modes byte whose reserved bits are 0 (R94). -/
theorem packModes_of_reserved {b : Byte} (h : modeReserved b = 0) : packModes (modeLl b) (modeOff b) (modeMl b) = b := by
  revert b
  decide

/-- Nor of the first byte of a count (R94). -/
theorem first_of_seqcnt (b : Byte) :
    (b.toNat < 128 → BitVec.ofNat 8 (b.extractLsb' 0 7).toNat = b) ∧
      (¬b.toNat < 128 → BitVec.ofNat 8 (128 + (b.extractLsb' 0 7).toNat) = b) ∧ (¬b.toNat < 255 → 0xFF = b) := by
  revert b
  decide

theorem encode_of_decode_seqcnt (h : decodeElement .seqcnt bs = .ok i) :
    ∃ cs rest, encode i = .element .seqcnt cs ∧ bs = cs ++ rest := by
  obtain _ | ⟨b, rest⟩ := bs
  · cases h
  obtain ⟨one, two, three⟩ := first_of_seqcnt b
  simp only [decodeElement, seqCountSize, List.length_cons] at h
  by_cases hzero : b = 0
  · subst hzero
    cases h
    exact ⟨[0], rest, rfl, rfl⟩
  split_ifs at h with hone hshort htwo hshort hshort <;> cases h
  · exact ⟨[b], rest, congrArg (fun b0 => Code.element .seqcnt [b0]) (one hone), rfl⟩
  · obtain _ | ⟨b1, rest⟩ := rest
    · simp at hshort
    · exact ⟨[b, b1], rest, congrArg (fun b0 => Code.element .seqcnt [b0, b1]) (two hone), rfl⟩
  · obtain _ | ⟨b1, _ | ⟨b2, rest⟩⟩ := rest
    · simp at hshort
    · simp at hshort
    · exact ⟨[b, b1, b2], rest, congrArg (fun b0 => Code.element .seqcnt [b0, b1, b2]) (three htwo), rfl⟩

/-- The bytes that an element is decoded from begin with the encoder's. -/
theorem encode_of_decodeElement (h : decodeElement f bs = .ok i) :
    ∃ cs rest, encode i = .element f cs ∧ bs = cs ++ rest := by
  obtain _ | ⟨b, rest⟩ := bs
  · cases h
  cases f with
  | lithdr =>
    simp only [decodeElement] at h
    split_ifs at h with hshort
    cases h
    exact ⟨_, _, encode_instrOfLitHeader (bs := b :: rest) (not_lt.mp hshort), (List.take_append_drop _ _).symm⟩
  | hufhdr =>
    simp only [decodeElement, ← apply_ite] at h
    exact Except.ok.inj h ▸ ⟨[b], rest, encode_hufhdr b, rfl⟩
  | seqcnt => exact encode_of_decode_seqcnt h
  | modes =>
    simp only [decodeElement] at h
    split_ifs at h with hreserved
    cases h
    exact ⟨[b], rest, congrArg (fun m => Code.element .modes [m]) (packModes_of_reserved hreserved), rfl⟩

end Sys2Proof.Machine

/-- Settles O1: the decoder is evaluated on the eleven codes. -/
theorem spelledWordsDecode : Obligations.SpelledWordsDecode :=
  ⟨rfl, rfl, rfl, rfl, rfl, rfl, rfl, rfl, rfl, rfl, rfl⟩

/-- Settles O2: the round trip of each of the 48 constructors. -/
theorem decodeEncodeRoundTrip : Obligations.DecodeEncodeRoundTrip := decode_encode

/-- Settles O3: a row's word is put together again from its fields, and an element's bytes from its instruction's. -/
theorem decodedCodeIsTheEncoding : Obligations.DecodedCodeIsTheEncoding :=
  ⟨fun _ _ h => encode_of_decodeCommand h, fun _ _ _ h => encode_of_decodeElement h⟩
end

section
/-! CERTIFICATE. Commands refused before their rule runs: an undefined OP, a field that must be 0, a selector out of range
(R83 to R86, R161). -/

open Sys2Proof Sys2Proof.Machine

namespace Sys2Proof.Machine

variable {β : Type} {c : Command} {s : State} {i : Instr} {r t n : Bool} {op : BitVec 8}

/-! ## The opcode map (R82) -/

/-- The OPs of the decoder's rows are those of R82. -/
theorem commandRows_op : commandRows.map CommandRow.op = fieldUse.map Prod.fst := rfl

/-- The row that the decoder finds for an OP of R82 uses the fields R82 lists. -/
theorem findRow_of_fieldUse : ∀ use ∈ fieldUse,
    (Laws.findRow use.1).map (fun row => (row.usesR, row.usesT, row.usesN)) = some use.2 := List.map_inj_left.mp rfl

theorem decodeCommand_of_undefined (h : fieldOp c.word ∉ fieldUse.map Prod.fst) : decodeCommand c = .error .badOp := by
  have norow : commandRows.find? (fun row => row.op == fieldOp c.word) = none := by
    rw [List.find?_eq_none]
    intro row hrow hop
    rw [← commandRows_op] at h
    exact h (eq_of_beq hop ▸ List.mem_map_of_mem hrow)
  rw [decodeCommand, norow]

theorem decodeCommand_of_unusedField (huse : (op, r, t, n) ∈ fieldUse) (hop : fieldOp c.word = op)
    (h : fieldReserved c.word ≠ 0 ∨ r = false ∧ fieldR c.word ≠ 0 ∨ t = false ∧ fieldT c.word ≠ 0 ∨
      n = false ∧ fieldN c.word ≠ 0) : decodeCommand c = .error .badField := by
  obtain ⟨row, hrow, uses⟩ := Option.map_eq_some_iff.mp (findRow_of_fieldUse _ huse)
  cases uses
  have found : commandRows.find? (fun row => row.op == fieldOp c.word) = some row := hop ▸ hrow
  have fields : ¬fieldsOk row c.word = true := fun ok => by
    obtain ⟨reserved, fr, ft, fn⟩ := fieldsOk_iff.mp ok
    rcases h with h | ⟨hr, h⟩ | ⟨ht, h⟩ | ⟨hn, h⟩
    · exact h reserved
    · exact h (fr hr)
    · exact h (ft ht)
    · exact h (fn hn)
  rw [decodeCommand, found]
  exact if_neg fields

/-- A word rejected for its OP records the error and does nothing else (R83, R313). -/
theorem rejectCommand_badOp (hn : noError s = true) : rejectCommand op .badOp s = .next { s with status := packStatus .badOp op } :=
  runCommand_illegal hn rfl .raise

/-! ## Selectors (R85, R86) -/

theorem raises_select {α : Type} {v : Option α} {ok : Bool} {g : α → Op β} (hv : v.isSome = ok) (h : ok = false) :
    Raises (select v >>= g) s .argRange := by
  obtain rfl : v = none := by simpa [h] using hv
  exact .bind .raise

theorem raises_selectReader {k : BitVec 3} {g : RSel → Op β} (h : readerOk k = false) :
    Raises (selectReader k >>= g) s .argRange := raises_select (readerOf?_isSome k) h
theorem raises_selectTable {k : BitVec 3} {g : TSel → Op β} (h : tableOk k = false) :
    Raises (selectTable k >>= g) s .argRange := raises_select (tableOf?_isSome k) h
theorem raises_selectState {k : BitVec 3} {g : SSel → Op β} (h : stateOk k = false) :
    Raises (selectState k >>= g) s .argRange := raises_select (stateOf?_isSome k) h

/-- Whichever of the two selectors is out of range, the command ends there. -/
theorem raises_selectReader_selectState {k x : BitVec 3} {g : RSel → SSel → Op β} (h : (stateOk x && readerOk k) = false) :
    Raises (selectReader k >>= fun r => selectState x >>= g r) s .argRange := by
  cases hk : readerOf? k with
  | none => exact raises_selectReader (by rw [← readerOf?_isSome, hk]; rfl)
  | some r =>
    have inRange : readerOk k = true := by rw [← readerOf?_isSome, hk]; rfl
    exact .after (selectReader_of hk s) (raises_selectState (by simpa [inRange] using h))

/-- FSE_PREDEF has no row for HW, so its selector is in range up to 2 (R161). -/
theorem raises_predef {k : BitVec 3} {g : TSel → Op β} (h : ¬k.toNat ≤ 2) :
    Raises (selectTable k >>= fun t => ensure (t ≠ .hw) .argRange >>= fun _ => g t) s .argRange := by
  cases hk : tableOf? k with
  | none => exact raises_selectTable (by rw [← tableOf?_isSome, hk]; rfl)
  | some t =>
    have last : t = .hw := by
      revert k t
      decide
    exact .after (selectTable_of hk s) (.bind (.ensure (not_not.mpr last)))

/-- A command whose selectors are out of range raises ARG_RANGE. -/
theorem exec_of_not_wellFormed (hn : noError s = true) (hcommand : encode i = .command c) (hwf : i.WellFormed = false) :
    exec i s = .next { s with status := packStatus .argRange (opOf i) } := by
  cases i with
  | brRinit | brRpeek | brRread | brRconsume | brRstat | hufSym | hufStream =>
    exact runCommand_illegal hn rfl (raises_selectReader hwf)
  | fseNcount | fseBuild | fseRle | fseRepeat => exact runCommand_illegal hn rfl (raises_selectTable hwf)
  | fsePredef => exact runCommand_illegal hn rfl (raises_predef (of_decide_eq_false hwf))
  | fseSym => exact runCommand_illegal hn rfl (raises_selectState hwf)
  | fseInitst | fseUpdst => exact runCommand_illegal hn rfl (raises_selectReader_selectState hwf)
  | seqcnt1b | seqcnt2b => cases hcommand
  | _ => cases hwf

end Sys2Proof.Machine

/-- Settles O4: the decoder has no row for the OP. -/
theorem undefinedOpRaisesBadOp : Obligations.UndefinedOpRaisesBadOp := fun _ s hn h =>
  (issue_of_error (decodeCommand_of_undefined h) s).trans (rejectCommand_badOp hn)

/-- Settles O5: the row of the OP does not accept the word's fields. -/
theorem unusedFieldRaisesBadField : Obligations.UnusedFieldRaisesBadField := by
  intro c s op r t n hn huse hop h
  rw [issue_of_error (decodeCommand_of_unusedField huse hop h), hop, rejectCommand_badField, recordError_of_noError hn]

/-- Settles O6: a command looks at its selectors before anything else. -/
theorem selectorOutOfRangeRefused : Obligations.SelectorOutOfRangeRefused := fun _ _ _ hn hcommand hwf =>
  exec_of_not_wellFormed hn hcommand hwf
end

section
/-! CERTIFICATE. FSE_NCOUNT over the header of a distribution (R93, R150, R160). -/

open Sys2Proof Sys2Proof.Machine

/-- Settles O28: ReadNCount reads the fields of the header back, and nothing but FR.POS and DIST is written on the way. -/
theorem fseNcountReadsTheHeader : Obligations.FseNcountReadsTheHeader := by
  intro t al counts last s hn
  have selected := selectTable_of (tableOf_code t) s
  refine ⟨fun hv hfr hs hhead => ?_, fun hv => runCommand_illegal hn rfl (.after selected (raises_needForward hv))⟩
  obtain ⟨-, hcap, -⟩ := hfr hv
  have read := readNCount_of_ncountAt ⟨hcap, hs⟩ hhead
  rw [frAt_pos] at read
  exact runCommand_of_ok hn ((bind_of_ok selected).trans ((needForward_bind_of hv).trans (bind_of_ok read)))
end

section
/-! CERTIFICATE. Compressed and Treeless literals (R223, R226 to R228, R230, R231). -/

open Sys2Proof Sys2Proof.Machine

namespace Sys2Proof.Machine

variable {i : Instr} {s v : State} {h : LitHeader} {a lim : Nat} {bs : List Byte}

/-- A coded section whose size checks pass is decoded by its tree and its streams (R223 to R225). -/
theorem litBody_of_codedBody (hstreams : h.streams = 1 ∨ h.streams = 4) (hcoded : h.type = .compressed ∨ h.type = .treeless)
    (herr : litError h a lim s.blockMax.toNat s.ht.valid = none)
    (e : codedBody h (a + h.size) (a + h.size + h.comp) s = .ok () v) : litBody h a lim s = .ok (litSize h) v := by
  obtain ⟨-, -, hmin, hbody, -⟩ := litError_eq_none hstreams hcoded herr
  have hsize : litSize h = h.size + h.comp := by rcases hcoded with ht | ht <;> rw [litSize, ht]
  rw [litBody_of_coded hcoded, bind_of_ok (ensure_of hmin), bind_of_ok (ensure_of hbody), bind_of_ok e, hsize]
  rfl

/-- The command that decodes a section records no error, leaves the section's literals in LIT, and writes LIT_LEN and RES
once the body is decoded (R230, R231). -/
theorem exec_of_litBody (hn : noError s = true) (hranges : RangesOk s) (hregion : litRegion i s h a lim)
    (herr : litError h a lim s.blockMax.toNat s.ht.valid = none) (e : litBody h a lim s = .ok (litSize h) v)
    (hlit : v.lit = s.lit.setFrom 0 bs) :
    ∃ t, exec i s = .next t ∧ noError t = true ∧ litHolds s t 0 bs ∧ t.litLen.toNat = h.regen ∧ t.res.toNat = litSize h ∧
      Keeps [.litLen, .res] v t := by
  have hin := (litRegion_bounds hregion).1
  have hlim := hin.trans hranges.inLen
  have hroom := regen_le_litCap hranges herr
  have hend := litSize_le_of_litError herr
  simp only [Config.inCap] at hlim
  simp only [Config.litCap] at hroom
  have decoded := litSection_of_litBody herr e
  refine ⟨_, exec_of_litSection hn hranges.inLen hregion (litError_none herr).1 decoded,
    ((ends_litSection h hin).ok decoded).1.noError.trans hn, ⟨fun k hk => ?_, fun c hc => ?_⟩,
    toNat_ofNat_of_lt (w := 18) (by omega), toNat_ofNat_of_lt (w := 32) (by omega), fun p hp => ?_⟩
  · exact (congrArg (Memory.get? · (0 + k)) hlit).trans (Memory.get?_setFrom bs hk)
  · exact (congrArg (Memory.get? · c) hlit).trans (Memory.get?_setFrom_of_outside bs hc)
  · cases p with
    | litLen | res => simp at hp
    | _ => rfl

/-- The body of a Treeless section leaves its literals in LIT, and but for the readers of its streams nothing else changes
(R223). -/
theorem codedBody_of_treeless (ht : h.type = .treeless) (hcap : a + h.size + h.comp ≤ Config.inCap)
    (hmin : h.streams = 1 ∨ 6 ≤ h.regen) (hvalid : s.ht.valid = true) (hroom : h.regen ≤ Config.litCap)
    (hlen : bs.length = h.regen) (hstreams : litStreams s s.ht h.streams (a + h.size) (a + h.size + h.comp) bs) :
    ∃ v, codedBody h (a + h.size) (a + h.size + h.comp) s = .ok () v ∧ StreamsRead s v 0 bs := by
  have held : bodyTable h (a + h.size) (a + h.size + h.comp) s = .ok 0 s := by
    unfold bodyTable
    rw [if_neg (by rw [ht]; decide)]
    exact bind_of_ok (ensure_of hvalid)
  unfold codedBody
  rw [← hlen] at hmin hroom ⊢
  obtain ⟨v, e, read⟩ := streams_of_spells rfl rfl (Nat.le_add_right _ _) hcap hmin hroom hstreams
  exact ⟨v, (bind_of_ok held).trans e, read⟩

end Sys2Proof.Machine

/-- Settles O44: the tree description builds the code in which the streams spell the literals, and after it HT is not
written. -/
theorem compressedLiteralsDecode : Obligations.CompressedLiteralsDecode := by
  intro i s h a lim bs ht hn hranges hregion htype herr hcontent
  obtain ⟨hin, hstreams⟩ := litRegion_bounds hregion
  obtain ⟨-, -, hmin, hbody, hvalid⟩ := litError_eq_none hstreams (.inl htype) herr
  obtain ⟨v, e, hlit, hht⟩ := codedBody_of_content rfl rfl (regen_le_litCap hranges herr) (.inl htype)
    (hbody.trans (hin.trans hranges.inLen)) hmin hvalid hcontent
  obtain ⟨t, run, noErr, holds, len, res, keeps⟩ := exec_of_litBody hn hranges hregion herr
    (litBody_of_codedBody hstreams (.inl htype) herr e) hlit
  exact ⟨t, run, noErr, holds, len, res, Eq.trans (keeps .ht (by decide)) hht⟩

/-- Settles O45: the streams are decoded with the table held, and write nothing but LIT and their readers. -/
theorem treelessLiteralsDecode : Obligations.TreelessLiteralsDecode := by
  intro i s h a lim bs hn hranges hregion htype herr ⟨hlen, hcontent⟩
  obtain ⟨hin, hstreams⟩ := litRegion_bounds hregion
  obtain ⟨-, -, hmin, hbody, hvalid⟩ := litError_eq_none hstreams (.inr htype) herr
  rw [htype] at hcontent
  obtain ⟨v, e, read⟩ := codedBody_of_treeless htype (hbody.trans (hin.trans hranges.inLen)) hmin (hvalid htype)
    (regen_le_litCap hranges herr) hlen hcontent.2
  obtain ⟨t, run, noErr, holds, len, res, keeps⟩ := exec_of_litBody hn hranges hregion herr
    (litBody_of_codedBody hstreams (.inr htype) herr e) read.lit
  have kept : Keeps (.litLen :: .res :: .lit :: streamReaders) s t :=
    (read.keeps.mono (by decide)).trans (keeps.mono (by decide))
  exact ⟨t, run, noErr, holds, len, res, kept .ht (by decide), kept .w (by decide), kept .fr (by decide),
    kept .dist (by decide)⟩
end

section
/-! CERTIFICATE. A sequences section of at least one sequence (R254 to R264). -/

open Sys2Proof Sys2Proof.Machine

namespace Sys2Proof.Machine

variable {i : Instr} {s v : State} {n p lim : Nat} {m : Byte}

/-- `s` with the number of its sequences in RES (R264). -/
def nbSeqReported (s : State) : State := { s with res := BitVec.ofNat 32 s.nbSeq.toNat }

/-! ## The three ways to a section's count: SEQ_DECODE, a SEQCNT row, MODES -/

theorem exec_seqDecode_of_ok {a0 a1 : Word} (hn : noError s = true)
    (hregion : a0.toNat ≤ a1.toNat ∧ a1.toNat ≤ s.inLen.toNat)
    (e : (readSeqCount a0.toNat a1.toNat >>= fun c => seqFromCount c none a0.toNat a1.toNat) (seqStarted s) = .ok () v) :
    exec (.seqDecode a0 a1) s = .next (nbSeqReported v) :=
  runCommand_of_ok hn ((checkRegion_bind_of hregion).trans (bind_of_ok ((bind_of_ok rfl).trans e)))

theorem exec_seqcnt_of_ok {size : Nat} (hn : noError s = true) (hwf : i.WellFormed = true)
    (hcount : countOf i = some (n, size)) (e : seqFromCount ⟨size, n⟩ none 0 s.inLen.toNat (seqStarted s) = .ok () v) :
    exec i s = .next (nbSeqReported v) :=
  (exec_seqcnt hwf hcount).trans (runCommand_of_ok hn ((bind_of_ok rfl).trans ((bind_of_ok rfl).trans (bind_of_ok e))))

theorem exec_modes_of_ok {ll off ml : BitVec 2} {c : SeqCount} (hn : noError s = true)
    (read : readSeqCount 0 s.inLen.toNat (seqStarted s) = .ok c (seqStarted s))
    (e : seqFromCount c (some (packModes ll off ml)) 0 s.inLen.toNat (seqStarted s) = .ok () v) :
    exec (.modes ll off ml) s = .next (nbSeqReported v) :=
  runCommand_of_ok hn ((bind_of_ok rfl).trans ((bind_of_ok rfl).trans ((bind_of_ok read).trans (bind_of_ok e))))

/-- The instruction whose region holds a section reports its sequences once the part after the modes byte is decoded. -/
theorem exec_of_seqFromModes (hn : noError s = true) (hcap : s.inLen.toNat ≤ Config.inCap) (h : seqRegion i s n m p lim)
    (e : seqFromModes m n p lim (seqStarted s) = .ok () v) : exec i s = .next (nbSeqReported v) := by
  obtain ⟨hpos, hp, h⟩ := h
  cases i with
  | seqDecode a0 a1 =>
    obtain ⟨size, hcount, rfl, rfl, rfl, hlim⟩ := h
    have read := readSeqCount_of_countAt (s := seqStarted s) hcount (by omega) (hlim.trans hcap)
    have modes := readIn_of_lt (s := seqStarted s) (show a0.toNat + size < Config.inCap by omega)
    exact exec_seqDecode_of_ok hn ⟨by omega, hlim⟩
      ((bind_of_ok read).trans ((seqFromCount_of_pos none hpos hp).trans ((bind_of_ok modes).trans e)))
  | modes ll off ml =>
    obtain ⟨size, hcount, rfl, rfl, rfl⟩ := h
    have read := readSeqCount_of_countAt (s := seqStarted s) hcount (by omega) hcap
    rw [← Nat.zero_add size] at e
    exact exec_modes_of_ok hn read ((seqFromCount_of_pos _ hpos (by omega)).trans e)
  | _ =>
    obtain ⟨size, hwf, hcount, rfl, rfl, rfl⟩ := h
    have modes := readIn_of_lt (s := seqStarted s) (show 0 + size < Config.inCap by omega)
    rw [← Nat.zero_add size] at e
    exact exec_seqcnt_of_ok hn hwf hcount ((seqFromCount_of_pos none hpos (by omega)).trans ((bind_of_ok modes).trans e))

end Sys2Proof.Machine

/-- Settles O48: the code tables are evaluated; the count leads to the modes byte, and from there the tables and the stream
give the sequences, which SEQ takes one by one as they resolve. -/
theorem sequencesDecode : Obligations.SequencesDecode := by
  refine ⟨⟨rfl, rfl, rfl, rfl⟩, ?_⟩
  intro i s n p lim m tl tf tm raw entries rep hn hranges hregion hlen hcontent hres
  subst hlen
  obtain ⟨hroom, hlim⟩ := seqRegion_bounds hregion
  have room : (seqStarted s).nbSeq.toNat + raw.length ≤ Config.seqCap := by simpa [seqStarted] using hroom
  obtain ⟨v, e, read, hll, hoff, hml⟩ := seqFromModes_of_content (s := s) (u := seqStarted s) rfl (hlim.trans hranges.inLen)
    (fun _ _ => rfl) hregion.2.1 room hcontent hres
  have noErr := ((ends_seqFromModes m (s := seqStarted s) hregion.2.1 hlim room).ok e).1.noError
  have number : v.nbSeq.toNat = raw.length := read.nbSeq.trans (Nat.zero_add _)
  have reported : (BitVec.ofNat 32 v.nbSeq.toNat).toNat = v.nbSeq.toNat := toNat_ofNat_of_lt (by omega)
  exact ⟨_, exec_of_seqFromModes hn hranges.inLen hregion e, noErr.trans hn, read.seq, number, reported.trans number,
    read.rep, hll, hoff, hml⟩
end

section
/-! CERTIFICATE. A first-byte row is the command that parses it, where IN begins with the row's element (R97, log 14). -/

open Sys2Proof Sys2Proof.Machine

namespace Sys2Proof.Machine

variable {β : Type} {i : Instr} {s : State} {h : LitHeader} {hb a lim n size : Nat} {m : Byte} {bs : List Byte}

/-! ## Regions over the whole input -/

/-- An argument word holds IN_LEN. -/
theorem arg_inLen (s : State) : arg (s.inLen.setWidth 32) = s.inLen.toNat := by
  have := s.inLen.isLt
  rw [arg, BitVec.toNat_setWidth]
  omega

/-- The whole input passes the region check (R61). -/
theorem checkRegion_inLen_bind (g : Unit → Op β) (s : State) :
    (checkRegion (arg 0) (arg (s.inLen.setWidth 32)) >>= g) s = g () s :=
  checkRegion_bind_of (by rw [arg_inLen]; exact ⟨Nat.zero_le _, le_rfl⟩)

/-- Behind a check that two operations share, they need agree only where it holds. -/
theorem ensure_bind_congr {p : Prop} [Decidable p] {c : Cause} {f g : Unit → Op β} (h : p → f () s = g () s) :
    (ensure p c >>= f) s = (ensure p c >>= g) s := by
  by_cases hp : p
  · rw [bind_of_ok (ensure_of hp), bind_of_ok (ensure_of hp), h hp]
  · rw [bind_of_error (ensure_of_not hp), bind_of_error (ensure_of_not hp)]

/-- Two operations that do the same do the same whatever follows. -/
theorem bind_congr_first {α : Type} {x y : Op α} {g : α → Op β} (h : x s = y s) : (x >>= g) s = (y >>= g) s := by
  rw [bind_apply, bind_apply, h]

/-- Where the limit cuts a header, it is found to be cut at its first byte or by the length that byte gives. -/
theorem error_of_headerCut {c : Cause} {length : Byte → Nat} {g : Byte → Unit → Op β} (hlim : lim ≤ Config.inCap)
    (hcut : ¬a + length (inByte s a) ≤ lim) :
    (ensure (a + 1 ≤ lim) c >>= fun _ => readIn a >>= fun b => ensure (a + length b ≤ lim) c >>= g b) s =
      .error (.raise c) s := by
  by_cases hempty : a + 1 ≤ lim
  · rw [bind_of_ok (ensure_of hempty), bind_of_ok (readIn_of_lt (by omega)), bind_of_error (ensure_of_not hcut)]
  · exact bind_of_error (ensure_of_not hempty)

/-! ## Literals headers (R230) -/

/-- An element of the LITHDR format is a row with a header. -/
theorem headerOf_of_encode (henc : encode i = .element .lithdr bs) : ∃ h, headerOf i = some h := by
  cases i <;> cases henc <;> exact ⟨_, rfl⟩

/-- LitDecode over the bytes of a header is its section, even where the limit cuts the header. -/
theorem litDecode_of_headerAt (hhead : headerAt s a h) (hlim : lim ≤ Config.inCap) :
    litDecode a lim s = litSection h a lim s := by
  have first := headerAt_first hhead
  by_cases hsize : a + h.size ≤ lim
  · have hpos := litHeaderSize_pos (inByte s a)
    obtain ⟨bytes, read, rfl⟩ := readBytes_of_headerAt hhead (hsize.trans hlim)
    unfold litDecode
    rw [bind_of_ok (ensure_of (by omega)), bind_of_ok (readIn_of_lt (by omega)), first, bind_of_ok (ensure_of hsize),
      bind_of_ok read]
  · exact (error_of_headerCut hlim (first ▸ hsize)).trans (bind_of_error (ensure_of_not hsize)).symm

theorem exec_lithdr_eq (hcap : s.inLen.toNat ≤ Config.inCap) (henc : encode i = .element .lithdr bs)
    (hbytes : inBytes s 0 bs) : exec i s = exec (.litDecode 0 (s.inLen.setWidth 32)) s := by
  obtain ⟨h, hrow⟩ := headerOf_of_encode henc
  have decoded := litDecode_of_headerAt ⟨i, bs, hrow, henc, hbytes⟩ hcap
  rw [exec_lithdr hrow]
  refine runCommand_congr ((bind_of_ok rfl).trans (Eq.trans ?_ (checkRegion_inLen_bind _ s).symm))
  rw [arg_inLen]
  exact bind_congr_first decoded.symm

/-! ## Tree header bytes (R190) -/

/-- An element of the HUFHDR format is a row with a header byte. -/
theorem exec_hufhdr (henc : encode i = .element .hufhdr bs) :
    ∃ b : Byte, bs = [b] ∧ ∀ s, exec i s = runHufHeader b.toNat s := by
  cases i with
  | hufhdrFse x =>
    cases henc
    have := x.isLt
    exact ⟨_, rfl, fun s => by rw [toNat_ofNat_of_lt (by omega)]; rfl⟩
  | hufhdrRaw x =>
    cases henc
    have := x.isLt
    exact ⟨_, rfl, fun s => by rw [toNat_ofNat_of_lt (by omega)]; rfl⟩
  | _ => cases henc

theorem exec_hufhdr_eq (hcap : s.inLen.toNat ≤ Config.inCap) (henc : encode i = .element .hufhdr bs)
    (hbytes : inBytes s 0 bs) : exec i s = exec (.hufTree 0 (s.inLen.setWidth 32)) s := by
  obtain ⟨b, rfl, row⟩ := exec_hufhdr henc
  obtain rfl : inByte s 0 = b := hbytes 0 (by simp)
  rw [row]
  refine runCommand_congr ((bind_of_ok rfl).trans (Eq.trans ?_ (checkRegion_inLen_bind _ s).symm))
  have tree : huffTree 0 s.inLen.toNat s = (ensure (1 ≤ s.inLen.toNat) .hufTreeOverrun >>= fun _ =>
      huffTreeFrom (inByte s 0).toNat 0 s.inLen.toNat) s :=
    ensure_bind_congr fun hne => bind_of_ok (readIn_of_lt (Nat.lt_of_lt_of_le hne hcap))
  rw [arg_inLen]
  exact (congrFun (bind_assoc _ _ _).symm s).trans (bind_congr_first tree.symm)

/-! ## Sequence counts and modes bytes (R263) -/

/-- An element of the SEQCNT format is a row with a count. -/
theorem countOf_of_encode (henc : encode i = .element .seqcnt bs) : ∃ n size, countOf i = some (n, size) := by
  cases i <;> cases henc <;> exact ⟨_, _, rfl⟩

/-- Where a count stands in IN it is read, unless the limit cuts it. -/
theorem readSeqCount_bind_of_countAt (hcount : countAt s a n size) (hlim : lim ≤ Config.inCap) (g : SeqCount → Op β) :
    (readSeqCount a lim >>= g) s = (ensure (a + size ≤ lim) .seqHeader >>= fun _ => g ⟨size, n⟩) s := by
  by_cases hsize : a + size ≤ lim
  · rw [bind_of_ok (readSeqCount_of_countAt hcount hsize hlim), bind_of_ok (ensure_of hsize)]
  · obtain ⟨first, -⟩ := countAt_first hcount
    rw [bind_of_error (ensure_of_not hsize)]
    exact bind_of_error (error_of_headerCut hlim (first ▸ hsize))

/-- What follows a count checks again that the limit does not cut it. -/
theorem seqFromCount_bind_checked (c : SeqCount) (forced : Option Byte) (g : Unit → Op β) (s : State) :
    (ensure (a + c.size ≤ lim) .seqHeader >>= fun _ => seqFromCount c forced a lim >>= g) s =
      (seqFromCount c forced a lim >>= g) s := by
  by_cases hsize : a + c.size ≤ lim
  · rw [bind_of_ok (ensure_of hsize)]
  · exact (bind_of_error (ensure_of_not hsize)).trans (bind_of_error (bind_of_error (ensure_of_not hsize))).symm

/-- A modes byte that is given is the one that would be read. -/
theorem seqFromCount_some {c : SeqCount} (hlim : lim ≤ Config.inCap) (hm : inByte s (a + c.size) = m) :
    seqFromCount c (some m) a lim s = seqFromCount c none a lim s := by
  refine ensure_bind_congr fun _ => ?_
  split_ifs
  · rfl
  · refine ensure_bind_congr fun hmodes => ensure_bind_congr fun _ => ?_
    have read : modesByte none (a + c.size) s = .ok m s := hm ▸ readIn_of_lt (by omega)
    rw [bind_of_ok read]
    rfl

/-- SEQ_DECODE over the whole input reads its count, then what follows it (R263, R264). -/
theorem exec_seqDecode_inLen (s : State) : exec (.seqDecode 0 (s.inLen.setWidth 32)) s =
    runCommand opcSeqDecode seqDecodeSet (inputEnd >>= fun lim => seqStart >>= fun _ => readSeqCount 0 lim >>= fun c =>
      seqFromCount c none 0 lim >>= fun _ => setResNbSeq) s := by
  refine runCommand_congr ((checkRegion_inLen_bind _ s).trans ?_)
  rw [arg_inLen, seqDecode]
  simp only [bind_assoc]
  rfl

theorem exec_seqcnt_eq (hcap : s.inLen.toNat ≤ Config.inCap) (hwf : i.WellFormed = true)
    (henc : encode i = .element .seqcnt bs) (hbytes : inBytes s 0 bs) :
    exec i s = exec (.seqDecode 0 (s.inLen.setWidth 32)) s := by
  obtain ⟨n, size, hcount⟩ := countOf_of_encode henc
  have count : countAt (seqStarted s) 0 n size := ⟨i, bs, hwf, hcount, henc, hbytes⟩
  rw [exec_seqcnt hwf hcount, exec_seqDecode_inLen]
  refine runCommand_congr (show (seqFromCount ⟨size, n⟩ none 0 s.inLen.toNat >>= fun _ => setResNbSeq) (seqStarted s) =
    (readSeqCount 0 s.inLen.toNat >>= fun c => seqFromCount c none 0 s.inLen.toNat >>= fun _ => setResNbSeq) (seqStarted s)
    from ?_)
  rw [readSeqCount_bind_of_countAt count hcap]
  exact (seqFromCount_bind_checked ⟨size, n⟩ none _ _).symm

theorem exec_modes_eq (hcap : s.inLen.toNat ≤ Config.inCap) (henc : encode i = .element .modes [m])
    (hcount : countAt s 0 n size) (hm : inByte s size = m) : exec i s = exec (.seqDecode 0 (s.inLen.setWidth 32)) s := by
  have row : exec i s = runModes m s := by
    cases i <;> cases henc
    rfl
  rw [row, exec_seqDecode_inLen]
  refine runCommand_congr (show (readSeqCount 0 s.inLen.toNat >>= fun c => seqFromCount c (some m) 0 s.inLen.toNat >>= fun _ =>
    setResNbSeq) (seqStarted s) = (readSeqCount 0 s.inLen.toNat >>= fun c => seqFromCount c none 0 s.inLen.toNat >>= fun _ =>
    setResNbSeq) (seqStarted s) from ?_)
  have count : countAt (seqStarted s) 0 n size := hcount
  rw [readSeqCount_bind_of_countAt count hcap, readSeqCount_bind_of_countAt count hcap]
  exact ensure_bind_congr fun _ => bind_congr_first
    (seqFromCount_some hcap (hm ▸ congrArg (inByte s) (Nat.zero_add size)))

end Sys2Proof.Machine

/-- Settles O54: the parser finds the row's element in IN and goes on as the row does, to the same error where the limit cuts
the element. -/
theorem elementRowsRunTheirParser : Obligations.ElementRowsRunTheirParser := fun _ _ hcap hwf =>
  ⟨fun _ henc hbytes => exec_lithdr_eq hcap henc hbytes, fun _ henc hbytes => exec_hufhdr_eq hcap henc hbytes,
    fun _ henc hbytes => exec_seqcnt_eq hcap hwf henc hbytes, fun _ _ _ henc hcount hm => exec_modes_eq hcap henc hcount hm⟩
end
